-- ==== Sys2Proof/Word.lean ====
section
/-! DEFINITION. The words the HCE moves: 32-bit bus and container words, 64-bit counters, bytes, symbols, node
indices and bit strings (00_scope.md rules R9, R10, R12). -/

namespace Sys2Proof

/-- A 32-bit register, bus or command word (10_state.md rule R20). -/
abbrev Word := BitVec 32

/-- A 64-bit quantity held in a register pair: RESULT, the bit counters, PLAN_SAVED, a node frequency (rule R8). -/
abbrev DWord := BitVec 64

/-- One byte of raw data, WORD_WIDTH = 8 bits (rule R6). -/
abbrev Byte := BitVec 8

/-- A byte offset in the HCE's register space, 0x0000..0xFFFF (20_memory.md rule R50). -/
abbrev Offset := BitVec 16

/-- "Symbol is an integer in 0..256" (rule R12); 256 is the pseudo-EOF. -/
abbrev Symbol := Fin 257

/-- "Node is a node-store index in 0..NODE_CAP-1" (rule R12). -/
abbrev NodeIx := Fin 513

/-- A bit string, in the order its bits enter or leave a stream (rule R10). -/
abbrev Bits := List Bool

end Sys2Proof
end

