-- ==== Sys2Proof/Syntax.lean ====
section
/-! DEFINITION. The twelve commands of 30_encoding.md rule R74, one constructor per row of the opcode table. -/

namespace Sys2Proof

/-- The two header formats, "{CountsFormat, TreeFormat}" (00_scope.md rule R12): COUNTS is encoded 0, TREE 1. -/
inductive Fmt where
  | counts
  | tree
  deriving DecidableEq, Repr

/-- A command of the HCE (30_encoding.md rule R74). -/
inductive Instr where
  /-- ESTIMATE: build the Compression Plan (46_compressor.md rule R141). -/
  | estimate (fmt : Fmt)
  /-- COMPRESS: write the container of the planned input (rule R144). -/
  | compress (force : Bool)
  /-- DECOMPRESS: decode one container (47_decompressor.md rule R152). -/
  | decompress
  /-- FT_COUNT: count one input stream (42_frequency.md rule R108). -/
  | ftCount
  /-- TB_BUILD: build the tree from FREQ (43_tree.md rule R120). -/
  | tbBuild
  /-- CT_GEN: generate the code table (44_codetable.md rule R127). -/
  | ctGen
  /-- HDR_WRITE: write the plan's preamble and header (45_header.md rule R137). -/
  | hdrWrite
  /-- HDR_READ: read a preamble and header (rule R138). -/
  | hdrRead
  /-- BS_WRITE: write one field (41_bitstream.md rule R95). -/
  | bsWrite (width : BitVec 6)
  /-- BS_CLOSE: flush and end the output stream (rule R96). -/
  | bsClose
  /-- BS_READ: read one field (rule R97). -/
  | bsRead (width : BitVec 6)
  /-- BS_RRESET: release the input stream (rule R98). -/
  | bsRreset
  deriving DecidableEq, Repr

end Sys2Proof
end

