-- ==== Sys2Proof/WellFormed.lean ====
section
/-! DEFINITION. Which commands a command word can stand for: WIDTH is in 1..32 (30_encoding.md rule R73). -/

namespace Sys2Proof

/-- "Its legal values are 1..32 ... WIDTH = 0 and WIDTH = 33..63 are reserved" (rule R73). -/
def widthLegal (width : BitVec 6) : Bool :=
  1 ≤ width.toNat && width.toNat ≤ 32

/-- A command whose operands are legal (rules R73, R76). FMT and FORCE have no reserved value in `Instr`. -/
def Instr.WellFormed : Instr → Bool
  | .estimate _ => true
  | .compress _ => true
  | .decompress => true
  | .ftCount => true
  | .tbBuild => true
  | .ctGen => true
  | .hdrWrite => true
  | .hdrRead => true
  | .bsWrite width => widthLegal width
  | .bsClose => true
  | .bsRead width => widthLegal width
  | .bsRreset => true

end Sys2Proof
end

