-- ==== Sys2Proof/Decode.lean ====
section
/-! DEFINITION. Command words: the match and mask rows of 30_encoding.md rule R74, the decoder (total, rejecting by
name, rule R76), the encoder written from the same rows, and the mnemonic lines of rule R79. -/

namespace Sys2Proof

/-- The operation a row of rule R74 selects. -/
inductive Opcode where
  | estimate | compress | decompress
  | ftCount | tbBuild | ctGen | hdrWrite | hdrRead
  | bsWrite | bsClose | bsRead | bsRreset
  deriving DecidableEq, Repr

/-- Why a command word is illegal (rule R76). -/
inductive Reject where
  /-- No row of rule R74 selects the word: an OP outside the map, a reserved bit set, FMT = 2 or 3, or an operand
  field that the opcode does not use is not zero. -/
  | noRow
  /-- BS_WRITE or BS_READ with WIDTH = 0 or WIDTH = 33..63. -/
  | width
  deriving DecidableEq, Repr

/-- A row of the match and mask table of rule R74: a word `w` selects it when `w AND mask = match`. -/
structure Row where
  mnemonic  : String
  op        : Opcode
  matchBits : Word
  mask      : Word
  deriving DecidableEq, Repr

/-- The match and mask table of rule R74. -/
def rows : List Row :=
  [ ⟨"ESTIMATE",   .estimate,   0x00000001#32, 0xFFFFFEFF#32⟩,
    ⟨"COMPRESS",   .compress,   0x00000002#32, 0xFFFFFBFF#32⟩,
    ⟨"DECOMPRESS", .decompress, 0x00000003#32, 0xFFFFFFFF#32⟩,
    ⟨"FT_COUNT",   .ftCount,    0x00000010#32, 0xFFFFFFFF#32⟩,
    ⟨"TB_BUILD",   .tbBuild,    0x00000011#32, 0xFFFFFFFF#32⟩,
    ⟨"CT_GEN",     .ctGen,      0x00000012#32, 0xFFFFFFFF#32⟩,
    ⟨"HDR_WRITE",  .hdrWrite,   0x00000013#32, 0xFFFFFFFF#32⟩,
    ⟨"HDR_READ",   .hdrRead,    0x00000014#32, 0xFFFFFFFF#32⟩,
    ⟨"BS_WRITE",   .bsWrite,    0x00000020#32, 0xFFC0FFFF#32⟩,
    ⟨"BS_CLOSE",   .bsClose,    0x00000021#32, 0xFFFFFFFF#32⟩,
    ⟨"BS_READ",    .bsRead,     0x00000022#32, 0xFFC0FFFF#32⟩,
    ⟨"BS_RRESET",  .bsRreset,   0x00000023#32, 0xFFFFFFFF#32⟩ ]

/-- A word selects a row when `w AND mask = match` (rule R74). -/
def Row.selects (r : Row) (w : Word) : Bool := w &&& r.mask == r.matchBits

/-- FMT, of which the ESTIMATE row leaves bit 8 free (rules R70, R74): 0 = COUNTS, 1 = TREE. -/
def fmtField (w : Word) : Fmt := if w.getLsbD 8 then .tree else .counts

/-- FORCE, bit 10 (rule R70). -/
def forceField (w : Word) : Bool := w.getLsbD 10

/-- WIDTH, bits 21:16 (rule R70). -/
def widthField (w : Word) : BitVec 6 := w.extractLsb' 16 6

/-- The command a selected row stands for, with its operands taken "unsigned and unextended" (rule R75). -/
def buildInstr (op : Opcode) (w : Word) : Except Reject Instr :=
  match op with
  | .estimate => .ok (.estimate (fmtField w))
  | .compress => .ok (.compress (forceField w))
  | .decompress => .ok .decompress
  | .ftCount => .ok .ftCount
  | .tbBuild => .ok .tbBuild
  | .ctGen => .ok .ctGen
  | .hdrWrite => .ok .hdrWrite
  | .hdrRead => .ok .hdrRead
  | .bsWrite => if widthLegal (widthField w) then .ok (.bsWrite (widthField w)) else .error .width
  | .bsClose => .ok .bsClose
  | .bsRead => if widthLegal (widthField w) then .ok (.bsRead (widthField w)) else .error .width
  | .bsRreset => .ok .bsRreset

/-- The decoder: "a word is legal when exactly one row of rule R74 selects it and, for BS_WRITE and BS_READ, WIDTH is
in 1..32" (rule R76). -/
def decode (w : Word) : Except Reject Instr :=
  match rows.find? (fun r => r.selects w) with
  | none => .error .noRow
  | some r => buildInstr r.op w

/-- `legal(c)` of rule R78. -/
def legal (w : Word) : Bool :=
  match decode w with
  | .ok _ => true
  | .error _ => false

/-- The value of the FMT field (rule R70): 0 = COUNTS, 1 = TREE, in bits 9:8. -/
def Fmt.code : Fmt → Word
  | .counts => 0#32
  | .tree => 1#32

/-- The encoder: the word of a command, by rule R74's opcode map and rule R70's field positions. -/
def encode : Instr → Word
  | .estimate fmt => 0x00000001#32 ||| (fmt.code <<< 8)
  | .compress force => 0x00000002#32 ||| ((BitVec.ofBool force).setWidth 32 <<< 10)
  | .decompress => 0x00000003#32
  | .ftCount => 0x00000010#32
  | .tbBuild => 0x00000011#32
  | .ctGen => 0x00000012#32
  | .hdrWrite => 0x00000013#32
  | .hdrRead => 0x00000014#32
  | .bsWrite width => 0x00000020#32 ||| (width.setWidth 32 <<< 16)
  | .bsClose => 0x00000021#32
  | .bsRead width => 0x00000022#32 ||| (width.setWidth 32 <<< 16)
  | .bsRreset => 0x00000023#32

/-- The host's question: the command the decoder reads from the low `nbits` bits of `w`, the bits above them 0. A
command is one 32-bit word, so the table's bit n is bit n of the word. -/
def decodeTableWord (nbits w : Nat) : Option Instr :=
  match decode (BitVec.ofNat 32 (w % 2 ^ nbits)) with
  | .ok i => some i
  | .error _ => none

/-- The line of a command in the assembler notation of rule R79; `value` is BS_WRITE's operand, which travels in ARG. -/
def asmLine (i : Instr) (value : Word) : String :=
  match i with
  | .estimate .counts => "ESTIMATE COUNTS"
  | .estimate .tree => "ESTIMATE TREE"
  | .compress false => "COMPRESS"
  | .compress true => "COMPRESS FORCE"
  | .decompress => "DECOMPRESS"
  | .ftCount => "FT_COUNT"
  | .tbBuild => "TB_BUILD"
  | .ctGen => "CT_GEN"
  | .hdrWrite => "HDR_WRITE"
  | .hdrRead => "HDR_READ"
  | .bsWrite width => "BS_WRITE " ++ toString width.toNat ++ ", " ++ toString value.toNat
  | .bsClose => "BS_CLOSE"
  | .bsRead width => "BS_READ " ++ toString width.toNat
  | .bsRreset => "BS_RRESET"

end Sys2Proof
end

