-- ==== Sys2Proof/Machine/Bits.lean ====
section
/-! DEFINITION. Bit strings and their values (00_scope.md rules R9, R10; 20_memory.md rule R57). -/

namespace Sys2Proof.Machine

/-- `bin_N(v)`: the N-bit string of v, most significant bit first (rule R10). Bits of v above bit N-1 are ignored. -/
def binN : Nat → Nat → Bits
  | 0, _ => []
  | k + 1, v => v.testBit k :: binN k v

/-- A bit as a number. -/
def bitValue (b : Bool) : Nat := if b then 1 else 0

/-- The unsigned value of a bit string, its first bit most significant (rule R93). -/
def valueOf (bs : Bits) : Nat := bs.foldl (fun acc b => 2 * acc + bitValue b) 0

/-- A bit string followed by as many "0" as fill it up to `n` bits (41_bitstream.md rule R89). -/
def padTo (n : Nat) (bs : Bits) : Bits := bs ++ List.replicate (n - bs.length) false

/-- The byte whose bit 7 is the string's first bit, the missing bits 0 (20_memory.md rule R57). -/
def byteOf (bs : Bits) : Byte := BitVec.ofNat 8 (valueOf (padTo 8 bs))

/-- `bin_8(b)`, the bits of a byte in stream order (rule R57). -/
def bitsOfByte (b : Byte) : Bits := binN 8 b.toNat

/-- Word `w` of a code as the host reads it: bit k of the code is at word k div 32, bit position 31 - (k mod 32), and
positions past the code read 0 (10_state.md rule R42). -/
def codeWord (bs : Bits) (w : Nat) : Word :=
  BitVec.ofNat 32 (valueOf (padTo 32 ((bs.drop (32 * w)).take 32)))

end Sys2Proof.Machine
end

