-- ==== Sys2Proof/Config.lean ====
section
/-! DEFINITION. What is fixed for one HCE: the parameters of 00_scope.md rules R6 and R8, the defaults of rule R7,
and the values the spec leaves open (each an opaque constant: no proof can see what it is). -/

namespace Sys2Proof.Config

/-- ALPH_SIZE: the number of real symbols (rule R6). -/
def alphSize : Nat := 256

/-- PSEUDO_EOF: the sentinel symbol (rule R6). -/
def pseudoEof : Symbol := 256

/-- WORD_WIDTH: bits of a raw symbol (rule R6). -/
def wordWidth : Nat := 8

/-- SYM_WIDTH: bits of a symbol field in a serialized tree (rule R6). -/
def symWidth : Nat := 9

/-- INT_WIDTH: bits of an integer field of the container (rule R6). -/
def intWidth : Nat := 32

/-- PEOF_FREQ: the hardwired frequency of the pseudo-EOF (rule R8, D2). -/
def peofFreq : Word := 1#32

/-- NODE_CAP: the capacity of the node store (rule R8). -/
def nodeCap : Nat := 513

/-- MAX_CODE_LEN: the depth of the deepest leaf of a full tree of 257 leaves (rule R8). -/
def maxCodeLen : Nat := 256

/-- The preamble, MAGIC and FORMAT, is 64 bits (46_compressor.md rule R140). -/
def preambleBits : Nat := 64

/-- The ID register's constant, "HCE1" (10_state.md rule R21). -/
def idValue : Word := 0x48434531#32

/-- The default of the parameter MAGIC (rule R7). Only `State.reset` uses it; every state carries its own value. -/
def defaultMagic : Word := 0xFACE8200#32

/-- The default of SEL_COUNTS (rule R7). -/
def defaultSelCounts : Word := 21#32

/-- The default of SEL_TREE (rule R7). -/
def defaultSelTree : Word := 22#32

/-- HCE_BASE, "left to the platform" (20_memory.md rule R66): a named parameter without a value. -/
opaque hceBase : Nat

/-- A FREE VALUE: what a host read of a register or table window returns while BUSY = 1, and what the fields of
STATUS other than BUSY, DONE and OVR show then (20_memory.md rule R61, I7, I8). Applied to the draw counter of State. -/
opaque freeRead : Nat → Word

/-- A FREE VALUE: a 64-bit counter or RESULT whose mathematical value lies outside its number format, which rule R9
leaves unstated (notes/assumptions/11.md and 12.md). -/
opaque freeCount : Nat → DWord

/-- A FREE VALUE: whether the sink kept the token offered to it at the moment of reset (70_reset_and_hazards.md rule
R176, I9). -/
opaque sinkKept : Nat → Bool

end Sys2Proof.Config
end

