-- ==== Sys2Proof/Machine/State.lean ====
section
/-! DEFINITION. The state of the HCE: everything 10_state.md names, the two ports and the outside world's pending
actions, as plain data; the state after reset; the reasons a step can stop. -/

namespace Sys2Proof.Machine

/-- The parameters MAGIC, SEL_COUNTS and SEL_TREE (00_scope.md rule R7), readable as the CFG registers (10_state.md
rule R40). No step and no reset changes them (70_reset_and_hazards.md rule R175). -/
structure Params where
  magic     : Word
  selCounts : Word
  selTree   : Word
  deriving DecidableEq, Repr

/-- The error codes of STATUS.ERR (60_exceptions.md rule R157). -/
inductive ErrCode where
  | none
  | invalidMagic
  | unknownHeaderFormat
  | corruptStream
  | illegalUsage
  | ioError
  | malformedHeader
  | countOverflow
  | illegalCommand
  deriving DecidableEq, Repr

/-- The hidden phase (10_state.md rule R44). -/
inductive Phase where
  | idle
  | count
  | build
  | codegen
  | cost
  | encodeBody
  | hdrWrite
  | validateMagic
  | readHeader
  | decodeBody
  | bitio
  deriving DecidableEq, Repr

/-- A token of the IN port (20_memory.md rules R54, R55). -/
inductive InToken where
  | byte (b : Byte)
  | eos
  | error
  deriving DecidableEq, Repr

/-- A token of the OUT port (rules R54, R56). -/
inductive OutToken where
  | byte (b : Byte)
  | eos
  | abort
  deriving DecidableEq, Repr

/-- The sink's answer to an offered token (rule R56). -/
inductive Answer where
  | ok
  | fail
  deriving DecidableEq, Repr

/-- One entry of the code table: CODE_VALID and CODE, a bit string whose length is CODE_LEN (10_state.md rule R42). -/
structure Code where
  valid : Bool
  bits  : Bits
  deriving DecidableEq, Repr

/-- One node of the node store (rule R43): KIND (1 = Leaf), SYM, NFREQ, LEFT and RIGHT. -/
structure Node where
  leaf  : Bool
  sym   : Symbol
  nfreq : DWord
  left  : NodeIx
  right : NodeIx
  deriving DecidableEq, Repr

/-- A node all of whose fields are 0 (rule R43). -/
def Node.zero : Node := ⟨false, 0, 0#64, 0, 0⟩

/-- The node store with NODE_COUNT, 0..513, and ROOT (rules R39, R43). -/
structure NodeStore where
  nodes : Vector Node 513
  count : Fin 514
  root  : NodeIx
  deriving DecidableEq, Repr

/-- The cleared node store: every field 0, NODE_COUNT = 0, ROOT = 0 (rule R43). -/
def NodeStore.empty : NodeStore := ⟨Vector.replicate 513 Node.zero, 0, 0⟩

/-- The bit writer: W_CLOSED, WBUF (oldest first; W_PEND is its length) and WBITS (41_bitstream.md rule R85). -/
structure Writer where
  closed : Bool
  buf    : Bits
  bits   : DWord
  deriving DecidableEq, Repr

/-- The bit reader: R_EXH, RBUF (oldest first; R_BUF is its length) and RBITS (rule R91). -/
structure Reader where
  exh  : Bool
  buf  : Bits
  bits : DWord
  deriving DecidableEq, Repr

/-- An entry `(key, seq, node)` of the tree builder's priority queue (10_state.md rule R46). -/
structure PqEntry where
  key  : Nat
  seq  : Nat
  node : NodeIx
  deriving DecidableEq, Repr

/-- Which child of an internal node a tree deserialization is in (43_tree.md rule R118). -/
inductive Side where
  | left
  | right
  deriving DecidableEq, Repr

/-- A pending call of `DeserNode`: the internal node it belongs to and the child it waits for. The traversal stack of
10_state.md rule R47 is a list of these, the innermost first. -/
structure Frame where
  node : NodeIx
  side : Side
  deriving DecidableEq, Repr

/-- What RESULT is written with when a command ends (30_encoding.md rule R74). -/
inductive ResultSource where
  /-- RESULT <- ORIG_BITS (FT_COUNT). -/
  | origBits
  /-- RESULT <- BODY_BITS (CT_GEN). -/
  | bodyBits
  /-- RESULT <- WBITS (COMPRESS, DECOMPRESS). -/
  | wbits
  /-- RESULT <- WBITS - w0 (HDR_WRITE). -/
  | wbitsSinceMark
  /-- RESULT <- RBITS - r0 (HDR_READ). -/
  | rbitsSinceMark
  deriving DecidableEq, Repr

/-- A step of a command's pseudocode that is still to run. The list of them is the engine's place in the running
command, "the step the current command is in" (10_state.md rule R44), kept as data so that the engine can hold at a
port (20_memory.md rule R62) and go on from there. A step that holds leaves in its place what remains of it. -/
inductive Work where
  /-- phase <- BITIO (41_bitstream.md rules R95 to R98). -/
  | bitio
  /-- `ClearCodes()`, `ClearTree()`, `ClearAll()` (42_frequency.md rule R105). -/
  | clearCodes
  | clearTree
  | clearAll
  /-- `RReset()` (41_bitstream.md rule R94). -/
  | rReset
  /-- `WEnsureOpen()` (rule R88). -/
  | ensureOpen
  /-- The part of `WOpen()` after its `WClose()` (rule R88). -/
  | openStream
  /-- `WClose()` (rule R89). -/
  | closeStream
  /-- An `OutPush(Byte(b))` that the sink has not answered (rules R86, R89). -/
  | offer (b : Byte)
  /-- `WClose`'s `OutPush(End)`, not answered (rule R89). -/
  | offerEnd
  /-- `WAbort`'s `OutPush(Abort)`, not answered, in a termination with this error (rule R90, R160). -/
  | abort (e : ErrCode)
  /-- Bits handed to the writer that it has not taken yet (rule R87). -/
  | emit (bits : Bits)
  /-- `WriteBits(WIDTH, LARG)` of BS_WRITE (rule R95). -/
  | writeField (width : BitVec 6)
  /-- `ReadBits(WIDTH)` of BS_READ and its RESULT (rule R97). -/
  | readField (width : BitVec 6)
  /-- `CountStream()` with `n` bytes counted so far (42_frequency.md rule R106). -/
  | count (n : Nat)
  /-- TB_BUILD's `BuildTree()` and its RESULT (43_tree.md rule R120). -/
  | build
  /-- CT_GEN's precondition (44_codetable.md rule R127). -/
  | needTree
  /-- `GenCodes()` and the BODY_BITS sum (rules R125, R126). -/
  | genCodes
  /-- ESTIMATE after `CountStream`: tree, codes, cost, plan (46_compressor.md rule R141). -/
  | plan (fmt : Fmt)
  /-- The precondition of COMPRESS and HDR_WRITE (46_compressor.md rule R144, 45_header.md rule R137). -/
  | needPlan
  /-- COMPRESS's soft refusal (46_compressor.md rule R143). -/
  | gate (force : Bool)
  /-- `w0 <- WBITS` (45_header.md rule R137). -/
  | markW
  /-- `r0 <- RBITS` (rule R138). -/
  | markR
  /-- `HeaderWrite(PLAN_FMT)` (rule R133). -/
  | headerWrite
  /-- `EncodeBody()` from its next token (46_compressor.md rule R145). -/
  | encodeBody
  /-- `HeaderRead()` from its magic field (45_header.md rule R134). -/
  | magic
  /-- `HeaderRead()` from its selector field (rule R134). -/
  | selector
  /-- `ReadCountsHeader()` with this many count fields left (rule R135). -/
  | countFields (left : Nat)
  /-- `ReadTreeHeader()` from its length field (rule R136). -/
  | treeLen
  /-- `DeserNode()` at a node position (43_tree.md rule R118). -/
  | treeNode
  /-- `DeserNode()` at the symbol field of the leaf `i` (rule R118). -/
  | treeSym (i : NodeIx)
  /-- The declared bits the tree did not use (rule R119). -/
  | treeSpare
  /-- phase <- DECODE_BODY; CUR <- ROOT (47_decompressor.md rule R151). -/
  | decodeStart
  /-- CUR <- ROOT, after a decoded byte was written (rule R151). -/
  | rewind
  /-- `DecodeBody()`'s loop (rule R151). -/
  | decodeBody
  /-- The RESULT of a command that ends without an error (30_encoding.md rule R78). -/
  | result (r : ResultSource)
  deriving DecidableEq, Repr

/-- The sink on the OUT port (20_memory.md rule R56): the answers it will give to the next tokens, what it answers
once that list is used up (`none`: it does not answer, and the engine holds), and the tokens it has answered, oldest
first, each with its answer (00_scope.md rule R14). -/
structure Sink where
  script : List Answer
  rest   : Option Answer
  taken  : List (OutToken × Answer)
  deriving DecidableEq, Repr

/-- A host bus access: a read or a write of `size` bytes at an offset (20_memory.md rules R51, R52). -/
inductive Access where
  | read (off : Offset) (size : Nat)
  | write (off : Offset) (size : Nat) (v : Word)
  deriving DecidableEq, Repr

/-- What the HCE answers to a host bus access: the data of a read, the completion of a write, or the bus error of
20_memory.md rule R52. -/
inductive Reply where
  | data (v : Word)
  | written
  | busError
  deriving DecidableEq, Repr

/-- An action of the outside world (00_scope.md rule R13): the host's bus accesses, the source, the sink, the reset
input, and the time the engine gets (70_reset_and_hazards.md rule R184). -/
inductive Event where
  /-- A host read of `size` bytes (20_memory.md rules R51, R52). -/
  | busRead (off : Offset) (size : Nat)
  /-- A host write of `size` bytes. -/
  | busWrite (off : Offset) (size : Nat) (v : Word)
  /-- `WAIT`: read STATUS until BUSY reads 0 (30_encoding.md rule R81). -/
  | wait
  /-- The source places tokens on IN (rule R81). -/
  | place (ts : List InToken)
  /-- The host removes the oldest `n` unread tokens from IN (20_memory.md rule R62). -/
  | discard (n : Nat)
  /-- The sink settles its next answers (rule R56). -/
  | answers (script : List Answer)
  /-- The sink settles what it answers after its script. -/
  | sinkRest (rest : Option Answer)
  /-- The reset input is asserted (`true`) or released (70_reset_and_hazards.md rule R175). -/
  | reset (asserted : Bool)
  /-- The engine gets no time (`true`), or gets time again: a command takes "an unbounded but finite number of steps"
  (rule R184), so host accesses may land while it runs. -/
  | stall (on : Bool)
  deriving DecidableEq, Repr

/-- The whole state: the HCE's own (10_state.md), its ports, and the outside world's pending actions. -/
structure State where
  /-- CFG_MAGIC, CFG_SEL_COUNTS, CFG_SEL_TREE (R40). -/
  cfg : Params
  /-- CMD_LAST (R22). -/
  cmdLast : Word
  /-- STATUS.BUSY (R24). -/
  busy : Bool
  /-- STATUS.DONE (R25). -/
  done : Bool
  /-- STATUS.OVR (R26). -/
  ovr : Bool
  /-- STATUS.ERR (R27). -/
  err : ErrCode
  /-- STATUS.PLAN_VALID (R28). -/
  planValid : Bool
  /-- STATUS.PLAN_FMT (R28). -/
  planFmt : Fmt
  /-- STATUS.TREE_VALID (R29). -/
  treeValid : Bool
  /-- STATUS.CODES_VALID (R29). -/
  codesValid : Bool
  /-- ARG (R32). -/
  arg : Word
  /-- RESULT (R33). -/
  result : DWord
  /-- ORIG_BITS (R36). -/
  origBits : DWord
  /-- BODY_BITS (R37). -/
  bodyBits : DWord
  /-- PLAN_SAVED (R38). -/
  planSaved : DWord
  /-- FREQ[0..255] (R41); FREQ[256] is hardwired and has no storage. -/
  freq : Vector Word 256
  /-- The code table (R42). -/
  codes : Vector Code 257
  /-- The node store, NODE_COUNT and ROOT (R39, R43). -/
  store : NodeStore
  /-- W_CLOSED, WBUF, WBITS (R30, R34, R45). -/
  writer : Writer
  /-- R_EXH, RBUF, RBITS (R31, R35, R45). -/
  reader : Reader
  /-- The phase (R44). -/
  phase : Phase
  /-- PQ (R46). -/
  pq : List PqEntry
  /-- SEQ (R46). -/
  seq : Nat
  /-- LCMD (R47). -/
  lcmd : Word
  /-- LARG (R47). -/
  larg : Word
  /-- The traversal stack (R47). -/
  stack : List Frame
  /-- BUDGET (R47). -/
  budget : Nat
  /-- CUR (R47). -/
  cur : NodeIx
  /-- The model's own: the steps of the running command still to run (R44). -/
  work : List Work
  /-- The model's own: the running command is COMPRESS or DECOMPRESS after its `WOpen` (R160). -/
  opened : Bool
  /-- The model's own: the local `w0` or `r0` of the running HDR_WRITE or HDR_READ (R137, R138). -/
  mark : DWord
  /-- The reset input is asserted (R175). -/
  inReset : Bool
  /-- The tokens on IN, oldest first (R55). -/
  inq : List InToken
  /-- The IN tokens the engine has popped so far, oldest first (R14). -/
  popped : List InToken
  /-- The sink on OUT (R56). -/
  sink : Sink
  /-- The outside world's pending actions, the next one first (R13, R81). -/
  events : List Event
  /-- The host's bus accesses so far, oldest first, each with the HCE's answer (R14). -/
  accesses : List (Access × Reply)
  /-- The engine gets no time at present (R184). -/
  stalled : Bool
  /-- The model's own: the number of free values drawn so far. -/
  draws : Nat
  deriving DecidableEq, Repr

/-- A reason the machine stops. -/
inductive Fault where
  /-- A walk of the node store went deeper than MAX_CODE_LEN (44_codetable.md rule R125, 43_tree.md rule R116): the
  store is no tree. Raised by the walks of CT_GEN, ESTIMATE, HDR_WRITE and COMPRESS. No state a run reaches has it,
  and the spec gives such a walk no end. Safe: the model stops. -/
  | treeTooDeep
  /-- `DecodeBody` made more passes than the bits on its stream allow (47_decompressor.md rule R153): the root is a
  leaf of a real symbol, which `DeserializeTree` rejects. Raised by DECOMPRESS's body loop. No state a run reaches
  has it. Safe: the model stops where the hardware would write without end. -/
  | decodeEndless
  deriving DecidableEq, Repr

/-- A reason the model gives an instruction no meaning. -/
inductive Refusal where
  /-- The instruction has no meaning in the model yet. Raised by no arm of `exec` at present. Safe: the model stops. -/
  | notModelled (mnemonic : String)
  deriving DecidableEq, Repr

/-- The state right after reset (10_state.md rule R49), with the default parameters (00_scope.md rule R7) and, outside
the HCE, empty ports, no pending action and a sink that answers `ok` (notes/assumptions/3.md, 4.md, 5.md). -/
def State.reset : State where
  cfg := ⟨Config.defaultMagic, Config.defaultSelCounts, Config.defaultSelTree⟩
  cmdLast := 0#32
  busy := false
  done := false
  ovr := false
  err := .none
  planValid := false
  planFmt := .counts
  treeValid := false
  codesValid := false
  arg := 0#32
  result := 0#64
  origBits := 0#64
  bodyBits := 0#64
  planSaved := 0#64
  freq := Vector.replicate 256 0#32
  codes := Vector.replicate 257 ⟨false, []⟩
  store := NodeStore.empty
  writer := ⟨true, [], 0#64⟩
  reader := ⟨false, [], 0#64⟩
  phase := .idle
  pq := []
  seq := 0
  lcmd := 0#32
  larg := 0#32
  stack := []
  budget := 0
  cur := 0
  work := []
  opened := false
  mark := 0#64
  inReset := false
  inq := []
  popped := []
  sink := ⟨[], some .ok, []⟩
  events := []
  accesses := []
  stalled := false
  draws := 0

end Sys2Proof.Machine
end

