-- ==== Sys2Proof/Machine/Operands.lean ====
section
/-! DEFINITION. The operand forms of the commands: FMT, FORCE and WIDTH of the latched word, the value operand LARG,
and the values RESULT can be written with (30_encoding.md rules R72 to R75). -/

namespace Sys2Proof.Machine

/-- BS_WRITE's operand: the low WIDTH bits of LARG, most significant first; LARG[31:WIDTH] is ignored (rule R75). -/
def fieldBits (width : BitVec 6) (larg : Word) : Bits := binN width.toNat larg.toNat

/-- The header format of the plan as the FMT operand has it: 0 = COUNTS, 1 = TREE (rule R72). -/
def fmtBit : Fmt → Bool
  | .counts => false
  | .tree => true

/-- The integer RESULT is written with at a command's success end (rule R74). -/
def ResultSource.value (r : ResultSource) (s : State) : Int :=
  match r with
  | .origBits => s.origBits.toNat
  | .bodyBits => s.bodyBits.toNat
  | .wbits => s.writer.bits.toNat
  | .wbitsSinceMark => (s.writer.bits.toNat : Int) - s.mark.toNat
  | .rbitsSinceMark => (s.reader.bits.toNat : Int) - s.mark.toNat

end Sys2Proof.Machine
end

