-- ==== Sys2Proof/Machine/Flags.lean ====
section
/-! DEFINITION. The STATUS register: its word from the fields of State, the error codes, what a read of it shows while
a command runs, and the number formats of the counters (10_state.md rules R23 to R31, 60_exceptions.md rule R157). -/

namespace Sys2Proof.Machine

/-- The number of an error code (60_exceptions.md rule R157). -/
def ErrCode.code : ErrCode → BitVec 4
  | .none => 0#4
  | .invalidMagic => 1#4
  | .unknownHeaderFormat => 2#4
  | .corruptStream => 3#4
  | .illegalUsage => 4#4
  | .ioError => 5#4
  | .malformedHeader => 6#4
  | .countOverflow => 7#4
  | .illegalCommand => 8#4

/-- W_PEND (rule R30). -/
def State.wPend (s : State) : BitVec 3 := BitVec.ofNat 3 s.writer.buf.length

/-- R_BUF (rule R31). -/
def State.rBuf (s : State) : BitVec 3 := BitVec.ofNat 3 s.reader.buf.length

/-- The word of STATUS, its fields from bit 31 down to bit 0 (rule R23). -/
def State.statusWord (s : State) : Word :=
  0#12 ++ s.rBuf ++ BitVec.ofBool s.reader.exh ++ s.wPend ++ BitVec.ofBool s.writer.closed ++
  BitVec.ofBool s.codesValid ++ BitVec.ofBool s.treeValid ++ BitVec.ofBool (fmtBit s.planFmt) ++
  BitVec.ofBool s.planValid ++ s.err.code ++ 0#1 ++ BitVec.ofBool s.ovr ++ BitVec.ofBool s.done ++
  BitVec.ofBool s.busy

/-- What a read of STATUS shows while BUSY = 1: BUSY, DONE and OVR are definite, the reserved bits read 0, and every
other field is a free draw, since it is "as of some moment of the command" and "a model may take any value"
(20_memory.md rule R61, I8). -/
def State.statusWhileBusy (s : State) (draw : Word) : Word :=
  (s.statusWord &&& 0x00000007#32) ||| (draw &&& 0x000FFFF0#32)

/-- A count of bits raised by `k`: exact while it fits its u64 register; a free value past that, where the spec states
no value (00_scope.md rule R9, notes/assumptions/11.md). -/
def raiseCount (c : DWord) (k draw : Nat) : DWord :=
  if c.toNat + k < 2 ^ 64 then BitVec.ofNat 64 (c.toNat + k) else Config.freeCount draw

/-- The draws `raiseCount` makes. -/
def raiseDraws (c : DWord) (k draw : Nat) : Nat :=
  if c.toNat + k < 2 ^ 64 then draw else draw + 1

/-- An integer fits s64 (rule R8, RESULT_WIDTH). -/
def fitsS64 (v : Int) : Bool := -(2 ^ 63) ≤ v && v < 2 ^ 63

/-- An integer as an s64 register value; a free value outside the range (notes/assumptions/12.md). -/
def toS64 (v : Int) (draw : Nat) : DWord := if fitsS64 v then BitVec.ofInt 64 v else Config.freeCount draw

/-- The draws `toS64` makes. -/
def s64Draws (v : Int) (draw : Nat) : Nat := if fitsS64 v then draw else draw + 1

end Sys2Proof.Machine
end

