-- ==== Sys2Proof/Machine/Ops.lean ====
section
/-! DEFINITION. The shared operations: the tables' entries, the two ports, the bit writer and reader of 41_bitstream.md,
the ways a run of a command's steps can end, and the two ways a command ends: the success end of 30_encoding.md rule
R78 and the termination of 60_exceptions.md rule R160, which is the HCE's whole taking of an exception. -/

namespace Sys2Proof.Machine

/-! ## Tables -/

/-- FREQ[s]; entry 256 is hardwired to PEOF_FREQ (10_state.md rule R41). -/
def State.freqAt (s : State) (y : Symbol) : Word :=
  if h : y.val < 256 then s.freq[y.val] else Config.peofFreq

/-- FREQ[b] <- v for a real symbol (rule R41). -/
def State.setFreq (s : State) (b : Byte) (v : Word) : State :=
  { s with freq := s.freq.set b.toNat v b.isLt }

/-- The entry of the code table of symbol y (rule R42). -/
def State.codeAt (s : State) (y : Symbol) : Code := s.codes[y.val]

/-- A byte value as a symbol (00_scope.md rule R12). -/
def symbolOfByte (b : Byte) : Symbol := ⟨b.toNat, Nat.lt_succ_of_lt b.isLt⟩

/-- The node at an index (rule R43). -/
def NodeStore.node (st : NodeStore) (i : NodeIx) : Node := st.nodes[i.val]

/-- Writes the node at an index (rule R43). -/
def NodeStore.put (st : NodeStore) (i : NodeIx) (n : Node) : NodeStore :=
  { st with nodes := st.nodes.set i.val n i.isLt }

/-- `i <- NODE_COUNT; NODE_COUNT <- NODE_COUNT + 1`; `none` when NODE_COUNT = NODE_CAP (43_tree.md rules R115, R118). -/
def NodeStore.alloc (st : NodeStore) : Option (NodeIx × NodeStore) :=
  if h : st.count.val < 513 then
    some (⟨st.count.val, h⟩, { st with count := ⟨st.count.val + 1, Nat.succ_lt_succ h⟩ })
  else none

/-! ## How a run of steps ends -/

/-- How running steps of a command ends: all of them ran; the command ends here without an error; `raise e`; the
engine holds at a port, with what is left of the step; or the machine stops. -/
inductive Run where
  | done (s : State)
  | ended (s : State)
  | raised (e : ErrCode) (s : State)
  | held (s : State) (left : List Work)
  | stuck (f : Fault)
  deriving DecidableEq, Repr

/-- Run `next` after a run that ended `done`. A hold keeps `later` as the steps that follow it. -/
def Run.andThen (r : Run) (later : List Work) (next : State → Run) : Run :=
  match r with
  | .done s => next s
  | .ended s => .ended s
  | .raised e s => .raised e s
  | .held s left => .held s (left ++ later)
  | .stuck f => .stuck f

/-! ## The OUT port -/

/-- What offering a token to the sink gives: its answer, or none yet (20_memory.md rule R56). -/
inductive Pushed where
  | answered (a : Answer) (s : State)
  | waiting
  deriving DecidableEq, Repr

/-- The sink's next answer: the next one of its script, else what it answers after it. -/
def Sink.next (k : Sink) : Option Answer :=
  match k.script with
  | a :: _ => some a
  | [] => k.rest

/-- The sink after it has answered `a` to `t`. -/
def Sink.record (k : Sink) (t : OutToken) (a : Answer) : Sink :=
  { k with script := k.script.tail, taken := k.taken ++ [(t, a)] }

/-- `OutPush(t)`: "offers t to the sink and holds until the sink answers" (rule R56). -/
def State.push (s : State) (t : OutToken) : Pushed :=
  match s.sink.next with
  | some a => .answered a { s with sink := s.sink.record t a }
  | none => .waiting

/-! ## The bit writer (41_bitstream.md section 1) -/

/-- `OutPush(Byte(b))` of `WPushBit` and `WClose`: a `fail` closes the writer and raises IO_ERROR (rules R86, R89). -/
def offerByte (b : Byte) (s : State) : Run :=
  match s.push (.byte b) with
  | .answered .ok s' => .done s'
  | .answered .fail s' => .raised .ioError { s' with writer := { s'.writer with closed := true } }
  | .waiting => .held s [.offer b]

/-- The first two lines of `WPushBit(b)`: WBUF <- WBUF ++ b; WBITS <- WBITS + 1 (rule R86). -/
def State.pushBit (s : State) (b : Bool) : State :=
  { s with
    writer := { s.writer with
      buf := s.writer.buf ++ [b]
      bits := raiseCount s.writer.bits 1 s.draws }
    draws := raiseDraws s.writer.bits 1 s.draws }

/-- WBUF <- "" (rules R86, R89, R90). -/
def State.dropWbuf (s : State) : State := { s with writer := { s.writer with buf := [] } }

/-- `WPushBit` of each bit in order (rules R86, R87): a full byte leaves through OUT. -/
def emit : Bits → State → Run
  | [], s => .done s
  | b :: bs, s =>
    let s₁ := s.pushBit b
    if s₁.writer.buf.length = 8 then
      (offerByte (byteOf s₁.writer.buf) s₁.dropWbuf).andThen [.emit bs] (emit bs)
    else emit bs s₁

/-- The part of `WOpen` and `WEnsureOpen` that opens a stream: W_CLOSED <- 0; WBUF <- ""; WBITS <- 0 (rule R88). -/
def State.startStream (s : State) : State := { s with writer := ⟨false, [], 0#64⟩ }

/-- `WEnsureOpen()` (rule R88). -/
def State.ensureOpen (s : State) : State := if s.writer.closed then s.startStream else s

/-- `OutPush(End)`, with W_CLOSED already 1; a `fail` raises IO_ERROR (rule R89). -/
def offerEnd (s : State) : Run :=
  match s.push .eos with
  | .answered .ok s' => .done s'
  | .answered .fail s' => .raised .ioError s'
  | .waiting => .held s [.offerEnd]

/-- The last two lines of `WClose()`: W_CLOSED <- 1, then the `End` (rule R89). -/
def endStream (s : State) : Run := offerEnd { s with writer := { s.writer with closed := true } }

/-- `WClose()`: pad and push the partial byte, close, push `End`; nothing when already closed (rule R89). -/
def closeStream (s : State) : Run :=
  if s.writer.closed then .done s
  else if s.writer.buf = [] then endStream s
  else (offerByte (byteOf s.writer.buf) s.dropWbuf).andThen [.closeStream] endStream

/-! ## The IN port and the bit reader (41_bitstream.md section 2) -/

/-- What pulling tokens until `w` bits are buffered gives: the buffer and the tokens left (rules R92, R93). -/
inductive Filled where
  | enough (buf : Bits) (left : List InToken)
  | ended (left : List InToken)
  | failed (left : List InToken)
  | empty (buf : Bits)
  deriving DecidableEq, Repr

/-- The loop `while |RBUF| < w: RPull()` of `ReadBits` over the tokens on IN (rules R92, R93). -/
def fill (w : Nat) : List InToken → Bits → Filled
  | [], buf => if buf.length < w then .empty buf else .enough buf []
  | t :: ts, buf =>
    if buf.length < w then
      match t with
      | .byte b => fill w ts (buf ++ bitsOfByte b)
      | .eos => .ended ts
      | .error => .failed ts
    else .enough buf (t :: ts)

/-- What `ReadBits(w)` gives: a value, SENTINEL, an IO_ERROR to raise, or a hold on an empty IN. -/
inductive ReadResult where
  | got (v : Nat) (s : State)
  | sentinel (s : State)
  | failed (s : State)
  | waiting (s : State)
  deriving DecidableEq, Repr

/-- The reader after it has taken the `End` or `Error` that ends its stream: RBUF <- ""; R_EXH <- 1 (rule R92). -/
def State.exhaust (s : State) (left : List InToken) : State :=
  { s with inq := left, reader := { s.reader with exh := true, buf := [] } }

/-- The reader after `w` bits of `buf` were returned (rule R93). -/
def State.takeBits (s : State) (w : Nat) (buf : Bits) (left : List InToken) : State :=
  { s with
    inq := left
    reader := { s.reader with buf := buf.drop w, bits := raiseCount s.reader.bits w s.draws }
    draws := raiseDraws s.reader.bits w s.draws }

/-- `ReadBits(w)` (rule R93). -/
def State.readBits (s : State) (w : Nat) : ReadResult :=
  if s.reader.exh then .sentinel s
  else
    match fill w s.inq s.reader.buf with
    | .enough buf left => .got (valueOf (buf.take w)) (s.takeBits w buf left)
    | .ended left => .sentinel (s.exhaust left)
    | .failed left => .failed (s.exhaust left)
    | .empty buf => .waiting { s with inq := [], reader := { s.reader with buf := buf } }

/-- Goes on with a `ReadBits`: an `Error` token raises IO_ERROR before anything the caller makes of SENTINEL
(60_exceptions.md rule R164), and an empty IN holds with `later` as what remains. -/
def ReadResult.andThen (r : ReadResult) (later : List Work) (onSentinel : State → Run)
    (next : Nat → State → Run) : Run :=
  match r with
  | .got v s => next v s
  | .sentinel s => onSentinel s
  | .failed s => .raised .ioError s
  | .waiting s => .held s later

/-- `RReset()`: pops nothing (rule R94). -/
def State.resetReader (s : State) : State := { s with reader := ⟨false, [], 0#64⟩ }

/-! ## How a command ends -/

/-- RESULT <- v (10_state.md rule R33). -/
def State.setResult (s : State) (v : Int) : State :=
  { s with result := toS64 v s.draws, draws := s64Draws v s.draws }

/-- The engine idle, with no step left to run (30_encoding.md rule R78, 60_exceptions.md rule R160). -/
def State.toIdle (s : State) : State :=
  { s with busy := false, done := true, phase := .idle, work := [], opened := false }

/-- A command's success end: STATUS.BUSY <- 0; STATUS.DONE <- 1; phase <- IDLE (30_encoding.md rule R78). -/
def State.succeed (s : State) : State := s.toIdle

/-- The last two lines of `Terminate(E)`: the error code, the hidden registers, BUSY and DONE (rule R160). -/
def State.finishError (s : State) (e : ErrCode) : State :=
  { s with err := e, pq := [], seq := 0, budget := 0, cur := 0, stack := [] }.toIdle

/-- `Terminate(E)`, "the HCE's whole trap entry" (60_exceptions.md rule R160): RESULT <- 0; after the `WOpen` of
COMPRESS or DECOMPRESS `WAbort()`, which discards the partial byte, closes the writer and pushes `Abort` whatever the
sink answers (41_bitstream.md rule R90), holding until it does (20_memory.md rule R56); then the error code and the
end of the command. There is no vector, saved program counter or mode change, and no return from it (rule R167). -/
def State.terminate (s : State) (e : ErrCode) : State :=
  let s₁ := { s with result := 0#64 }
  if s₁.opened && !s₁.writer.closed then
    let s₂ := { s₁ with writer := { s₁.writer with closed := true, buf := [] } }
    match s₂.push .abort with
    | .answered _ s₃ => s₃.finishError e
    | .waiting => { s₂ with work := [.abort e] }
  else s₁.finishError e

/-- Going on with a termination whose `Abort` the sink has not answered yet (rules R90, R160). -/
def resumeAbort (e : ErrCode) (s : State) : Run :=
  match s.push .abort with
  | .answered _ s' => .raised e s'
  | .waiting => .held s [.abort e]

end Sys2Proof.Machine
end

