-- ==== Sys2Proof/Machine/FrequencyOps.lean ====
section
/-! DEFINITION. Table clearing and the counting loop (42_frequency.md rules R105, R106). -/

namespace Sys2Proof.Machine

/-- A code-table entry with no code (rule R105). -/
def Code.none : Code := ⟨false, []⟩

/-- `ClearCodes()` (rule R105). -/
def State.clearCodes (s : State) : State :=
  { s with planValid := false, codesValid := false, codes := Vector.replicate 257 Code.none }

/-- `ClearTree()` (rule R105). -/
def State.clearTree (s : State) : State :=
  { s.clearCodes with treeValid := false, store := NodeStore.empty }

/-- `ClearAll()`; FREQ[256] is hardwired (rule R105). -/
def State.clearAll (s : State) : State :=
  { s.clearTree with freq := Vector.replicate 256 0#32 }

/-- FREQ[b] <- FREQ[b] + 1, its token popped (rule R106). -/
def State.countByte (s : State) (b : Byte) (left : List InToken) : State :=
  { s.setFreq b (s.freq[b.toNat] + 1#32) with inq := left }

/-- `CountStream()`'s loop over the tokens on IN, with `n` bytes counted so far (rule R106): a count of 2^32 - 1 that
meets another occurrence raises COUNT_OVERFLOW with the byte popped; `End` writes ORIG_BITS <- 8 * n. -/
def countLoop : List InToken → Nat → State → Run
  | [], n, s => .held { s with inq := [] } [.count n]
  | .byte b :: ts, n, s =>
    if s.freq[b.toNat] = 0xFFFFFFFF#32 then .raised .countOverflow { s with inq := ts }
    else countLoop ts (n + 1) (s.countByte b ts)
  | .eos :: ts, n, s => .done { s with inq := ts, origBits := BitVec.ofNat 64 (8 * n) }
  | .error :: ts, _, s => .raised .ioError { s with inq := ts }

/-- `CountStream()` (rule R106). -/
def countStream (n : Nat) (s : State) : Run := countLoop s.inq n { s with phase := .count }

end Sys2Proof.Machine
end

