-- ==== Sys2Proof/Machine/TreeOps.lean ====
section
/-! DEFINITION. The stable priority queue, the tree build, the serialized form and its deserialization (43_tree.md
sections 1 to 3). -/

namespace Sys2Proof.Machine

/-! ## Building -/

/-- What a build works on: the node store, PQ and SEQ (rule R110). -/
structure Builder where
  store : NodeStore
  pq    : List PqEntry
  seq   : Nat
  deriving DecidableEq, Repr

/-- The order of the queue: "key first, then seq" (rule R110). -/
def PqEntry.before (a b : PqEntry) : Bool := a.key < b.key || (a.key == b.key && a.seq < b.seq)

/-- The least of an entry and a list of entries (rule R110). -/
def least (e : PqEntry) (es : List PqEntry) : PqEntry :=
  es.foldl (fun m x => if x.before m then x else m) e

/-- `PQInsert(node, key)` (rule R110). -/
def Builder.insert (b : Builder) (node : NodeIx) (key : Nat) : Builder :=
  { b with pq := b.pq ++ [⟨key, b.seq, node⟩], seq := b.seq + 1 }

/-- `PQRemoveMin()`: the entry with the least (key, seq); `none` on an empty queue (rule R110). -/
def Builder.removeMin (b : Builder) : Option (PqEntry × Builder) :=
  match b.pq with
  | [] => none
  | e :: es => some (least e es, { b with pq := (e :: es).erase (least e es) })

/-- Insert the leaf of a symbol with a positive frequency (rules R111, R115). -/
def Builder.addLeaf (b : Builder) (y : Symbol) (f : Word) : Builder :=
  match b.store.alloc with
  | some (i, st) =>
    ({ b with store := st.put i ⟨true, y, f.setWidth 64, 0, 0⟩ } : Builder).insert i f.toNat
  | none => b

/-- The leaves of a table of symbols and frequencies, in the table's order (rules R111, R115). -/
def addLeaves (table : List (Symbol × Word)) (b : Builder) : Builder :=
  table.foldl (fun b e => if e.2 = 0#32 then b else b.addLeaf e.1 e.2) b

/-- One merge: the two lowest-ordered nodes become the left and the right child of a new internal node, which is
reinserted (rules R112, R115). -/
def Builder.merge (b : Builder) : Builder :=
  match b.removeMin with
  | none => b
  | some (x, b₁) =>
    match b₁.removeMin with
    | none => b
    | some (y, b₂) =>
      match b₂.store.alloc with
      | none => b
      | some (i, st) =>
        ({ b₂ with store := st.put i ⟨false, 0, BitVec.ofNat 64 (x.key + y.key), x.node, y.node⟩ } : Builder).insert i
          (x.key + y.key)

/-- `n` merges; a queue of n + 1 entries has one left after them (rule R115). -/
def mergeAll : Nat → Builder → Builder
  | 0, b => b
  | n + 1, b => mergeAll n b.merge

/-- ROOT <- the last entry of the queue (rule R115). -/
def Builder.finish (b : Builder) : Builder :=
  match b.removeMin with
  | some (e, b') => { b' with store := { b'.store with root := e.node } }
  | none => b

/-- All symbols in insertion order, "ascending symbol value 0..255 then pseudo-EOF" (rule R111). -/
def symbols : List Symbol := List.finRange 257

/-- FREQ as a list of symbols and frequencies in insertion order: FREQ[0..255], then the hardwired FREQ[256]
(10_state.md rule R41, 43_tree.md rule R111). -/
def State.freqTable (s : State) : List (Symbol × Word) := symbols.zip (s.freq.toList ++ [Config.peofFreq])

/-- L, the number of symbols with a positive frequency (rule R113). -/
def State.leafCount (s : State) : Nat := s.freqTable.countP fun e => e.2 != 0#32

/-- The builder after the leaves were inserted into a store, PQ empty and SEQ = 0 (rule R115). -/
def State.leavesBuilder (s : State) : Builder := addLeaves s.freqTable ⟨s.store, [], 0⟩

/-- `BuildTree()`; it returns L, `leafCount` (rule R115). -/
def State.buildTree (s : State) : State :=
  let b := (mergeAll (s.leavesBuilder.pq.length - 1) s.leavesBuilder).finish
  { s with phase := .build, store := b.store, pq := b.pq, seq := b.seq, treeValid := true }

/-! ## Serialized form -/

/-- `Ser(i)` (rule R116), for a node with at most `depth` levels below and with it; `none` when the walk goes deeper. -/
def ser : Nat → NodeStore → NodeIx → Option Bits
  | 0, _, _ => none
  | depth + 1, st, i =>
    if (st.node i).leaf then some (true :: binN Config.symWidth (st.node i).sym.val)
    else
      match ser depth st (st.node i).left, ser depth st (st.node i).right with
      | some l, some r => some (false :: (l ++ r))
      | _, _ => none

/-- `Ser(ROOT)`; a tree's depth is at most MAX_CODE_LEN (rules R113, R116). -/
def NodeStore.serialized (st : NodeStore) : Option Bits := ser (Config.maxCodeLen + 1) st st.root

/-! ## Deserialization -/

/-- What is left to do after the node `j` of a position is complete: write it to the parent that waits for it and go on
with the parent's right child, or finish the parents it completes (rule R118). The last component is the root, once
the tree is complete. -/
def unwind : NodeIx → List Frame → NodeStore → NodeStore × List Frame × Option NodeIx
  | j, [], st => (st, [], some j)
  | j, ⟨i, .left⟩ :: fs, st => (st.put i { st.node i with left := j }, ⟨i, .right⟩ :: fs, none)
  | j, ⟨i, .right⟩ :: fs, st => unwind i fs (st.put i { st.node i with right := j })

/-- BUDGET <- BUDGET - n (rule R118). -/
def State.spend (s : State) (n : Nat) : State := { s with budget := s.budget - n }

/-- The checks that end `DeserializeTree` (rule R119): a lone leaf of a real symbol is malformed. -/
def rootCheck (s : State) : Run :=
  if (s.store.node s.store.root).leaf && (s.store.node s.store.root).sym != Config.pseudoEof then
    .raised .malformedHeader s
  else .done { s with treeValid := true }

/-- The declared bits the tree did not use are read and dropped, BUDGET of them (rule R119). -/
def spareLoop : Nat → State → Run
  | 0, s => rootCheck s
  | n + 1, s =>
    (s.readBits 1).andThen [.treeSpare] (.raised .malformedHeader) fun _ s' => spareLoop n (s'.spend 1)

/-- The node `j` of a position is complete: `next` at the next position, or the end of the tree (rules R118, R119). -/
def nodeDone (j : NodeIx) (s : State) (next : State → Run) : Run :=
  match unwind j s.stack s.store with
  | (st, fs, none) => next { s with store := st, stack := fs }
  | (st, fs, some r) => spareLoop s.budget { s with store := { st with root := r }, stack := fs }

/-- The symbol field of the leaf `i` (rule R118). -/
def leafSymbol (i : NodeIx) (s : State) (next : State → Run) : Run :=
  (s.readBits Config.symWidth).andThen [.treeSym i] (.raised .malformedHeader) fun y s' =>
    let s₁ := s'.spend Config.symWidth
    if h : y < 257 then
      nodeDone i { s₁ with store := s₁.store.put i { s₁.store.node i with leaf := true, sym := ⟨y, h⟩ } } next
    else .raised .malformedHeader s₁

/-- A freshly allocated node: NFREQ <- 0, and a leaf's symbol or an internal node's children to read (rule R118). -/
def newNode (isLeaf : Bool) (i : NodeIx) (s : State) (next : State → Run) : Run :=
  if isLeaf then
    let s₁ := { s with store := s.store.put i { s.store.node i with nfreq := 0#64 } }
    if s₁.budget < Config.symWidth then .raised .malformedHeader s₁ else leafSymbol i s₁ next
  else
    next { s with
      store := s.store.put i { s.store.node i with nfreq := 0#64, leaf := false }
      stack := ⟨i, .left⟩ :: s.stack }

/-- `DeserNode()` at each node position in pre-order, with room for `room` more nodes (rule R118). Every pass takes a
node of the store, so NODE_CAP - NODE_COUNT passes and the one that finds the store full are all there can be. -/
def treeLoop : Nat → State → Run
  | 0, s =>
    if s.budget = 0 then .raised .malformedHeader s
    else
      (s.readBits 1).andThen [.treeNode] (.raised .malformedHeader) fun _ s' => .raised .malformedHeader (s'.spend 1)
  | room + 1, s =>
    if s.budget = 0 then .raised .malformedHeader s
    else
      (s.readBits 1).andThen [.treeNode] (.raised .malformedHeader) fun b s' =>
        match (s'.spend 1).store.alloc with
        | some (i, st) => newNode (b == 1) i { s'.spend 1 with store := st } (treeLoop room)
        | none => .raised .malformedHeader (s'.spend 1)

/-- The nodes the store has room for (rule R118). -/
def State.room (s : State) : Nat := Config.nodeCap - s.store.count.val

/-- `DeserNode()` from a node position on (rules R118, R119). -/
def treeFrom (s : State) : Run := treeLoop s.room s

/-- `DeserNode()` from the symbol field of the leaf `i` on (rules R118, R119). -/
def treeSymFrom (i : NodeIx) (s : State) : Run := leafSymbol i s treeFrom

/-- `DeserializeTree(n)` (rule R119). -/
def deserializeTree (n : Nat) (s : State) : Run := treeFrom { s with budget := n, stack := [] }

end Sys2Proof.Machine
end

