-- ==== Sys2Proof/Machine/CodeTableOps.lean ====
section
/-! DEFINITION. Code generation and the BODY_BITS sum (44_codetable.md rules R125, R126). -/

namespace Sys2Proof.Machine

/-- The code table as `Visit` builds it. -/
abbrev Codes := Vector Code 257

/-- `Visit(i, p)` (rule R125), for a node with at most `depth` levels below and with it: pre-order, left subtree first,
so of several leaves of a symbol the one visited last sets its code. `none` when the walk goes deeper. -/
def visit : Nat → NodeStore → NodeIx → Bits → Codes → Option Codes
  | 0, _, _, _, _ => none
  | depth + 1, st, i, p, cs =>
    if (st.node i).leaf then some (cs.set (st.node i).sym.val ⟨true, p⟩)
    else
      match visit depth st (st.node i).left (p ++ [false]) cs with
      | some cs' => visit depth st (st.node i).right (p ++ [true]) cs'
      | none => none

/-- The code table of the tree in a node store, over a table `cs`; a path has at most MAX_CODE_LEN bits (rule R125). -/
def NodeStore.codesOver (st : NodeStore) (cs : Codes) : Option Codes :=
  visit (Config.maxCodeLen + 1) st st.root [] cs

/-- `sum over s in 0..256 of FREQ[s] * CODE_LEN[s]`, below 2^49 and exact (rule R126). -/
def State.bodySum (s : State) : Nat :=
  (s.freqTable.zipWith (fun e c => e.2.toNat * c.bits.length) s.codes.toList).sum

/-- `GenCodes()`, then BODY_BITS (rules R125 to R127). -/
def genCodes (s : State) : Run :=
  match s.store.codesOver s.codes with
  | none => .stuck .treeTooDeep
  | some cs =>
    let s₁ := { s with phase := .codegen, codes := cs, codesValid := true }
    .done { s₁ with bodyBits := BitVec.ofNat 64 s₁.bodySum }

end Sys2Proof.Machine
end

