-- ==== Sys2Proof/Machine/HeaderOps.lean ====
section
/-! DEFINITION. Writing and reading the preamble and the two header formats (45_header.md rules R130 to R136). -/

namespace Sys2Proof.Machine

/-- The CountsFormat header: FREQ[0] to FREQ[255], 32 bits each (rule R131). -/
def State.countsBits (s : State) : Bits := s.freq.toList.flatMap fun f => binN Config.intWidth f.toNat

/-- The preamble and header bits of a format (rules R131 to R133); `none` when the node store is no tree. -/
def State.headerBits (s : State) (fmt : Fmt) : Option Bits :=
  match fmt with
  | .counts =>
    some (binN Config.intWidth s.cfg.magic.toNat ++ binN Config.intWidth s.cfg.selCounts.toNat ++ s.countsBits)
  | .tree =>
    match s.store.serialized with
    | none => none
    | some t =>
      some (binN Config.intWidth s.cfg.magic.toNat ++ binN Config.intWidth s.cfg.selTree.toNat ++
        binN Config.intWidth t.length ++ t)

/-- `HeaderWrite(fmt)` (rule R133). The header is serialized as a whole string, as rule R116 writes `Ser(ROOT)`, before
its first bit is taken: a hold at OUT keeps the bits not yet taken in `State.work`, and the traversal stack of
serialization (10_state.md rule R47) is empty then (DESIGN CHOICE, notes/assumptions/28.md). -/
def headerWrite (fmt : Fmt) (s : State) : Run :=
  match s.headerBits fmt with
  | none => .stuck .treeTooDeep
  | some bits => emit bits { s with phase := .hdrWrite }

/-- FREQ[256 - left] <- c, with `left` count fields still to read, this one among them (rule R135). -/
def State.setCount (s : State) (left : Nat) (c : Nat) : State :=
  s.setFreq (BitVec.ofNat 8 (256 - left)) (BitVec.ofNat 32 c)

/-- `ReadCountsHeader()` with `left` count fields still to read, then `BuildTree()` (rule R135). -/
def countFields : Nat → State → Run
  | 0, s => .done s.buildTree
  | n + 1, s =>
    (s.readBits Config.intWidth).andThen [.countFields (n + 1)] (.raised .malformedHeader) fun c s' =>
      countFields n (s'.setCount (n + 1) c)

/-- `ReadTreeHeader()` (rule R136). -/
def treeHeader (s : State) : Run :=
  (s.readBits Config.intWidth).andThen [.treeLen] (.raised .malformedHeader) deserializeTree

/-- `HeaderRead()` from the selector field on (rule R134). -/
def readSelector (s : State) : Run :=
  ({ s with phase := .readHeader }.readBits Config.intWidth).andThen [.selector] (.raised .unknownHeaderFormat)
    fun f s' =>
      if f = s'.cfg.selCounts.toNat then countFields Config.alphSize s'
      else if f = s'.cfg.selTree.toNat then treeHeader s'
      else .raised .unknownHeaderFormat s'

/-- `HeaderRead()` (rule R134). -/
def readMagic (s : State) : Run :=
  ({ s with phase := .validateMagic }.readBits Config.intWidth).andThen [.magic] (.raised .invalidMagic)
    fun m s' => if m = s'.cfg.magic.toNat then readSelector s' else .raised .invalidMagic s'

end Sys2Proof.Machine
end

