-- ==== Sys2Proof/Machine/CompressorOps.lean ====
section
/-! DEFINITION. The cost formula, the plan and the body encoder (46_compressor.md rules R140, R141, R145). -/

namespace Sys2Proof.Machine

/-- `HeaderBits(fmt, L)` (rule R140). -/
def headerCost (fmt : Fmt) (leaves : Nat) : Nat :=
  match fmt with
  | .counts => 256 * 32
  | .tree => 32 + (11 * leaves - 1)

/-- `bitsSaved = ORIG_BITS - (HeaderBits(fmt, L) + BODY_BITS + 64)` (rule R140). -/
def State.bitsSaved (s : State) (fmt : Fmt) : Int :=
  (s.origBits.toNat : Int) - ((headerCost fmt s.leafCount + s.bodyBits.toNat + Config.preambleBits : Nat) : Int)

/-- ESTIMATE's last steps: PLAN_SAVED, PLAN_FMT, PLAN_VALID and RESULT (rule R141). -/
def State.makePlan (s : State) (fmt : Fmt) : State :=
  { s with
    phase := .cost
    planSaved := BitVec.ofInt 64 (s.bitsSaved fmt)
    planFmt := fmt
    planValid := true }.setResult (s.bitsSaved fmt)

/-- ESTIMATE after `CountStream`: `BuildTree`, `GenCodes`, the cost and the plan (rule R141). -/
def planStream (fmt : Fmt) (s : State) : Run :=
  (genCodes s.buildTree).andThen [] fun s' => .done (s'.makePlan fmt)

/-- `EncodeBody()`'s loop over the tokens on IN: each byte's code, and at `End` the pseudo-EOF code (rule R145). -/
def encodeLoop : List InToken → State → Run
  | [], s => .held { s with inq := [] } [.encodeBody]
  | .byte b :: ts, s =>
    let s₁ := { s with inq := ts }
    if (s.codeAt (symbolOfByte b)).valid then
      (emit (s.codeAt (symbolOfByte b)).bits s₁).andThen [.encodeBody] (encodeLoop ts)
    else .raised .illegalUsage s₁
  | .eos :: ts, s => emit (s.codeAt Config.pseudoEof).bits { s with inq := ts }
  | .error :: ts, s => .raised .ioError { s with inq := ts }

/-- `EncodeBody()` (rule R145). -/
def encodeBody (s : State) : Run := encodeLoop s.inq { s with phase := .encodeBody }

/-- The plan is refused: PLAN_SAVED < 0 and FORCE = 0 (rule R143). -/
def State.refuses (s : State) (force : Bool) : Bool := s.planSaved.toInt < 0 && !force

/-- COMPRESS's soft refusal: RESULT <- PLAN_SAVED and the command ends; else it goes ahead (rules R143, R144). -/
def gate (force : Bool) (s : State) : Run :=
  if s.refuses force then .ended (s.setResult s.planSaved.toInt) else .done s

end Sys2Proof.Machine
end

