-- ==== Sys2Proof/Machine/DecompressorOps.lean ====
section
/-! DEFINITION. The body decoder (47_decompressor.md rule R151). -/

namespace Sys2Proof.Machine

/-- phase <- DECODE_BODY; CUR <- ROOT (rule R151). -/
def State.startDecode (s : State) : State := { s with phase := .decodeBody, cur := s.store.root }

/-- CUR <- ROOT (rule R151). -/
def State.rewind (s : State) : State := { s with cur := s.store.root }

/-- CUR <- LEFT[CUR] or RIGHT[CUR], by the bit read (rule R151). -/
def State.descend (s : State) (b : Nat) : State :=
  { s with cur := if b = 0 then (s.store.node s.cur).left else (s.store.node s.cur).right }

/-- `DecodeBody()`'s loop, at most `passes` passes (rule R151): "the leaf test comes before each read". -/
def decodeLoop : Nat → State → Run
  | 0, _ => .stuck .decodeEndless
  | passes + 1, s =>
    if (s.store.node s.cur).leaf then
      if (s.store.node s.cur).sym = Config.pseudoEof then .done s
      else
        (emit (binN Config.wordWidth (s.store.node s.cur).sym.val) s).andThen [.rewind, .decodeBody] fun s' =>
          decodeLoop passes s'.rewind
    else
      (s.readBits 1).andThen [.decodeBody] (.raised .corruptStream) fun b s' => decodeLoop passes (s'.descend b)

/-- The bits the reader can still return without a new token on IN: those buffered and 8 for each token. -/
def State.bitsAhead (s : State) : Nat := s.reader.buf.length + 8 * s.inq.length

/-- `DecodeBody()`'s loop. Each pass reads a bit or, at a leaf, writes a byte and returns to the root, where the next
pass reads a bit or ends; so two passes a bit and two more are all there can be (rule R153). -/
def decodeBody (s : State) : Run := decodeLoop (2 * s.bitsAhead + 2) s

end Sys2Proof.Machine
end

