-- ==== Sys2Proof/Machine/Engine.lean ====
section
/-! DEFINITION. The engine: what each step of a command does, running a command's steps in order, starting a command
and going on with one that holds (10_state.md rule R44, 20_memory.md rules R60, R62, 70_reset_and_hazards.md rule R184). -/

namespace Sys2Proof.Machine

/-- A precondition check: ILLEGAL_USAGE "before any state change" (60_exceptions.md rule R161). -/
def need (ok : Bool) (s : State) : Run := if ok then .done s else .raised .illegalUsage s

/-- `v <- ReadBits(WIDTH)`, then RESULT <- -1 on SENTINEL, else zext_64(v) (41_bitstream.md rule R97). -/
def readField (width : BitVec 6) (s : State) : Run :=
  (s.readBits width.toNat).andThen [.readField width] (fun s' => .done (s'.setResult (-1)))
    fun v s' => .done (s'.setResult v)

/-- What one step of a command does. -/
def runWork (w : Work) (s : State) : Run :=
  match w with
  | .bitio => .done { s with phase := .bitio }
  | .clearCodes => .done s.clearCodes
  | .clearTree => .done s.clearTree
  | .clearAll => .done s.clearAll
  | .rReset => .done s.resetReader
  | .ensureOpen => .done s.ensureOpen
  | .openStream => .done { s.startStream with opened := true }
  | .closeStream => closeStream s
  | .offer b => offerByte b s
  | .offerEnd => offerEnd s
  | .abort e => resumeAbort e s
  | .emit bits => emit bits s
  | .writeField width => emit (fieldBits width s.larg) s
  | .readField width => readField width s
  | .count n => countStream n s
  | .build => .done (s.buildTree.setResult s.leafCount)
  | .needTree => need s.treeValid s
  | .genCodes => genCodes s
  | .plan fmt => planStream fmt s
  | .needPlan => need s.planValid s
  | .gate force => gate force s
  | .markW => .done { s with mark := s.writer.bits }
  | .markR => .done { s with mark := s.reader.bits }
  | .headerWrite => headerWrite s.planFmt s
  | .encodeBody => encodeBody s
  | .magic => readMagic s
  | .selector => readSelector s
  | .countFields left => countFields left s
  | .treeLen => treeHeader s
  | .treeNode => treeFrom s
  | .treeSym i => treeSymFrom i s
  | .treeSpare => spareLoop s.budget s
  | .decodeStart => .done s.startDecode
  | .rewind => .done s.rewind
  | .decodeBody => decodeBody s
  | .result r => .done (s.setResult (r.value s))

/-- The steps of a command in their order, until one raises, ends the command, holds or stops. -/
def runWorks : List Work → State → Run
  | [], s => .done s
  | w :: ws, s => (runWork w s).andThen ws (runWorks ws)

/-- The state a run of steps leaves: a command's end, by its success end or by `Terminate`, or a hold with BUSY = 1. -/
def Run.settle (r : Run) : Host.Outcome State Fault Refusal :=
  match r with
  | .done s => .next s.succeed
  | .ended s => .next s.succeed
  | .raised e s => .next (s.terminate e)
  | .held s left => .next { s with work := left }
  | .stuck f => .fault f

/-- Start a command whose pseudocode is `ws` and whose first phase is `p`: it runs to its end or to a hold at a port
(70_reset_and_hazards.md rule R184), or, while the engine gets no time, stands before its first step. -/
def launch (p : Phase) (ws : List Work) (s : State) : Host.Outcome State Fault Refusal :=
  let s₁ := { s with phase := p, opened := false }
  if s.stalled then .next { s₁ with work := ws } else (runWorks ws s₁).settle

/-- Go on with the running command, if one runs and the engine gets time (20_memory.md rule R62). -/
def resume (s : State) : Host.Outcome State Fault Refusal :=
  if s.busy && !s.stalled then (runWorks s.work s).settle else .next s

end Sys2Proof.Machine
end

