-- ==== Sys2Proof/Machine/BitStream.lean ====
section
/-! DEFINITION. BS_WRITE, BS_CLOSE, BS_READ, BS_RRESET (41_bitstream.md section 3). -/

namespace Sys2Proof.Machine

/-- BS_WRITE: write the low WIDTH bits of LARG to the output stream (rule R95). -/
def execBsWrite (width : BitVec 6) (s : State) : Host.Outcome State Fault Refusal :=
  launch .bitio [.bitio, .ensureOpen, .writeField width] s

/-- BS_CLOSE: flush and end the output stream (rule R96). -/
def execBsClose (s : State) : Host.Outcome State Fault Refusal :=
  launch .bitio [.bitio, .closeStream] s

/-- BS_READ: read one field from the input stream (rule R97). -/
def execBsRead (width : BitVec 6) (s : State) : Host.Outcome State Fault Refusal :=
  launch .bitio [.bitio, .readField width] s

/-- BS_RRESET: release the input stream (rule R98). -/
def execBsRreset (s : State) : Host.Outcome State Fault Refusal :=
  launch .bitio [.bitio, .rReset] s

end Sys2Proof.Machine
end

