-- ==== Sys2Proof/Machine/CodeTable.lean ====
section
/-! DEFINITION. CT_GEN (44_codetable.md rule R127). -/

namespace Sys2Proof.Machine

/-- CT_GEN: generate the code table of the tree in the node store (rule R127). -/
def execCtGen (s : State) : Host.Outcome State Fault Refusal :=
  launch .codegen [.needTree, .clearCodes, .genCodes, .result .bodyBits] s

end Sys2Proof.Machine
end

