-- ==== Sys2Proof/Machine/Compressor.lean ====
section
/-! DEFINITION. ESTIMATE and COMPRESS (46_compressor.md rules R141, R144). -/

namespace Sys2Proof.Machine

/-- ESTIMATE: build the Compression Plan for one input stream (rule R141). -/
def execEstimate (fmt : Fmt) (s : State) : Host.Outcome State Fault Refusal :=
  launch .count [.clearAll, .rReset, .count 0, .plan fmt] s

/-- COMPRESS: write the container for the planned input, or refuse softly (rules R143, R144). `closeStream` and
`openStream` are `WOpen()` (41_bitstream.md rule R88). -/
def execCompress (force : Bool) (s : State) : Host.Outcome State Fault Refusal :=
  launch .hdrWrite
    [.needPlan, .gate force, .rReset, .closeStream, .openStream, .headerWrite, .encodeBody, .closeStream,
      .result .wbits] s

end Sys2Proof.Machine
end

