-- ==== Sys2Proof/Machine/Decompressor.lean ====
section
/-! DEFINITION. DECOMPRESS (47_decompressor.md rule R152). -/

namespace Sys2Proof.Machine

/-- DECOMPRESS: decode one container from IN to OUT (rule R152). `closeStream` and `openStream` are `WOpen()`
(41_bitstream.md rule R88). -/
def execDecompress (s : State) : Host.Outcome State Fault Refusal :=
  launch .validateMagic
    [.clearAll, .rReset, .closeStream, .openStream, .magic, .decodeStart, .decodeBody, .closeStream, .result .wbits] s

end Sys2Proof.Machine
end

