-- ==== Sys2Proof/Machine/Frequency.lean ====
section
/-! DEFINITION. FT_COUNT (42_frequency.md rule R108). -/

namespace Sys2Proof.Machine

/-- FT_COUNT: count one input stream (rule R108). -/
def execFtCount (s : State) : Host.Outcome State Fault Refusal :=
  launch .count [.clearAll, .rReset, .count 0, .result .origBits] s

end Sys2Proof.Machine
end

