-- ==== Sys2Proof/Machine/Header.lean ====
section
/-! DEFINITION. HDR_WRITE and HDR_READ (45_header.md rules R137, R138). -/

namespace Sys2Proof.Machine

/-- HDR_WRITE: write the plan's preamble and header to the open stream (rule R137). -/
def execHdrWrite (s : State) : Host.Outcome State Fault Refusal :=
  launch .hdrWrite [.needPlan, .ensureOpen, .markW, .headerWrite, .result .wbitsSinceMark] s

/-- HDR_READ: read a preamble and header and rebuild the tree (rule R138). -/
def execHdrRead (s : State) : Host.Outcome State Fault Refusal :=
  launch .validateMagic [.clearAll, .markR, .magic, .result .rbitsSinceMark] s

end Sys2Proof.Machine
end

