-- ==== Sys2Proof/Machine/Tree.lean ====
section
/-! DEFINITION. TB_BUILD (43_tree.md rule R120). -/

namespace Sys2Proof.Machine

/-- TB_BUILD: build the tree from FREQ; RESULT <- the number of leaves (rule R120). -/
def execTbBuild (s : State) : Host.Outcome State Fault Refusal :=
  launch .build [.clearTree, .build] s

end Sys2Proof.Machine
end

