-- ==== Sys2Proof/Machine/Dispatch.lean ====
section
/-! DEFINITION. The dispatch of the twelve commands: one arm per constructor of `Instr`. -/

namespace Sys2Proof.Machine

/-- The rule of rule R74's row run for a command in the state that accepted its word (30_encoding.md rule R78). -/
def exec (i : Instr) (s : State) : Host.Outcome State Fault Refusal :=
  match i with
  | .estimate fmt => Sys2Proof.Machine.execEstimate fmt s
  | .compress force => Sys2Proof.Machine.execCompress force s
  | .decompress => Sys2Proof.Machine.execDecompress s
  | .ftCount => Sys2Proof.Machine.execFtCount s
  | .tbBuild => Sys2Proof.Machine.execTbBuild s
  | .ctGen => Sys2Proof.Machine.execCtGen s
  | .hdrWrite => Sys2Proof.Machine.execHdrWrite s
  | .hdrRead => Sys2Proof.Machine.execHdrRead s
  | .bsWrite width => Sys2Proof.Machine.execBsWrite width s
  | .bsClose => Sys2Proof.Machine.execBsClose s
  | .bsRead width => Sys2Proof.Machine.execBsRead width s
  | .bsRreset => Sys2Proof.Machine.execBsRreset s

end Sys2Proof.Machine
end

