-- ==== Sys2Proof/Machine/Bus.lean ====
section
/-! DEFINITION. The register space: which register an offset names, what a read returns, what a write does; accepting
and rejecting a command word; reset; and what each action of the outside world does (10_state.md rules R20 to R43,
20_memory.md rules R50 to R62, 30_encoding.md rule R78, 70_reset_and_hazards.md rules R175, R176). -/

namespace Sys2Proof.Machine

/-! ## The register map -/

/-- A register or table word of the register space (10_state.md rule R20). -/
inductive Reg where
  | id | cmd | status | arg
  | resultLo | resultHi | wbitsLo | wbitsHi | rbitsLo | rbitsHi
  | origLo | origHi | bodyLo | bodyHi | savedLo | savedHi
  | nodes | cfgMagic | cfgSelCounts | cfgSelTree
  | freq (y : Symbol)
  | codeLen (y : Symbol)
  | codeBits (y : Symbol) (w : Fin 8)
  | node (i : NodeIx) (k : Fin 4)
  | reserved
  deriving DecidableEq, Repr

/-- The registers below 0x050, one word each (rule R20). -/
def fixedRegs : List Reg :=
  [.id, .cmd, .status, .arg, .resultLo, .resultHi, .wbitsLo, .wbitsHi, .rbitsLo, .rbitsHi,
    .origLo, .origHi, .bodyLo, .bodyHi, .savedLo, .savedHi, .nodes, .cfgMagic, .cfgSelCounts, .cfgSelTree]

/-- The register at the aligned offset `4 * n`; every offset outside the map is reserved (rule R20). -/
def regAtWord (n : Nat) : Reg :=
  if n < 0x400 then (fixedRegs[n]?).getD .reserved
  else if n < 0x800 then
    if h : n - 0x400 < 257 then .freq ⟨n - 0x400, h⟩ else .reserved
  else if n < 0x1000 then
    if h : n - 0x800 < 257 then .codeLen ⟨n - 0x800, h⟩ else .reserved
  else if n < 0x2000 then
    if h : (n - 0x1000) / 8 < 257 then
      .codeBits ⟨(n - 0x1000) / 8, h⟩ ⟨(n - 0x1000) % 8, Nat.mod_lt _ (by decide)⟩
    else .reserved
  else
    if h : (n - 0x2000) / 4 < 513 then
      .node ⟨(n - 0x2000) / 4, h⟩ ⟨(n - 0x2000) % 4, Nat.mod_lt _ (by decide)⟩
    else .reserved

/-- The register an offset names (rule R20). -/
def regAt (off : Offset) : Reg := regAtWord (off.toNat / 4)

/-- The offset of a register (rule R20). -/
def Reg.offset : Reg → Option Offset
  | .id => some 0x000#16
  | .cmd => some 0x004#16
  | .status => some 0x008#16
  | .arg => some 0x00C#16
  | .resultLo => some 0x010#16
  | .resultHi => some 0x014#16
  | .wbitsLo => some 0x018#16
  | .wbitsHi => some 0x01C#16
  | .rbitsLo => some 0x020#16
  | .rbitsHi => some 0x024#16
  | .origLo => some 0x028#16
  | .origHi => some 0x02C#16
  | .bodyLo => some 0x030#16
  | .bodyHi => some 0x034#16
  | .savedLo => some 0x038#16
  | .savedHi => some 0x03C#16
  | .nodes => some 0x040#16
  | .cfgMagic => some 0x044#16
  | .cfgSelCounts => some 0x048#16
  | .cfgSelTree => some 0x04C#16
  | .freq y => some (BitVec.ofNat 16 (0x1000 + 4 * y.val))
  | .codeLen y => some (BitVec.ofNat 16 (0x2000 + 4 * y.val))
  | .codeBits y w => some (BitVec.ofNat 16 (0x4000 + 32 * y.val + 4 * w.val))
  | .node i k => some (BitVec.ofNat 16 (0x8000 + 16 * i.val + 4 * k.val))
  | .reserved => none

/-- The low half of a 64-bit quantity (rule R20). -/
def loWord (d : DWord) : Word := d.extractLsb' 0 32

/-- The high half of a 64-bit quantity (rule R20). -/
def hiWord (d : DWord) : Word := d.extractLsb' 32 32

/-- The word of NODES: NODE_COUNT in bits 9:0, ROOT in bits 25:16 (rule R39). -/
def NodeStore.nodesWord (st : NodeStore) : Word :=
  0#6 ++ BitVec.ofNat 10 st.root.val ++ 0#6 ++ BitVec.ofNat 10 st.count.val

/-- The word of CODE_LEN[s]: CODE_VALID in bit 31, the length in bits 8:0 (rule R42). -/
def Code.lenWord (c : Code) : Word := BitVec.ofBool c.valid ++ 0#22 ++ BitVec.ofNat 9 c.bits.length

/-- Word `k` of a node (rule R43): SYM reads 0 for an internal node, LEFT and RIGHT read 0 for a leaf. -/
def Node.word (n : Node) (k : Fin 4) : Word :=
  match k with
  | 0 => BitVec.ofBool n.leaf ++ 0#22 ++ (if n.leaf then BitVec.ofNat 9 n.sym.val else 0#9)
  | 1 => loWord n.nfreq
  | 2 => hiWord n.nfreq
  | 3 => if n.leaf then 0#32 else 0#6 ++ BitVec.ofNat 10 n.right.val ++ 0#6 ++ BitVec.ofNat 10 n.left.val

/-- The value of a register (10_state.md); a reserved offset reads 0 (20_memory.md rule R53), and so does a node at an
index of NODE_COUNT or more (10_state.md rule R43). -/
def State.reg (s : State) (r : Reg) : Word :=
  match r with
  | .id => Config.idValue
  | .cmd => s.cmdLast
  | .status => s.statusWord
  | .arg => s.arg
  | .resultLo => loWord s.result
  | .resultHi => hiWord s.result
  | .wbitsLo => loWord s.writer.bits
  | .wbitsHi => hiWord s.writer.bits
  | .rbitsLo => loWord s.reader.bits
  | .rbitsHi => hiWord s.reader.bits
  | .origLo => loWord s.origBits
  | .origHi => hiWord s.origBits
  | .bodyLo => loWord s.bodyBits
  | .bodyHi => hiWord s.bodyBits
  | .savedLo => loWord s.planSaved
  | .savedHi => hiWord s.planSaved
  | .nodes => s.store.nodesWord
  | .cfgMagic => s.cfg.magic
  | .cfgSelCounts => s.cfg.selCounts
  | .cfgSelTree => s.cfg.selTree
  | .freq y => s.freqAt y
  | .codeLen y => (s.codeAt y).lenWord
  | .codeBits y w => codeWord (s.codeAt y).bits w.val
  | .node i k => if i.val < s.store.count.val then (s.store.node i).word k else 0#32
  | .reserved => 0#32

/-- A register whose read while BUSY = 1 is a free draw: "a read of any other register or table window" than ID, CMD,
ARG, STATUS and the CFG registers (20_memory.md rule R61), FREQ[256] among them (notes/assumptions/9.md). A reserved
offset is no register and reads 0 (rule R53). -/
def Reg.freeWhileBusy : Reg → Bool
  | .id | .cmd | .status | .arg | .cfgMagic | .cfgSelCounts | .cfgSelTree | .reserved => false
  | .resultLo | .resultHi | .wbitsLo | .wbitsHi | .rbitsLo | .rbitsHi => true
  | .origLo | .origHi | .bodyLo | .bodyHi | .savedLo | .savedHi | .nodes => true
  | .freq _ | .codeLen _ | .codeBits _ _ | .node _ _ => true

/-- What a read of a register returns, and the state after it: only the draw counter can change, "no read has a side
effect" (20_memory.md rules R53, R61). -/
def State.readReg (s : State) (r : Reg) : Word × State :=
  if s.busy then
    if r = .status then (s.statusWhileBusy (Config.freeRead s.draws), { s with draws := s.draws + 1 })
    else if r.freeWhileBusy then (Config.freeRead s.draws, { s with draws := s.draws + 1 })
    else (s.reg r, s)
  else (s.reg r, s)

/-! ## Bus accesses -/

/-- The HCE answers an access (00_scope.md rule R14). -/
def State.reply (s : State) (a : Access) (r : Reply) : State := { s with accesses := s.accesses ++ [(a, r)] }

/-- "Only 32-bit accesses at offsets that are multiples of 4 are defined" (20_memory.md rule R52). -/
def accessDefined (off : Offset) (size : Nat) : Bool := size == 4 && off.toNat % 4 == 0

/-- A host read (rules R51 to R53, R61); while reset is asserted reads return 0 (70_reset_and_hazards.md rule R175). -/
def State.busRead (s : State) (off : Offset) (size : Nat) : State :=
  if s.inReset then s.reply (.read off size) (.data 0#32)
  else if accessDefined off size then
    (s.readReg (regAt off)).2.reply (.read off size) (.data (s.readReg (regAt off)).1)
  else s.reply (.read off size) .busError

/-- Accepting or rejecting a command word begins so (30_encoding.md rule R78): CMD_LAST <- c; OVR, ERR, DONE <- 0. -/
def State.beginIssue (s : State) (c : Word) : State :=
  { s with cmdLast := c, ovr := false, err := .none, done := false, opened := false }

/-- A word that is not legal: "BUSY stays 0, LCMD and LARG are not written" (60_exceptions.md rule R161). -/
def State.rejectWord (s : State) (c : Word) : State := (s.beginIssue c).terminate .illegalCommand

/-- A legal word: LCMD <- c; LARG <- ARG; STATUS.BUSY <- 1 (30_encoding.md rule R78). -/
def State.acceptWord (s : State) (c : Word) : State :=
  { s.beginIssue c with lcmd := c, larg := s.arg, busy := true }

/-- What an outside action comes to, and the state it leaves: it is over; a command word is to be issued; or the
running command, if there is one, may go on. -/
inductive Action where
  | over (s : State)
  | issue (c : Word) (s : State)
  | go (s : State)

/-- A host write (rules R51 to R53): CMD issues a command, or while BUSY = 1 sets OVR and nothing else (10_state.md
rules R22, R26); ARG stores its value (rule R32); every other write is ignored, and all of them while reset is
asserted (70_reset_and_hazards.md rule R175). -/
def State.busWrite (s : State) (off : Offset) (size : Nat) (v : Word) : Action :=
  if s.inReset then .over (s.reply (.write off size v) .written)
  else if accessDefined off size then
    match regAt off with
    | .cmd =>
      if s.busy then .over ({ s with ovr := true }.reply (.write off size v) .written)
      else .issue v (s.reply (.write off size v) .written)
    | .arg => .over ({ s with arg := v }.reply (.write off size v) .written)
    | _ => .over (s.reply (.write off size v) .written)
  else .over (s.reply (.write off size v) .busError)

/-- `WAIT` (30_encoding.md rule R81): a read of STATUS, repeated while its bit 0 reads 1. -/
def State.waitPoll (s : State) : State :=
  let s₁ := s.busRead 0x008#16 4
  if s.busy && !s.inReset then { s₁ with events := .wait :: s₁.events } else s₁

/-! ## Reset -/

/-- The token the engine has offered to the sink and that is not answered yet (20_memory.md rule R56). -/
def State.offered (s : State) : Option OutToken :=
  if s.busy then
    match s.work with
    | .offer b :: _ => some (.byte b)
    | .offerEnd :: _ => some .eos
    | .abort _ :: _ => some .abort
    | _ => none
  else none

/-- "A token offered to the sink and not yet answered is withdrawn; whether the sink kept it is up to the sink"
(70_reset_and_hazards.md rule R176): a free draw. -/
def State.withdraw (s : State) : State :=
  match s.offered with
  | none => s
  | some t =>
    { s with
      draws := s.draws + 1
      sink := if Config.sinkKept s.draws then { s.sink with taken := s.sink.taken ++ [(t, .ok)] } else s.sink }

/-- Every piece of the HCE's state at its reset value (10_state.md rule R49). The parameters, the tokens on IN, the
sink and the outside world's pending actions are not the HCE's and stay (70_reset_and_hazards.md rules R175, R176). -/
def State.toReset (s : State) : State :=
  { State.reset with
    cfg := s.cfg
    inReset := s.inReset
    inq := s.inq
    popped := s.popped
    sink := s.sink
    events := s.events
    accesses := s.accesses
    stalled := s.stalled
    draws := s.draws }

/-- The reset input changes: asserting it abandons a running command at once, without `Terminate`; on its release
every piece of state holds its reset value (rules R175, R176). A release of an input that was not asserted, which the
spec leaves open, does the same to the HCE's state, and withdraws no token (DESIGN CHOICE, notes/assumptions/27.md). -/
def State.driveReset (s : State) (asserted : Bool) : State :=
  if asserted then { s.withdraw.toReset with inReset := true } else { s.toReset with inReset := false }

/-! ## The outside world's actions -/

/-- What an action of the outside world does, its event already taken off the list. An action that can lift a hold lets
the engine go on (20_memory.md rule R62). -/
def State.handle (s : State) (e : Event) : Action :=
  match e with
  | .busRead off size => .over (s.busRead off size)
  | .busWrite off size v => s.busWrite off size v
  | .wait => .over s.waitPoll
  | .place ts => .go { s with inq := s.inq ++ ts }
  | .discard n => .over { s with inq := s.inq.drop n }
  | .answers as => .go { s with sink := { s.sink with script := s.sink.script ++ as } }
  | .sinkRest r => .go { s with sink := { s.sink with rest := r } }
  | .reset asserted => .over (s.driveReset asserted)
  | .stall on => .go { s with stalled := on }

/-! ## What the engine popped -/

/-- The state `t` that a turn of the engine leaves, which it began in `s`, with the tokens it popped added to the
record: those that are gone from the front of IN (00_scope.md rule R14, 20_memory.md rule R55). -/
def State.recordPops (s t : State) : State :=
  { t with popped := t.popped ++ s.inq.take (s.inq.length - t.inq.length) }

/-- The outcome of a turn of the engine that it began in `s`, with the tokens it popped recorded. -/
def State.turn (s : State) (o : Host.Outcome State Fault Refusal) : Host.Outcome State Fault Refusal :=
  match o with
  | .next t => .next (s.recordPops t)
  | .fault f => .fault f
  | .refused r => .refused r

end Sys2Proof.Machine
end

