-- ==== Sys2Proof/Machine/HostProgram.lean ====
section
/-! DEFINITION. Host programs: the statements of 30_encoding.md rule R81, the pseudo-instructions of rule R80, as the
bus accesses and port actions they stand for; and the platform's view of the register space (20_memory.md rule R66). -/

namespace Sys2Proof.Machine

/-- The offset in the HCE's register space of a platform address; `none` for an address that is not the HCE's. "Every
offset in this spec is relative to" HCE_BASE (20_memory.md rule R66). -/
def platformOffset (addr : Nat) : Option Offset :=
  if Config.hceBase ≤ addr ∧ addr < Config.hceBase + 0x10000 then some (BitVec.ofNat 16 (addr - Config.hceBase))
  else none

/-- A 64-bit quantity the pseudo-instruction R64 reads (rule R80). -/
inductive Pair where
  | result | wbits | rbits | orig | body | saved
  deriving DecidableEq, Repr

/-- The low register of a pair (10_state.md rule R20). -/
def Pair.lo : Pair → Reg
  | .result => .resultLo
  | .wbits => .wbitsLo
  | .rbits => .rbitsLo
  | .orig => .origLo
  | .body => .bodyLo
  | .saved => .savedLo

/-- The high register of a pair. -/
def Pair.hi : Pair → Reg
  | .result => .resultHi
  | .wbits => .wbitsHi
  | .rbits => .rbitsHi
  | .orig => .origHi
  | .body => .bodyHi
  | .saved => .savedHi

/-- A statement of a host program (rules R80, R81). -/
inductive Stmt where
  /-- `ARG := v` -/
  | setArg (v : Word)
  /-- `ISSUE c` -/
  | issue (c : Word)
  /-- `WAIT` -/
  | wait
  /-- `READ NAME` -/
  | read (r : Reg)
  /-- `IN <- t1 t2 ...` -/
  | input (ts : List InToken)
  /-- `OUT -> ...`: the tokens the sink receives, each with its answer. -/
  | output (ts : List (OutToken × Answer))
  /-- A mnemonic of rule R79; `value` is BS_WRITE's, and no other command's. -/
  | command (i : Instr) (value : Word)
  /-- `R64 NAME` -/
  | read64 (p : Pair)
  deriving DecidableEq, Repr

/-- The read of a register; a reserved register has no name to read it by. -/
def readEvents (r : Reg) : List Event :=
  match r.offset with
  | some off => [.busRead off 4]
  | none => []

/-- The accesses a mnemonic stands for: `ISSUE enc(M)`; `WAIT`, and before them `ARG := v` for BS_WRITE, "the only one
that touches ARG" (rule R80). -/
def commandEvents (i : Instr) (value : Word) : List Event :=
  match i with
  | .bsWrite width => [.busWrite 0x00C#16 4 value, .busWrite 0x004#16 4 (encode (.bsWrite width)), .wait]
  | _ => [.busWrite 0x004#16 4 (encode i), .wait]

/-- The actions a statement stands for (rules R80, R81). `OUT -> ...` is none: it says what is received and how that is
answered (`Stmt.received`). -/
def Stmt.events : Stmt → List Event
  | .setArg v => [.busWrite 0x00C#16 4 v]
  | .issue c => [.busWrite 0x004#16 4 c]
  | .wait => [.wait]
  | .read r => readEvents r
  | .input ts => [.place ts]
  | .output _ => []
  | .command i value => commandEvents i value
  | .read64 p => readEvents p.lo ++ readEvents p.hi

/-- The tokens a statement says the sink receives, with their answers: "each answered ok unless marked fail" (rule
R81). -/
def Stmt.received : Stmt → List (OutToken × Answer)
  | .output ts => ts
  | _ => []

/-- "A host program is a list of these statements, run in order" (rule R81): the program's actions wait after those the
state already holds, and the sink answers as the program's `OUT -> ...` statements say (notes/assumptions/19.md). -/
def State.withProgram (s : State) (p : List Stmt) : State :=
  { s with
    events := s.events ++ p.flatMap Stmt.events
    sink := { s.sink with script := s.sink.script ++ (p.flatMap Stmt.received).map (·.2) } }

/-- The 64-bit value of the pair read by R64, `NAME_HI:NAME_LO` (rule R80). -/
def pairValue (hi lo : Word) : DWord := hi ++ lo

end Sys2Proof.Machine
end

