-- ==== Sys2Proof/Machine/Step.lean ====
section
/-! DEFINITION. One step of the machine: the next action of the outside world, and with a command word the whole
command, to its end or to a hold at a port (70_reset_and_hazards.md rule R184). -/

namespace Sys2Proof.Machine

/-- What an outside action comes to: a command word is decoded and executed, or rejected (30_encoding.md rule R78), and
a running command goes on (20_memory.md rule R62); either is a turn of the engine. -/
def Action.run : Action → Host.Outcome State Fault Refusal
  | .over s => .next s
  | .issue c s =>
    match decode c with
    | .ok i => s.turn (exec i (s.acceptWord c))
    | .error _ => .next (s.rejectWord c)
  | .go s => s.turn (resume s)

/-- One step: the next action of the outside world. With none pending the machine stays as it is: idle, or holding
"with no time-out" (60_exceptions.md rule R174, 20_memory.md rule R62). -/
def step (s : State) : Host.Outcome State Fault Refusal :=
  match s.events with
  | [] => .next s
  | e :: es => ({ s with events := es }.handle e).run

/-- `s` with the host's write of a command word to CMD as its next action: "the only program is the sequence of CMD
words the host writes" (20_memory.md rule R65). `nbits` is the word's length in the opcode table, 32. -/
def State.withFetchWord (s : State) (nbits w : Nat) : State :=
  { s with events := .busWrite 0x004#16 4 (BitVec.ofNat 32 (w % 2 ^ nbits)) :: s.events }

end Sys2Proof.Machine
end

