-- ==== Sys2Proof/Safety.lean ====
section
/-! DEFINITION. The terms the claims are stated in: what a sink that takes every token does, what a run of IN tokens
carries, the trees a node store stands for, packed streams, and the invariant every step keeps. -/

namespace Sys2Proof.Machine

/-! ## The ports -/

/-- The sink's answer to the token after its next `j`; `none` when it does not answer that one (20_memory.md rule
R56). -/
def Sink.answerAt (k : Sink) (j : Nat) : Option Answer :=
  match k.script[j]? with
  | some a => some a
  | none => k.rest

/-- The sink answers `ok` to each of its next `n` tokens (20_memory.md rule R56). -/
def Sink.accepts (k : Sink) (n : Nat) : Bool :=
  (k.script.take n).all (· == .ok) && (n ≤ k.script.length || k.rest == some .ok)

/-- The sink after it took the tokens `ts`, each answered `ok`. -/
def Sink.take (k : Sink) (ts : List OutToken) : Sink :=
  { k with script := k.script.drop ts.length, taken := k.taken ++ ts.map fun t => (t, .ok) }

/-- The sink never lets the engine hold: it answers every token (20_memory.md rule R62). -/
def Sink.answersAll (k : Sink) : Bool := k.rest.isSome

/-- The IN tokens of a run of bytes (20_memory.md rule R54). -/
def inBytes (bs : List Byte) : List InToken := bs.map .byte

/-- The OUT tokens of a run of bytes. -/
def outBytes (bs : List Byte) : List OutToken := bs.map .byte

/-- IN holds the token that ends its stream (20_memory.md rule R54). -/
def endsStream (ts : List InToken) : Bool := ts.any fun t => t == .eos || t == .error

/-- The bits of a run of bytes in stream order (20_memory.md rule R57). -/
def streamBits (bs : List Byte) : Bits := bs.flatMap bitsOfByte

/-- The first `n` bytes of a bit stream: the bit at position k is bit 7 - (k mod 8) of byte k div 8, and bits past the
stream's end are 0 (rule R57, 41_bitstream.md rule R89). -/
def packBytes (n : Nat) (bs : Bits) : List Byte := (List.range n).map fun k => byteOf ((bs.drop (8 * k)).take 8)

/-- The bytes of a closed stream: its bits, the last byte filled up with 0 bits (45_header.md rule R130). -/
def closedBytes (bs : Bits) : List Byte := packBytes ((bs.length + 7) / 8) bs

/-! ## Writing and reading streams -/

/-- The sink takes every byte that writing `bits` completes, and WBITS stays in its range (41_bitstream.md rules R86,
R87). -/
structure State.CanWrite (s : State) (bits : Bits) : Prop where
  buf     : s.writer.buf.length < 8
  wbits   : s.writer.bits.toNat + bits.length < 2 ^ 64
  accepts : s.sink.accepts ((s.writer.buf.length + bits.length) / 8) = true

/-- The state after `bits` were written, every byte they complete taken by the sink (rules R86, R87). -/
def State.written (s : State) (bits : Bits) : State :=
  { s with
    writer := ⟨s.writer.closed, (s.writer.buf ++ bits).drop (8 * ((s.writer.buf.length + bits.length) / 8)),
      BitVec.ofNat 64 (s.writer.bits.toNat + bits.length)⟩
    sink := s.sink.take (outBytes (packBytes ((s.writer.buf.length + bits.length) / 8) (s.writer.buf ++ bits))) }

/-- Writing `bits` completes more than `j` bytes, of which the sink takes `j` and answers `fail` to the next one. -/
structure State.FailsAt (s : State) (bits : Bits) (j : Nat) : Prop where
  buf     : s.writer.buf.length < 8
  wbits   : s.writer.bits.toNat + bits.length < 2 ^ 64
  more    : j < (s.writer.buf.length + bits.length) / 8
  accepts : s.sink.accepts j = true
  fails   : s.sink.answerAt j = some .fail

/-- The state after the sink answered `fail` to the byte after the first `j`: the writer closed, no bit of it pending,
and WBITS counting the bits up to the end of that byte (rule R86). -/
def State.failed (s : State) (bits : Bits) (j : Nat) : State :=
  { s with
    writer := ⟨true, [], BitVec.ofNat 64 (s.writer.bits.toNat + (8 * (j + 1) - s.writer.buf.length))⟩
    sink := (s.sink.take (outBytes (packBytes j (s.writer.buf ++ bits)))).record
      (.byte (byteOf (((s.writer.buf ++ bits).drop (8 * j)).take 8))) .fail }

/-- The writer with a stream open: the open one, or a new one (41_bitstream.md rule R88). -/
def State.opensIfClosed (s : State) : State := if s.writer.closed then { s with writer := ⟨false, [], 0#64⟩ } else s

/-- The tokens that end the open stream, if there is one: the padded partial byte and `End` (rule R89). -/
def State.closingTokens (s : State) : List OutToken :=
  if s.writer.closed then [] else outBytes (closedBytes s.writer.buf) ++ [.eos]

/-- The state after the bits up to position `k` of the stream that the reader's buffer and the bytes `bs` on IN carry
were read, byte by byte on demand, with the tokens `rest` after those bytes (41_bitstream.md rules R91 to R93). -/
def State.afterBits (s : State) (bs : List Byte) (rest : List InToken) (k : Nat) : State :=
  { s with
    inq := inBytes (bs.drop ((k - s.reader.buf.length + 7) / 8)) ++ rest
    reader := ⟨s.reader.exh, (s.reader.buf ++ streamBits (bs.take ((k - s.reader.buf.length + 7) / 8))).drop k,
      BitVec.ofNat 64 (s.reader.bits.toNat + k)⟩ }

/-- The reader is not exhausted, and its buffer and the bytes `bs` that IN holds before `rest` carry the bits `bits`
first. -/
structure State.Carries (s : State) (bits : Bits) (bs : List Byte) (rest : List InToken) : Prop where
  live   : s.reader.exh = false
  buf    : s.reader.buf.length < 8
  tokens : s.inq = inBytes bs ++ rest
  first  : bits <+: s.reader.buf ++ streamBits bs
  rbits  : s.reader.bits.toNat + bits.length < 2 ^ 64

/-- The stream ends, with `End` or `Error`, after the bits `pre` and fewer than `need` more. -/
structure State.CutAt (s : State) (pre : Bits) (need : Nat) (bs : List Byte) (x : InToken) (rest : List InToken) :
    Prop where
  carries : s.Carries pre bs (x :: rest)
  short   : s.reader.buf.length + 8 * bs.length < pre.length + need
  ends    : x = .eos ∨ x = .error

/-- The state after `k` bits were read and the next read met the end of the stream: its token is popped, the left-over
bits are dropped and the reader is exhausted (41_bitstream.md rules R92, R93). -/
def State.cut (s : State) (rest : List InToken) (k : Nat) : State :=
  { s with inq := rest, reader := ⟨true, [], BitVec.ofNat 64 (s.reader.bits.toNat + k)⟩ }

/-- The error of a field that the stream's end cut short: `Error` is IO_ERROR whatever the field (60_exceptions.md rule
R164), `End` the error of the field. -/
def cutError (x : InToken) (e : ErrCode) : ErrCode := if x = .error then .ioError else e

/-! ## What a command's end leaves -/

/-- A command's success end with an integer RESULT (30_encoding.md rule R78). -/
def State.endsWith (s : State) (v : Int) : State :=
  { s with result := BitVec.ofInt 64 v, busy := false, done := true, phase := .idle, work := [], opened := false }

/-- A command's success end that leaves RESULT unchanged. -/
def State.endsQuietly (s : State) : State :=
  { s with busy := false, done := true, phase := .idle, work := [], opened := false }

/-- An error end without an `Abort` (60_exceptions.md rule R160). -/
def State.endsInError (s : State) (e : ErrCode) : State :=
  { s with
    result := 0#64, err := e, pq := [], seq := 0, budget := 0, cur := 0, stack := []
    busy := false, done := true, phase := .idle, work := [], opened := false }

/-- An error end of COMPRESS or DECOMPRESS after its `WOpen`: the partial byte is discarded and the sink gets `Abort`,
whatever it answers (60_exceptions.md rules R160, R162). -/
def State.abortsWith (s : State) (e : ErrCode) (a : Answer) : State :=
  { s with writer := ⟨true, [], s.writer.bits⟩, sink := s.sink.record .abort a }.endsInError e

/-- The tables a command that rebuilds the plan's tables starts from: `ClearAll()` (42_frequency.md rule R105). -/
def State.cleared (s : State) : State :=
  { s with
    planValid := false, codesValid := false, treeValid := false
    codes := Vector.replicate 257 ⟨false, []⟩, store := NodeStore.empty, freq := Vector.replicate 256 0#32 }

/-- A new input stream: `RReset()` (41_bitstream.md rule R94). -/
def State.freshReader (s : State) : State := { s with reader := ⟨false, [], 0#64⟩ }

/-- COMPRESS and DECOMPRESS after their `WOpen`: the open stream is ended and a new one is open (41_bitstream.md
rule R88). -/
def State.reopened (s : State) : State :=
  { s with writer := ⟨false, [], 0#64⟩, sink := s.sink.take s.closingTokens, opened := true }

/-- Reading the header from the state `x` raises `e` in the state `u`. HDR_READ reads it from the cleared tables and the
reader as it is, DECOMPRESS from the cleared tables, a new reader and a newly opened stream, which `Abort` ends
(45_header.md rule R138, 47_decompressor.md rule R152, 60_exceptions.md rule R162). -/
def State.HeaderRaises (s x u : State) (e : ErrCode) : Prop :=
  (x = { s.cleared with mark := s.reader.bits } → exec .hdrRead s = .next (u.endsInError e)) ∧
  (x = s.cleared.freshReader.reopened → s.writer.buf.length < 8 → s.sink.accepts s.closingTokens.length = true →
    ∀ a, s.sink.answerAt s.closingTokens.length = some a → exec .decompress s = .next (u.abortsWith e a))

/-- The sink answers `ok` to `before` and `fail` to `x`, the next of the tokens `ts`. -/
structure Sink.FailsOn (k : Sink) (ts before : List OutToken) (x : OutToken) : Prop where
  first   : before ++ [x] <+: ts
  accepts : k.accepts before.length = true
  fails   : k.answerAt before.length = some .fail

/-- The state after the sink answered `fail` to the token `x` of a `WClose`, after `before`: the writer is closed, with
no bit pending (41_bitstream.md rule R89). -/
def State.closeFailed (s : State) (before : List OutToken) (x : OutToken) : State :=
  { s with writer := ⟨true, [], s.writer.bits⟩, sink := (s.sink.take before).record x .fail }

/-! ## Turns of a running command -/

/-- `t` differs from `s` only in what actions from outside can change while a command runs and holds: the tokens on IN,
the sink's coming answers, the host's own ARG and OVR, and the records of accesses and of tokens popped. -/
def State.Outside (s t : State) : Prop :=
  ∃ q script rest ev ac pp d a o st, t = { s with
    inq := q, sink := ⟨script, rest, s.sink.taken⟩, events := ev, accesses := ac, popped := pp, draws := d
    arg := a, ovr := o, stalled := st }

/-- The command `i`, whose word was accepted in `s₀`, holds in the state: it began and did not end, whatever came from
outside and however often it went on since (20_memory.md rule R62, 70_reset_and_hazards.md rule R184). -/
inductive Held (i : Instr) (s₀ : State) : State → Prop
  | issued {t : State} : exec i s₀ = .next t → t.busy = true → Held i s₀ t
  | waited {s t : State} : Held i s₀ s → s.Outside t → Held i s₀ t
  | resumed {s t : State} : Held i s₀ s → resume s = .next t → t.busy = true → Held i s₀ t

/-- A turn of the engine at the command `i`, whose word was accepted in `s₀`, takes `s` to `t`: its first turn, or one
that takes it up after a hold. -/
def Turn (i : Instr) (s₀ s t : State) : Prop :=
  s = s₀ ∧ exec i s₀ = .next t ∨ Held i s₀ s ∧ resume s = .next t

/-- More arrives at the ports: the tokens `ts` after those on IN, the answers `as` after those the sink has ready, and
`rest` is its answer from then on (20_memory.md rules R55, R56). -/
def State.given (s : State) (ts : List InToken) (as : List Answer) (rest : Option Answer) : State :=
  { s with inq := s.inq ++ ts, sink := ⟨s.sink.script ++ as, rest, s.sink.taken⟩ }

/-! ## Frequencies -/

/-- The counts of a stream of bytes (42_frequency.md rule R106). -/
def countsOf (bs : List Byte) : Vector Word 256 := Vector.ofFn fun i => BitVec.ofNat 32 (bs.count (BitVec.ofNat 8 i.val))

/-- No count passes its 32-bit entry (rule R106). -/
def Countable (bs : List Byte) : Prop := ∀ b : Byte, bs.count b < 2 ^ 32

/-- The state after the bytes `bs` were counted into cleared tables with a new reader, the tokens `rest` still on IN. -/
def State.tallied (s : State) (bs : List Byte) (rest : List InToken) : State :=
  { s.cleared.freshReader with freq := countsOf bs, inq := rest }

/-- The state after a whole stream was counted: ORIG_BITS is 8 times the bytes (rule R107). -/
def State.counted (s : State) (bs : List Byte) (rest : List InToken) : State :=
  { s.tallied bs rest with origBits := BitVec.ofNat 64 (8 * bs.length) }

/-! ## Trees -/

/-- A full binary tree with a symbol at each leaf (43_tree.md rule R113). -/
inductive HTree where
  | leaf (y : Symbol)
  | node (l r : HTree)
  deriving DecidableEq, Repr

/-- The number of leaves. -/
def HTree.leaves : HTree → Nat
  | .leaf _ => 1
  | .node l r => l.leaves + r.leaves

/-- The number of nodes. -/
def HTree.size : HTree → Nat
  | .leaf _ => 1
  | .node l r => l.size + r.size + 1

/-- The depth of the deepest leaf. -/
def HTree.depth : HTree → Nat
  | .leaf _ => 0
  | .node l r => max l.depth r.depth + 1

/-- The pre-order serialization (rule R116). -/
def HTree.bits : HTree → Bits
  | .leaf y => true :: binN 9 y.val
  | .node l r => false :: (l.bits ++ r.bits)

/-- The leaves in pre-order, each with its path from the root: "0" for a left step, "1" for a right step
(44_codetable.md rule R125). -/
def HTree.paths : HTree → List (Symbol × Bits)
  | .leaf y => [(y, [])]
  | .node l r => l.paths.map (fun e => (e.1, false :: e.2)) ++ r.paths.map (fun e => (e.1, true :: e.2))

/-- Node `i` of the store is the root of the tree `t` (10_state.md rule R43). -/
def NodeStore.holds (st : NodeStore) : NodeIx → HTree → Prop
  | i, .leaf y => (st.node i).leaf = true ∧ (st.node i).sym = y
  | i, .node l r =>
    (st.node i).leaf = false ∧ st.holds (st.node i).left l ∧ st.holds (st.node i).right r

/-- The indices of the nodes of the tree `t` at node `i`, in pre-order. -/
def NodeStore.indices (st : NodeStore) : NodeIx → HTree → List NodeIx
  | i, .leaf _ => [i]
  | i, .node l r => i :: (st.indices (st.node i).left l ++ st.indices (st.node i).right r)

/-- The node store holds exactly the tree `t`: "a complete full binary tree whose root is ROOT" (10_state.md rule R29),
in its NODE_COUNT nodes in use, "no node is ever aliased by two parents" (00_scope.md rule R12). -/
def NodeStore.complete (st : NodeStore) (t : HTree) : Prop :=
  st.holds st.root t ∧ (st.indices st.root t).Nodup ∧ t.size = st.count.val ∧
    ∀ i ∈ st.indices st.root t, i.val < st.count.val

/-- Node `j` comes before node `k` in the order of the queue: the lower NFREQ, of equal ones the lower index, which is
the lower insertion number, as every node is inserted when it is allocated (43_tree.md rules R110, R114). -/
def NodeStore.before (st : NodeStore) (j k : NodeIx) : Prop :=
  (st.node j).nfreq.toNat < (st.node k).nfreq.toNat ∨
    (st.node j).nfreq.toNat = (st.node k).nfreq.toNat ∧ j.val < k.val

/-- Node `j` was there and had no parent yet when the internal node `n` was made: it is older than `n`, and no internal
node older than `n` has it as a child. -/
def NodeStore.unmerged (st : NodeStore) (n j : NodeIx) : Prop :=
  j.val < n.val ∧
    ∀ k : NodeIx, k.val < n.val → (st.node k).leaf = false → (st.node k).left ≠ j ∧ (st.node k).right ≠ j

/-- The bits of a node in a serialized tree: an internal node (`none`) or a leaf with its symbol (rule R116). -/
def nodeBits : Option Symbol → Bits
  | none => [false]
  | some y => true :: binN 9 y.val

/-- With `n` node positions of a tree still to come, the nodes `ns` in pre-order leave at least one of them open, at
every point (rule R118). -/
def staysOpen : Nat → List (Option Symbol) → Bool
  | 0, _ => false
  | _ + 1, [] => true
  | n + 1, none :: ns => staysOpen (n + 2) ns
  | n + 1, some _ :: ns => staysOpen n ns

/-- The store holds the nodes `ns` that were read so far at their pre-order indices, NFREQ = 0, and `more` nodes after
them that are allocated and no more (rule R118). -/
def NodeStore.holdsNodes (st : NodeStore) (ns : List (Option Symbol)) (more : Nat) : Prop :=
  st.count.val = ns.length + more ∧ st.root = 0 ∧
    ∀ i : NodeIx, (st.node i).nfreq = 0#64 ∧
      (ns[i.val]? = some none → (st.node i).leaf = false) ∧
      (∀ y, ns[i.val]? = some (some y) → st.node i = ⟨true, y, 0#64, 0, 0⟩) ∧
      (ns.length ≤ i.val → st.node i = Node.zero)

/-- The tree can be a decoder's: its root is not the leaf of a real symbol (43_tree.md rule R119). -/
def HTree.decodable : HTree → Bool
  | .leaf y => y == Config.pseudoEof
  | .node _ _ => true

/-- While TREE_VALID = 1 the node store holds a tree of a decoder (10_state.md rule R29). -/
def State.TreeOk (s : State) : Prop :=
  s.treeValid = true → ∃ t : HTree, s.store.complete t ∧ t.decodable = true

/-- The code of a symbol in a tree: the path of its leaf, of several leaves the one visited last, or no code
(44_codetable.md rule R125). -/
def HTree.codeOf (t : HTree) (y : Symbol) : Code :=
  match t.paths.reverse.find? (fun e => e.1 == y) with
  | some e => ⟨true, e.2⟩
  | none => ⟨false, []⟩

/-- While CODES_VALID = 1 the code table holds the codes of the tree in the node store (10_state.md rule R29). -/
def State.CodesOk (s : State) : Prop :=
  s.codesValid = true → s.treeValid = true ∧ ∃ t : HTree, s.store.complete t ∧ ∀ y, s.codeAt y = t.codeOf y

/-- The code table of a tree (44_codetable.md rule R125). -/
def HTree.codeTable (t : HTree) : Vector Code 257 := Vector.ofFn t.codeOf

/-- The pairs of a symbol's frequency and its code's length, summed: `Σ frequency[s] × length(code[s])` (44_codetable.md
rule R126). -/
def bodyCost (freq : Symbol → Word) (t : HTree) : Nat :=
  (symbols.map fun y => (freq y).toNat * (t.codeOf y).bits.length).sum

/-! ## The container -/

/-- The preamble and header of a container: MAGIC, the selector, and the 256 counts or the tree with its length
(45_header.md rules R130 to R132). -/
def headerOf (p : Params) (fmt : Fmt) (freq : Vector Word 256) (t : HTree) : Bits :=
  match fmt with
  | .counts =>
    binN 32 p.magic.toNat ++ binN 32 p.selCounts.toNat ++ freq.toList.flatMap fun f => binN 32 f.toNat
  | .tree => binN 32 p.magic.toNat ++ binN 32 p.selTree.toNat ++ binN 32 t.bits.length ++ t.bits

/-- The preamble of a TreeFormat header and its length field (rules R130, R132). -/
def treePreamble (p : Params) (n : Nat) : Bits := binN 32 p.magic.toNat ++ binN 32 p.selTree.toNat ++ binN 32 n

/-- The body of a container: the code of each byte, then the pseudo-EOF code (46_compressor.md rule R145). -/
def bodyOf (t : HTree) (bs : List Byte) : Bits :=
  (bs.flatMap fun b => (t.codeOf (symbolOfByte b)).bits) ++ (t.codeOf Config.pseudoEof).bits

/-- The tree a header stands for: the one built from its counts, or the one it transmits (45_header.md rules R135,
R136). -/
def Transmits (fmt : Fmt) (freq : Vector Word 256) (t : HTree) : Prop :=
  match fmt with
  | .counts => ({ State.reset with freq := freq } : State).buildTree.store.complete t
  | .tree => t.decodable = true ∧ t.size ≤ Config.nodeCap

/-- A decoder at the root of the tree that reads `body` writes the bytes `xs` and is at the root again: each byte by the
path of some leaf of its symbol, of which a transmitted tree may hold several (47_decompressor.md rule R151, I21). -/
inductive HTree.Spells (t : HTree) : List Byte → Bits → Prop
  | nil : t.Spells [] []
  | cons {b : Byte} {p : Bits} {xs : List Byte} {body : Bits} :
    (symbolOfByte b, p) ∈ t.paths → t.Spells xs body → t.Spells (b :: xs) (p ++ body)

/-- The tree has a code for each of the bytes and for the pseudo-EOF. -/
def HTree.covers (t : HTree) (bs : List Byte) : Prop :=
  (∀ b ∈ bs, (t.codeOf (symbolOfByte b)).valid = true) ∧ (t.codeOf Config.pseudoEof).valid = true

/-! ## Host accesses -/

/-- A 32-bit host read of an offset returns `v` and changes nothing (20_memory.md rules R51, R53). -/
def State.Reads (s : State) (off : Offset) (v : Word) : Prop :=
  ∀ es, step { s with events := .busRead off 4 :: es } =
    .next { s with events := es, accesses := s.accesses ++ [(.read off 4, .data v)] }

/-- A 32-bit host write of an offset is ignored, without a bus error (rule R53). -/
def State.Ignores (s : State) (off : Offset) : Prop :=
  ∀ es v, step { s with events := .busWrite off 4 v :: es } =
    .next { s with events := es, accesses := s.accesses ++ [(.write off 4 v, .written)] }

/-- The offsets of the register map that hold nothing, multiples of 4 (10_state.md rule R20). -/
def reservedWord (n : Nat) : Bool :=
  (0x14 ≤ n && n < 0x400) || (0x501 ≤ n && n < 0x800) || (0x901 ≤ n && n < 0x1000) || (0x1808 ≤ n && n < 0x2000) ||
    (0x2804 ≤ n && n < 0x4000)

/-! ## The invariant -/

/-- The steps that are left of a command never write to a closed output stream and never end one twice: `closed` is
W_CLOSED before the first of them (41_bitstream.md rules R86 to R90). -/
def writerReady : Bool → List Work → Bool
  | _, [] => true
  | c, w :: ws =>
    match w with
    | .emit _ | .writeField _ | .headerWrite | .encodeBody | .decodeBody => !c && writerReady false ws
    | .offer _ => false
    | .offerEnd => c && writerReady true ws
    | .abort _ => c
    | .closeStream => writerReady true ws
    | .ensureOpen | .openStream => writerReady false ws
    | _ => writerReady c ws

/-- The writer's state and the steps left to run fit; a byte that waits for its answer has left WBUF (rules R86,
R89). -/
def State.WriterFit (s : State) (ws : List Work) : Prop :=
  match ws with
  | .offer _ :: rest => s.writer.closed = false ∧ s.writer.buf = [] ∧ writerReady false rest = true
  | ws => writerReady s.writer.closed ws = true

/-- The steps that are left of a command find the tables they need: `plan` and `tree` say that a plan and a tree are
held, `clean` that the node store is cleared, before the first of them (42_frequency.md rule R105, 43_tree.md rule
R115). -/
def tablesReady : (plan tree clean : Bool) → List Work → Bool
  | _, _, _, [] => true
  | p, t, c, w :: ws =>
    match w with
    | .clearCodes => tablesReady false t c ws
    | .clearTree | .clearAll => tablesReady false false true ws
    | .needPlan => tablesReady true true c ws
    | .needTree => tablesReady p true c ws
    | .build | .magic | .selector | .countFields _ | .treeLen => c && tablesReady p true false ws
    | .plan _ => c && tablesReady true true false ws
    | .treeNode | .treeSym _ | .treeSpare => false
    | .genCodes | .decodeStart | .rewind | .decodeBody => t && tablesReady p t c ws
    | .headerWrite => p && tablesReady p t c ws
    | _ => tablesReady p t c ws

/-- The pending calls of `DeserNode` stand for nodes of the store: each an internal node, and one that waits for its
right child has its left subtree complete. `used` lists the nodes they and those subtrees take (43_tree.md rule
R118). -/
def NodeStore.pending (st : NodeStore) : List Frame → List NodeIx → Prop
  | [], used => used = []
  | ⟨i, .left⟩ :: fs, used => ∃ us, used = i :: us ∧ (st.node i).leaf = false ∧ st.pending fs us
  | ⟨i, .right⟩ :: fs, used =>
    ∃ l us, used = i :: (st.indices (st.node i).left l ++ us) ∧ (st.node i).leaf = false ∧
      st.holds (st.node i).left l ∧ st.pending fs us

/-- The nodes in use are exactly `used`, each once (10_state.md rule R43). -/
def NodeStore.inUse (st : NodeStore) (used : List NodeIx) : Prop :=
  used.Nodup ∧ used.length = st.count.val ∧ ∀ i ∈ used, i.val < st.count.val

/-- The tables and the steps left to run fit: what the steps need is there, and a tree deserialization that is under way
has its part of the tree in the store (43_tree.md rules R118, R119). -/
def State.TablesFit (s : State) (ws : List Work) : Prop :=
  match ws with
  | .treeNode :: rest =>
    s.treeValid = false ∧ tablesReady s.planValid true false rest = true ∧
      ∃ used, s.store.pending s.stack used ∧ s.store.inUse used
  | .treeSym i :: rest =>
    s.treeValid = false ∧ tablesReady s.planValid true false rest = true ∧
      ∃ used, s.store.pending s.stack used ∧ s.store.inUse (i :: used)
  | .treeSpare :: rest =>
    s.treeValid = false ∧ tablesReady s.planValid true false rest = true ∧ ∃ t, s.store.complete t
  | ws => tablesReady s.planValid s.treeValid (s.store == NodeStore.empty) ws = true

/-- How many bits the read that a step starts with needs (41_bitstream.md rule R93). -/
def readNeed : List Work → Nat
  | .readField w :: _ => w.toNat
  | .magic :: _ | .selector :: _ | .countFields (_ + 1) :: _ | .treeLen :: _ => 32
  | .treeSym _ :: _ => 9
  | _ => 0

/-- The state and the steps left to run fit. -/
structure State.Fits (s : State) (ws : List Work) : Prop where
  /-- The writer is open where it is written to (41_bitstream.md rules R86 to R90). -/
  writer : s.WriterFit ws
  /-- The tables are there where they are used (60_exceptions.md rule R161). -/
  tables : s.TablesFit ws
  /-- R_BUF is 0..7 between reads (41_bitstream.md rule R91); a longer read that holds may have more bits waiting. -/
  rBuf : s.reader.buf.length < 8 ∨ s.reader.buf.length < readNeed ws

/-- The parts of the invariant that hold at every moment of a command too. -/
structure State.Shape (s : State) : Prop where
  /-- "SEL_COUNTS ≠ SEL_TREE" (00_scope.md rule R7). -/
  selectors : s.cfg.selCounts ≠ s.cfg.selTree
  /-- No bit waits in a closed writer (41_bitstream.md rules R89, R90). -/
  closedEmpty : s.writer.closed = true → s.writer.buf = []
  /-- WBUF is "a bit string of 0..7 bits" (41_bitstream.md rule R85). -/
  wPend : s.writer.buf.length < 8
  /-- No bit waits in an exhausted reader (rule R92). -/
  exhaustedEmpty : s.reader.exh = true → s.reader.buf = []
  /-- A plan has its tree and its codes (10_state.md rule R28). -/
  planTables : s.planValid = true → s.treeValid = true ∧ s.codesValid = true
  /-- TREE_VALID = 1 means a complete tree is held (10_state.md rule R29). -/
  tree : s.TreeOk
  /-- CODES_VALID = 1 means the code table holds the codes of that tree (rule R29). -/
  codes : s.CodesOk
  /-- With CODES_VALID = 0 the code table is cleared (rules R42, R49). -/
  noCodes : s.codesValid = false → ∀ y, s.codeAt y = ⟨false, []⟩

/-- The invariant of the machine between steps. -/
structure State.Inv (s : State) : Prop extends s.Shape, s.Fits s.work where
  /-- With BUSY = 0 the phase is IDLE and no step is left (10_state.md rule R44). -/
  idle : s.busy = false → s.phase = .idle ∧ s.work = [] ∧ s.opened = false
  /-- With BUSY = 1 a command is in some phase, DONE = 0 and ERR = 0 (rules R25, R27, R44). -/
  running : s.busy = true → s.phase ≠ .idle ∧ s.done = false ∧ s.err = .none

end Sys2Proof.Machine
end

