-- ==== Sys2Proof/Certificates/Slice0/Obligations.lean ====
section
/-! DEFINITION. What is claimed of the model: one definition per statement of OBLIGATIONS.json. The statements are about
every state and operand that meet their hypotheses; none is about a program. -/

open Sys2Proof Sys2Proof.Machine

/-! ## Command words (30_encoding.md) -/

/-- Decoding the word of a well-formed command gives the command back, whatever its operands (rules R74, R75). -/
def Obligations.DecodeEncode : Prop :=
  ∀ i : Instr, i.WellFormed = true → decode (encode i) = .ok i

/-- A word that decodes is the word of the command it decodes to, and that command is well formed: every legal command
has one word (rules R74, R76). -/
def Obligations.EncodeDecode : Prop :=
  ∀ (w : Word) (i : Instr), decode w = .ok i → i.WellFormed = true ∧ encode i = w

/-- Rule R76: a word is legal when exactly one row selects it and, for BS_WRITE and BS_READ, WIDTH is in 1..32; the word
0, an OP not in the map, a reserved bit set, FMT = 2 or 3, a field that is not zero where the opcode does not use it,
and WIDTH = 0 or 33..63 are illegal; no two rows select the same word; and a write of an illegal word to CMD while the
HCE is idle is rejected with ILLEGAL_COMMAND (rules R78, R160, R161). That the rejection clears PQ, SEQ, BUDGET, CUR and
the traversal stack too is the model's choice of notes/assumptions/24.md. -/
def Obligations.LegalWords : Prop :=
  (∀ w : Word, legal w = true ↔
    ∃ r, rows.filter (fun r => r.selects w) = [r] ∧
      (r.op = .bsWrite ∨ r.op = .bsRead → 1 ≤ (w.extractLsb' 16 6).toNat ∧ (w.extractLsb' 16 6).toNat ≤ 32)) ∧
  (∀ w : Word,
    (w = 0#32 ∨
      w.extractLsb' 0 8 ∉ ([0x01#8, 0x02#8, 0x03#8, 0x10#8, 0x11#8, 0x12#8, 0x13#8, 0x14#8, 0x20#8, 0x21#8, 0x22#8,
        0x23#8] : List (BitVec 8)) ∨
      w.extractLsb' 11 5 ≠ 0#5 ∨ w.extractLsb' 22 10 ≠ 0#10 ∨
      w.extractLsb' 8 2 = 2#2 ∨ w.extractLsb' 8 2 = 3#2 ∨
      (w.extractLsb' 0 8 ≠ 0x01#8 ∧ w.extractLsb' 8 2 ≠ 0#2) ∨
      (w.extractLsb' 0 8 ≠ 0x02#8 ∧ w.getLsbD 10 = true) ∨
      (w.extractLsb' 0 8 ≠ 0x20#8 ∧ w.extractLsb' 0 8 ≠ 0x22#8 ∧ w.extractLsb' 16 6 ≠ 0#6) ∨
      ((w.extractLsb' 0 8 = 0x20#8 ∨ w.extractLsb' 0 8 = 0x22#8) ∧
        ((w.extractLsb' 16 6).toNat = 0 ∨ 33 ≤ (w.extractLsb' 16 6).toNat))) → legal w = false) ∧
  (∀ (w : Word) (r r' : Row), r ∈ rows → r' ∈ rows → r.selects w = true → r'.selects w = true → r = r') ∧
  (∀ (w : Word) (s : State) (es : List Event), legal w = false → s.busy = false → s.inReset = false →
    step { s with events := .busWrite 0x004#16 4 w :: es } =
      .next ({ s with
        events := es, accesses := s.accesses ++ [(Access.write 0x004#16 4 w, Reply.written)]
        cmdLast := w, ovr := false }.endsInError .illegalCommand))

/-- The example words of rule R74 decode to the commands it names. -/
def Obligations.SampleWords : Prop :=
  decode 0x00000001#32 = .ok (.estimate .counts) ∧ decode 0x00000101#32 = .ok (.estimate .tree) ∧
  decode 0x00000002#32 = .ok (.compress false) ∧ decode 0x00000402#32 = .ok (.compress true) ∧
  decode 0x00000003#32 = .ok .decompress ∧ decode 0x00000010#32 = .ok .ftCount ∧
  decode 0x00000011#32 = .ok .tbBuild ∧ decode 0x00000012#32 = .ok .ctGen ∧ decode 0x00000013#32 = .ok .hdrWrite ∧
  decode 0x00000014#32 = .ok .hdrRead ∧ decode 0x00080020#32 = .ok (.bsWrite 8#6) ∧
  decode 0x00200020#32 = .ok (.bsWrite 32#6) ∧ decode 0x00000021#32 = .ok .bsClose ∧
  decode 0x00010022#32 = .ok (.bsRead 1#6) ∧ decode 0x00200022#32 = .ok (.bsRead 32#6) ∧
  decode 0x00000023#32 = .ok .bsRreset

/-! ## Issuing a command -/

/-- A step runs the decoded command: a write to CMD of a word that decodes, while the HCE is idle and not in reset, is a
turn of the engine that is `exec` of that command in the state that rule R78 leaves before it: CMD_LAST and LCMD hold
the word, LARG holds ARG, OVR, ERR and DONE are 0 and BUSY is 1. A step with tokens placed on IN, with answers of the
sink or with time for the engine is a turn that goes on with a running command (rule R62). What a turn adds is the
record of the tokens the engine popped (rule R14), and those are tokens from the front of IN (rule R55). -/
def Obligations.StepRunsDecoded : Prop :=
  (∀ (s a : State) (es : List Event) (w : Word) (i : Instr), s.busy = false → s.inReset = false → decode w = .ok i →
    a = { s with
      events := es, accesses := s.accesses ++ [(.write 0x004#16 4 w, .written)]
      cmdLast := w, ovr := false, err := .none, done := false, opened := false, lcmd := w, larg := s.arg, busy := true } →
    step { s with events := .busWrite 0x004#16 4 w :: es } = a.turn (exec i a)) ∧
  (∀ (s a : State) (e : Event) (es : List Event),
    (∃ ts, e = .place ts ∧ a = { s with events := es, inq := s.inq ++ ts }) ∨
      (∃ as, e = .answers as ∧ a = { s with events := es, sink := { s.sink with script := s.sink.script ++ as } }) ∨
      (∃ r, e = .sinkRest r ∧ a = { s with events := es, sink := { s.sink with rest := r } }) ∨
      (∃ on, e = .stall on ∧ a = { s with events := es, stalled := on }) →
    step { s with events := e :: es } = a.turn (resume a)) ∧
  (∀ a t : State, (∃ i, exec i a = .next t) ∨ resume a = .next t →
    ∃ ps, a.inq = ps ++ t.inq ∧ a.turn (.next t) = .next { t with popped := a.popped ++ ps })

/-- From rule R161: what an error raised before a command changes any state leaves changed. A rejected word changes
CMD_LAST, OVR, DONE, ERR and RESULT; COMPRESS and HDR_WRITE without a plan and CT_GEN without a tree end with
ILLEGAL_USAGE, DONE = 1 and RESULT 0, touching no table, port, reader or writer. The rest of the state, an open output
stream too, is as it was, but for PQ, SEQ, BUDGET, CUR and the traversal stack: that both kinds of error, a rejected
word's and a missing plan's or tree's, clear these five too (rule R160's `Terminate`; rule R161 names STATUS and RESULT
alone) is the model's choice of notes/assumptions/24.md. -/
def Obligations.ErrorsBeforeAnyChange : Prop :=
  (∀ (w : Word) (s : State) (es : List Event), legal w = false → s.busy = false → s.inReset = false →
    step { s with events := .busWrite 0x004#16 4 w :: es } =
      .next { s with
        events := es, accesses := s.accesses ++ [(.write 0x004#16 4 w, .written)]
        cmdLast := w, ovr := false, done := true, err := .illegalCommand, result := 0#64
        busy := false, phase := .idle, work := [], opened := false
        pq := [], seq := 0, budget := 0, cur := 0, stack := [] }) ∧
  (∀ (i : Instr) (s : State), s.stalled = false →
    (s.planValid = false ∧ (i = .hdrWrite ∨ ∃ force, i = .compress force)) ∨ (s.treeValid = false ∧ i = .ctGen) →
    exec i s = .next { s with
      done := true, err := .illegalUsage, result := 0#64
      busy := false, phase := .idle, work := [], opened := false
      pq := [], seq := 0, budget := 0, cur := 0, stack := [] })

/-- Rule R26: a write to CMD while BUSY = 1 sets OVR and has no other effect, and the next write handled by rule R78
clears OVR, with a legal word or an illegal one. -/
def Obligations.CommandWhileBusy : Prop :=
  (∀ (s : State) (es : List Event) (w : Word), s.busy = true → s.inReset = false →
    step { s with events := .busWrite 0x004#16 4 w :: es } =
      .next { s with events := es, accesses := s.accesses ++ [(.write 0x004#16 4 w, .written)], ovr := true }) ∧
  (∀ (s t : State) (es : List Event) (w : Word), s.busy = false → s.inReset = false →
    step { s with events := .busWrite 0x004#16 4 w :: es } = .next t → t.ovr = false)

/-- From rule R32: the host's write of ARG stores the value, at any time, and nothing else; the engine copies it into
LARG when it accepts a command; the engine never writes ARG; its reset value is 0; and a write while a command runs does
not reach that command: the command goes on as without it. -/
def Obligations.ArgRegister : Prop :=
  (∀ (s : State) (es : List Event) (v : Word), s.inReset = false →
    step { s with events := .busWrite 0x00C#16 4 v :: es } =
      .next { s with events := es, accesses := s.accesses ++ [(.write 0x00C#16 4 v, .written)], arg := v }) ∧
  (∀ (s : State) (w : Word), (s.acceptWord w).larg = s.arg) ∧
  (∀ (i : Instr) (s t : State), exec i s = .next t → t.arg = s.arg) ∧
  (∀ (s t : State), resume s = .next t → t.arg = s.arg) ∧
  State.reset.arg = 0#32 ∧
  (∀ (s t : State) (v : Word), resume s = .next t → resume { s with arg := v } = .next { t with arg := v })

/-- From rule R75: the value operand of BS_WRITE is the low WIDTH bits of LARG, most significant first, and LARG's bits
above them are ignored: two values that agree in the low WIDTH bits give the same next state, but for LARG itself. -/
def Obligations.WriteOperandLowBits : Prop :=
  ∀ (s t : State) (width : BitVec 6) (v : Word), v.toNat % 2 ^ width.toNat = s.larg.toNat % 2 ^ width.toNat →
    exec (.bsWrite width) s = .next t →
    exec (.bsWrite width) { s with larg := v } = .next { t with larg := v }

/-! ## The register space (10_state.md, 20_memory.md) -/

/-- Rule R20: what the host reads at each offset of the register map while no command runs, an access changing nothing
but the record of accesses, and which offsets it can write: every offset but CMD and ARG ignores a write, and ARG holds
the value written (a write to CMD is `StepRunsDecoded`). -/
def Obligations.RegisterMap : Prop :=
  ∀ s : State, s.busy = false → s.inReset = false →
    s.Reads 0x000#16 0x48434531#32 ∧ s.Reads 0x004#16 s.cmdLast ∧ s.Reads 0x008#16 s.statusWord ∧
    s.Reads 0x00C#16 s.arg ∧
    s.Reads 0x010#16 (s.result.extractLsb' 0 32) ∧ s.Reads 0x014#16 (s.result.extractLsb' 32 32) ∧
    s.Reads 0x018#16 (s.writer.bits.extractLsb' 0 32) ∧ s.Reads 0x01C#16 (s.writer.bits.extractLsb' 32 32) ∧
    s.Reads 0x020#16 (s.reader.bits.extractLsb' 0 32) ∧ s.Reads 0x024#16 (s.reader.bits.extractLsb' 32 32) ∧
    s.Reads 0x028#16 (s.origBits.extractLsb' 0 32) ∧ s.Reads 0x02C#16 (s.origBits.extractLsb' 32 32) ∧
    s.Reads 0x030#16 (s.bodyBits.extractLsb' 0 32) ∧ s.Reads 0x034#16 (s.bodyBits.extractLsb' 32 32) ∧
    s.Reads 0x038#16 (s.planSaved.extractLsb' 0 32) ∧ s.Reads 0x03C#16 (s.planSaved.extractLsb' 32 32) ∧
    s.Reads 0x040#16 (BitVec.ofNat 32 (s.store.root.val * 2 ^ 16 + s.store.count.val)) ∧
    s.Reads 0x044#16 s.cfg.magic ∧ s.Reads 0x048#16 s.cfg.selCounts ∧ s.Reads 0x04C#16 s.cfg.selTree ∧
    (∀ b : Byte, s.Reads (BitVec.ofNat 16 (0x1000 + 4 * b.toNat)) s.freq[b.toNat]) ∧ s.Reads 0x1400#16 1#32 ∧
    (∀ y : Symbol, s.Reads (BitVec.ofNat 16 (0x2000 + 4 * y.val))
      (BitVec.ofBool (s.codeAt y).valid ++ 0#22 ++ BitVec.ofNat 9 (s.codeAt y).bits.length)) ∧
    (∀ (y : Symbol) (w : Fin 8), s.Reads (BitVec.ofNat 16 (0x4000 + 32 * y.val + 4 * w.val))
      (codeWord (s.codeAt y).bits w.val)) ∧
    (∀ i : NodeIx, i.val < s.store.count.val →
      s.Reads (BitVec.ofNat 16 (0x8000 + 16 * i.val))
        (if (s.store.node i).leaf then 1#1 ++ 0#22 ++ BitVec.ofNat 9 (s.store.node i).sym.val else 0#32) ∧
      s.Reads (BitVec.ofNat 16 (0x8000 + 16 * i.val + 4)) ((s.store.node i).nfreq.extractLsb' 0 32) ∧
      s.Reads (BitVec.ofNat 16 (0x8000 + 16 * i.val + 8)) ((s.store.node i).nfreq.extractLsb' 32 32) ∧
      s.Reads (BitVec.ofNat 16 (0x8000 + 16 * i.val + 12))
        (if (s.store.node i).leaf then 0#32
         else BitVec.ofNat 32 ((s.store.node i).right.val * 2 ^ 16 + (s.store.node i).left.val))) ∧
    (∀ i : NodeIx, s.store.count.val ≤ i.val → ∀ k : Fin 4, s.Reads (BitVec.ofNat 16 (0x8000 + 16 * i.val + 4 * k.val)) 0#32) ∧
    (∀ n : Nat, reservedWord n = true → s.Reads (BitVec.ofNat 16 (4 * n)) 0#32) ∧
    (∀ n : Nat, n < 0x4000 → n ≠ 1 → n ≠ 3 → s.Ignores (BitVec.ofNat 16 (4 * n))) ∧
    (∀ (es : List Event) (v : Word), step { s with events := .busWrite 0x00C#16 4 v :: es } =
      .next { s with events := es, accesses := s.accesses ++ [(.write 0x00C#16 4 v, .written)], arg := v })

/-- Rule R23: the fields of STATUS, one by one, its reserved bits 0, its reset value, and that a bus write to it changes
nothing. -/
def Obligations.StatusFields : Prop :=
  (∀ s : State,
    s.statusWord.extractLsb' 0 1 = BitVec.ofBool s.busy ∧ s.statusWord.extractLsb' 1 1 = BitVec.ofBool s.done ∧
    s.statusWord.extractLsb' 2 1 = BitVec.ofBool s.ovr ∧ s.statusWord.extractLsb' 3 1 = 0#1 ∧
    s.statusWord.extractLsb' 4 4 = s.err.code ∧ s.statusWord.extractLsb' 8 1 = BitVec.ofBool s.planValid ∧
    s.statusWord.extractLsb' 9 1 = (match s.planFmt with | .counts => 0#1 | .tree => 1#1) ∧
    s.statusWord.extractLsb' 10 1 = BitVec.ofBool s.treeValid ∧
    s.statusWord.extractLsb' 11 1 = BitVec.ofBool s.codesValid ∧
    s.statusWord.extractLsb' 12 1 = BitVec.ofBool s.writer.closed ∧
    s.statusWord.extractLsb' 13 3 = BitVec.ofNat 3 s.writer.buf.length ∧
    s.statusWord.extractLsb' 16 1 = BitVec.ofBool s.reader.exh ∧
    s.statusWord.extractLsb' 17 3 = BitVec.ofNat 3 s.reader.buf.length ∧ s.statusWord.extractLsb' 20 12 = 0#12) ∧
  State.reset.statusWord = 0x00001000#32 ∧
  (∀ s : State, s.inReset = false → s.Ignores 0x008#16)

/-- From rule R42: the host view of a code: bit k of the code (k = 0 the first bit emitted) is at word k div 32, bit
position 31 - (k mod 32), and positions past the code read 0. -/
def Obligations.CodeBitsView : Prop :=
  ∀ (bits : Bits) (k : Nat), k < 256 →
    (codeWord bits (k / 32)).getLsbD (31 - k % 32) = bits.getD k false

/-- From rule R57: bit k of a stream is bit 7 - (k mod 8) of its byte k div 8, for the writer's packing and for the
reader's unpacking. -/
def Obligations.BitOrder : Prop :=
  (∀ (bits : Bits) (n k : Nat), k < 8 * n →
    ((packBytes n bits).getD (k / 8) 0#8).getLsbD (7 - k % 8) = bits.getD k false) ∧
  (∀ (bs : List Byte) (k : Nat), k < 8 * bs.length →
    (streamBits bs).getD k false = (bs.getD (k / 8) 0#8).getLsbD (7 - k % 8))

/-- Rules R21 and R40: ID reads 0x48434531 and the CFG registers read the parameters, whether a command runs or not, and
no step changes a parameter. -/
def Obligations.IdAndParameters : Prop :=
  (∀ s : State, s.inReset = false →
    s.Reads 0x000#16 0x48434531#32 ∧ s.Reads 0x044#16 s.cfg.magic ∧ s.Reads 0x048#16 s.cfg.selCounts ∧
    s.Reads 0x04C#16 s.cfg.selTree) ∧
  (∀ s t : State, step s = .next t → t.cfg = s.cfg)

/-- What reads return while a command runs (rule R61), with the model's choices of notes/assumptions/7.md, 8.md and
9.md: STATUS shows BUSY, DONE and OVR and reserved bits 0; ID, CMD, ARG and the CFG registers their values; a reserved
offset 0; and every other register a free draw, FREQ[256] too. -/
def Obligations.ReadsWhileBusy : Prop :=
  ∀ s : State, s.busy = true → s.inReset = false →
    (∀ es, ∃ v : Word, step { s with events := .busRead 0x008#16 4 :: es } =
        .next { s with
          events := es, accesses := s.accesses ++ [(.read 0x008#16 4, .data v)], draws := s.draws + 1 } ∧
      v.getLsbD 0 = true ∧ v.getLsbD 1 = s.done ∧ v.getLsbD 2 = s.ovr ∧ v &&& 0xFFF00008#32 = 0#32) ∧
    s.Reads 0x000#16 0x48434531#32 ∧ s.Reads 0x004#16 s.cmdLast ∧ s.Reads 0x00C#16 s.arg ∧
    s.Reads 0x044#16 s.cfg.magic ∧ s.Reads 0x048#16 s.cfg.selCounts ∧ s.Reads 0x04C#16 s.cfg.selTree ∧
    (∀ n : Nat, reservedWord n = true → s.Reads (BitVec.ofNat 16 (4 * n)) 0#32) ∧
    (∀ (n : Nat) (es : List Event), n < 0x4000 → n ∉ ([0x00, 0x01, 0x02, 0x03, 0x11, 0x12, 0x13] : List Nat) →
      reservedWord n = false →
      step { s with events := .busRead (BitVec.ofNat 16 (4 * n)) 4 :: es } =
        .next { s with
          events := es
          accesses := s.accesses ++ [(.read (BitVec.ofNat 16 (4 * n)) 4, .data (Config.freeRead s.draws))]
          draws := s.draws + 1 })

/-- Rule R52: an access that is not 32 bits wide or not at a multiple of 4 gets a bus error, returns no data and changes
no state. -/
def Obligations.BusErrors : Prop :=
  ∀ (s : State) (es : List Event) (off : Offset) (size : Nat), s.inReset = false →
    (size ≠ 4 ∨ off.extractLsb' 0 2 ≠ 0#2) →
    step { s with events := .busRead off size :: es } =
      .next { s with events := es, accesses := s.accesses ++ [(.read off size, .busError)] } ∧
    ∀ v, step { s with events := .busWrite off size v :: es } =
      .next { s with events := es, accesses := s.accesses ++ [(.write off size v, .busError)] }

/-- Rule R53: a reserved offset reads 0; a write to a reserved offset or to a read-only register is ignored without a
bus error, and a write to ARG does no more than store its value; reserved bits of a register read 0; no read has a side
effect (the draw counter is the model's own), and with no command running a read gives the same value again. -/
def Obligations.NoSideEffects : Prop :=
  (∀ (s : State) (n : Nat), s.inReset = false → reservedWord n = true → s.Reads (BitVec.ofNat 16 (4 * n)) 0#32) ∧
  (∀ (s : State) (n : Nat), s.inReset = false → n < 0x4000 → n ≠ 1 → n ≠ 3 → s.Ignores (BitVec.ofNat 16 (4 * n))) ∧
  (∀ (s : State) (es : List Event) (v : Word), s.inReset = false →
    step { s with events := .busWrite 0x00C#16 4 v :: es } =
      .next { s with events := es, accesses := s.accesses ++ [(.write 0x00C#16 4 v, .written)], arg := v }) ∧
  (∀ s : State, s.statusWord &&& 0xFFF00008#32 = 0#32 ∧ s.store.nodesWord &&& 0xFC00FC00#32 = 0#32) ∧
  (∀ (s : State) (y : Symbol), (s.codeAt y).lenWord &&& 0x7FFFFE00#32 = 0#32) ∧
  (∀ n : Node, n.word 0 &&& 0x7FFFFE00#32 = 0#32 ∧ n.word 3 &&& 0xFC00FC00#32 = 0#32) ∧
  (∀ (s : State) (es : List Event) (off : Offset) (size : Nat), ∃ (r : Reply) (d : Nat),
    step { s with events := .busRead off size :: es } =
      .next { s with events := es, accesses := s.accesses ++ [(.read off size, r)], draws := d }) ∧
  (∀ (s t u : State) (es : List Event) (off : Offset) (size : Nat), s.busy = false →
    step { s with events := .busRead off size :: .busRead off size :: es } = .next t → step t = .next u →
    ∃ r, u.accesses = s.accesses ++ [(.read off size, r), (.read off size, r)])

/-- A hold is kept by everything but the ports and reset (rule R62): a host access, a WAIT or the host's taking tokens
off IN leaves a running command where it is; and with nothing happening outside, nothing happens inside. -/
def Obligations.HoldIsKept : Prop :=
  (∀ (s t : State) (e : Event) (es : List Event), s.busy = true →
    (∃ off size, e = .busRead off size) ∨ (∃ off size v, e = .busWrite off size v) ∨ e = .wait ∨ (∃ n, e = .discard n) →
    step { s with events := e :: es } = .next t →
    ∃ ev d r o a q, t = { s with events := ev, draws := d, accesses := r, ovr := o, arg := a, inq := q } ∧
      ((∀ n, e ≠ .discard n) → q = s.inq)) ∧
  (∀ s : State, s.events = [] → step s = .next s)

/-- WAIT (rule R81): one 32-bit read of STATUS, with the word that such a read returns in this state, and the same again
while bit 0 of that word reads 1; with no command running the word is STATUS. -/
def Obligations.WaitPolls : Prop :=
  ∀ (s : State) (es : List Event), ∃ (v : Word) (d : Nat),
    step { s with events := .busRead 0x008#16 4 :: es } =
      .next { s with events := es, accesses := s.accesses ++ [(.read 0x008#16 4, .data v)], draws := d } ∧
    step { s with events := .wait :: es } = .next { s with
      events := if v.getLsbD 0 then .wait :: es else es
      accesses := s.accesses ++ [(.read 0x008#16 4, .data v)], draws := d } ∧
    (s.inReset = false → v.getLsbD 0 = s.busy ∧ (s.busy = false → v = s.statusWord ∧ d = s.draws))

/-! ## Reset (70_reset_and_hazards.md) -/

/-- From rule R175: while reset is asserted reads return 0 and writes are ignored (of the accesses rule R52 defines);
when it is released every piece of the HCE's state holds its reset value and STATUS reads 0x00001000; the parameters are
not changed, no IN token is popped and no OUT token pushed. What else stays, the outside world's side of the state, is
the model's choice of notes/assumptions/21.md; that a release of an input that was not asserted does the same is that of
notes/assumptions/27.md. -/
def Obligations.ResetAsserted : Prop :=
  (∀ (s : State) (es : List Event) (off : Offset), s.inReset = true → off.extractLsb' 0 2 = 0#2 →
    step { s with events := .busRead off 4 :: es } =
      .next { s with events := es, accesses := s.accesses ++ [(.read off 4, .data 0#32)] } ∧
    ∀ v, step { s with events := .busWrite off 4 v :: es } =
      .next { s with events := es, accesses := s.accesses ++ [(.write off 4 v, .written)] }) ∧
  (∀ (s : State) (es : List Event),
    step { s with events := .reset false :: es } = .next { State.reset with
      cfg := s.cfg, inq := s.inq, popped := s.popped, sink := s.sink, events := es, accesses := s.accesses
      stalled := s.stalled, draws := s.draws }) ∧
  State.reset.statusWord = 0x00001000#32 ∧ State.reset.freqAt Config.pseudoEof = 1#32

/-- From rules R175 and R176: reset abandons a running command at once: no termination, no `Abort` and no `End` is
pushed, the error code is 0, the plan, the tree and the streams are lost, the tokens on IN stay, and of the sink's
record only the token that was offered and not answered may or may not be added (as answered `ok`, the model's choice of
notes/assumptions/10.md). That every register named here (DONE, ERR, the reader and the writer with RBITS and WBITS, …)
holds its reset value as soon as reset is ASSERTED, in every state and not in a running one alone, and that the records
of accesses and tokens stay, is the model's choice of notes/assumptions/21.md (DEDUCED): rule R175 gives the values at
the release, and rule R176 says of ERR that nothing writes it. -/
def Obligations.ResetDuringCommand : Prop :=
  ∀ (s : State) (es : List Event), ∃ t, step { s with events := .reset true :: es } = .next t ∧
    t.busy = false ∧ t.done = false ∧ t.err = .none ∧ t.phase = .idle ∧ t.work = [] ∧ t.planValid = false ∧
    t.treeValid = false ∧ t.codesValid = false ∧ t.writer = ⟨true, [], 0#64⟩ ∧ t.reader = ⟨false, [], 0#64⟩ ∧
    t.inReset = true ∧ t.inq = s.inq ∧ t.popped = s.popped ∧ t.cfg = s.cfg ∧ t.events = es ∧ t.accesses = s.accesses ∧
    (t.sink = s.sink ∨
      s.busy = true ∧ ∃ o, t.sink = { s.sink with taken := s.sink.taken ++ [(o, .ok)] } ∧
        ((∃ b rest, o = .byte b ∧ s.work = .offer b :: rest) ∨ (∃ rest, o = .eos ∧ s.work = .offerEnd :: rest) ∨
          ∃ e rest, o = .abort ∧ s.work = .abort e :: rest))

/-- From rule R49: the reset value of every piece of state. -/
def Obligations.ResetValues : Prop :=
  State.reset.cmdLast = 0#32 ∧ State.reset.busy = false ∧ State.reset.done = false ∧ State.reset.ovr = false ∧
  State.reset.err = .none ∧ State.reset.planValid = false ∧ State.reset.planFmt = .counts ∧
  State.reset.treeValid = false ∧ State.reset.codesValid = false ∧
  State.reset.writer = ⟨true, [], 0#64⟩ ∧ State.reset.reader = ⟨false, [], 0#64⟩ ∧
  State.reset.arg = 0#32 ∧ State.reset.result = 0#64 ∧ State.reset.origBits = 0#64 ∧ State.reset.bodyBits = 0#64 ∧
  State.reset.planSaved = 0#64 ∧ State.reset.store.count = 0 ∧ State.reset.store.root = 0 ∧
  (∀ i, State.reset.store.node i = ⟨false, 0, 0#64, 0, 0⟩) ∧
  (∀ b : Byte, State.reset.freqAt (symbolOfByte b) = 0#32) ∧ State.reset.freqAt 256 = 1#32 ∧
  (∀ y, State.reset.codeAt y = ⟨false, []⟩) ∧ State.reset.phase = .idle ∧ State.reset.pq = [] ∧ State.reset.seq = 0 ∧
  State.reset.lcmd = 0#32 ∧ State.reset.larg = 0#32 ∧ State.reset.budget = 0 ∧ State.reset.cur = 0 ∧
  State.reset.stack = []

/-! ## The bit streams (41_bitstream.md) -/

/-- From rule R95: BS_WRITE opens a stream if none is open and appends the low WIDTH bits of LARG, most significant
first; RESULT and everything but the writer and OUT is unchanged. When the sink answers `fail` to a byte, the command
ends with IO_ERROR, the writer closed, no `Abort`. WIDTH outside 1..32 does not decode. -/
def Obligations.BsWrite : Prop :=
  (∀ (s : State) (width : BitVec 6), s.stalled = false → widthLegal width = true →
    s.opensIfClosed.CanWrite (binN width.toNat s.larg.toNat) →
    exec (.bsWrite width) s =
      .next (s.opensIfClosed.written (binN width.toNat s.larg.toNat)).endsQuietly) ∧
  (∀ (s : State) (width : BitVec 6) (j : Nat), s.stalled = false → widthLegal width = true →
    s.opensIfClosed.FailsAt (binN width.toNat s.larg.toNat) j →
    exec (.bsWrite width) s =
      .next ((s.opensIfClosed.failed (binN width.toNat s.larg.toNat) j).endsInError .ioError)) ∧
  (∀ width : BitVec 6, (width.toNat = 0 ∨ 33 ≤ width.toNat) →
    decode (0x00000020#32 ||| (width.setWidth 32 <<< 16)) = .error .width)

/-- From rule R96: BS_CLOSE pads and pushes the partial byte, if there is one, then `End`, once; with no stream open it
does nothing; RESULT and WBITS are unchanged; a `fail` of the sink ends it with IO_ERROR. -/
def Obligations.BsClose : Prop :=
  ∀ s : State, s.stalled = false →
    (s.writer.closed = true → exec .bsClose s = .next s.endsQuietly) ∧
    (s.writer.closed = false → s.writer.buf.length < 8 → s.sink.accepts s.closingTokens.length = true →
      exec .bsClose s = .next { s with
        writer := ⟨true, [], s.writer.bits⟩
        sink := s.sink.take (outBytes (closedBytes s.writer.buf) ++ [OutToken.eos]) }.endsQuietly) ∧
    (s.writer.closed = false → s.writer.buf ≠ [] → s.sink.answerAt 0 = some .fail →
      exec .bsClose s = .next ({ s with
        writer := ⟨true, [], s.writer.bits⟩
        sink := s.sink.record (.byte (byteOf s.writer.buf)) .fail }.endsInError .ioError)) ∧
    (s.writer.closed = false → s.writer.buf.length < 8 → s.sink.accepts (s.closingTokens.length - 1) = true →
      s.sink.answerAt (s.closingTokens.length - 1) = some .fail →
      exec .bsClose s = .next ({ s with
        writer := ⟨true, [], s.writer.bits⟩
        sink := (s.sink.take (outBytes (closedBytes s.writer.buf))).record .eos .fail }.endsInError .ioError))

/-- From rule R97, with rules R92 and R93: BS_READ returns the next WIDTH bits as an unsigned integer, popping no token
ahead of need; -1, with the left-over bits dropped and the reader exhausted, when the stream ends first, and with no
token popped when it was exhausted before; IO_ERROR when an `Error` token comes first; and it holds while IN is
empty. -/
def Obligations.BsRead : Prop :=
  ∀ (s : State) (width : BitVec 6) (bs : List Byte) (rest : List InToken), s.stalled = false →
    widthLegal width = true → s.reader.buf.length < 8 →
    (s.reader.exh = true → exec (.bsRead width) s = .next (s.endsWith (-1))) ∧
    (∀ bits, bits.length = width.toNat → s.Carries bits bs rest →
      exec (.bsRead width) s = .next ((s.afterBits bs rest width.toNat).endsWith (valueOf bits))) ∧
    (s.reader.exh = false → s.inq = inBytes bs ++ .eos :: rest → s.reader.buf.length + 8 * bs.length < width.toNat →
      exec (.bsRead width) s =
        .next ({ s with inq := rest, reader := ⟨true, [], s.reader.bits⟩ }.endsWith (-1))) ∧
    (s.reader.exh = false → s.inq = inBytes bs ++ .error :: rest → s.reader.buf.length + 8 * bs.length < width.toNat →
      exec (.bsRead width) s =
        .next ({ s with inq := rest, reader := ⟨true, [], s.reader.bits⟩ }.endsInError .ioError)) ∧
    (s.reader.exh = false → s.inq = inBytes bs → s.reader.buf.length + 8 * bs.length < width.toNat →
      exec (.bsRead width) s = .next { s with
        inq := [], reader := ⟨false, s.reader.buf ++ streamBits bs, s.reader.bits⟩
        phase := .bitio, opened := false, work := [.readField width] })

/-- From rule R98: BS_RRESET drops the buffered bits and clears R_EXH and RBITS; it pops nothing and leaves RESULT and
everything else unchanged. -/
def Obligations.BsRreset : Prop :=
  ∀ s : State, s.stalled = false → exec .bsRreset s = .next s.freshReader.endsQuietly

/-! ## Counting (42_frequency.md) -/

/-- From rules R106 to R108: FT_COUNT clears the tables, resets the reader and counts the stream up to its `End`: each
FREQ entry is its byte's count, ORIG_BITS and RESULT are 8 times the bytes. A byte whose count is 2^32 - 1 ends it with
COUNT_OVERFLOW, an `Error` token with IO_ERROR: FREQ keeps the counts before it, ORIG_BITS its old value, the tokens
after it stay on IN. -/
def Obligations.FtCount : Prop :=
  ∀ (s : State) (bs : List Byte) (rest : List InToken), s.stalled = false → Countable bs →
    (s.inq = inBytes bs ++ .eos :: rest →
      exec .ftCount s = .next ((s.counted bs rest).endsWith (8 * bs.length))) ∧
    (∀ b : Byte, bs.count b = 2 ^ 32 - 1 → s.inq = inBytes bs ++ .byte b :: rest →
      exec .ftCount s = .next ((s.tallied bs rest).endsInError .countOverflow)) ∧
    (s.inq = inBytes bs ++ .error :: rest →
      exec .ftCount s = .next ((s.tallied bs rest).endsInError .ioError))

/-! ## The tree (43_tree.md) -/

/-- The order of the queue (rule R110): `PQRemoveMin` removes the one entry that is least by key, then by insertion
number; `PQInsert` adds an entry with the next insertion number. -/
def Obligations.QueueOrder : Prop :=
  (∀ (b b' : Builder) (e : PqEntry), (b.pq.map (·.seq)).Nodup → b.removeMin = some (e, b') →
    b.pq.Perm (e :: b'.pq) ∧ b'.store = b.store ∧ b'.seq = b.seq ∧
    ∀ x ∈ b'.pq, e.key < x.key ∨ (e.key = x.key ∧ e.seq < x.seq)) ∧
  (∀ (b : Builder) (i : NodeIx) (k : Nat), b.insert i k = ⟨b.store, b.pq ++ [⟨k, b.seq, i⟩], b.seq + 1⟩)

/-- TB_BUILD (rule R120) clears the tree, the codes and the plan, builds the tree from FREQ (rule R115) and returns the
number of leaves; FREQ, the ports, the writer, the reader and the counters are unchanged. That SEQ keeps its count after
the build is the model's choice of notes/assumptions/13.md. -/
def Obligations.TbBuild : Prop :=
  ∀ (s c : State), s.stalled = false →
    c = { s with
      planValid := false, treeValid := false, codesValid := false, codes := Vector.replicate 257 ⟨false, []⟩
      store := NodeStore.empty } →
    exec .tbBuild s = .next (c.buildTree.endsWith ((symbols.filter fun y => s.freqAt y != 0#32).length : Nat))

/-- Rule R113, with the indices of rule R114 and the merges of rule R112, of the tree TB_BUILD leaves, with L the number
of symbols with a positive frequency: a complete full binary tree with L leaves and L - 1 internal nodes, every leaf at
most L - 1 deep; leaves at 0..L-1 in ascending symbol order with NFREQ = FREQ[sym]; internal nodes at L..2L-2, each
after its children, its NFREQ their sum; ROOT = 2 L - 2 and NODE_COUNT = 2 L - 1; and with L = 1 the root is the
pseudo-EOF leaf. Each merge takes the two nodes that come first, by frequency and then by insertion number, which is the
index, of those that have no parent yet: the first becomes LEFT, the second RIGHT. -/
def Obligations.BuiltTree : Prop :=
  ∀ (s t : State) (ys : List Symbol), s.stalled = false → ys = symbols.filter (fun y => s.freqAt y != 0#32) →
    exec .tbBuild s = .next t →
    t.treeValid = true ∧ 1 ≤ ys.length ∧ ys.length ≤ 257 ∧
    t.store.count.val + 1 = 2 * ys.length ∧ t.store.root.val + 2 = 2 * ys.length ∧
    (∃ tree, t.store.complete tree ∧ tree.leaves = ys.length ∧ tree.size = 2 * ys.length - 1 ∧
      tree.depth ≤ ys.length - 1 ∧ (∀ y, y ∈ tree.paths.map (·.1) ↔ y ∈ ys) ∧ (tree.paths.map (·.1)).Nodup) ∧
    (∀ (k : Nat) (y : Symbol), ys[k]? = some y → ∃ i : NodeIx, i.val = k ∧
      t.store.node i = ⟨true, y, (s.freqAt y).setWidth 64, 0, 0⟩) ∧
    (∀ i : NodeIx, ys.length ≤ i.val → i.val < t.store.count.val →
      (t.store.node i).leaf = false ∧ (t.store.node i).left.val < i.val ∧ (t.store.node i).right.val < i.val ∧
      (t.store.node i).nfreq.toNat = (t.store.node (t.store.node i).left).nfreq.toNat +
        (t.store.node (t.store.node i).right).nfreq.toNat ∧
      (t.store.node i).nfreq.toNat ≤ 256 * (2 ^ 32 - 1) + 1 ∧
      t.store.unmerged i (t.store.node i).left ∧ t.store.unmerged i (t.store.node i).right ∧
      t.store.before (t.store.node i).left (t.store.node i).right ∧
      ∀ j, t.store.unmerged i j → j ≠ (t.store.node i).left → j ≠ (t.store.node i).right →
        t.store.before (t.store.node i).right j) ∧
    (ys.length = 1 → t.store.node 0 = ⟨true, Config.pseudoEof, 1#64, 0, 0⟩ ∧ t.store.root = 0)

/-! ## The codes (44_codetable.md) -/

/-- From rule R127, with rule R125: CT_GEN without a tree ends with ILLEGAL_USAGE; with the tree `t` in the node store
it clears the plan and writes each symbol's code, the path of its leaf (of several the one visited last), and BODY_BITS
and RESULT with the sum of frequency times code length. FREQ, the tree, the ports, the writer and the reader are
unchanged. That ILLEGAL_USAGE clears PQ, SEQ, BUDGET, CUR and the traversal stack (rule R160; rule R161 names STATUS and
RESULT alone) is the model's choice of notes/assumptions/24.md. -/
def Obligations.CtGen : Prop :=
  ∀ s : State, s.stalled = false →
    (s.treeValid = false → exec .ctGen s = .next (s.endsInError .illegalUsage)) ∧
    (∀ t : HTree, s.treeValid = true → s.store.complete t →
      exec .ctGen s = .next ({ s with
        planValid := false, codesValid := true, codes := t.codeTable
        bodyBits := BitVec.ofNat 64 (bodyCost s.freqAt t) }.endsWith (bodyCost s.freqAt t)))

/-- What rule R126 derives, of the code table CT_GEN leaves: no code of a symbol is the beginning of another's; in a
tree of two or more leaves every code is non-empty; in the one-leaf tree the pseudo-EOF code is the empty string; and
BODY_BITS is the sum of frequency times code length, below 2^49. -/
def Obligations.PrefixFreeCodes : Prop :=
  ∀ (s s' : State) (t : HTree), s.stalled = false → s.treeValid = true → s.store.complete t →
    exec .ctGen s = .next s' →
    (∀ y z : Symbol, (s'.codeAt y).valid = true → (s'.codeAt z).valid = true →
      (s'.codeAt y).bits <+: (s'.codeAt z).bits → y = z) ∧
    (2 ≤ t.leaves → ∀ y : Symbol, (s'.codeAt y).valid = true → (s'.codeAt y).bits ≠ []) ∧
    (t = .leaf Config.pseudoEof → s'.codeAt Config.pseudoEof = ⟨true, []⟩) ∧
    s'.bodyBits.toNat = bodyCost s.freqAt t ∧ bodyCost s.freqAt t < 2 ^ 49

/-! ## Headers (45_header.md) -/

/-- From rule R137: HDR_WRITE without a plan ends with ILLEGAL_USAGE; with a plan it appends the preamble and the header
of the plan's format to the open stream, or to a new one, and returns the number of bits written; the plan is unchanged
and the stream stays open; a `fail` of the sink ends it with IO_ERROR. That ILLEGAL_USAGE clears PQ, SEQ, BUDGET, CUR
and the traversal stack (rule R160; rule R161 names STATUS and RESULT alone) is the model's choice of
notes/assumptions/24.md. -/
def Obligations.HdrWrite : Prop :=
  ∀ s : State, s.stalled = false →
    (s.planValid = false → exec .hdrWrite s = .next (s.endsInError .illegalUsage)) ∧
    (∀ (t : HTree) (bits : Bits), s.planValid = true → s.store.complete t →
      bits = headerOf s.cfg s.planFmt s.freq t → s.opensIfClosed.CanWrite bits →
      exec .hdrWrite s = .next ({ s.opensIfClosed.written bits with mark := s.opensIfClosed.writer.bits }.endsWith
        bits.length)) ∧
    (∀ (t : HTree) (bits : Bits) (j : Nat), s.planValid = true → s.store.complete t →
      bits = headerOf s.cfg s.planFmt s.freq t → s.opensIfClosed.FailsAt bits j →
      exec .hdrWrite s = .next ({ s.opensIfClosed.failed bits j with mark := s.opensIfClosed.writer.bits }.endsInError
        .ioError))

/-- HDR_READ (rule R138) of a preamble and a CountsFormat header (rules R134, R135), at any bit position of the stream:
FREQ holds the counts, the tree is the one built from them, and RESULT is 8256; the tokens after the header stay on IN.
That SEQ keeps its count after the build is the model's choice of notes/assumptions/13.md. -/
def Obligations.HdrReadCounts : Prop :=
  ∀ (s c : State) (freq : Vector Word 256) (bits : Bits) (bs : List Byte) (rest : List InToken), s.stalled = false →
    s.cfg.selCounts ≠ s.cfg.selTree → bits = headerOf s.cfg .counts freq (.leaf 0) → s.Carries bits bs rest →
    c = { s.cleared.afterBits bs rest bits.length with freq := freq, mark := s.reader.bits } →
    bits.length = 8256 ∧ exec .hdrRead s = .next (c.buildTree.endsWith 8256)

/-- HDR_READ (rule R138) of a preamble and a TreeFormat header (rules R134, R136, R118, R119) that declares the tree's
bits and `spare` more, at any bit position of the stream: the store holds the tree, its nodes at their pre-order indices
with NFREQ = 0, the declared bits are consumed, FREQ stays cleared, and RESULT is 96 plus the declared length. -/
def Obligations.HdrReadTree : Prop :=
  ∀ (s : State) (t : HTree) (spare bits : Bits) (bs : List Byte) (rest : List InToken), s.stalled = false →
    s.cfg.selCounts ≠ s.cfg.selTree → t.decodable = true → t.size ≤ Config.nodeCap →
    t.bits.length + spare.length < 2 ^ 32 →
    bits = binN 32 s.cfg.magic.toNat ++ binN 32 s.cfg.selTree.toNat ++ binN 32 (t.bits.length + spare.length) ++ t.bits ++
      spare →
    s.Carries bits bs rest →
    ∃ st : NodeStore, st.complete t ∧ st.root = 0 ∧
      (st.indices 0 t).map (·.val) = List.range t.size ∧ (∀ i, (st.node i).nfreq = 0#64) ∧
      exec .hdrRead s = .next ({ s.cleared.afterBits bs rest bits.length with
        store := st, treeValid := true, stack := [], budget := 0, mark := s.reader.bits }.endsWith
          (96 + t.bits.length + spare.length : Nat))

/-- INVALID_MAGIC (rule R134): a magic field that differs from MAGIC, or a stream that ends inside it, ends HDR_READ and
DECOMPRESS, with "no tree build, no body read" (an `Error` inside it is IO_ERROR, rule R164); so does HDR_READ with an
exhausted reader, which pops nothing (rule R138). HDR_READ touches no output; DECOMPRESS, whose stream was opened,
pushes only `Abort`, no byte (rules R152, R162). -/
def Obligations.InvalidMagic : Prop :=
  (∀ (s x : State) (bits : Bits) (bs : List Byte) (rest : List InToken), s.stalled = false →
    bits.length = 32 → valueOf bits ≠ s.cfg.magic.toNat → x.Carries bits bs rest →
    s.HeaderRaises x (x.afterBits bs rest 32) .invalidMagic) ∧
  (∀ (s x : State) (bs : List Byte) (tok : InToken) (rest : List InToken), s.stalled = false →
    x.CutAt [] 32 bs tok rest → s.HeaderRaises x (x.cut rest 0) (cutError tok .invalidMagic)) ∧
  (∀ s : State, s.stalled = false → s.reader.exh = true →
    exec .hdrRead s = .next ({ s.cleared with mark := s.reader.bits }.endsInError .invalidMagic))

/-! ## Compressing (46_compressor.md) -/

/-- From rule R141, with rule R140: ESTIMATE counts the stream, builds the tree and its codes, and makes the plan:
PLAN_SAVED and RESULT are the stream's bits less the header, the body and the 64 bits of the preamble. COUNT_OVERFLOW
and IO_ERROR leave no plan, the counts so far and RESULT = 0. The writer and OUT are not touched. That SEQ keeps its
count after the build is the model's choice of notes/assumptions/13.md. -/
def Obligations.Estimate : Prop :=
  ∀ (s : State) (fmt : Fmt) (bs : List Byte) (rest : List InToken), s.stalled = false → Countable bs →
    (s.inq = inBytes bs ++ .eos :: rest →
      ∃ (t : HTree) (saved : Int), (s.counted bs rest).buildTree.store.complete t ∧
        t.leaves = (symbols.filter fun y => (s.counted bs rest).freqAt y != 0#32).length ∧
        saved = 8 * bs.length - ((match fmt with | .counts => 8192 | .tree => 32 + (11 * t.leaves - 1)) +
          bodyCost (s.counted bs rest).freqAt t + 64 : Nat) ∧
        exec (.estimate fmt) s = .next ({ (s.counted bs rest).buildTree with
          codes := t.codeTable, codesValid := true
          bodyBits := BitVec.ofNat 64 (bodyCost (s.counted bs rest).freqAt t)
          planSaved := BitVec.ofInt 64 saved, planFmt := fmt, planValid := true }.endsWith saved)) ∧
    (∀ b : Byte, bs.count b = 2 ^ 32 - 1 → s.inq = inBytes bs ++ .byte b :: rest →
      exec (.estimate fmt) s = .next ((s.tallied bs rest).endsInError .countOverflow)) ∧
    (s.inq = inBytes bs ++ .error :: rest →
      exec (.estimate fmt) s = .next ((s.tallied bs rest).endsInError .ioError))

/-- Rule R143: a COMPRESS whose plan has PLAN_SAVED < 0 is refused when FORCE = 0: it ends without an error, RESULT =
PLAN_SAVED, and touches neither port nor the reader nor the writer nor anything else; the plan stays. A plan with
PLAN_SAVED = 0 or more, and FORCE = 1, are not refused: the command goes on to reset the reader. -/
def Obligations.CompressRefused : Prop :=
  (∀ s : State, s.stalled = false → s.planValid = true → s.planSaved.toInt < 0 →
    exec (.compress false) s = .next { s with result := s.planSaved }.endsQuietly) ∧
  (∀ (s t : State) (force : Bool), s.stalled = false → s.planValid = true →
    0 ≤ s.planSaved.toInt ∨ force = true → exec (.compress force) s = .next t → t.reader = ⟨false, [], 0#64⟩)

/-- COMPRESS (rules R144, R145): with a plan that is not refused, or forced, it ends the open stream, opens a new one,
writes the header of the plan's format, the code of each byte of the stream and the pseudo-EOF code, pads and ends the
stream, and returns the bits written without the pad. The plan and the tables are unchanged. -/
def Obligations.CompressWrites : Prop :=
  ∀ (s : State) (force : Bool) (t : HTree) (bs : List Byte) (rest : List InToken) (bits : Bits), s.stalled = false →
    s.planValid = true → 0 ≤ s.planSaved.toInt ∨ force = true →
    s.store.complete t → (∀ y, s.codeAt y = t.codeOf y) → t.covers bs → s.inq = inBytes bs ++ .eos :: rest →
    bits = headerOf s.cfg s.planFmt s.freq t ++ bodyOf t bs → bits.length < 2 ^ 63 → s.writer.buf.length < 8 →
    s.sink.accepts (s.closingTokens ++ outBytes (closedBytes bits) ++ [OutToken.eos]).length = true →
    exec (.compress force) s = .next ({ s.freshReader with
      inq := rest, writer := ⟨true, [], BitVec.ofNat 64 bits.length⟩
      sink := s.sink.take (s.closingTokens ++ outBytes (closedBytes bits) ++ [OutToken.eos]) }.endsWith bits.length)

/-- A byte without a code ends COMPRESS with ILLEGAL_USAGE and an `Error` token with IO_ERROR (rule R145): the bytes
before it are encoded, the partial byte is discarded, and the stream ends with `Abort`, not `End` (rule R162). -/
def Obligations.CompressFails : Prop :=
  ∀ (s : State) (force : Bool) (t : HTree) (bs : List Byte) (rest : List InToken) (bits : Bits) (a : Answer)
    (x : InToken) (e : ErrCode), s.stalled = false →
    s.planValid = true → 0 ≤ s.planSaved.toInt ∨ force = true →
    s.store.complete t → (∀ y, s.codeAt y = t.codeOf y) →
    (∀ b ∈ bs, (t.codeOf (symbolOfByte b)).valid = true) →
    (x = .error ∧ e = .ioError) ∨
      (∃ b : Byte, x = .byte b ∧ (t.codeOf (symbolOfByte b)).valid = false ∧ e = .illegalUsage) →
    s.inq = inBytes bs ++ x :: rest →
    bits = headerOf s.cfg s.planFmt s.freq t ++ bs.flatMap (fun b => (t.codeOf (symbolOfByte b)).bits) →
    bits.length < 2 ^ 63 → s.writer.buf.length < 8 →
    s.sink.accepts (s.closingTokens.length + bits.length / 8) = true →
    s.sink.answerAt (s.closingTokens.length + bits.length / 8) = some a →
    exec (.compress force) s =
      .next (({ s.freshReader.reopened with inq := rest }.written bits).abortsWith e a)

/-- Savings accuracy (rule R140): for a stream of the content its ESTIMATE counted, COMPRESS returns the stream's bits
less the saving ESTIMATE returned. -/
def Obligations.SavingsAccuracy : Prop :=
  ∀ (s s₁ s₂ : State) (fmt : Fmt) (force : Bool) (bs : List Byte) (rest : List InToken) (k : Sink), s.stalled = false →
    Countable bs → s.writer.buf.length < 8 → s.inq = inBytes bs ++ .eos :: rest →
    exec (.estimate fmt) s = .next s₁ → 0 ≤ s₁.result.toInt ∨ force = true → k.script = [] → k.rest = some .ok →
    exec (.compress force) { s₁ with inq := inBytes bs ++ .eos :: rest, sink := k } = .next s₂ →
    s₂.busy = false ∧ s₂.err = s.err ∧ s₂.result.toInt = 8 * bs.length - s₁.result.toInt

/-! ## Decompressing (47_decompressor.md) -/

/-- DECOMPRESS (rules R151, R152) of a container of the bytes `xs` in either format, with the tokens `rest` after its
last byte: it ends the open stream, opens a new one, writes `xs` and `End`, and returns the bits written. The body walks
to any leaf of each symbol, where a transmitted tree holds several (I21), not only to the one its code names. No bit is
read after the pseudo-EOF's leaf: RBITS is the container's length without its pad and `rest` stays on IN. The tree it
rebuilt is held, no plan and no codes are. -/
def Obligations.Decompress : Prop :=
  ∀ (s : State) (fmt : Fmt) (freq : Vector Word 256) (t : HTree) (xs : List Byte) (body last bits : Bits)
    (rest : List InToken),
    s.stalled = false → s.cfg.selCounts ≠ s.cfg.selTree → Transmits fmt freq t →
    t.Spells xs body → (Config.pseudoEof, last) ∈ t.paths →
    bits = headerOf s.cfg fmt freq t ++ body ++ last → bits.length < 2 ^ 63 → xs.length < 2 ^ 59 →
    s.inq = inBytes (closedBytes bits) ++ rest → s.writer.buf.length < 8 →
    s.sink.accepts (s.closingTokens ++ outBytes xs ++ [OutToken.eos]).length = true →
    ∃ s' : State, exec .decompress s = .next s' ∧
      s'.sink = s.sink.take (s.closingTokens ++ outBytes xs ++ [OutToken.eos]) ∧
      s'.writer = ⟨true, [], BitVec.ofNat 64 (8 * xs.length)⟩ ∧ s'.result = BitVec.ofNat 64 (8 * xs.length) ∧
      s'.inq = rest ∧ s'.reader = (s.freshReader.afterBits (closedBytes bits) rest bits.length).reader ∧
      s'.busy = false ∧ s'.done = true ∧ s'.err = s.err ∧ s'.phase = .idle ∧
      s'.store.complete t ∧ s'.treeValid = true ∧ s'.codesValid = false ∧ s'.planValid = false ∧
      s'.freq = (match fmt with | .counts => freq | .tree => Vector.replicate 256 0#32)

/-- A container whose body stops inside a code ends DECOMPRESS with CORRUPT_STREAM where its stream ends with `End`
(rule R151), and with IO_ERROR where it ends with `Error` (rule R164): the bytes decoded so far were written, the stream
ends with `Abort` and never with `End`, and RESULT is 0 (rules R152, R160, R162). The body walks to any leaf of each
symbol, where a transmitted tree holds several (I21). -/
def Obligations.CorruptStream : Prop :=
  ∀ (s : State) (fmt : Fmt) (freq : Vector Word 256) (t : HTree) (xs : List Byte) (body cut more bits : Bits)
    (bs : List Byte) (tok : InToken) (rest : List InToken) (y : Symbol) (a : Answer),
    s.stalled = false → s.cfg.selCounts ≠ s.cfg.selTree → Transmits fmt freq t →
    t.Spells xs body → (y, cut ++ more) ∈ t.paths → more ≠ [] →
    bits = headerOf s.cfg fmt freq t ++ body ++ cut → bits.length < 2 ^ 63 → xs.length < 2 ^ 59 →
    bits = streamBits bs → s.inq = inBytes bs ++ tok :: rest → tok = .eos ∨ tok = .error →
    s.writer.buf.length < 8 →
    s.sink.accepts (s.closingTokens ++ outBytes xs).length = true →
    s.sink.answerAt (s.closingTokens ++ outBytes xs).length = some a →
    ∃ s' : State, exec .decompress s = .next s' ∧
      s'.sink = (s.sink.take (s.closingTokens ++ outBytes xs)).record .abort a ∧
      s'.writer = ⟨true, [], BitVec.ofNat 64 (8 * xs.length)⟩ ∧ s'.result = 0#64 ∧
      s'.err = cutError tok .corruptStream ∧
      s'.inq = rest ∧ s'.reader = ⟨true, [], BitVec.ofNat 64 bits.length⟩ ∧ s'.busy = false ∧ s'.done = true ∧
      s'.store.complete t ∧ s'.treeValid = true

/-- The round trip: ESTIMATE of a stream in either format, COMPRESS with FORCE of the same stream, and DECOMPRESS of the
bytes that COMPRESS wrote give the stream back, for every stream whose counts fit, the empty one too. -/
def Obligations.RoundTrip : Prop :=
  ∀ (s : State) (fmt : Fmt) (xs : List Byte) (k₁ k₂ : Sink), s.stalled = false → s.writer.closed = true →
    s.writer.buf.length < 8 → s.cfg.selCounts ≠ s.cfg.selTree → s.err = .none → Countable xs →
    k₁.script = [] → k₁.rest = some .ok → k₁.taken = [] → k₂.script = [] → k₂.rest = some .ok → k₂.taken = [] →
    ∃ (s₁ s₂ s₃ : State) (cs : List Byte),
      exec (.estimate fmt) { s with inq := inBytes xs ++ [.eos] } = .next s₁ ∧
      exec (.compress true) { s₁ with inq := inBytes xs ++ [.eos], sink := k₁ } = .next s₂ ∧
      s₂.err = .none ∧ s₂.busy = false ∧ s₂.sink.taken = (outBytes cs ++ [OutToken.eos]).map (fun o => (o, .ok)) ∧
      exec .decompress { s₂ with inq := inBytes cs ++ [.eos], sink := k₂ } = .next s₃ ∧
      s₃.err = .none ∧ s₃.busy = false ∧ s₃.sink.taken = (outBytes xs ++ [OutToken.eos]).map (fun o => (o, .ok)) ∧
      s₃.result = BitVec.ofNat 64 (8 * xs.length)

/-! ## Whole-machine rules -/

/-- From rule R160, of every command that ends with an error, at its first turn or after holds: RESULT = 0, DONE = 1,
the phase IDLE, PQ, SEQ, BUDGET, CUR and the stack cleared. -/
def Obligations.ErrorEnds : Prop :=
  ∀ (i : Instr) (s₀ s t : State), s₀.err = .none → Turn i s₀ s t → t.busy = false → t.err ≠ .none →
    t.result = 0#64 ∧ t.done = true ∧ t.phase = .idle ∧ t.pq = [] ∧ t.seq = 0 ∧ t.budget = 0 ∧ t.cur = 0 ∧
    t.stack = [] ∧ t.work = []

/-- From rule R159: the errors each command can end with, once its word was accepted, at its first turn or after
holds. -/
def Obligations.ErrorTable : Prop :=
  ∀ (i : Instr) (s₀ s t : State), s₀.err = .none → Turn i s₀ s t →
    t.err ∈ (.none :: match i with
      | .bsWrite _ => [ErrCode.ioError]
      | .bsClose => [.ioError]
      | .bsRead _ => [.ioError]
      | .bsRreset => []
      | .ftCount => [.ioError, .countOverflow]
      | .tbBuild => []
      | .ctGen => [.illegalUsage]
      | .hdrWrite => [.illegalUsage, .ioError]
      | .hdrRead => [.invalidMagic, .unknownHeaderFormat, .ioError, .malformedHeader]
      | .estimate _ => [.ioError, .countOverflow]
      | .compress _ => [.illegalUsage, .ioError]
      | .decompress => [.invalidMagic, .unknownHeaderFormat, .corruptStream, .ioError, .malformedHeader])

/-- From rule R162: of a COMPRESS or DECOMPRESS started with no stream open, a sink that took an `End`, at whichever
turn of the command, has a complete container or a complete decoded stream: the command ended without an error. -/
def Obligations.NoFalseEnd : Prop :=
  ∀ (i : Instr) (s₀ s t : State), (i = .decompress ∨ ∃ force, i = .compress force) → s₀.writer.closed = true →
    s₀.err = .none → Turn i s₀ s t →
    ∃ new, t.sink.taken = s₀.sink.taken ++ new ∧ ((.eos, .ok) ∈ new → t.busy = false ∧ t.err = .none)

/-- From rule R187, with rule R142, of every turn of a command that gets time, its first and those after holds:
FT_COUNT, TB_BUILD, HDR_READ and DECOMPRESS leave no plan, nor does CT_GEN; ESTIMATE leaves one only when it ended
without an error; the other commands keep the plan and all its tables, whether they end with an error or not. (CT_GEN
without a tree is a precondition error; the invariant says that no plan is held then.) -/
def Obligations.PlanLifecycle : Prop :=
  ∀ (i : Instr) (s₀ s t : State), s₀.Shape → s.stalled = false → s₀.err = .none → Turn i s₀ s t →
    match i with
    | .ftCount | .tbBuild | .ctGen | .hdrRead | .decompress => t.planValid = false
    | .estimate _ => t.planValid = true → t.busy = false ∧ t.err = .none
    | .bsWrite _ | .bsClose | .bsRead _ | .bsRreset | .hdrWrite | .compress _ =>
      t.planValid = s₀.planValid ∧ t.planFmt = s₀.planFmt ∧ t.planSaved = s₀.planSaved ∧ t.freq = s₀.freq ∧
      t.store = s₀.store ∧ t.codes = s₀.codes ∧ t.treeValid = s₀.treeValid ∧ t.codesValid = s₀.codesValid ∧
      t.origBits = s₀.origBits ∧ t.bodyBits = s₀.bodyBits

/-- From rules R36 to R38, of every turn of a command: ORIG_BITS is written by FT_COUNT and ESTIMATE alone, BODY_BITS by
CT_GEN and ESTIMATE alone, PLAN_SAVED (and PLAN_FMT) by a successful ESTIMATE alone. -/
def Obligations.CounterWriters : Prop :=
  ∀ (i : Instr) (s₀ s t : State), s₀.err = .none → Turn i s₀ s t →
    (i ≠ .ftCount → (∀ fmt, i ≠ .estimate fmt) → t.origBits = s₀.origBits) ∧
    (i ≠ .ctGen → (∀ fmt, i ≠ .estimate fmt) → t.bodyBits = s₀.bodyBits) ∧
    ((∀ fmt, i ≠ .estimate fmt) ∨ t.err ≠ .none ∨ t.busy = true →
      t.planSaved = s₀.planSaved ∧ t.planFmt = s₀.planFmt)

/-- The frame of the commands without an output stream: every turn of FT_COUNT, TB_BUILD, CT_GEN, ESTIMATE, HDR_READ,
BS_READ and BS_RRESET leaves the writer and the sink as they were, however the command ends or holds. -/
def Obligations.OutputFrame : Prop :=
  ∀ (i : Instr) (s₀ s t : State),
    i = .ftCount ∨ i = .tbBuild ∨ i = .ctGen ∨ (∃ fmt, i = .estimate fmt) ∨ i = .hdrRead ∨ (∃ w, i = .bsRead w) ∨
      i = .bsRreset →
    Turn i s₀ s t → t.writer = s.writer ∧ t.sink = s.sink

/-- The frame of the commands without an input stream: no turn of TB_BUILD, CT_GEN, HDR_WRITE, BS_WRITE, BS_CLOSE or
BS_RRESET pops a token, and all but BS_RRESET's leave the reader as it was. -/
def Obligations.InputFrame : Prop :=
  ∀ (i : Instr) (s₀ s t : State),
    i = .tbBuild ∨ i = .ctGen ∨ i = .hdrWrite ∨ (∃ w, i = .bsWrite w) ∨ i = .bsClose ∨ i = .bsRreset →
    Turn i s₀ s t → t.inq = s.inq ∧ (i ≠ .bsRreset → t.reader = s.reader)

/-- The frame of every command on the host's side, at its first turn and at those that take it up after a hold: no
command writes the parameters, CMD_LAST, OVR, ARG or the latches, and none touches the outside world's pending actions
or the records of accesses and of popped tokens (the step adds to the latter). -/
def Obligations.HostFrame : Prop :=
  ∀ s t : State, (∃ i, exec i s = .next t) ∨ resume s = .next t →
    t.cfg = s.cfg ∧ t.cmdLast = s.cmdLast ∧ t.ovr = s.ovr ∧ t.arg = s.arg ∧ t.lcmd = s.lcmd ∧ t.larg = s.larg ∧
    t.inReset = s.inReset ∧ t.events = s.events ∧ t.accesses = s.accesses ∧ t.popped = s.popped ∧
    t.stalled = s.stalled

/-- From rule R185: a command that gets time ends if its ports cooperate: TB_BUILD, CT_GEN and BS_RRESET always;
BS_WRITE, BS_CLOSE and HDR_WRITE when the sink answers every token; BS_READ, HDR_READ, FT_COUNT and ESTIMATE when IN
holds an `End` or `Error`; COMPRESS when it is refused, and COMPRESS and DECOMPRESS when both hold. -/
def Obligations.CommandsEnd : Prop :=
  ∀ (i : Instr) (s : State), s.Shape → s.reader.buf.length < 8 → s.stalled = false →
    (match i with
      | .tbBuild | .ctGen | .bsRreset => True
      | .bsWrite _ | .bsClose | .hdrWrite => s.sink.answersAll = true
      | .bsRead _ | .hdrRead | .ftCount | .estimate _ => endsStream s.inq = true
      | .compress force =>
        (s.planSaved.toInt < 0 ∧ force = false) ∨ (endsStream s.inq = true ∧ s.sink.answersAll = true)
      | .decompress => endsStream s.inq = true ∧ s.sink.answersAll = true) →
    ∃ t, exec i s = .next t ∧ t.busy = false ∧ t.done = true

/-- When tokens and answers arrive does not matter (rules R55, R56, R62, R184): a command that gets the tokens `ts` on
IN and the sink's answers `as`, then `r`, only after a turn, and is then taken up, comes to the state it comes to when
all of them were there before that turn. So a command that held, at IN or at OUT, goes on with what was left and nothing
else: no bit, byte or token is lost, repeated or moved, and the same errors end it, with the same `Abort`. The first
clause is of a turn that takes up a command that held, the second of a command's first turn, in the state that its
acceptance leaves. Answers can come later only to a sink that has none of its own after its script. -/
def Obligations.TokenTiming : Prop :=
  ∀ (s t : State) (ts : List InToken) (as : List Answer) (r : Option Answer),
    s.sink.rest = none ∨ as = [] ∧ r = s.sink.rest →
    (s.Inv → resume s = .next t →
      ∃ u, resume (s.given ts as r) = .next u ∧ resume (t.given ts as r) = .next u) ∧
    (∀ i : Instr, s.Shape → s.reader.buf.length < 8 → s.busy = true → s.done = false → s.err = .none →
      exec i s = .next t → ∃ u, exec i (s.given ts as r) = .next u ∧ resume (t.given ts as r) = .next u)

/-- The invariant holds right after reset. -/
def Obligations.ResetInv : Prop := State.reset.Inv

/-- Every step keeps the invariant: the writer's and the reader's buffers keep their bounds and are empty in a closed
writer and an exhausted reader (rules R85, R89, R91, R92), TREE_VALID and CODES_VALID mean what rule R29 says, a plan
has its tree and codes (rule R28), the phase is IDLE exactly while no command runs (rule R44), and what is left of a
held command fits the state. -/
def Obligations.StepKeepsInv : Prop := ∀ s t : State, s.Inv → step s = .next t → t.Inv

/-- In the invariant the machine never stops: every step gives a next state, so no walk of the node store is endless and
every instruction has its effect. -/
def Obligations.NeverStops : Prop := ∀ s : State, s.Inv → ∃ t, step s = .next t

/-! ## Error ends of the header and of a failing sink -/

/-- UNKNOWN_HEADER_FORMAT (rule R134): after the magic, a selector field that is neither SEL_COUNTS nor SEL_TREE, or a
stream that ends inside it, ends HDR_READ and DECOMPRESS (an `Error` inside it is IO_ERROR, rule R164): tables cleared,
no tree, RBITS the bits read before. -/
def Obligations.UnknownFormat : Prop :=
  (∀ (s x : State) (f : Bits) (bs : List Byte) (rest : List InToken), s.stalled = false →
    f.length = 32 → valueOf f ≠ s.cfg.selCounts.toNat → valueOf f ≠ s.cfg.selTree.toNat →
    x.Carries (binN 32 s.cfg.magic.toNat ++ f) bs rest →
    s.HeaderRaises x (x.afterBits bs rest 64) .unknownHeaderFormat) ∧
  (∀ (s x : State) (bs : List Byte) (tok : InToken) (rest : List InToken), s.stalled = false →
    x.CutAt (binN 32 s.cfg.magic.toNat) 32 bs tok rest →
    s.HeaderRaises x (x.cut rest 32) (cutError tok .unknownHeaderFormat))

/-- MALFORMED_HEADER (rules R118, R119, R135, R136) ends HDR_READ and DECOMPRESS: a stream that ends inside a count
field (FREQ keeps the counts read), the length field, a node's bit, a leaf's symbol or the spare bits (an `Error` there
is IO_ERROR, rule R164); a tree that needs a node or a symbol past its declared length `n`, a 514th node, a symbol above
256, or whose root is the leaf of a real symbol, found once all the declared bits were read. The nodes allocated so far
stay in the store (rule R163). -/
def Obligations.MalformedHeader : Prop :=
  (∀ (s x : State) (cs : List Word) (bs : List Byte) (tok : InToken) (rest : List InToken), s.stalled = false →
    s.cfg.selCounts ≠ s.cfg.selTree → cs.length < 256 →
    x.CutAt (binN 32 s.cfg.magic.toNat ++ binN 32 s.cfg.selCounts.toNat ++ cs.flatMap fun c => binN 32 c.toNat) 32 bs tok
      rest →
    s.HeaderRaises x { x.cut rest (64 + 32 * cs.length) with freq := Vector.ofFn fun i => cs.getD i.val 0#32 }
      (cutError tok .malformedHeader)) ∧
  (∀ (s x : State) (bs : List Byte) (tok : InToken) (rest : List InToken), s.stalled = false →
    s.cfg.selCounts ≠ s.cfg.selTree →
    x.CutAt (binN 32 s.cfg.magic.toNat ++ binN 32 s.cfg.selTree.toNat) 32 bs tok rest →
    s.HeaderRaises x (x.cut rest 64) (cutError tok .malformedHeader)) ∧
  (∀ (s x : State) (n : Nat) (ns : List (Option Symbol)) (pre : Bits) (bs : List Byte) (rest : List InToken),
    s.stalled = false → s.cfg.selCounts ≠ s.cfg.selTree → n < 2 ^ 32 → staysOpen 1 ns = true →
    (ns.flatMap nodeBits).length ≤ n → ns.length ≤ Config.nodeCap → pre = treePreamble s.cfg n ++ ns.flatMap nodeBits →
    ((ns.flatMap nodeBits).length = n → x.Carries pre bs rest →
      ∃ st : NodeStore, st.holdsNodes ns 0 ∧
        s.HeaderRaises x { x.afterBits bs rest pre.length with store := st } .malformedHeader) ∧
    (∀ tok, (ns.flatMap nodeBits).length < n → x.CutAt pre 1 bs tok rest →
      ∃ st : NodeStore, st.holdsNodes ns 0 ∧
        s.HeaderRaises x { x.cut rest pre.length with store := st } (cutError tok .malformedHeader)) ∧
    (∀ b, (ns.flatMap nodeBits).length < n → ns.length = Config.nodeCap → x.Carries (pre ++ [b]) bs rest →
      ∃ st : NodeStore, st.holdsNodes ns 0 ∧
        s.HeaderRaises x { x.afterBits bs rest (pre.length + 1) with store := st } .malformedHeader) ∧
    ((ns.flatMap nodeBits).length < n → n < (ns.flatMap nodeBits).length + 10 → ns.length < Config.nodeCap →
      x.Carries (pre ++ [true]) bs rest →
      ∃ st : NodeStore, st.holdsNodes ns 1 ∧
        s.HeaderRaises x { x.afterBits bs rest (pre.length + 1) with store := st } .malformedHeader) ∧
    (∀ tok, (ns.flatMap nodeBits).length + 10 ≤ n → ns.length < Config.nodeCap → x.CutAt (pre ++ [true]) 9 bs tok rest →
      ∃ st : NodeStore, st.holdsNodes ns 1 ∧
        s.HeaderRaises x { x.cut rest (pre.length + 1) with store := st } (cutError tok .malformedHeader)) ∧
    (∀ y, 256 < y → y < 512 → (ns.flatMap nodeBits).length + 10 ≤ n → ns.length < Config.nodeCap →
      x.Carries (pre ++ true :: binN 9 y) bs rest →
      ∃ st : NodeStore, st.holdsNodes ns 1 ∧
        s.HeaderRaises x { x.afterBits bs rest (pre.length + 10) with store := st } .malformedHeader)) ∧
  (∀ (s x : State) (t : HTree) (n : Nat) (spare pre : Bits) (bs : List Byte) (rest : List InToken),
    s.stalled = false → s.cfg.selCounts ≠ s.cfg.selTree → n < 2 ^ 32 → t.size ≤ Config.nodeCap →
    pre = treePreamble s.cfg n ++ t.bits ++ spare →
    (∀ y, t = .leaf y → y ≠ Config.pseudoEof → n = 10 + spare.length → x.Carries pre bs rest →
      ∃ st : NodeStore, st.complete t ∧ st.root = 0 ∧
        s.HeaderRaises x { x.afterBits bs rest pre.length with store := st } .malformedHeader) ∧
    (∀ tok, t.bits.length + spare.length < n → x.CutAt pre 1 bs tok rest →
      ∃ st : NodeStore, st.complete t ∧ st.root = 0 ∧
        s.HeaderRaises x { x.cut rest pre.length with store := st } (cutError tok .malformedHeader)))

/-- The sink answers `fail` during a COMPRESS or a DECOMPRESS (rule R162): the writer closes with no bit pending,
nothing more is pushed, no `Abort` either, and the command ends with IO_ERROR and RESULT 0. It can fail on the tokens by
which `WOpen` ends an open stream, on a byte of the container (`pre` was written and `chunk`, the header or a code, is
being written), on the padded byte or the `End` of the container, on a decoded byte, and on the `End` after them. -/
def Obligations.SinkFails : Prop :=
  (∀ (s : State) (force : Bool) (before : List OutToken) (x : OutToken), s.stalled = false → s.writer.buf.length < 8 →
    s.sink.FailsOn s.closingTokens before x →
    (s.planValid = true → 0 ≤ s.planSaved.toInt ∨ force = true →
      exec (.compress force) s = .next ((s.freshReader.closeFailed before x).endsInError .ioError)) ∧
    exec .decompress s = .next ((s.cleared.freshReader.closeFailed before x).endsInError .ioError)) ∧
  (∀ (s w : State) (force : Bool) (t : HTree) (xs : List Byte) (pre chunk : Bits) (q : List InToken), s.stalled = false →
    s.planValid = true → 0 ≤ s.planSaved.toInt ∨ force = true → s.store.complete t → (∀ y, s.codeAt y = t.codeOf y) →
    s.writer.buf.length < 8 → s.sink.accepts s.closingTokens.length = true →
    s.freshReader.reopened.CanWrite pre → w = { s.freshReader.reopened with inq := q }.written pre →
    (∀ b ∈ xs, (t.codeOf (symbolOfByte b)).valid = true) →
    (∀ j, (pre = [] ∧ chunk = headerOf s.cfg s.planFmt s.freq t ∧ s.inq = q) ∨
        (pre = headerOf s.cfg s.planFmt s.freq t ++ xs.flatMap (fun b => (t.codeOf (symbolOfByte b)).bits) ∧
          ((∃ b, (t.codeOf (symbolOfByte b)).valid = true ∧ chunk = (t.codeOf (symbolOfByte b)).bits ∧
              s.inq = inBytes xs ++ .byte b :: q) ∨
            (chunk = (t.codeOf Config.pseudoEof).bits ∧ s.inq = inBytes xs ++ .eos :: q))) →
      w.FailsAt chunk j → exec (.compress force) s = .next ((w.failed chunk j).endsInError .ioError)) ∧
    (∀ before x, pre = headerOf s.cfg s.planFmt s.freq t ++ bodyOf t xs → s.inq = inBytes xs ++ .eos :: q →
      w.sink.FailsOn w.closingTokens before x →
      exec (.compress force) s = .next ((w.closeFailed before x).endsInError .ioError))) ∧
  (∀ (s : State) (fmt : Fmt) (freq : Vector Word 256) (t : HTree) (xs : List Byte) (body code bits : Bits) (o : OutToken)
    (n : Nat) (bs : List Byte) (rest : List InToken), s.stalled = false → s.cfg.selCounts ≠ s.cfg.selTree →
    Transmits fmt freq t → t.Spells xs body →
    (∃ b, o = .byte b ∧ (symbolOfByte b, code) ∈ t.paths ∧ n = xs.length + 1) ∨
      (o = .eos ∧ (Config.pseudoEof, code) ∈ t.paths ∧ n = xs.length) →
    bits = headerOf s.cfg fmt freq t ++ body ++ code →
    bits.length < 2 ^ 63 → xs.length < 2 ^ 59 → s.freshReader.Carries bits bs rest → s.writer.buf.length < 8 →
    s.sink.accepts (s.closingTokens ++ outBytes xs).length = true →
    s.sink.answerAt (s.closingTokens ++ outBytes xs).length = some .fail →
    ∃ s' : State, exec .decompress s = .next s' ∧
      s'.sink = (s.sink.take (s.closingTokens ++ outBytes xs)).record o .fail ∧
      s'.writer = ⟨true, [], BitVec.ofNat 64 (8 * n)⟩ ∧ s'.result = 0#64 ∧ s'.err = .ioError ∧
      s'.inq = (s.freshReader.afterBits bs rest bits.length).inq ∧
      s'.reader = (s.freshReader.afterBits bs rest bits.length).reader ∧ s'.busy = false ∧ s'.done = true ∧
      s'.phase = .idle ∧ s'.store.complete t ∧ s'.treeValid = true)
end

