-- ==== Sys2Proof/Laws/Bits.lean ====
section
/-! SUPPORT. Bit strings: lengths, values, and the round trip between a field and its bits. -/

namespace Sys2Proof.Machine

@[simp] theorem binN_length (n v : Nat) : (binN n v).length = n := by
  induction n with
  | zero => rfl
  | succ k ih => simp [binN, ih]

@[simp] theorem bitsOfByte_length (b : Byte) : (bitsOfByte b).length = 8 := by simp [bitsOfByte]

@[simp] theorem padTo_length (n : Nat) (bs : Bits) : (padTo n bs).length = max n bs.length := by
  simp only [padTo, List.length_append, List.length_replicate]; omega

theorem padTo_of_le {n : Nat} {bs : Bits} (h : n ≤ bs.length) : padTo n bs = bs := by
  simp [padTo, Nat.sub_eq_zero_of_le h]

theorem valueOf_foldl (bs : Bits) (a : Nat) :
    bs.foldl (fun acc b => 2 * acc + bitValue b) a = a * 2 ^ bs.length + valueOf bs := by
  induction bs generalizing a with
  | nil => simp [valueOf]
  | cons b bs ih =>
    simp only [valueOf, List.foldl_cons, List.length_cons]
    rw [ih, ih (2 * 0 + bitValue b)]
    ring

@[simp] theorem valueOf_nil : valueOf [] = 0 := rfl

theorem valueOf_cons (b : Bool) (bs : Bits) : valueOf (b :: bs) = bitValue b * 2 ^ bs.length + valueOf bs := by
  have h := valueOf_foldl bs (2 * 0 + bitValue b)
  simpa [valueOf] using h

theorem valueOf_append (as bs : Bits) : valueOf (as ++ bs) = valueOf as * 2 ^ bs.length + valueOf bs := by
  simp only [valueOf, List.foldl_append]
  exact valueOf_foldl bs _

theorem bitValue_le_one (b : Bool) : bitValue b ≤ 1 := by cases b <;> simp [bitValue]

theorem valueOf_lt (bs : Bits) : valueOf bs < 2 ^ bs.length := by
  induction bs with
  | nil => simp
  | cons b bs ih =>
    have hb := bitValue_le_one b
    rw [valueOf_cons, List.length_cons, Nat.pow_succ]
    nlinarith

/-- The value of an N-bit field is the number its bits were taken from, cut to N bits (00_scope.md rule R10). -/
theorem valueOf_binN (n v : Nat) : valueOf (binN n v) = v % 2 ^ n := by
  induction n with
  | zero => simp [binN, Nat.mod_one]
  | succ k ih =>
    rw [binN, valueOf_cons, ih, binN_length, Nat.mod_pow_succ, bitValue, Nat.testBit_eq_decide_div_mod_eq]
    rcases Nat.mod_two_eq_zero_or_one (v / 2 ^ k) with h | h <;> simp [h]; omega

theorem binN_valueOf (bs : Bits) : binN bs.length (valueOf bs) = bs := by
  induction bs with
  | nil => rfl
  | cons b bs ih =>
    have hlt := valueOf_lt bs
    have hmod : ∀ (n v w : Nat), v % 2 ^ n = w % 2 ^ n → binN n v = binN n w := by
      intro n
      induction n with
      | zero => intros; rfl
      | succ k ihk =>
        intro v w h
        have hk : v % 2 ^ k = w % 2 ^ k := by
          have := congrArg (· % 2 ^ k) h
          simpa [Nat.mod_mod_of_dvd _ (Nat.pow_dvd_pow 2 (Nat.le_succ k))] using this
        have hb : v.testBit k = w.testBit k := by
          have := congrArg (fun x => x.testBit k) h
          simpa [Nat.testBit_mod_two_pow] using this
        rw [binN, binN, ihk v w hk, hb]
    rw [List.length_cons, binN, valueOf_cons]
    congr 1
    · rw [Nat.testBit_eq_decide_div_mod_eq, Nat.add_comm, Nat.add_mul_div_right _ _ (Nat.two_pow_pos _),
        Nat.div_eq_of_lt hlt]
      cases b <;> simp [bitValue]
    · rw [← ih]
      rw [ih]
      refine (hmod _ _ (valueOf bs) ?_).trans ih
      rw [Nat.add_comm, Nat.add_mul_mod_self_right]

/-- A byte made of 8 bits has those bits (20_memory.md rule R57). -/
theorem bitsOfByte_byteOf {bs : Bits} (h : bs.length = 8) : bitsOfByte (byteOf bs) = bs := by
  have hp : padTo 8 bs = bs := padTo_of_le (by omega)
  have hv := valueOf_lt bs
  rw [h] at hv
  rw [bitsOfByte, byteOf, hp, BitVec.toNat_ofNat, Nat.mod_eq_of_lt hv, ← h]
  exact binN_valueOf bs

/-- The byte of a byte's bits is that byte. -/
theorem byteOf_bitsOfByte (b : Byte) : byteOf (bitsOfByte b) = b := by
  have hp : padTo 8 (bitsOfByte b) = bitsOfByte b := padTo_of_le (by simp)
  rw [byteOf, hp, bitsOfByte, valueOf_binN]
  apply BitVec.eq_of_toNat_eq
  simp [Nat.mod_eq_of_lt b.isLt]

@[simp] theorem streamBits_nil : streamBits [] = [] := rfl

@[simp] theorem streamBits_cons (b : Byte) (bs : List Byte) : streamBits (b :: bs) = bitsOfByte b ++ streamBits bs := rfl

@[simp] theorem streamBits_length (bs : List Byte) : (streamBits bs).length = 8 * bs.length := by
  induction bs with
  | nil => rfl
  | cons b bs ih => simp [ih]; omega

@[simp] theorem packBytes_zero (bs : Bits) : packBytes 0 bs = [] := rfl

@[simp] theorem packBytes_length (n : Nat) (bs : Bits) : (packBytes n bs).length = n := by simp [packBytes]

/-- The first byte of a packed stream is its first 8 bits. -/
theorem packBytes_succ (n : Nat) (bs : Bits) : packBytes (n + 1) bs = byteOf (bs.take 8) :: packBytes n (bs.drop 8) := by
  simp only [packBytes, List.range_succ_eq_map, List.map_cons, List.map_map, Nat.mul_zero, List.drop_zero]
  congr 1
  apply List.map_congr_left
  intro k _
  simp [List.drop_drop, Nat.mul_succ, Nat.add_comm]

/-- Packing whole bytes loses nothing: the stream of the packed bytes is the bits (rule R57). -/
theorem streamBits_packBytes (n : Nat) (bs : Bits) (h : 8 * n ≤ bs.length) :
    streamBits (packBytes n bs) = bs.take (8 * n) := by
  induction n generalizing bs with
  | zero => simp
  | succ k ih =>
    have h8 : (bs.take 8).length = 8 := by simp; omega
    rw [packBytes_succ, streamBits_cons, bitsOfByte_byteOf h8, ih (bs.drop 8) (by simp; omega)]
    rw [show 8 * (k + 1) = 8 + 8 * k by omega, List.take_add]

end Sys2Proof.Machine
end

