-- ==== Sys2Proof/Laws/Bus.lean ====
section
/-! SUPPORT. Which register each aligned offset names, and everything a host read or write can do. -/

namespace Sys2Proof.Machine

/-! ## Offsets -/

theorem accessDefined_word (n : Nat) : accessDefined (BitVec.ofNat 16 (4 * n)) 4 = true := by
  simp only [accessDefined, BitVec.toNat_ofNat, beq_self_eq_true, Bool.true_and, beq_iff_eq]
  omega

theorem accessDefined_iff (off : Offset) (size : Nat) :
    accessDefined off size = true ↔ size = 4 ∧ off.extractLsb' 0 2 = 0#2 := by
  have h : off.extractLsb' 0 2 = 0#2 ↔ off.toNat % 4 = 0 := by
    rw [← BitVec.toNat_inj]
    simp [BitVec.extractLsb'_toNat]
  simp [accessDefined, h]

theorem regAt_word {n : Nat} (h : n < 0x4000) : regAt (BitVec.ofNat 16 (4 * n)) = regAtWord n := by
  unfold regAt
  rw [BitVec.toNat_ofNat, Nat.mod_eq_of_lt (by omega)]
  congr 1
  omega

/-- FREQ[y] is at 0x1000 + 4 y (10_state.md rule R20). -/
theorem regAtWord_freq (y : Symbol) : regAtWord (0x400 + y.val) = .freq y := by
  have h := y.isLt
  unfold regAtWord
  rw [if_neg (by omega), if_pos (by omega), dif_pos (by omega)]
  simp only [Reg.freq.injEq, Fin.ext_iff]
  omega

/-- CODE_LEN[y] is at 0x2000 + 4 y (rule R20). -/
theorem regAtWord_codeLen (y : Symbol) : regAtWord (0x800 + y.val) = .codeLen y := by
  have h := y.isLt
  unfold regAtWord
  rw [if_neg (by omega), if_neg (by omega), if_pos (by omega), dif_pos (by omega)]
  simp only [Reg.codeLen.injEq, Fin.ext_iff]
  omega

/-- CODE_BITS[y][w] is at 0x4000 + 32 y + 4 w (rule R20). -/
theorem regAtWord_codeBits (y : Symbol) (w : Fin 8) : regAtWord (0x1000 + 8 * y.val + w.val) = .codeBits y w := by
  have h := y.isLt
  have h' := w.isLt
  unfold regAtWord
  rw [if_neg (by omega), if_neg (by omega), if_neg (by omega), if_pos (by omega), dif_pos (by omega)]
  simp only [Reg.codeBits.injEq, Fin.ext_iff]
  omega

/-- Word k of NODE[i] is at 0x8000 + 16 i + 4 k (rule R20). -/
theorem regAtWord_node (i : NodeIx) (k : Fin 4) : regAtWord (0x2000 + 4 * i.val + k.val) = .node i k := by
  have h := i.isLt
  have h' := k.isLt
  unfold regAtWord
  rw [if_neg (by omega), if_neg (by omega), if_neg (by omega), if_neg (by omega), dif_pos (by omega)]
  simp only [Reg.node.injEq, Fin.ext_iff]
  omega

theorem fixedRegs_none {n : Nat} (h : 20 ≤ n) : fixedRegs[n]? = none := by
  rw [List.getElem?_eq_none]
  simpa [fixedRegs] using h

/-- Every other offset is reserved (rule R20). -/
theorem regAtWord_reserved {n : Nat} (h : reservedWord n = true) : n < 0x4000 ∧ regAtWord n = .reserved := by
  simp only [reservedWord, Bool.or_eq_true, Bool.and_eq_true, decide_eq_true_eq] at h
  refine ⟨by omega, ?_⟩
  unfold regAtWord
  split
  · rw [fixedRegs_none (by omega)]; rfl
  split
  · rw [dif_neg (by omega)]
  split
  · rw [dif_neg (by omega)]
  split
  · rw [dif_neg (by omega)]
  · rw [dif_neg (by omega)]

/-- CMD and ARG are the only offsets that take a write (rule R20). -/
theorem regAtWord_readOnly {n : Nat} (h1 : n ≠ 1) (h3 : n ≠ 3) : regAtWord n ≠ .cmd ∧ regAtWord n ≠ .arg := by
  unfold regAtWord
  split
  · by_cases h : n < 20
    · interval_cases n <;> first | contradiction | decide
    · rw [fixedRegs_none (by omega)]; simp
  all_goals (repeat' split) <;> simp

/-- Every register but a reserved offset is read back at its own offset (rule R20). -/
theorem regAt_offset {r : Reg} {off : Offset} (h : r.offset = some off) : regAt off = r := by
  cases r
  case freq y =>
    cases h
    rw [show 0x1000 + 4 * y.val = 4 * (0x400 + y.val) by omega, regAt_word (by omega), regAtWord_freq]
  case codeLen y =>
    cases h
    rw [show 0x2000 + 4 * y.val = 4 * (0x800 + y.val) by omega, regAt_word (by omega), regAtWord_codeLen]
  case codeBits y w =>
    cases h
    rw [show 0x4000 + 32 * y.val + 4 * w.val = 4 * (0x1000 + 8 * y.val + w.val) by omega, regAt_word (by omega),
      regAtWord_codeBits]
  case node i k =>
    cases h
    rw [show 0x8000 + 16 * i.val + 4 * k.val = 4 * (0x2000 + 4 * i.val + k.val) by omega, regAt_word (by omega),
      regAtWord_node]
  case reserved => cases h
  all_goals (cases h; rfl)

/-! ## Accesses -/

/-- Everything a host read can do: record the access, and with it a draw (20_memory.md rules R53, R61). -/
theorem busRead_cases (s : State) (off : Offset) (size : Nat) :
    ∃ r d, s.busRead off size = { s with accesses := s.accesses ++ [(.read off size, r)], draws := d } := by
  unfold State.busRead State.readReg State.reply
  split_ifs <;> exact ⟨_, _, rfl⟩

/-- With no command running a read returns the register and changes nothing (20_memory.md rules R51, R53). -/
theorem busRead_idle {s : State} (hb : s.busy = false) (hr : s.inReset = false) {off : Offset}
    (ha : accessDefined off 4 = true) : s.busRead off 4 = s.reply (.read off 4) (.data (s.reg (regAt off))) := by
  simp [State.busRead, State.readReg, hr, ha, hb]

/-- A register whose reads are not free reads the same while a command runs (rule R61). -/
theorem busRead_definite {s : State} (hr : s.inReset = false) {off : Offset} (ha : accessDefined off 4 = true)
    (h1 : regAt off ≠ .status) (h2 : (regAt off).freeWhileBusy = false) :
    s.busRead off 4 = s.reply (.read off 4) (.data (s.reg (regAt off))) := by
  cases hb : s.busy
  · exact busRead_idle hb hr ha
  · simp [State.busRead, State.readReg, hr, ha, hb, h1, h2]

/-- A read of a register that changes while a command runs is a free draw then (rule R61). -/
theorem busRead_free {s : State} (hr : s.inReset = false) (hb : s.busy = true) {off : Offset}
    (ha : accessDefined off 4 = true) (h1 : regAt off ≠ .status) (h2 : (regAt off).freeWhileBusy = true) :
    s.busRead off 4 = { s with
      accesses := s.accesses ++ [(.read off 4, .data (Config.freeRead s.draws))], draws := s.draws + 1 } := by
  simp [State.busRead, State.readReg, State.reply, hr, ha, hb, h1, h2]

/-- A write outside CMD and ARG is ignored (20_memory.md rule R53). -/
theorem busWrite_ignored {s : State} (hr : s.inReset = false) {n : Nat} (h : n < 0x4000) (h1 : n ≠ 1) (h3 : n ≠ 3)
    (v : Word) : s.busWrite (BitVec.ofNat 16 (4 * n)) 4 v =
      .over (s.reply (.write (BitVec.ofNat 16 (4 * n)) 4 v) .written) := by
  simp only [State.busWrite, hr, accessDefined_word, Bool.false_eq_true, if_false, if_true, regAt_word h]
  obtain ⟨a, b⟩ := regAtWord_readOnly h1 h3
  split
  · contradiction
  · contradiction
  · rfl

/-- Everything a host write can do short of issuing a command: OVR, ARG and the record of the access (10_state.md rules R26, R32). -/
theorem busWrite_cases (s : State) (off : Offset) (size : Nat) (v : Word) :
    (∃ o a r, s.busWrite off size v =
      .over { s with ovr := o, arg := a, accesses := s.accesses ++ [(.write off size v, r)] }) ∨
      s.busy = false ∧ s.busWrite off size v = .issue v (s.reply (.write off size v) .written) := by
  unfold State.busWrite State.reply
  split
  · exact .inl ⟨_, _, _, rfl⟩
  split
  · split
    · cases hb : s.busy
      · exact .inr ⟨rfl, rfl⟩
      · exact .inl ⟨_, _, _, rfl⟩
    · exact .inl ⟨_, _, _, rfl⟩
    · exact .inl ⟨_, _, _, rfl⟩
  · exact .inl ⟨_, _, _, rfl⟩

/-- The words of NODES and of an internal node's children (10_state.md rules R39, R43). -/
theorem pair_word (hi lo : Nat) (h1 : hi < 2 ^ 10) (h2 : lo < 2 ^ 10) :
    0#6 ++ BitVec.ofNat 10 hi ++ 0#6 ++ BitVec.ofNat 10 lo = BitVec.ofNat 32 (hi * 2 ^ 16 + lo) := by
  apply BitVec.eq_of_toNat_eq
  have e : ∀ (a : BitVec 22) (b : BitVec 10), (a ++ b).toNat = a.toNat * 2 ^ 10 + b.toNat := by
    intro a b
    rw [BitVec.toNat_append, Nat.shiftLeft_eq, ← Nat.shiftLeft_eq, Nat.shiftLeft_add_eq_or_of_lt b.isLt]
  have e' : ∀ (a : BitVec 16) (b : BitVec 6), (a ++ b).toNat = a.toNat * 2 ^ 6 + b.toNat := by
    intro a b
    rw [BitVec.toNat_append, Nat.shiftLeft_eq, ← Nat.shiftLeft_eq, Nat.shiftLeft_add_eq_or_of_lt b.isLt]
  have e'' : ∀ (a : BitVec 6) (b : BitVec 10), (a ++ b).toNat = a.toNat * 2 ^ 10 + b.toNat := by
    intro a b
    rw [BitVec.toNat_append, Nat.shiftLeft_eq, ← Nat.shiftLeft_eq, Nat.shiftLeft_add_eq_or_of_lt b.isLt]
  rw [e, e', e'']
  simp only [BitVec.toNat_ofNat]
  omega

end Sys2Proof.Machine
end

