-- ==== Sys2Proof/Laws/State.lean ====
section
/-! SUPPORT. The updates of State, one lemma per field: what each leaves and what it writes. -/

namespace Sys2Proof.Machine

variable (s : State)

/-! ## State.pushBit -/

@[simp] theorem State.pushBit_cfg (b : Bool) : (s.pushBit b).cfg = s.cfg := rfl
@[simp] theorem State.pushBit_cmdLast (b : Bool) : (s.pushBit b).cmdLast = s.cmdLast := rfl
@[simp] theorem State.pushBit_busy (b : Bool) : (s.pushBit b).busy = s.busy := rfl
@[simp] theorem State.pushBit_done (b : Bool) : (s.pushBit b).done = s.done := rfl
@[simp] theorem State.pushBit_ovr (b : Bool) : (s.pushBit b).ovr = s.ovr := rfl
@[simp] theorem State.pushBit_err (b : Bool) : (s.pushBit b).err = s.err := rfl
@[simp] theorem State.pushBit_planValid (b : Bool) : (s.pushBit b).planValid = s.planValid := rfl
@[simp] theorem State.pushBit_planFmt (b : Bool) : (s.pushBit b).planFmt = s.planFmt := rfl
@[simp] theorem State.pushBit_treeValid (b : Bool) : (s.pushBit b).treeValid = s.treeValid := rfl
@[simp] theorem State.pushBit_codesValid (b : Bool) : (s.pushBit b).codesValid = s.codesValid := rfl
@[simp] theorem State.pushBit_arg (b : Bool) : (s.pushBit b).arg = s.arg := rfl
@[simp] theorem State.pushBit_result (b : Bool) : (s.pushBit b).result = s.result := rfl
@[simp] theorem State.pushBit_origBits (b : Bool) : (s.pushBit b).origBits = s.origBits := rfl
@[simp] theorem State.pushBit_bodyBits (b : Bool) : (s.pushBit b).bodyBits = s.bodyBits := rfl
@[simp] theorem State.pushBit_planSaved (b : Bool) : (s.pushBit b).planSaved = s.planSaved := rfl
@[simp] theorem State.pushBit_freq (b : Bool) : (s.pushBit b).freq = s.freq := rfl
@[simp] theorem State.pushBit_codes (b : Bool) : (s.pushBit b).codes = s.codes := rfl
@[simp] theorem State.pushBit_store (b : Bool) : (s.pushBit b).store = s.store := rfl
@[simp] theorem State.pushBit_writer (b : Bool) : (s.pushBit b).writer = { s.writer with buf := s.writer.buf ++ [b], bits := raiseCount s.writer.bits 1 s.draws } := rfl
@[simp] theorem State.pushBit_reader (b : Bool) : (s.pushBit b).reader = s.reader := rfl
@[simp] theorem State.pushBit_phase (b : Bool) : (s.pushBit b).phase = s.phase := rfl
@[simp] theorem State.pushBit_pq (b : Bool) : (s.pushBit b).pq = s.pq := rfl
@[simp] theorem State.pushBit_seq (b : Bool) : (s.pushBit b).seq = s.seq := rfl
@[simp] theorem State.pushBit_lcmd (b : Bool) : (s.pushBit b).lcmd = s.lcmd := rfl
@[simp] theorem State.pushBit_larg (b : Bool) : (s.pushBit b).larg = s.larg := rfl
@[simp] theorem State.pushBit_stack (b : Bool) : (s.pushBit b).stack = s.stack := rfl
@[simp] theorem State.pushBit_budget (b : Bool) : (s.pushBit b).budget = s.budget := rfl
@[simp] theorem State.pushBit_cur (b : Bool) : (s.pushBit b).cur = s.cur := rfl
@[simp] theorem State.pushBit_work (b : Bool) : (s.pushBit b).work = s.work := rfl
@[simp] theorem State.pushBit_opened (b : Bool) : (s.pushBit b).opened = s.opened := rfl
@[simp] theorem State.pushBit_mark (b : Bool) : (s.pushBit b).mark = s.mark := rfl
@[simp] theorem State.pushBit_inReset (b : Bool) : (s.pushBit b).inReset = s.inReset := rfl
@[simp] theorem State.pushBit_inq (b : Bool) : (s.pushBit b).inq = s.inq := rfl
@[simp] theorem State.pushBit_popped (b : Bool) : (s.pushBit b).popped = s.popped := rfl
@[simp] theorem State.pushBit_sink (b : Bool) : (s.pushBit b).sink = s.sink := rfl
@[simp] theorem State.pushBit_events (b : Bool) : (s.pushBit b).events = s.events := rfl
@[simp] theorem State.pushBit_accesses (b : Bool) : (s.pushBit b).accesses = s.accesses := rfl
@[simp] theorem State.pushBit_stalled (b : Bool) : (s.pushBit b).stalled = s.stalled := rfl
@[simp] theorem State.pushBit_draws (b : Bool) : (s.pushBit b).draws = raiseDraws s.writer.bits 1 s.draws := rfl

/-! ## State.dropWbuf -/

@[simp] theorem State.dropWbuf_cfg : s.dropWbuf.cfg = s.cfg := rfl
@[simp] theorem State.dropWbuf_cmdLast : s.dropWbuf.cmdLast = s.cmdLast := rfl
@[simp] theorem State.dropWbuf_busy : s.dropWbuf.busy = s.busy := rfl
@[simp] theorem State.dropWbuf_done : s.dropWbuf.done = s.done := rfl
@[simp] theorem State.dropWbuf_ovr : s.dropWbuf.ovr = s.ovr := rfl
@[simp] theorem State.dropWbuf_err : s.dropWbuf.err = s.err := rfl
@[simp] theorem State.dropWbuf_planValid : s.dropWbuf.planValid = s.planValid := rfl
@[simp] theorem State.dropWbuf_planFmt : s.dropWbuf.planFmt = s.planFmt := rfl
@[simp] theorem State.dropWbuf_treeValid : s.dropWbuf.treeValid = s.treeValid := rfl
@[simp] theorem State.dropWbuf_codesValid : s.dropWbuf.codesValid = s.codesValid := rfl
@[simp] theorem State.dropWbuf_arg : s.dropWbuf.arg = s.arg := rfl
@[simp] theorem State.dropWbuf_result : s.dropWbuf.result = s.result := rfl
@[simp] theorem State.dropWbuf_origBits : s.dropWbuf.origBits = s.origBits := rfl
@[simp] theorem State.dropWbuf_bodyBits : s.dropWbuf.bodyBits = s.bodyBits := rfl
@[simp] theorem State.dropWbuf_planSaved : s.dropWbuf.planSaved = s.planSaved := rfl
@[simp] theorem State.dropWbuf_freq : s.dropWbuf.freq = s.freq := rfl
@[simp] theorem State.dropWbuf_codes : s.dropWbuf.codes = s.codes := rfl
@[simp] theorem State.dropWbuf_store : s.dropWbuf.store = s.store := rfl
@[simp] theorem State.dropWbuf_writer : s.dropWbuf.writer = { s.writer with buf := [] } := rfl
@[simp] theorem State.dropWbuf_reader : s.dropWbuf.reader = s.reader := rfl
@[simp] theorem State.dropWbuf_phase : s.dropWbuf.phase = s.phase := rfl
@[simp] theorem State.dropWbuf_pq : s.dropWbuf.pq = s.pq := rfl
@[simp] theorem State.dropWbuf_seq : s.dropWbuf.seq = s.seq := rfl
@[simp] theorem State.dropWbuf_lcmd : s.dropWbuf.lcmd = s.lcmd := rfl
@[simp] theorem State.dropWbuf_larg : s.dropWbuf.larg = s.larg := rfl
@[simp] theorem State.dropWbuf_stack : s.dropWbuf.stack = s.stack := rfl
@[simp] theorem State.dropWbuf_budget : s.dropWbuf.budget = s.budget := rfl
@[simp] theorem State.dropWbuf_cur : s.dropWbuf.cur = s.cur := rfl
@[simp] theorem State.dropWbuf_work : s.dropWbuf.work = s.work := rfl
@[simp] theorem State.dropWbuf_opened : s.dropWbuf.opened = s.opened := rfl
@[simp] theorem State.dropWbuf_mark : s.dropWbuf.mark = s.mark := rfl
@[simp] theorem State.dropWbuf_inReset : s.dropWbuf.inReset = s.inReset := rfl
@[simp] theorem State.dropWbuf_inq : s.dropWbuf.inq = s.inq := rfl
@[simp] theorem State.dropWbuf_popped : s.dropWbuf.popped = s.popped := rfl
@[simp] theorem State.dropWbuf_sink : s.dropWbuf.sink = s.sink := rfl
@[simp] theorem State.dropWbuf_events : s.dropWbuf.events = s.events := rfl
@[simp] theorem State.dropWbuf_accesses : s.dropWbuf.accesses = s.accesses := rfl
@[simp] theorem State.dropWbuf_stalled : s.dropWbuf.stalled = s.stalled := rfl
@[simp] theorem State.dropWbuf_draws : s.dropWbuf.draws = s.draws := rfl

/-! ## State.startStream -/

@[simp] theorem State.startStream_cfg : s.startStream.cfg = s.cfg := rfl
@[simp] theorem State.startStream_cmdLast : s.startStream.cmdLast = s.cmdLast := rfl
@[simp] theorem State.startStream_busy : s.startStream.busy = s.busy := rfl
@[simp] theorem State.startStream_done : s.startStream.done = s.done := rfl
@[simp] theorem State.startStream_ovr : s.startStream.ovr = s.ovr := rfl
@[simp] theorem State.startStream_err : s.startStream.err = s.err := rfl
@[simp] theorem State.startStream_planValid : s.startStream.planValid = s.planValid := rfl
@[simp] theorem State.startStream_planFmt : s.startStream.planFmt = s.planFmt := rfl
@[simp] theorem State.startStream_treeValid : s.startStream.treeValid = s.treeValid := rfl
@[simp] theorem State.startStream_codesValid : s.startStream.codesValid = s.codesValid := rfl
@[simp] theorem State.startStream_arg : s.startStream.arg = s.arg := rfl
@[simp] theorem State.startStream_result : s.startStream.result = s.result := rfl
@[simp] theorem State.startStream_origBits : s.startStream.origBits = s.origBits := rfl
@[simp] theorem State.startStream_bodyBits : s.startStream.bodyBits = s.bodyBits := rfl
@[simp] theorem State.startStream_planSaved : s.startStream.planSaved = s.planSaved := rfl
@[simp] theorem State.startStream_freq : s.startStream.freq = s.freq := rfl
@[simp] theorem State.startStream_codes : s.startStream.codes = s.codes := rfl
@[simp] theorem State.startStream_store : s.startStream.store = s.store := rfl
@[simp] theorem State.startStream_writer : s.startStream.writer = ⟨false, [], 0#64⟩ := rfl
@[simp] theorem State.startStream_reader : s.startStream.reader = s.reader := rfl
@[simp] theorem State.startStream_phase : s.startStream.phase = s.phase := rfl
@[simp] theorem State.startStream_pq : s.startStream.pq = s.pq := rfl
@[simp] theorem State.startStream_seq : s.startStream.seq = s.seq := rfl
@[simp] theorem State.startStream_lcmd : s.startStream.lcmd = s.lcmd := rfl
@[simp] theorem State.startStream_larg : s.startStream.larg = s.larg := rfl
@[simp] theorem State.startStream_stack : s.startStream.stack = s.stack := rfl
@[simp] theorem State.startStream_budget : s.startStream.budget = s.budget := rfl
@[simp] theorem State.startStream_cur : s.startStream.cur = s.cur := rfl
@[simp] theorem State.startStream_work : s.startStream.work = s.work := rfl
@[simp] theorem State.startStream_opened : s.startStream.opened = s.opened := rfl
@[simp] theorem State.startStream_mark : s.startStream.mark = s.mark := rfl
@[simp] theorem State.startStream_inReset : s.startStream.inReset = s.inReset := rfl
@[simp] theorem State.startStream_inq : s.startStream.inq = s.inq := rfl
@[simp] theorem State.startStream_popped : s.startStream.popped = s.popped := rfl
@[simp] theorem State.startStream_sink : s.startStream.sink = s.sink := rfl
@[simp] theorem State.startStream_events : s.startStream.events = s.events := rfl
@[simp] theorem State.startStream_accesses : s.startStream.accesses = s.accesses := rfl
@[simp] theorem State.startStream_stalled : s.startStream.stalled = s.stalled := rfl
@[simp] theorem State.startStream_draws : s.startStream.draws = s.draws := rfl

/-! ## State.exhaust -/

@[simp] theorem State.exhaust_cfg (left : List InToken) : (s.exhaust left).cfg = s.cfg := rfl
@[simp] theorem State.exhaust_cmdLast (left : List InToken) : (s.exhaust left).cmdLast = s.cmdLast := rfl
@[simp] theorem State.exhaust_busy (left : List InToken) : (s.exhaust left).busy = s.busy := rfl
@[simp] theorem State.exhaust_done (left : List InToken) : (s.exhaust left).done = s.done := rfl
@[simp] theorem State.exhaust_ovr (left : List InToken) : (s.exhaust left).ovr = s.ovr := rfl
@[simp] theorem State.exhaust_err (left : List InToken) : (s.exhaust left).err = s.err := rfl
@[simp] theorem State.exhaust_planValid (left : List InToken) : (s.exhaust left).planValid = s.planValid := rfl
@[simp] theorem State.exhaust_planFmt (left : List InToken) : (s.exhaust left).planFmt = s.planFmt := rfl
@[simp] theorem State.exhaust_treeValid (left : List InToken) : (s.exhaust left).treeValid = s.treeValid := rfl
@[simp] theorem State.exhaust_codesValid (left : List InToken) : (s.exhaust left).codesValid = s.codesValid := rfl
@[simp] theorem State.exhaust_arg (left : List InToken) : (s.exhaust left).arg = s.arg := rfl
@[simp] theorem State.exhaust_result (left : List InToken) : (s.exhaust left).result = s.result := rfl
@[simp] theorem State.exhaust_origBits (left : List InToken) : (s.exhaust left).origBits = s.origBits := rfl
@[simp] theorem State.exhaust_bodyBits (left : List InToken) : (s.exhaust left).bodyBits = s.bodyBits := rfl
@[simp] theorem State.exhaust_planSaved (left : List InToken) : (s.exhaust left).planSaved = s.planSaved := rfl
@[simp] theorem State.exhaust_freq (left : List InToken) : (s.exhaust left).freq = s.freq := rfl
@[simp] theorem State.exhaust_codes (left : List InToken) : (s.exhaust left).codes = s.codes := rfl
@[simp] theorem State.exhaust_store (left : List InToken) : (s.exhaust left).store = s.store := rfl
@[simp] theorem State.exhaust_writer (left : List InToken) : (s.exhaust left).writer = s.writer := rfl
@[simp] theorem State.exhaust_reader (left : List InToken) : (s.exhaust left).reader = { s.reader with exh := true, buf := [] } := rfl
@[simp] theorem State.exhaust_phase (left : List InToken) : (s.exhaust left).phase = s.phase := rfl
@[simp] theorem State.exhaust_pq (left : List InToken) : (s.exhaust left).pq = s.pq := rfl
@[simp] theorem State.exhaust_seq (left : List InToken) : (s.exhaust left).seq = s.seq := rfl
@[simp] theorem State.exhaust_lcmd (left : List InToken) : (s.exhaust left).lcmd = s.lcmd := rfl
@[simp] theorem State.exhaust_larg (left : List InToken) : (s.exhaust left).larg = s.larg := rfl
@[simp] theorem State.exhaust_stack (left : List InToken) : (s.exhaust left).stack = s.stack := rfl
@[simp] theorem State.exhaust_budget (left : List InToken) : (s.exhaust left).budget = s.budget := rfl
@[simp] theorem State.exhaust_cur (left : List InToken) : (s.exhaust left).cur = s.cur := rfl
@[simp] theorem State.exhaust_work (left : List InToken) : (s.exhaust left).work = s.work := rfl
@[simp] theorem State.exhaust_opened (left : List InToken) : (s.exhaust left).opened = s.opened := rfl
@[simp] theorem State.exhaust_mark (left : List InToken) : (s.exhaust left).mark = s.mark := rfl
@[simp] theorem State.exhaust_inReset (left : List InToken) : (s.exhaust left).inReset = s.inReset := rfl
@[simp] theorem State.exhaust_inq (left : List InToken) : (s.exhaust left).inq = left := rfl
@[simp] theorem State.exhaust_popped (left : List InToken) : (s.exhaust left).popped = s.popped := rfl
@[simp] theorem State.exhaust_sink (left : List InToken) : (s.exhaust left).sink = s.sink := rfl
@[simp] theorem State.exhaust_events (left : List InToken) : (s.exhaust left).events = s.events := rfl
@[simp] theorem State.exhaust_accesses (left : List InToken) : (s.exhaust left).accesses = s.accesses := rfl
@[simp] theorem State.exhaust_stalled (left : List InToken) : (s.exhaust left).stalled = s.stalled := rfl
@[simp] theorem State.exhaust_draws (left : List InToken) : (s.exhaust left).draws = s.draws := rfl

/-! ## State.takeBits -/

@[simp] theorem State.takeBits_cfg (w : Nat) (buf : Bits) (left : List InToken) : (s.takeBits w buf left).cfg = s.cfg := rfl
@[simp] theorem State.takeBits_cmdLast (w : Nat) (buf : Bits) (left : List InToken) : (s.takeBits w buf left).cmdLast = s.cmdLast := rfl
@[simp] theorem State.takeBits_busy (w : Nat) (buf : Bits) (left : List InToken) : (s.takeBits w buf left).busy = s.busy := rfl
@[simp] theorem State.takeBits_done (w : Nat) (buf : Bits) (left : List InToken) : (s.takeBits w buf left).done = s.done := rfl
@[simp] theorem State.takeBits_ovr (w : Nat) (buf : Bits) (left : List InToken) : (s.takeBits w buf left).ovr = s.ovr := rfl
@[simp] theorem State.takeBits_err (w : Nat) (buf : Bits) (left : List InToken) : (s.takeBits w buf left).err = s.err := rfl
@[simp] theorem State.takeBits_planValid (w : Nat) (buf : Bits) (left : List InToken) : (s.takeBits w buf left).planValid = s.planValid := rfl
@[simp] theorem State.takeBits_planFmt (w : Nat) (buf : Bits) (left : List InToken) : (s.takeBits w buf left).planFmt = s.planFmt := rfl
@[simp] theorem State.takeBits_treeValid (w : Nat) (buf : Bits) (left : List InToken) : (s.takeBits w buf left).treeValid = s.treeValid := rfl
@[simp] theorem State.takeBits_codesValid (w : Nat) (buf : Bits) (left : List InToken) : (s.takeBits w buf left).codesValid = s.codesValid := rfl
@[simp] theorem State.takeBits_arg (w : Nat) (buf : Bits) (left : List InToken) : (s.takeBits w buf left).arg = s.arg := rfl
@[simp] theorem State.takeBits_result (w : Nat) (buf : Bits) (left : List InToken) : (s.takeBits w buf left).result = s.result := rfl
@[simp] theorem State.takeBits_origBits (w : Nat) (buf : Bits) (left : List InToken) : (s.takeBits w buf left).origBits = s.origBits := rfl
@[simp] theorem State.takeBits_bodyBits (w : Nat) (buf : Bits) (left : List InToken) : (s.takeBits w buf left).bodyBits = s.bodyBits := rfl
@[simp] theorem State.takeBits_planSaved (w : Nat) (buf : Bits) (left : List InToken) : (s.takeBits w buf left).planSaved = s.planSaved := rfl
@[simp] theorem State.takeBits_freq (w : Nat) (buf : Bits) (left : List InToken) : (s.takeBits w buf left).freq = s.freq := rfl
@[simp] theorem State.takeBits_codes (w : Nat) (buf : Bits) (left : List InToken) : (s.takeBits w buf left).codes = s.codes := rfl
@[simp] theorem State.takeBits_store (w : Nat) (buf : Bits) (left : List InToken) : (s.takeBits w buf left).store = s.store := rfl
@[simp] theorem State.takeBits_writer (w : Nat) (buf : Bits) (left : List InToken) : (s.takeBits w buf left).writer = s.writer := rfl
@[simp] theorem State.takeBits_reader (w : Nat) (buf : Bits) (left : List InToken) : (s.takeBits w buf left).reader = { s.reader with buf := buf.drop w, bits := raiseCount s.reader.bits w s.draws } := rfl
@[simp] theorem State.takeBits_phase (w : Nat) (buf : Bits) (left : List InToken) : (s.takeBits w buf left).phase = s.phase := rfl
@[simp] theorem State.takeBits_pq (w : Nat) (buf : Bits) (left : List InToken) : (s.takeBits w buf left).pq = s.pq := rfl
@[simp] theorem State.takeBits_seq (w : Nat) (buf : Bits) (left : List InToken) : (s.takeBits w buf left).seq = s.seq := rfl
@[simp] theorem State.takeBits_lcmd (w : Nat) (buf : Bits) (left : List InToken) : (s.takeBits w buf left).lcmd = s.lcmd := rfl
@[simp] theorem State.takeBits_larg (w : Nat) (buf : Bits) (left : List InToken) : (s.takeBits w buf left).larg = s.larg := rfl
@[simp] theorem State.takeBits_stack (w : Nat) (buf : Bits) (left : List InToken) : (s.takeBits w buf left).stack = s.stack := rfl
@[simp] theorem State.takeBits_budget (w : Nat) (buf : Bits) (left : List InToken) : (s.takeBits w buf left).budget = s.budget := rfl
@[simp] theorem State.takeBits_cur (w : Nat) (buf : Bits) (left : List InToken) : (s.takeBits w buf left).cur = s.cur := rfl
@[simp] theorem State.takeBits_work (w : Nat) (buf : Bits) (left : List InToken) : (s.takeBits w buf left).work = s.work := rfl
@[simp] theorem State.takeBits_opened (w : Nat) (buf : Bits) (left : List InToken) : (s.takeBits w buf left).opened = s.opened := rfl
@[simp] theorem State.takeBits_mark (w : Nat) (buf : Bits) (left : List InToken) : (s.takeBits w buf left).mark = s.mark := rfl
@[simp] theorem State.takeBits_inReset (w : Nat) (buf : Bits) (left : List InToken) : (s.takeBits w buf left).inReset = s.inReset := rfl
@[simp] theorem State.takeBits_inq (w : Nat) (buf : Bits) (left : List InToken) : (s.takeBits w buf left).inq = left := rfl
@[simp] theorem State.takeBits_popped (w : Nat) (buf : Bits) (left : List InToken) : (s.takeBits w buf left).popped = s.popped := rfl
@[simp] theorem State.takeBits_sink (w : Nat) (buf : Bits) (left : List InToken) : (s.takeBits w buf left).sink = s.sink := rfl
@[simp] theorem State.takeBits_events (w : Nat) (buf : Bits) (left : List InToken) : (s.takeBits w buf left).events = s.events := rfl
@[simp] theorem State.takeBits_accesses (w : Nat) (buf : Bits) (left : List InToken) : (s.takeBits w buf left).accesses = s.accesses := rfl
@[simp] theorem State.takeBits_stalled (w : Nat) (buf : Bits) (left : List InToken) : (s.takeBits w buf left).stalled = s.stalled := rfl
@[simp] theorem State.takeBits_draws (w : Nat) (buf : Bits) (left : List InToken) : (s.takeBits w buf left).draws = raiseDraws s.reader.bits w s.draws := rfl

/-! ## State.resetReader -/

@[simp] theorem State.resetReader_cfg : s.resetReader.cfg = s.cfg := rfl
@[simp] theorem State.resetReader_cmdLast : s.resetReader.cmdLast = s.cmdLast := rfl
@[simp] theorem State.resetReader_busy : s.resetReader.busy = s.busy := rfl
@[simp] theorem State.resetReader_done : s.resetReader.done = s.done := rfl
@[simp] theorem State.resetReader_ovr : s.resetReader.ovr = s.ovr := rfl
@[simp] theorem State.resetReader_err : s.resetReader.err = s.err := rfl
@[simp] theorem State.resetReader_planValid : s.resetReader.planValid = s.planValid := rfl
@[simp] theorem State.resetReader_planFmt : s.resetReader.planFmt = s.planFmt := rfl
@[simp] theorem State.resetReader_treeValid : s.resetReader.treeValid = s.treeValid := rfl
@[simp] theorem State.resetReader_codesValid : s.resetReader.codesValid = s.codesValid := rfl
@[simp] theorem State.resetReader_arg : s.resetReader.arg = s.arg := rfl
@[simp] theorem State.resetReader_result : s.resetReader.result = s.result := rfl
@[simp] theorem State.resetReader_origBits : s.resetReader.origBits = s.origBits := rfl
@[simp] theorem State.resetReader_bodyBits : s.resetReader.bodyBits = s.bodyBits := rfl
@[simp] theorem State.resetReader_planSaved : s.resetReader.planSaved = s.planSaved := rfl
@[simp] theorem State.resetReader_freq : s.resetReader.freq = s.freq := rfl
@[simp] theorem State.resetReader_codes : s.resetReader.codes = s.codes := rfl
@[simp] theorem State.resetReader_store : s.resetReader.store = s.store := rfl
@[simp] theorem State.resetReader_writer : s.resetReader.writer = s.writer := rfl
@[simp] theorem State.resetReader_reader : s.resetReader.reader = ⟨false, [], 0#64⟩ := rfl
@[simp] theorem State.resetReader_phase : s.resetReader.phase = s.phase := rfl
@[simp] theorem State.resetReader_pq : s.resetReader.pq = s.pq := rfl
@[simp] theorem State.resetReader_seq : s.resetReader.seq = s.seq := rfl
@[simp] theorem State.resetReader_lcmd : s.resetReader.lcmd = s.lcmd := rfl
@[simp] theorem State.resetReader_larg : s.resetReader.larg = s.larg := rfl
@[simp] theorem State.resetReader_stack : s.resetReader.stack = s.stack := rfl
@[simp] theorem State.resetReader_budget : s.resetReader.budget = s.budget := rfl
@[simp] theorem State.resetReader_cur : s.resetReader.cur = s.cur := rfl
@[simp] theorem State.resetReader_work : s.resetReader.work = s.work := rfl
@[simp] theorem State.resetReader_opened : s.resetReader.opened = s.opened := rfl
@[simp] theorem State.resetReader_mark : s.resetReader.mark = s.mark := rfl
@[simp] theorem State.resetReader_inReset : s.resetReader.inReset = s.inReset := rfl
@[simp] theorem State.resetReader_inq : s.resetReader.inq = s.inq := rfl
@[simp] theorem State.resetReader_popped : s.resetReader.popped = s.popped := rfl
@[simp] theorem State.resetReader_sink : s.resetReader.sink = s.sink := rfl
@[simp] theorem State.resetReader_events : s.resetReader.events = s.events := rfl
@[simp] theorem State.resetReader_accesses : s.resetReader.accesses = s.accesses := rfl
@[simp] theorem State.resetReader_stalled : s.resetReader.stalled = s.stalled := rfl
@[simp] theorem State.resetReader_draws : s.resetReader.draws = s.draws := rfl

/-! ## State.setResult -/

@[simp] theorem State.setResult_cfg (v : Int) : (s.setResult v).cfg = s.cfg := rfl
@[simp] theorem State.setResult_cmdLast (v : Int) : (s.setResult v).cmdLast = s.cmdLast := rfl
@[simp] theorem State.setResult_busy (v : Int) : (s.setResult v).busy = s.busy := rfl
@[simp] theorem State.setResult_done (v : Int) : (s.setResult v).done = s.done := rfl
@[simp] theorem State.setResult_ovr (v : Int) : (s.setResult v).ovr = s.ovr := rfl
@[simp] theorem State.setResult_err (v : Int) : (s.setResult v).err = s.err := rfl
@[simp] theorem State.setResult_planValid (v : Int) : (s.setResult v).planValid = s.planValid := rfl
@[simp] theorem State.setResult_planFmt (v : Int) : (s.setResult v).planFmt = s.planFmt := rfl
@[simp] theorem State.setResult_treeValid (v : Int) : (s.setResult v).treeValid = s.treeValid := rfl
@[simp] theorem State.setResult_codesValid (v : Int) : (s.setResult v).codesValid = s.codesValid := rfl
@[simp] theorem State.setResult_arg (v : Int) : (s.setResult v).arg = s.arg := rfl
@[simp] theorem State.setResult_result (v : Int) : (s.setResult v).result = toS64 v s.draws := rfl
@[simp] theorem State.setResult_origBits (v : Int) : (s.setResult v).origBits = s.origBits := rfl
@[simp] theorem State.setResult_bodyBits (v : Int) : (s.setResult v).bodyBits = s.bodyBits := rfl
@[simp] theorem State.setResult_planSaved (v : Int) : (s.setResult v).planSaved = s.planSaved := rfl
@[simp] theorem State.setResult_freq (v : Int) : (s.setResult v).freq = s.freq := rfl
@[simp] theorem State.setResult_codes (v : Int) : (s.setResult v).codes = s.codes := rfl
@[simp] theorem State.setResult_store (v : Int) : (s.setResult v).store = s.store := rfl
@[simp] theorem State.setResult_writer (v : Int) : (s.setResult v).writer = s.writer := rfl
@[simp] theorem State.setResult_reader (v : Int) : (s.setResult v).reader = s.reader := rfl
@[simp] theorem State.setResult_phase (v : Int) : (s.setResult v).phase = s.phase := rfl
@[simp] theorem State.setResult_pq (v : Int) : (s.setResult v).pq = s.pq := rfl
@[simp] theorem State.setResult_seq (v : Int) : (s.setResult v).seq = s.seq := rfl
@[simp] theorem State.setResult_lcmd (v : Int) : (s.setResult v).lcmd = s.lcmd := rfl
@[simp] theorem State.setResult_larg (v : Int) : (s.setResult v).larg = s.larg := rfl
@[simp] theorem State.setResult_stack (v : Int) : (s.setResult v).stack = s.stack := rfl
@[simp] theorem State.setResult_budget (v : Int) : (s.setResult v).budget = s.budget := rfl
@[simp] theorem State.setResult_cur (v : Int) : (s.setResult v).cur = s.cur := rfl
@[simp] theorem State.setResult_work (v : Int) : (s.setResult v).work = s.work := rfl
@[simp] theorem State.setResult_opened (v : Int) : (s.setResult v).opened = s.opened := rfl
@[simp] theorem State.setResult_mark (v : Int) : (s.setResult v).mark = s.mark := rfl
@[simp] theorem State.setResult_inReset (v : Int) : (s.setResult v).inReset = s.inReset := rfl
@[simp] theorem State.setResult_inq (v : Int) : (s.setResult v).inq = s.inq := rfl
@[simp] theorem State.setResult_popped (v : Int) : (s.setResult v).popped = s.popped := rfl
@[simp] theorem State.setResult_sink (v : Int) : (s.setResult v).sink = s.sink := rfl
@[simp] theorem State.setResult_events (v : Int) : (s.setResult v).events = s.events := rfl
@[simp] theorem State.setResult_accesses (v : Int) : (s.setResult v).accesses = s.accesses := rfl
@[simp] theorem State.setResult_stalled (v : Int) : (s.setResult v).stalled = s.stalled := rfl
@[simp] theorem State.setResult_draws (v : Int) : (s.setResult v).draws = s64Draws v s.draws := rfl

/-! ## State.toIdle -/

@[simp] theorem State.toIdle_cfg : s.toIdle.cfg = s.cfg := rfl
@[simp] theorem State.toIdle_cmdLast : s.toIdle.cmdLast = s.cmdLast := rfl
@[simp] theorem State.toIdle_busy : s.toIdle.busy = false := rfl
@[simp] theorem State.toIdle_done : s.toIdle.done = true := rfl
@[simp] theorem State.toIdle_ovr : s.toIdle.ovr = s.ovr := rfl
@[simp] theorem State.toIdle_err : s.toIdle.err = s.err := rfl
@[simp] theorem State.toIdle_planValid : s.toIdle.planValid = s.planValid := rfl
@[simp] theorem State.toIdle_planFmt : s.toIdle.planFmt = s.planFmt := rfl
@[simp] theorem State.toIdle_treeValid : s.toIdle.treeValid = s.treeValid := rfl
@[simp] theorem State.toIdle_codesValid : s.toIdle.codesValid = s.codesValid := rfl
@[simp] theorem State.toIdle_arg : s.toIdle.arg = s.arg := rfl
@[simp] theorem State.toIdle_result : s.toIdle.result = s.result := rfl
@[simp] theorem State.toIdle_origBits : s.toIdle.origBits = s.origBits := rfl
@[simp] theorem State.toIdle_bodyBits : s.toIdle.bodyBits = s.bodyBits := rfl
@[simp] theorem State.toIdle_planSaved : s.toIdle.planSaved = s.planSaved := rfl
@[simp] theorem State.toIdle_freq : s.toIdle.freq = s.freq := rfl
@[simp] theorem State.toIdle_codes : s.toIdle.codes = s.codes := rfl
@[simp] theorem State.toIdle_store : s.toIdle.store = s.store := rfl
@[simp] theorem State.toIdle_writer : s.toIdle.writer = s.writer := rfl
@[simp] theorem State.toIdle_reader : s.toIdle.reader = s.reader := rfl
@[simp] theorem State.toIdle_phase : s.toIdle.phase = .idle := rfl
@[simp] theorem State.toIdle_pq : s.toIdle.pq = s.pq := rfl
@[simp] theorem State.toIdle_seq : s.toIdle.seq = s.seq := rfl
@[simp] theorem State.toIdle_lcmd : s.toIdle.lcmd = s.lcmd := rfl
@[simp] theorem State.toIdle_larg : s.toIdle.larg = s.larg := rfl
@[simp] theorem State.toIdle_stack : s.toIdle.stack = s.stack := rfl
@[simp] theorem State.toIdle_budget : s.toIdle.budget = s.budget := rfl
@[simp] theorem State.toIdle_cur : s.toIdle.cur = s.cur := rfl
@[simp] theorem State.toIdle_work : s.toIdle.work = [] := rfl
@[simp] theorem State.toIdle_opened : s.toIdle.opened = false := rfl
@[simp] theorem State.toIdle_mark : s.toIdle.mark = s.mark := rfl
@[simp] theorem State.toIdle_inReset : s.toIdle.inReset = s.inReset := rfl
@[simp] theorem State.toIdle_inq : s.toIdle.inq = s.inq := rfl
@[simp] theorem State.toIdle_popped : s.toIdle.popped = s.popped := rfl
@[simp] theorem State.toIdle_sink : s.toIdle.sink = s.sink := rfl
@[simp] theorem State.toIdle_events : s.toIdle.events = s.events := rfl
@[simp] theorem State.toIdle_accesses : s.toIdle.accesses = s.accesses := rfl
@[simp] theorem State.toIdle_stalled : s.toIdle.stalled = s.stalled := rfl
@[simp] theorem State.toIdle_draws : s.toIdle.draws = s.draws := rfl

/-! ## State.succeed -/

@[simp] theorem State.succeed_cfg : s.succeed.cfg = s.cfg := rfl
@[simp] theorem State.succeed_cmdLast : s.succeed.cmdLast = s.cmdLast := rfl
@[simp] theorem State.succeed_busy : s.succeed.busy = false := rfl
@[simp] theorem State.succeed_done : s.succeed.done = true := rfl
@[simp] theorem State.succeed_ovr : s.succeed.ovr = s.ovr := rfl
@[simp] theorem State.succeed_err : s.succeed.err = s.err := rfl
@[simp] theorem State.succeed_planValid : s.succeed.planValid = s.planValid := rfl
@[simp] theorem State.succeed_planFmt : s.succeed.planFmt = s.planFmt := rfl
@[simp] theorem State.succeed_treeValid : s.succeed.treeValid = s.treeValid := rfl
@[simp] theorem State.succeed_codesValid : s.succeed.codesValid = s.codesValid := rfl
@[simp] theorem State.succeed_arg : s.succeed.arg = s.arg := rfl
@[simp] theorem State.succeed_result : s.succeed.result = s.result := rfl
@[simp] theorem State.succeed_origBits : s.succeed.origBits = s.origBits := rfl
@[simp] theorem State.succeed_bodyBits : s.succeed.bodyBits = s.bodyBits := rfl
@[simp] theorem State.succeed_planSaved : s.succeed.planSaved = s.planSaved := rfl
@[simp] theorem State.succeed_freq : s.succeed.freq = s.freq := rfl
@[simp] theorem State.succeed_codes : s.succeed.codes = s.codes := rfl
@[simp] theorem State.succeed_store : s.succeed.store = s.store := rfl
@[simp] theorem State.succeed_writer : s.succeed.writer = s.writer := rfl
@[simp] theorem State.succeed_reader : s.succeed.reader = s.reader := rfl
@[simp] theorem State.succeed_phase : s.succeed.phase = .idle := rfl
@[simp] theorem State.succeed_pq : s.succeed.pq = s.pq := rfl
@[simp] theorem State.succeed_seq : s.succeed.seq = s.seq := rfl
@[simp] theorem State.succeed_lcmd : s.succeed.lcmd = s.lcmd := rfl
@[simp] theorem State.succeed_larg : s.succeed.larg = s.larg := rfl
@[simp] theorem State.succeed_stack : s.succeed.stack = s.stack := rfl
@[simp] theorem State.succeed_budget : s.succeed.budget = s.budget := rfl
@[simp] theorem State.succeed_cur : s.succeed.cur = s.cur := rfl
@[simp] theorem State.succeed_work : s.succeed.work = [] := rfl
@[simp] theorem State.succeed_opened : s.succeed.opened = false := rfl
@[simp] theorem State.succeed_mark : s.succeed.mark = s.mark := rfl
@[simp] theorem State.succeed_inReset : s.succeed.inReset = s.inReset := rfl
@[simp] theorem State.succeed_inq : s.succeed.inq = s.inq := rfl
@[simp] theorem State.succeed_popped : s.succeed.popped = s.popped := rfl
@[simp] theorem State.succeed_sink : s.succeed.sink = s.sink := rfl
@[simp] theorem State.succeed_events : s.succeed.events = s.events := rfl
@[simp] theorem State.succeed_accesses : s.succeed.accesses = s.accesses := rfl
@[simp] theorem State.succeed_stalled : s.succeed.stalled = s.stalled := rfl
@[simp] theorem State.succeed_draws : s.succeed.draws = s.draws := rfl

/-! ## State.finishError -/

@[simp] theorem State.finishError_cfg (e : ErrCode) : (s.finishError e).cfg = s.cfg := rfl
@[simp] theorem State.finishError_cmdLast (e : ErrCode) : (s.finishError e).cmdLast = s.cmdLast := rfl
@[simp] theorem State.finishError_busy (e : ErrCode) : (s.finishError e).busy = false := rfl
@[simp] theorem State.finishError_done (e : ErrCode) : (s.finishError e).done = true := rfl
@[simp] theorem State.finishError_ovr (e : ErrCode) : (s.finishError e).ovr = s.ovr := rfl
@[simp] theorem State.finishError_err (e : ErrCode) : (s.finishError e).err = e := rfl
@[simp] theorem State.finishError_planValid (e : ErrCode) : (s.finishError e).planValid = s.planValid := rfl
@[simp] theorem State.finishError_planFmt (e : ErrCode) : (s.finishError e).planFmt = s.planFmt := rfl
@[simp] theorem State.finishError_treeValid (e : ErrCode) : (s.finishError e).treeValid = s.treeValid := rfl
@[simp] theorem State.finishError_codesValid (e : ErrCode) : (s.finishError e).codesValid = s.codesValid := rfl
@[simp] theorem State.finishError_arg (e : ErrCode) : (s.finishError e).arg = s.arg := rfl
@[simp] theorem State.finishError_result (e : ErrCode) : (s.finishError e).result = s.result := rfl
@[simp] theorem State.finishError_origBits (e : ErrCode) : (s.finishError e).origBits = s.origBits := rfl
@[simp] theorem State.finishError_bodyBits (e : ErrCode) : (s.finishError e).bodyBits = s.bodyBits := rfl
@[simp] theorem State.finishError_planSaved (e : ErrCode) : (s.finishError e).planSaved = s.planSaved := rfl
@[simp] theorem State.finishError_freq (e : ErrCode) : (s.finishError e).freq = s.freq := rfl
@[simp] theorem State.finishError_codes (e : ErrCode) : (s.finishError e).codes = s.codes := rfl
@[simp] theorem State.finishError_store (e : ErrCode) : (s.finishError e).store = s.store := rfl
@[simp] theorem State.finishError_writer (e : ErrCode) : (s.finishError e).writer = s.writer := rfl
@[simp] theorem State.finishError_reader (e : ErrCode) : (s.finishError e).reader = s.reader := rfl
@[simp] theorem State.finishError_phase (e : ErrCode) : (s.finishError e).phase = .idle := rfl
@[simp] theorem State.finishError_pq (e : ErrCode) : (s.finishError e).pq = [] := rfl
@[simp] theorem State.finishError_seq (e : ErrCode) : (s.finishError e).seq = 0 := rfl
@[simp] theorem State.finishError_lcmd (e : ErrCode) : (s.finishError e).lcmd = s.lcmd := rfl
@[simp] theorem State.finishError_larg (e : ErrCode) : (s.finishError e).larg = s.larg := rfl
@[simp] theorem State.finishError_stack (e : ErrCode) : (s.finishError e).stack = [] := rfl
@[simp] theorem State.finishError_budget (e : ErrCode) : (s.finishError e).budget = 0 := rfl
@[simp] theorem State.finishError_cur (e : ErrCode) : (s.finishError e).cur = 0 := rfl
@[simp] theorem State.finishError_work (e : ErrCode) : (s.finishError e).work = [] := rfl
@[simp] theorem State.finishError_opened (e : ErrCode) : (s.finishError e).opened = false := rfl
@[simp] theorem State.finishError_mark (e : ErrCode) : (s.finishError e).mark = s.mark := rfl
@[simp] theorem State.finishError_inReset (e : ErrCode) : (s.finishError e).inReset = s.inReset := rfl
@[simp] theorem State.finishError_inq (e : ErrCode) : (s.finishError e).inq = s.inq := rfl
@[simp] theorem State.finishError_popped (e : ErrCode) : (s.finishError e).popped = s.popped := rfl
@[simp] theorem State.finishError_sink (e : ErrCode) : (s.finishError e).sink = s.sink := rfl
@[simp] theorem State.finishError_events (e : ErrCode) : (s.finishError e).events = s.events := rfl
@[simp] theorem State.finishError_accesses (e : ErrCode) : (s.finishError e).accesses = s.accesses := rfl
@[simp] theorem State.finishError_stalled (e : ErrCode) : (s.finishError e).stalled = s.stalled := rfl
@[simp] theorem State.finishError_draws (e : ErrCode) : (s.finishError e).draws = s.draws := rfl

/-! ## State.setFreq -/

@[simp] theorem State.setFreq_cfg (b : Byte) (v : Word) : (s.setFreq b v).cfg = s.cfg := rfl
@[simp] theorem State.setFreq_cmdLast (b : Byte) (v : Word) : (s.setFreq b v).cmdLast = s.cmdLast := rfl
@[simp] theorem State.setFreq_busy (b : Byte) (v : Word) : (s.setFreq b v).busy = s.busy := rfl
@[simp] theorem State.setFreq_done (b : Byte) (v : Word) : (s.setFreq b v).done = s.done := rfl
@[simp] theorem State.setFreq_ovr (b : Byte) (v : Word) : (s.setFreq b v).ovr = s.ovr := rfl
@[simp] theorem State.setFreq_err (b : Byte) (v : Word) : (s.setFreq b v).err = s.err := rfl
@[simp] theorem State.setFreq_planValid (b : Byte) (v : Word) : (s.setFreq b v).planValid = s.planValid := rfl
@[simp] theorem State.setFreq_planFmt (b : Byte) (v : Word) : (s.setFreq b v).planFmt = s.planFmt := rfl
@[simp] theorem State.setFreq_treeValid (b : Byte) (v : Word) : (s.setFreq b v).treeValid = s.treeValid := rfl
@[simp] theorem State.setFreq_codesValid (b : Byte) (v : Word) : (s.setFreq b v).codesValid = s.codesValid := rfl
@[simp] theorem State.setFreq_arg (b : Byte) (v : Word) : (s.setFreq b v).arg = s.arg := rfl
@[simp] theorem State.setFreq_result (b : Byte) (v : Word) : (s.setFreq b v).result = s.result := rfl
@[simp] theorem State.setFreq_origBits (b : Byte) (v : Word) : (s.setFreq b v).origBits = s.origBits := rfl
@[simp] theorem State.setFreq_bodyBits (b : Byte) (v : Word) : (s.setFreq b v).bodyBits = s.bodyBits := rfl
@[simp] theorem State.setFreq_planSaved (b : Byte) (v : Word) : (s.setFreq b v).planSaved = s.planSaved := rfl
@[simp] theorem State.setFreq_freq (b : Byte) (v : Word) : (s.setFreq b v).freq = s.freq.set b.toNat v b.isLt := rfl
@[simp] theorem State.setFreq_codes (b : Byte) (v : Word) : (s.setFreq b v).codes = s.codes := rfl
@[simp] theorem State.setFreq_store (b : Byte) (v : Word) : (s.setFreq b v).store = s.store := rfl
@[simp] theorem State.setFreq_writer (b : Byte) (v : Word) : (s.setFreq b v).writer = s.writer := rfl
@[simp] theorem State.setFreq_reader (b : Byte) (v : Word) : (s.setFreq b v).reader = s.reader := rfl
@[simp] theorem State.setFreq_phase (b : Byte) (v : Word) : (s.setFreq b v).phase = s.phase := rfl
@[simp] theorem State.setFreq_pq (b : Byte) (v : Word) : (s.setFreq b v).pq = s.pq := rfl
@[simp] theorem State.setFreq_seq (b : Byte) (v : Word) : (s.setFreq b v).seq = s.seq := rfl
@[simp] theorem State.setFreq_lcmd (b : Byte) (v : Word) : (s.setFreq b v).lcmd = s.lcmd := rfl
@[simp] theorem State.setFreq_larg (b : Byte) (v : Word) : (s.setFreq b v).larg = s.larg := rfl
@[simp] theorem State.setFreq_stack (b : Byte) (v : Word) : (s.setFreq b v).stack = s.stack := rfl
@[simp] theorem State.setFreq_budget (b : Byte) (v : Word) : (s.setFreq b v).budget = s.budget := rfl
@[simp] theorem State.setFreq_cur (b : Byte) (v : Word) : (s.setFreq b v).cur = s.cur := rfl
@[simp] theorem State.setFreq_work (b : Byte) (v : Word) : (s.setFreq b v).work = s.work := rfl
@[simp] theorem State.setFreq_opened (b : Byte) (v : Word) : (s.setFreq b v).opened = s.opened := rfl
@[simp] theorem State.setFreq_mark (b : Byte) (v : Word) : (s.setFreq b v).mark = s.mark := rfl
@[simp] theorem State.setFreq_inReset (b : Byte) (v : Word) : (s.setFreq b v).inReset = s.inReset := rfl
@[simp] theorem State.setFreq_inq (b : Byte) (v : Word) : (s.setFreq b v).inq = s.inq := rfl
@[simp] theorem State.setFreq_popped (b : Byte) (v : Word) : (s.setFreq b v).popped = s.popped := rfl
@[simp] theorem State.setFreq_sink (b : Byte) (v : Word) : (s.setFreq b v).sink = s.sink := rfl
@[simp] theorem State.setFreq_events (b : Byte) (v : Word) : (s.setFreq b v).events = s.events := rfl
@[simp] theorem State.setFreq_accesses (b : Byte) (v : Word) : (s.setFreq b v).accesses = s.accesses := rfl
@[simp] theorem State.setFreq_stalled (b : Byte) (v : Word) : (s.setFreq b v).stalled = s.stalled := rfl
@[simp] theorem State.setFreq_draws (b : Byte) (v : Word) : (s.setFreq b v).draws = s.draws := rfl

/-! ## State.clearCodes -/

@[simp] theorem State.clearCodes_cfg : s.clearCodes.cfg = s.cfg := rfl
@[simp] theorem State.clearCodes_cmdLast : s.clearCodes.cmdLast = s.cmdLast := rfl
@[simp] theorem State.clearCodes_busy : s.clearCodes.busy = s.busy := rfl
@[simp] theorem State.clearCodes_done : s.clearCodes.done = s.done := rfl
@[simp] theorem State.clearCodes_ovr : s.clearCodes.ovr = s.ovr := rfl
@[simp] theorem State.clearCodes_err : s.clearCodes.err = s.err := rfl
@[simp] theorem State.clearCodes_planValid : s.clearCodes.planValid = false := rfl
@[simp] theorem State.clearCodes_planFmt : s.clearCodes.planFmt = s.planFmt := rfl
@[simp] theorem State.clearCodes_treeValid : s.clearCodes.treeValid = s.treeValid := rfl
@[simp] theorem State.clearCodes_codesValid : s.clearCodes.codesValid = false := rfl
@[simp] theorem State.clearCodes_arg : s.clearCodes.arg = s.arg := rfl
@[simp] theorem State.clearCodes_result : s.clearCodes.result = s.result := rfl
@[simp] theorem State.clearCodes_origBits : s.clearCodes.origBits = s.origBits := rfl
@[simp] theorem State.clearCodes_bodyBits : s.clearCodes.bodyBits = s.bodyBits := rfl
@[simp] theorem State.clearCodes_planSaved : s.clearCodes.planSaved = s.planSaved := rfl
@[simp] theorem State.clearCodes_freq : s.clearCodes.freq = s.freq := rfl
@[simp] theorem State.clearCodes_codes : s.clearCodes.codes = Vector.replicate 257 Code.none := rfl
@[simp] theorem State.clearCodes_store : s.clearCodes.store = s.store := rfl
@[simp] theorem State.clearCodes_writer : s.clearCodes.writer = s.writer := rfl
@[simp] theorem State.clearCodes_reader : s.clearCodes.reader = s.reader := rfl
@[simp] theorem State.clearCodes_phase : s.clearCodes.phase = s.phase := rfl
@[simp] theorem State.clearCodes_pq : s.clearCodes.pq = s.pq := rfl
@[simp] theorem State.clearCodes_seq : s.clearCodes.seq = s.seq := rfl
@[simp] theorem State.clearCodes_lcmd : s.clearCodes.lcmd = s.lcmd := rfl
@[simp] theorem State.clearCodes_larg : s.clearCodes.larg = s.larg := rfl
@[simp] theorem State.clearCodes_stack : s.clearCodes.stack = s.stack := rfl
@[simp] theorem State.clearCodes_budget : s.clearCodes.budget = s.budget := rfl
@[simp] theorem State.clearCodes_cur : s.clearCodes.cur = s.cur := rfl
@[simp] theorem State.clearCodes_work : s.clearCodes.work = s.work := rfl
@[simp] theorem State.clearCodes_opened : s.clearCodes.opened = s.opened := rfl
@[simp] theorem State.clearCodes_mark : s.clearCodes.mark = s.mark := rfl
@[simp] theorem State.clearCodes_inReset : s.clearCodes.inReset = s.inReset := rfl
@[simp] theorem State.clearCodes_inq : s.clearCodes.inq = s.inq := rfl
@[simp] theorem State.clearCodes_popped : s.clearCodes.popped = s.popped := rfl
@[simp] theorem State.clearCodes_sink : s.clearCodes.sink = s.sink := rfl
@[simp] theorem State.clearCodes_events : s.clearCodes.events = s.events := rfl
@[simp] theorem State.clearCodes_accesses : s.clearCodes.accesses = s.accesses := rfl
@[simp] theorem State.clearCodes_stalled : s.clearCodes.stalled = s.stalled := rfl
@[simp] theorem State.clearCodes_draws : s.clearCodes.draws = s.draws := rfl

/-! ## State.clearTree -/

@[simp] theorem State.clearTree_cfg : s.clearTree.cfg = s.cfg := rfl
@[simp] theorem State.clearTree_cmdLast : s.clearTree.cmdLast = s.cmdLast := rfl
@[simp] theorem State.clearTree_busy : s.clearTree.busy = s.busy := rfl
@[simp] theorem State.clearTree_done : s.clearTree.done = s.done := rfl
@[simp] theorem State.clearTree_ovr : s.clearTree.ovr = s.ovr := rfl
@[simp] theorem State.clearTree_err : s.clearTree.err = s.err := rfl
@[simp] theorem State.clearTree_planValid : s.clearTree.planValid = false := rfl
@[simp] theorem State.clearTree_planFmt : s.clearTree.planFmt = s.planFmt := rfl
@[simp] theorem State.clearTree_treeValid : s.clearTree.treeValid = false := rfl
@[simp] theorem State.clearTree_codesValid : s.clearTree.codesValid = false := rfl
@[simp] theorem State.clearTree_arg : s.clearTree.arg = s.arg := rfl
@[simp] theorem State.clearTree_result : s.clearTree.result = s.result := rfl
@[simp] theorem State.clearTree_origBits : s.clearTree.origBits = s.origBits := rfl
@[simp] theorem State.clearTree_bodyBits : s.clearTree.bodyBits = s.bodyBits := rfl
@[simp] theorem State.clearTree_planSaved : s.clearTree.planSaved = s.planSaved := rfl
@[simp] theorem State.clearTree_freq : s.clearTree.freq = s.freq := rfl
@[simp] theorem State.clearTree_codes : s.clearTree.codes = Vector.replicate 257 Code.none := rfl
@[simp] theorem State.clearTree_store : s.clearTree.store = NodeStore.empty := rfl
@[simp] theorem State.clearTree_writer : s.clearTree.writer = s.writer := rfl
@[simp] theorem State.clearTree_reader : s.clearTree.reader = s.reader := rfl
@[simp] theorem State.clearTree_phase : s.clearTree.phase = s.phase := rfl
@[simp] theorem State.clearTree_pq : s.clearTree.pq = s.pq := rfl
@[simp] theorem State.clearTree_seq : s.clearTree.seq = s.seq := rfl
@[simp] theorem State.clearTree_lcmd : s.clearTree.lcmd = s.lcmd := rfl
@[simp] theorem State.clearTree_larg : s.clearTree.larg = s.larg := rfl
@[simp] theorem State.clearTree_stack : s.clearTree.stack = s.stack := rfl
@[simp] theorem State.clearTree_budget : s.clearTree.budget = s.budget := rfl
@[simp] theorem State.clearTree_cur : s.clearTree.cur = s.cur := rfl
@[simp] theorem State.clearTree_work : s.clearTree.work = s.work := rfl
@[simp] theorem State.clearTree_opened : s.clearTree.opened = s.opened := rfl
@[simp] theorem State.clearTree_mark : s.clearTree.mark = s.mark := rfl
@[simp] theorem State.clearTree_inReset : s.clearTree.inReset = s.inReset := rfl
@[simp] theorem State.clearTree_inq : s.clearTree.inq = s.inq := rfl
@[simp] theorem State.clearTree_popped : s.clearTree.popped = s.popped := rfl
@[simp] theorem State.clearTree_sink : s.clearTree.sink = s.sink := rfl
@[simp] theorem State.clearTree_events : s.clearTree.events = s.events := rfl
@[simp] theorem State.clearTree_accesses : s.clearTree.accesses = s.accesses := rfl
@[simp] theorem State.clearTree_stalled : s.clearTree.stalled = s.stalled := rfl
@[simp] theorem State.clearTree_draws : s.clearTree.draws = s.draws := rfl

/-! ## State.clearAll -/

@[simp] theorem State.clearAll_cfg : s.clearAll.cfg = s.cfg := rfl
@[simp] theorem State.clearAll_cmdLast : s.clearAll.cmdLast = s.cmdLast := rfl
@[simp] theorem State.clearAll_busy : s.clearAll.busy = s.busy := rfl
@[simp] theorem State.clearAll_done : s.clearAll.done = s.done := rfl
@[simp] theorem State.clearAll_ovr : s.clearAll.ovr = s.ovr := rfl
@[simp] theorem State.clearAll_err : s.clearAll.err = s.err := rfl
@[simp] theorem State.clearAll_planValid : s.clearAll.planValid = false := rfl
@[simp] theorem State.clearAll_planFmt : s.clearAll.planFmt = s.planFmt := rfl
@[simp] theorem State.clearAll_treeValid : s.clearAll.treeValid = false := rfl
@[simp] theorem State.clearAll_codesValid : s.clearAll.codesValid = false := rfl
@[simp] theorem State.clearAll_arg : s.clearAll.arg = s.arg := rfl
@[simp] theorem State.clearAll_result : s.clearAll.result = s.result := rfl
@[simp] theorem State.clearAll_origBits : s.clearAll.origBits = s.origBits := rfl
@[simp] theorem State.clearAll_bodyBits : s.clearAll.bodyBits = s.bodyBits := rfl
@[simp] theorem State.clearAll_planSaved : s.clearAll.planSaved = s.planSaved := rfl
@[simp] theorem State.clearAll_freq : s.clearAll.freq = Vector.replicate 256 0#32 := rfl
@[simp] theorem State.clearAll_codes : s.clearAll.codes = Vector.replicate 257 Code.none := rfl
@[simp] theorem State.clearAll_store : s.clearAll.store = NodeStore.empty := rfl
@[simp] theorem State.clearAll_writer : s.clearAll.writer = s.writer := rfl
@[simp] theorem State.clearAll_reader : s.clearAll.reader = s.reader := rfl
@[simp] theorem State.clearAll_phase : s.clearAll.phase = s.phase := rfl
@[simp] theorem State.clearAll_pq : s.clearAll.pq = s.pq := rfl
@[simp] theorem State.clearAll_seq : s.clearAll.seq = s.seq := rfl
@[simp] theorem State.clearAll_lcmd : s.clearAll.lcmd = s.lcmd := rfl
@[simp] theorem State.clearAll_larg : s.clearAll.larg = s.larg := rfl
@[simp] theorem State.clearAll_stack : s.clearAll.stack = s.stack := rfl
@[simp] theorem State.clearAll_budget : s.clearAll.budget = s.budget := rfl
@[simp] theorem State.clearAll_cur : s.clearAll.cur = s.cur := rfl
@[simp] theorem State.clearAll_work : s.clearAll.work = s.work := rfl
@[simp] theorem State.clearAll_opened : s.clearAll.opened = s.opened := rfl
@[simp] theorem State.clearAll_mark : s.clearAll.mark = s.mark := rfl
@[simp] theorem State.clearAll_inReset : s.clearAll.inReset = s.inReset := rfl
@[simp] theorem State.clearAll_inq : s.clearAll.inq = s.inq := rfl
@[simp] theorem State.clearAll_popped : s.clearAll.popped = s.popped := rfl
@[simp] theorem State.clearAll_sink : s.clearAll.sink = s.sink := rfl
@[simp] theorem State.clearAll_events : s.clearAll.events = s.events := rfl
@[simp] theorem State.clearAll_accesses : s.clearAll.accesses = s.accesses := rfl
@[simp] theorem State.clearAll_stalled : s.clearAll.stalled = s.stalled := rfl
@[simp] theorem State.clearAll_draws : s.clearAll.draws = s.draws := rfl

/-! ## State.countByte -/

@[simp] theorem State.countByte_cfg (b : Byte) (left : List InToken) : (s.countByte b left).cfg = s.cfg := rfl
@[simp] theorem State.countByte_cmdLast (b : Byte) (left : List InToken) : (s.countByte b left).cmdLast = s.cmdLast := rfl
@[simp] theorem State.countByte_busy (b : Byte) (left : List InToken) : (s.countByte b left).busy = s.busy := rfl
@[simp] theorem State.countByte_done (b : Byte) (left : List InToken) : (s.countByte b left).done = s.done := rfl
@[simp] theorem State.countByte_ovr (b : Byte) (left : List InToken) : (s.countByte b left).ovr = s.ovr := rfl
@[simp] theorem State.countByte_err (b : Byte) (left : List InToken) : (s.countByte b left).err = s.err := rfl
@[simp] theorem State.countByte_planValid (b : Byte) (left : List InToken) : (s.countByte b left).planValid = s.planValid := rfl
@[simp] theorem State.countByte_planFmt (b : Byte) (left : List InToken) : (s.countByte b left).planFmt = s.planFmt := rfl
@[simp] theorem State.countByte_treeValid (b : Byte) (left : List InToken) : (s.countByte b left).treeValid = s.treeValid := rfl
@[simp] theorem State.countByte_codesValid (b : Byte) (left : List InToken) : (s.countByte b left).codesValid = s.codesValid := rfl
@[simp] theorem State.countByte_arg (b : Byte) (left : List InToken) : (s.countByte b left).arg = s.arg := rfl
@[simp] theorem State.countByte_result (b : Byte) (left : List InToken) : (s.countByte b left).result = s.result := rfl
@[simp] theorem State.countByte_origBits (b : Byte) (left : List InToken) : (s.countByte b left).origBits = s.origBits := rfl
@[simp] theorem State.countByte_bodyBits (b : Byte) (left : List InToken) : (s.countByte b left).bodyBits = s.bodyBits := rfl
@[simp] theorem State.countByte_planSaved (b : Byte) (left : List InToken) : (s.countByte b left).planSaved = s.planSaved := rfl
@[simp] theorem State.countByte_freq (b : Byte) (left : List InToken) : (s.countByte b left).freq = s.freq.set b.toNat (s.freq[b.toNat] + 1#32) b.isLt := rfl
@[simp] theorem State.countByte_codes (b : Byte) (left : List InToken) : (s.countByte b left).codes = s.codes := rfl
@[simp] theorem State.countByte_store (b : Byte) (left : List InToken) : (s.countByte b left).store = s.store := rfl
@[simp] theorem State.countByte_writer (b : Byte) (left : List InToken) : (s.countByte b left).writer = s.writer := rfl
@[simp] theorem State.countByte_reader (b : Byte) (left : List InToken) : (s.countByte b left).reader = s.reader := rfl
@[simp] theorem State.countByte_phase (b : Byte) (left : List InToken) : (s.countByte b left).phase = s.phase := rfl
@[simp] theorem State.countByte_pq (b : Byte) (left : List InToken) : (s.countByte b left).pq = s.pq := rfl
@[simp] theorem State.countByte_seq (b : Byte) (left : List InToken) : (s.countByte b left).seq = s.seq := rfl
@[simp] theorem State.countByte_lcmd (b : Byte) (left : List InToken) : (s.countByte b left).lcmd = s.lcmd := rfl
@[simp] theorem State.countByte_larg (b : Byte) (left : List InToken) : (s.countByte b left).larg = s.larg := rfl
@[simp] theorem State.countByte_stack (b : Byte) (left : List InToken) : (s.countByte b left).stack = s.stack := rfl
@[simp] theorem State.countByte_budget (b : Byte) (left : List InToken) : (s.countByte b left).budget = s.budget := rfl
@[simp] theorem State.countByte_cur (b : Byte) (left : List InToken) : (s.countByte b left).cur = s.cur := rfl
@[simp] theorem State.countByte_work (b : Byte) (left : List InToken) : (s.countByte b left).work = s.work := rfl
@[simp] theorem State.countByte_opened (b : Byte) (left : List InToken) : (s.countByte b left).opened = s.opened := rfl
@[simp] theorem State.countByte_mark (b : Byte) (left : List InToken) : (s.countByte b left).mark = s.mark := rfl
@[simp] theorem State.countByte_inReset (b : Byte) (left : List InToken) : (s.countByte b left).inReset = s.inReset := rfl
@[simp] theorem State.countByte_inq (b : Byte) (left : List InToken) : (s.countByte b left).inq = left := rfl
@[simp] theorem State.countByte_popped (b : Byte) (left : List InToken) : (s.countByte b left).popped = s.popped := rfl
@[simp] theorem State.countByte_sink (b : Byte) (left : List InToken) : (s.countByte b left).sink = s.sink := rfl
@[simp] theorem State.countByte_events (b : Byte) (left : List InToken) : (s.countByte b left).events = s.events := rfl
@[simp] theorem State.countByte_accesses (b : Byte) (left : List InToken) : (s.countByte b left).accesses = s.accesses := rfl
@[simp] theorem State.countByte_stalled (b : Byte) (left : List InToken) : (s.countByte b left).stalled = s.stalled := rfl
@[simp] theorem State.countByte_draws (b : Byte) (left : List InToken) : (s.countByte b left).draws = s.draws := rfl

/-! ## State.spend -/

@[simp] theorem State.spend_cfg (n : Nat) : (s.spend n).cfg = s.cfg := rfl
@[simp] theorem State.spend_cmdLast (n : Nat) : (s.spend n).cmdLast = s.cmdLast := rfl
@[simp] theorem State.spend_busy (n : Nat) : (s.spend n).busy = s.busy := rfl
@[simp] theorem State.spend_done (n : Nat) : (s.spend n).done = s.done := rfl
@[simp] theorem State.spend_ovr (n : Nat) : (s.spend n).ovr = s.ovr := rfl
@[simp] theorem State.spend_err (n : Nat) : (s.spend n).err = s.err := rfl
@[simp] theorem State.spend_planValid (n : Nat) : (s.spend n).planValid = s.planValid := rfl
@[simp] theorem State.spend_planFmt (n : Nat) : (s.spend n).planFmt = s.planFmt := rfl
@[simp] theorem State.spend_treeValid (n : Nat) : (s.spend n).treeValid = s.treeValid := rfl
@[simp] theorem State.spend_codesValid (n : Nat) : (s.spend n).codesValid = s.codesValid := rfl
@[simp] theorem State.spend_arg (n : Nat) : (s.spend n).arg = s.arg := rfl
@[simp] theorem State.spend_result (n : Nat) : (s.spend n).result = s.result := rfl
@[simp] theorem State.spend_origBits (n : Nat) : (s.spend n).origBits = s.origBits := rfl
@[simp] theorem State.spend_bodyBits (n : Nat) : (s.spend n).bodyBits = s.bodyBits := rfl
@[simp] theorem State.spend_planSaved (n : Nat) : (s.spend n).planSaved = s.planSaved := rfl
@[simp] theorem State.spend_freq (n : Nat) : (s.spend n).freq = s.freq := rfl
@[simp] theorem State.spend_codes (n : Nat) : (s.spend n).codes = s.codes := rfl
@[simp] theorem State.spend_store (n : Nat) : (s.spend n).store = s.store := rfl
@[simp] theorem State.spend_writer (n : Nat) : (s.spend n).writer = s.writer := rfl
@[simp] theorem State.spend_reader (n : Nat) : (s.spend n).reader = s.reader := rfl
@[simp] theorem State.spend_phase (n : Nat) : (s.spend n).phase = s.phase := rfl
@[simp] theorem State.spend_pq (n : Nat) : (s.spend n).pq = s.pq := rfl
@[simp] theorem State.spend_seq (n : Nat) : (s.spend n).seq = s.seq := rfl
@[simp] theorem State.spend_lcmd (n : Nat) : (s.spend n).lcmd = s.lcmd := rfl
@[simp] theorem State.spend_larg (n : Nat) : (s.spend n).larg = s.larg := rfl
@[simp] theorem State.spend_stack (n : Nat) : (s.spend n).stack = s.stack := rfl
@[simp] theorem State.spend_budget (n : Nat) : (s.spend n).budget = s.budget - n := rfl
@[simp] theorem State.spend_cur (n : Nat) : (s.spend n).cur = s.cur := rfl
@[simp] theorem State.spend_work (n : Nat) : (s.spend n).work = s.work := rfl
@[simp] theorem State.spend_opened (n : Nat) : (s.spend n).opened = s.opened := rfl
@[simp] theorem State.spend_mark (n : Nat) : (s.spend n).mark = s.mark := rfl
@[simp] theorem State.spend_inReset (n : Nat) : (s.spend n).inReset = s.inReset := rfl
@[simp] theorem State.spend_inq (n : Nat) : (s.spend n).inq = s.inq := rfl
@[simp] theorem State.spend_popped (n : Nat) : (s.spend n).popped = s.popped := rfl
@[simp] theorem State.spend_sink (n : Nat) : (s.spend n).sink = s.sink := rfl
@[simp] theorem State.spend_events (n : Nat) : (s.spend n).events = s.events := rfl
@[simp] theorem State.spend_accesses (n : Nat) : (s.spend n).accesses = s.accesses := rfl
@[simp] theorem State.spend_stalled (n : Nat) : (s.spend n).stalled = s.stalled := rfl
@[simp] theorem State.spend_draws (n : Nat) : (s.spend n).draws = s.draws := rfl

/-! ## State.buildTree -/

@[simp] theorem State.buildTree_cfg : s.buildTree.cfg = s.cfg := rfl
@[simp] theorem State.buildTree_cmdLast : s.buildTree.cmdLast = s.cmdLast := rfl
@[simp] theorem State.buildTree_busy : s.buildTree.busy = s.busy := rfl
@[simp] theorem State.buildTree_done : s.buildTree.done = s.done := rfl
@[simp] theorem State.buildTree_ovr : s.buildTree.ovr = s.ovr := rfl
@[simp] theorem State.buildTree_err : s.buildTree.err = s.err := rfl
@[simp] theorem State.buildTree_planValid : s.buildTree.planValid = s.planValid := rfl
@[simp] theorem State.buildTree_planFmt : s.buildTree.planFmt = s.planFmt := rfl
@[simp] theorem State.buildTree_treeValid : s.buildTree.treeValid = true := rfl
@[simp] theorem State.buildTree_codesValid : s.buildTree.codesValid = s.codesValid := rfl
@[simp] theorem State.buildTree_arg : s.buildTree.arg = s.arg := rfl
@[simp] theorem State.buildTree_result : s.buildTree.result = s.result := rfl
@[simp] theorem State.buildTree_origBits : s.buildTree.origBits = s.origBits := rfl
@[simp] theorem State.buildTree_bodyBits : s.buildTree.bodyBits = s.bodyBits := rfl
@[simp] theorem State.buildTree_planSaved : s.buildTree.planSaved = s.planSaved := rfl
@[simp] theorem State.buildTree_freq : s.buildTree.freq = s.freq := rfl
@[simp] theorem State.buildTree_codes : s.buildTree.codes = s.codes := rfl
@[simp] theorem State.buildTree_writer : s.buildTree.writer = s.writer := rfl
@[simp] theorem State.buildTree_reader : s.buildTree.reader = s.reader := rfl
@[simp] theorem State.buildTree_phase : s.buildTree.phase = .build := rfl
@[simp] theorem State.buildTree_lcmd : s.buildTree.lcmd = s.lcmd := rfl
@[simp] theorem State.buildTree_larg : s.buildTree.larg = s.larg := rfl
@[simp] theorem State.buildTree_stack : s.buildTree.stack = s.stack := rfl
@[simp] theorem State.buildTree_budget : s.buildTree.budget = s.budget := rfl
@[simp] theorem State.buildTree_cur : s.buildTree.cur = s.cur := rfl
@[simp] theorem State.buildTree_work : s.buildTree.work = s.work := rfl
@[simp] theorem State.buildTree_opened : s.buildTree.opened = s.opened := rfl
@[simp] theorem State.buildTree_mark : s.buildTree.mark = s.mark := rfl
@[simp] theorem State.buildTree_inReset : s.buildTree.inReset = s.inReset := rfl
@[simp] theorem State.buildTree_inq : s.buildTree.inq = s.inq := rfl
@[simp] theorem State.buildTree_popped : s.buildTree.popped = s.popped := rfl
@[simp] theorem State.buildTree_sink : s.buildTree.sink = s.sink := rfl
@[simp] theorem State.buildTree_events : s.buildTree.events = s.events := rfl
@[simp] theorem State.buildTree_accesses : s.buildTree.accesses = s.accesses := rfl
@[simp] theorem State.buildTree_stalled : s.buildTree.stalled = s.stalled := rfl
@[simp] theorem State.buildTree_draws : s.buildTree.draws = s.draws := rfl

/-! ## State.setCount -/

@[simp] theorem State.setCount_cfg (k c : Nat) : (s.setCount k c).cfg = s.cfg := rfl
@[simp] theorem State.setCount_cmdLast (k c : Nat) : (s.setCount k c).cmdLast = s.cmdLast := rfl
@[simp] theorem State.setCount_busy (k c : Nat) : (s.setCount k c).busy = s.busy := rfl
@[simp] theorem State.setCount_done (k c : Nat) : (s.setCount k c).done = s.done := rfl
@[simp] theorem State.setCount_ovr (k c : Nat) : (s.setCount k c).ovr = s.ovr := rfl
@[simp] theorem State.setCount_err (k c : Nat) : (s.setCount k c).err = s.err := rfl
@[simp] theorem State.setCount_planValid (k c : Nat) : (s.setCount k c).planValid = s.planValid := rfl
@[simp] theorem State.setCount_planFmt (k c : Nat) : (s.setCount k c).planFmt = s.planFmt := rfl
@[simp] theorem State.setCount_treeValid (k c : Nat) : (s.setCount k c).treeValid = s.treeValid := rfl
@[simp] theorem State.setCount_codesValid (k c : Nat) : (s.setCount k c).codesValid = s.codesValid := rfl
@[simp] theorem State.setCount_arg (k c : Nat) : (s.setCount k c).arg = s.arg := rfl
@[simp] theorem State.setCount_result (k c : Nat) : (s.setCount k c).result = s.result := rfl
@[simp] theorem State.setCount_origBits (k c : Nat) : (s.setCount k c).origBits = s.origBits := rfl
@[simp] theorem State.setCount_bodyBits (k c : Nat) : (s.setCount k c).bodyBits = s.bodyBits := rfl
@[simp] theorem State.setCount_planSaved (k c : Nat) : (s.setCount k c).planSaved = s.planSaved := rfl
@[simp] theorem State.setCount_codes (k c : Nat) : (s.setCount k c).codes = s.codes := rfl
@[simp] theorem State.setCount_store (k c : Nat) : (s.setCount k c).store = s.store := rfl
@[simp] theorem State.setCount_writer (k c : Nat) : (s.setCount k c).writer = s.writer := rfl
@[simp] theorem State.setCount_reader (k c : Nat) : (s.setCount k c).reader = s.reader := rfl
@[simp] theorem State.setCount_phase (k c : Nat) : (s.setCount k c).phase = s.phase := rfl
@[simp] theorem State.setCount_pq (k c : Nat) : (s.setCount k c).pq = s.pq := rfl
@[simp] theorem State.setCount_seq (k c : Nat) : (s.setCount k c).seq = s.seq := rfl
@[simp] theorem State.setCount_lcmd (k c : Nat) : (s.setCount k c).lcmd = s.lcmd := rfl
@[simp] theorem State.setCount_larg (k c : Nat) : (s.setCount k c).larg = s.larg := rfl
@[simp] theorem State.setCount_stack (k c : Nat) : (s.setCount k c).stack = s.stack := rfl
@[simp] theorem State.setCount_budget (k c : Nat) : (s.setCount k c).budget = s.budget := rfl
@[simp] theorem State.setCount_cur (k c : Nat) : (s.setCount k c).cur = s.cur := rfl
@[simp] theorem State.setCount_work (k c : Nat) : (s.setCount k c).work = s.work := rfl
@[simp] theorem State.setCount_opened (k c : Nat) : (s.setCount k c).opened = s.opened := rfl
@[simp] theorem State.setCount_mark (k c : Nat) : (s.setCount k c).mark = s.mark := rfl
@[simp] theorem State.setCount_inReset (k c : Nat) : (s.setCount k c).inReset = s.inReset := rfl
@[simp] theorem State.setCount_inq (k c : Nat) : (s.setCount k c).inq = s.inq := rfl
@[simp] theorem State.setCount_popped (k c : Nat) : (s.setCount k c).popped = s.popped := rfl
@[simp] theorem State.setCount_sink (k c : Nat) : (s.setCount k c).sink = s.sink := rfl
@[simp] theorem State.setCount_events (k c : Nat) : (s.setCount k c).events = s.events := rfl
@[simp] theorem State.setCount_accesses (k c : Nat) : (s.setCount k c).accesses = s.accesses := rfl
@[simp] theorem State.setCount_stalled (k c : Nat) : (s.setCount k c).stalled = s.stalled := rfl
@[simp] theorem State.setCount_draws (k c : Nat) : (s.setCount k c).draws = s.draws := rfl

/-! ## State.makePlan -/

@[simp] theorem State.makePlan_cfg (fmt : Fmt) : (s.makePlan fmt).cfg = s.cfg := rfl
@[simp] theorem State.makePlan_cmdLast (fmt : Fmt) : (s.makePlan fmt).cmdLast = s.cmdLast := rfl
@[simp] theorem State.makePlan_busy (fmt : Fmt) : (s.makePlan fmt).busy = s.busy := rfl
@[simp] theorem State.makePlan_done (fmt : Fmt) : (s.makePlan fmt).done = s.done := rfl
@[simp] theorem State.makePlan_ovr (fmt : Fmt) : (s.makePlan fmt).ovr = s.ovr := rfl
@[simp] theorem State.makePlan_err (fmt : Fmt) : (s.makePlan fmt).err = s.err := rfl
@[simp] theorem State.makePlan_planValid (fmt : Fmt) : (s.makePlan fmt).planValid = true := rfl
@[simp] theorem State.makePlan_planFmt (fmt : Fmt) : (s.makePlan fmt).planFmt = fmt := rfl
@[simp] theorem State.makePlan_treeValid (fmt : Fmt) : (s.makePlan fmt).treeValid = s.treeValid := rfl
@[simp] theorem State.makePlan_codesValid (fmt : Fmt) : (s.makePlan fmt).codesValid = s.codesValid := rfl
@[simp] theorem State.makePlan_arg (fmt : Fmt) : (s.makePlan fmt).arg = s.arg := rfl
@[simp] theorem State.makePlan_result (fmt : Fmt) : (s.makePlan fmt).result = toS64 (s.bitsSaved fmt) s.draws := rfl
@[simp] theorem State.makePlan_origBits (fmt : Fmt) : (s.makePlan fmt).origBits = s.origBits := rfl
@[simp] theorem State.makePlan_bodyBits (fmt : Fmt) : (s.makePlan fmt).bodyBits = s.bodyBits := rfl
@[simp] theorem State.makePlan_planSaved (fmt : Fmt) : (s.makePlan fmt).planSaved = BitVec.ofInt 64 (s.bitsSaved fmt) := rfl
@[simp] theorem State.makePlan_freq (fmt : Fmt) : (s.makePlan fmt).freq = s.freq := rfl
@[simp] theorem State.makePlan_codes (fmt : Fmt) : (s.makePlan fmt).codes = s.codes := rfl
@[simp] theorem State.makePlan_store (fmt : Fmt) : (s.makePlan fmt).store = s.store := rfl
@[simp] theorem State.makePlan_writer (fmt : Fmt) : (s.makePlan fmt).writer = s.writer := rfl
@[simp] theorem State.makePlan_reader (fmt : Fmt) : (s.makePlan fmt).reader = s.reader := rfl
@[simp] theorem State.makePlan_phase (fmt : Fmt) : (s.makePlan fmt).phase = .cost := rfl
@[simp] theorem State.makePlan_pq (fmt : Fmt) : (s.makePlan fmt).pq = s.pq := rfl
@[simp] theorem State.makePlan_seq (fmt : Fmt) : (s.makePlan fmt).seq = s.seq := rfl
@[simp] theorem State.makePlan_lcmd (fmt : Fmt) : (s.makePlan fmt).lcmd = s.lcmd := rfl
@[simp] theorem State.makePlan_larg (fmt : Fmt) : (s.makePlan fmt).larg = s.larg := rfl
@[simp] theorem State.makePlan_stack (fmt : Fmt) : (s.makePlan fmt).stack = s.stack := rfl
@[simp] theorem State.makePlan_budget (fmt : Fmt) : (s.makePlan fmt).budget = s.budget := rfl
@[simp] theorem State.makePlan_cur (fmt : Fmt) : (s.makePlan fmt).cur = s.cur := rfl
@[simp] theorem State.makePlan_work (fmt : Fmt) : (s.makePlan fmt).work = s.work := rfl
@[simp] theorem State.makePlan_opened (fmt : Fmt) : (s.makePlan fmt).opened = s.opened := rfl
@[simp] theorem State.makePlan_mark (fmt : Fmt) : (s.makePlan fmt).mark = s.mark := rfl
@[simp] theorem State.makePlan_inReset (fmt : Fmt) : (s.makePlan fmt).inReset = s.inReset := rfl
@[simp] theorem State.makePlan_inq (fmt : Fmt) : (s.makePlan fmt).inq = s.inq := rfl
@[simp] theorem State.makePlan_popped (fmt : Fmt) : (s.makePlan fmt).popped = s.popped := rfl
@[simp] theorem State.makePlan_sink (fmt : Fmt) : (s.makePlan fmt).sink = s.sink := rfl
@[simp] theorem State.makePlan_events (fmt : Fmt) : (s.makePlan fmt).events = s.events := rfl
@[simp] theorem State.makePlan_accesses (fmt : Fmt) : (s.makePlan fmt).accesses = s.accesses := rfl
@[simp] theorem State.makePlan_stalled (fmt : Fmt) : (s.makePlan fmt).stalled = s.stalled := rfl
@[simp] theorem State.makePlan_draws (fmt : Fmt) : (s.makePlan fmt).draws = s64Draws (s.bitsSaved fmt) s.draws := rfl

/-! ## State.startDecode -/

@[simp] theorem State.startDecode_cfg : s.startDecode.cfg = s.cfg := rfl
@[simp] theorem State.startDecode_cmdLast : s.startDecode.cmdLast = s.cmdLast := rfl
@[simp] theorem State.startDecode_busy : s.startDecode.busy = s.busy := rfl
@[simp] theorem State.startDecode_done : s.startDecode.done = s.done := rfl
@[simp] theorem State.startDecode_ovr : s.startDecode.ovr = s.ovr := rfl
@[simp] theorem State.startDecode_err : s.startDecode.err = s.err := rfl
@[simp] theorem State.startDecode_planValid : s.startDecode.planValid = s.planValid := rfl
@[simp] theorem State.startDecode_planFmt : s.startDecode.planFmt = s.planFmt := rfl
@[simp] theorem State.startDecode_treeValid : s.startDecode.treeValid = s.treeValid := rfl
@[simp] theorem State.startDecode_codesValid : s.startDecode.codesValid = s.codesValid := rfl
@[simp] theorem State.startDecode_arg : s.startDecode.arg = s.arg := rfl
@[simp] theorem State.startDecode_result : s.startDecode.result = s.result := rfl
@[simp] theorem State.startDecode_origBits : s.startDecode.origBits = s.origBits := rfl
@[simp] theorem State.startDecode_bodyBits : s.startDecode.bodyBits = s.bodyBits := rfl
@[simp] theorem State.startDecode_planSaved : s.startDecode.planSaved = s.planSaved := rfl
@[simp] theorem State.startDecode_freq : s.startDecode.freq = s.freq := rfl
@[simp] theorem State.startDecode_codes : s.startDecode.codes = s.codes := rfl
@[simp] theorem State.startDecode_store : s.startDecode.store = s.store := rfl
@[simp] theorem State.startDecode_writer : s.startDecode.writer = s.writer := rfl
@[simp] theorem State.startDecode_reader : s.startDecode.reader = s.reader := rfl
@[simp] theorem State.startDecode_phase : s.startDecode.phase = .decodeBody := rfl
@[simp] theorem State.startDecode_pq : s.startDecode.pq = s.pq := rfl
@[simp] theorem State.startDecode_seq : s.startDecode.seq = s.seq := rfl
@[simp] theorem State.startDecode_lcmd : s.startDecode.lcmd = s.lcmd := rfl
@[simp] theorem State.startDecode_larg : s.startDecode.larg = s.larg := rfl
@[simp] theorem State.startDecode_stack : s.startDecode.stack = s.stack := rfl
@[simp] theorem State.startDecode_budget : s.startDecode.budget = s.budget := rfl
@[simp] theorem State.startDecode_cur : s.startDecode.cur = s.store.root := rfl
@[simp] theorem State.startDecode_work : s.startDecode.work = s.work := rfl
@[simp] theorem State.startDecode_opened : s.startDecode.opened = s.opened := rfl
@[simp] theorem State.startDecode_mark : s.startDecode.mark = s.mark := rfl
@[simp] theorem State.startDecode_inReset : s.startDecode.inReset = s.inReset := rfl
@[simp] theorem State.startDecode_inq : s.startDecode.inq = s.inq := rfl
@[simp] theorem State.startDecode_popped : s.startDecode.popped = s.popped := rfl
@[simp] theorem State.startDecode_sink : s.startDecode.sink = s.sink := rfl
@[simp] theorem State.startDecode_events : s.startDecode.events = s.events := rfl
@[simp] theorem State.startDecode_accesses : s.startDecode.accesses = s.accesses := rfl
@[simp] theorem State.startDecode_stalled : s.startDecode.stalled = s.stalled := rfl
@[simp] theorem State.startDecode_draws : s.startDecode.draws = s.draws := rfl

/-! ## State.rewind -/

@[simp] theorem State.rewind_cfg : s.rewind.cfg = s.cfg := rfl
@[simp] theorem State.rewind_cmdLast : s.rewind.cmdLast = s.cmdLast := rfl
@[simp] theorem State.rewind_busy : s.rewind.busy = s.busy := rfl
@[simp] theorem State.rewind_done : s.rewind.done = s.done := rfl
@[simp] theorem State.rewind_ovr : s.rewind.ovr = s.ovr := rfl
@[simp] theorem State.rewind_err : s.rewind.err = s.err := rfl
@[simp] theorem State.rewind_planValid : s.rewind.planValid = s.planValid := rfl
@[simp] theorem State.rewind_planFmt : s.rewind.planFmt = s.planFmt := rfl
@[simp] theorem State.rewind_treeValid : s.rewind.treeValid = s.treeValid := rfl
@[simp] theorem State.rewind_codesValid : s.rewind.codesValid = s.codesValid := rfl
@[simp] theorem State.rewind_arg : s.rewind.arg = s.arg := rfl
@[simp] theorem State.rewind_result : s.rewind.result = s.result := rfl
@[simp] theorem State.rewind_origBits : s.rewind.origBits = s.origBits := rfl
@[simp] theorem State.rewind_bodyBits : s.rewind.bodyBits = s.bodyBits := rfl
@[simp] theorem State.rewind_planSaved : s.rewind.planSaved = s.planSaved := rfl
@[simp] theorem State.rewind_freq : s.rewind.freq = s.freq := rfl
@[simp] theorem State.rewind_codes : s.rewind.codes = s.codes := rfl
@[simp] theorem State.rewind_store : s.rewind.store = s.store := rfl
@[simp] theorem State.rewind_writer : s.rewind.writer = s.writer := rfl
@[simp] theorem State.rewind_reader : s.rewind.reader = s.reader := rfl
@[simp] theorem State.rewind_phase : s.rewind.phase = s.phase := rfl
@[simp] theorem State.rewind_pq : s.rewind.pq = s.pq := rfl
@[simp] theorem State.rewind_seq : s.rewind.seq = s.seq := rfl
@[simp] theorem State.rewind_lcmd : s.rewind.lcmd = s.lcmd := rfl
@[simp] theorem State.rewind_larg : s.rewind.larg = s.larg := rfl
@[simp] theorem State.rewind_stack : s.rewind.stack = s.stack := rfl
@[simp] theorem State.rewind_budget : s.rewind.budget = s.budget := rfl
@[simp] theorem State.rewind_cur : s.rewind.cur = s.store.root := rfl
@[simp] theorem State.rewind_work : s.rewind.work = s.work := rfl
@[simp] theorem State.rewind_opened : s.rewind.opened = s.opened := rfl
@[simp] theorem State.rewind_mark : s.rewind.mark = s.mark := rfl
@[simp] theorem State.rewind_inReset : s.rewind.inReset = s.inReset := rfl
@[simp] theorem State.rewind_inq : s.rewind.inq = s.inq := rfl
@[simp] theorem State.rewind_popped : s.rewind.popped = s.popped := rfl
@[simp] theorem State.rewind_sink : s.rewind.sink = s.sink := rfl
@[simp] theorem State.rewind_events : s.rewind.events = s.events := rfl
@[simp] theorem State.rewind_accesses : s.rewind.accesses = s.accesses := rfl
@[simp] theorem State.rewind_stalled : s.rewind.stalled = s.stalled := rfl
@[simp] theorem State.rewind_draws : s.rewind.draws = s.draws := rfl

/-! ## State.descend -/

@[simp] theorem State.descend_cfg (b : Nat) : (s.descend b).cfg = s.cfg := rfl
@[simp] theorem State.descend_cmdLast (b : Nat) : (s.descend b).cmdLast = s.cmdLast := rfl
@[simp] theorem State.descend_busy (b : Nat) : (s.descend b).busy = s.busy := rfl
@[simp] theorem State.descend_done (b : Nat) : (s.descend b).done = s.done := rfl
@[simp] theorem State.descend_ovr (b : Nat) : (s.descend b).ovr = s.ovr := rfl
@[simp] theorem State.descend_err (b : Nat) : (s.descend b).err = s.err := rfl
@[simp] theorem State.descend_planValid (b : Nat) : (s.descend b).planValid = s.planValid := rfl
@[simp] theorem State.descend_planFmt (b : Nat) : (s.descend b).planFmt = s.planFmt := rfl
@[simp] theorem State.descend_treeValid (b : Nat) : (s.descend b).treeValid = s.treeValid := rfl
@[simp] theorem State.descend_codesValid (b : Nat) : (s.descend b).codesValid = s.codesValid := rfl
@[simp] theorem State.descend_arg (b : Nat) : (s.descend b).arg = s.arg := rfl
@[simp] theorem State.descend_result (b : Nat) : (s.descend b).result = s.result := rfl
@[simp] theorem State.descend_origBits (b : Nat) : (s.descend b).origBits = s.origBits := rfl
@[simp] theorem State.descend_bodyBits (b : Nat) : (s.descend b).bodyBits = s.bodyBits := rfl
@[simp] theorem State.descend_planSaved (b : Nat) : (s.descend b).planSaved = s.planSaved := rfl
@[simp] theorem State.descend_freq (b : Nat) : (s.descend b).freq = s.freq := rfl
@[simp] theorem State.descend_codes (b : Nat) : (s.descend b).codes = s.codes := rfl
@[simp] theorem State.descend_store (b : Nat) : (s.descend b).store = s.store := rfl
@[simp] theorem State.descend_writer (b : Nat) : (s.descend b).writer = s.writer := rfl
@[simp] theorem State.descend_reader (b : Nat) : (s.descend b).reader = s.reader := rfl
@[simp] theorem State.descend_phase (b : Nat) : (s.descend b).phase = s.phase := rfl
@[simp] theorem State.descend_pq (b : Nat) : (s.descend b).pq = s.pq := rfl
@[simp] theorem State.descend_seq (b : Nat) : (s.descend b).seq = s.seq := rfl
@[simp] theorem State.descend_lcmd (b : Nat) : (s.descend b).lcmd = s.lcmd := rfl
@[simp] theorem State.descend_larg (b : Nat) : (s.descend b).larg = s.larg := rfl
@[simp] theorem State.descend_stack (b : Nat) : (s.descend b).stack = s.stack := rfl
@[simp] theorem State.descend_budget (b : Nat) : (s.descend b).budget = s.budget := rfl
@[simp] theorem State.descend_work (b : Nat) : (s.descend b).work = s.work := rfl
@[simp] theorem State.descend_opened (b : Nat) : (s.descend b).opened = s.opened := rfl
@[simp] theorem State.descend_mark (b : Nat) : (s.descend b).mark = s.mark := rfl
@[simp] theorem State.descend_inReset (b : Nat) : (s.descend b).inReset = s.inReset := rfl
@[simp] theorem State.descend_inq (b : Nat) : (s.descend b).inq = s.inq := rfl
@[simp] theorem State.descend_popped (b : Nat) : (s.descend b).popped = s.popped := rfl
@[simp] theorem State.descend_sink (b : Nat) : (s.descend b).sink = s.sink := rfl
@[simp] theorem State.descend_events (b : Nat) : (s.descend b).events = s.events := rfl
@[simp] theorem State.descend_accesses (b : Nat) : (s.descend b).accesses = s.accesses := rfl
@[simp] theorem State.descend_stalled (b : Nat) : (s.descend b).stalled = s.stalled := rfl
@[simp] theorem State.descend_draws (b : Nat) : (s.descend b).draws = s.draws := rfl

/-! ## State.reply -/

@[simp] theorem State.reply_cfg (a : Access) (r : Reply) : (s.reply a r).cfg = s.cfg := rfl
@[simp] theorem State.reply_cmdLast (a : Access) (r : Reply) : (s.reply a r).cmdLast = s.cmdLast := rfl
@[simp] theorem State.reply_busy (a : Access) (r : Reply) : (s.reply a r).busy = s.busy := rfl
@[simp] theorem State.reply_done (a : Access) (r : Reply) : (s.reply a r).done = s.done := rfl
@[simp] theorem State.reply_ovr (a : Access) (r : Reply) : (s.reply a r).ovr = s.ovr := rfl
@[simp] theorem State.reply_err (a : Access) (r : Reply) : (s.reply a r).err = s.err := rfl
@[simp] theorem State.reply_planValid (a : Access) (r : Reply) : (s.reply a r).planValid = s.planValid := rfl
@[simp] theorem State.reply_planFmt (a : Access) (r : Reply) : (s.reply a r).planFmt = s.planFmt := rfl
@[simp] theorem State.reply_treeValid (a : Access) (r : Reply) : (s.reply a r).treeValid = s.treeValid := rfl
@[simp] theorem State.reply_codesValid (a : Access) (r : Reply) : (s.reply a r).codesValid = s.codesValid := rfl
@[simp] theorem State.reply_arg (a : Access) (r : Reply) : (s.reply a r).arg = s.arg := rfl
@[simp] theorem State.reply_result (a : Access) (r : Reply) : (s.reply a r).result = s.result := rfl
@[simp] theorem State.reply_origBits (a : Access) (r : Reply) : (s.reply a r).origBits = s.origBits := rfl
@[simp] theorem State.reply_bodyBits (a : Access) (r : Reply) : (s.reply a r).bodyBits = s.bodyBits := rfl
@[simp] theorem State.reply_planSaved (a : Access) (r : Reply) : (s.reply a r).planSaved = s.planSaved := rfl
@[simp] theorem State.reply_freq (a : Access) (r : Reply) : (s.reply a r).freq = s.freq := rfl
@[simp] theorem State.reply_codes (a : Access) (r : Reply) : (s.reply a r).codes = s.codes := rfl
@[simp] theorem State.reply_store (a : Access) (r : Reply) : (s.reply a r).store = s.store := rfl
@[simp] theorem State.reply_writer (a : Access) (r : Reply) : (s.reply a r).writer = s.writer := rfl
@[simp] theorem State.reply_reader (a : Access) (r : Reply) : (s.reply a r).reader = s.reader := rfl
@[simp] theorem State.reply_phase (a : Access) (r : Reply) : (s.reply a r).phase = s.phase := rfl
@[simp] theorem State.reply_pq (a : Access) (r : Reply) : (s.reply a r).pq = s.pq := rfl
@[simp] theorem State.reply_seq (a : Access) (r : Reply) : (s.reply a r).seq = s.seq := rfl
@[simp] theorem State.reply_lcmd (a : Access) (r : Reply) : (s.reply a r).lcmd = s.lcmd := rfl
@[simp] theorem State.reply_larg (a : Access) (r : Reply) : (s.reply a r).larg = s.larg := rfl
@[simp] theorem State.reply_stack (a : Access) (r : Reply) : (s.reply a r).stack = s.stack := rfl
@[simp] theorem State.reply_budget (a : Access) (r : Reply) : (s.reply a r).budget = s.budget := rfl
@[simp] theorem State.reply_cur (a : Access) (r : Reply) : (s.reply a r).cur = s.cur := rfl
@[simp] theorem State.reply_work (a : Access) (r : Reply) : (s.reply a r).work = s.work := rfl
@[simp] theorem State.reply_opened (a : Access) (r : Reply) : (s.reply a r).opened = s.opened := rfl
@[simp] theorem State.reply_mark (a : Access) (r : Reply) : (s.reply a r).mark = s.mark := rfl
@[simp] theorem State.reply_inReset (a : Access) (r : Reply) : (s.reply a r).inReset = s.inReset := rfl
@[simp] theorem State.reply_inq (a : Access) (r : Reply) : (s.reply a r).inq = s.inq := rfl
@[simp] theorem State.reply_popped (a : Access) (r : Reply) : (s.reply a r).popped = s.popped := rfl
@[simp] theorem State.reply_sink (a : Access) (r : Reply) : (s.reply a r).sink = s.sink := rfl
@[simp] theorem State.reply_events (a : Access) (r : Reply) : (s.reply a r).events = s.events := rfl
@[simp] theorem State.reply_accesses (a : Access) (r : Reply) : (s.reply a r).accesses = s.accesses ++ [(a, r)] := rfl
@[simp] theorem State.reply_stalled (a : Access) (r : Reply) : (s.reply a r).stalled = s.stalled := rfl
@[simp] theorem State.reply_draws (a : Access) (r : Reply) : (s.reply a r).draws = s.draws := rfl

/-! ## State.beginIssue -/

@[simp] theorem State.beginIssue_cfg (c : Word) : (s.beginIssue c).cfg = s.cfg := rfl
@[simp] theorem State.beginIssue_cmdLast (c : Word) : (s.beginIssue c).cmdLast = c := rfl
@[simp] theorem State.beginIssue_busy (c : Word) : (s.beginIssue c).busy = s.busy := rfl
@[simp] theorem State.beginIssue_done (c : Word) : (s.beginIssue c).done = false := rfl
@[simp] theorem State.beginIssue_ovr (c : Word) : (s.beginIssue c).ovr = false := rfl
@[simp] theorem State.beginIssue_err (c : Word) : (s.beginIssue c).err = .none := rfl
@[simp] theorem State.beginIssue_planValid (c : Word) : (s.beginIssue c).planValid = s.planValid := rfl
@[simp] theorem State.beginIssue_planFmt (c : Word) : (s.beginIssue c).planFmt = s.planFmt := rfl
@[simp] theorem State.beginIssue_treeValid (c : Word) : (s.beginIssue c).treeValid = s.treeValid := rfl
@[simp] theorem State.beginIssue_codesValid (c : Word) : (s.beginIssue c).codesValid = s.codesValid := rfl
@[simp] theorem State.beginIssue_arg (c : Word) : (s.beginIssue c).arg = s.arg := rfl
@[simp] theorem State.beginIssue_result (c : Word) : (s.beginIssue c).result = s.result := rfl
@[simp] theorem State.beginIssue_origBits (c : Word) : (s.beginIssue c).origBits = s.origBits := rfl
@[simp] theorem State.beginIssue_bodyBits (c : Word) : (s.beginIssue c).bodyBits = s.bodyBits := rfl
@[simp] theorem State.beginIssue_planSaved (c : Word) : (s.beginIssue c).planSaved = s.planSaved := rfl
@[simp] theorem State.beginIssue_freq (c : Word) : (s.beginIssue c).freq = s.freq := rfl
@[simp] theorem State.beginIssue_codes (c : Word) : (s.beginIssue c).codes = s.codes := rfl
@[simp] theorem State.beginIssue_store (c : Word) : (s.beginIssue c).store = s.store := rfl
@[simp] theorem State.beginIssue_writer (c : Word) : (s.beginIssue c).writer = s.writer := rfl
@[simp] theorem State.beginIssue_reader (c : Word) : (s.beginIssue c).reader = s.reader := rfl
@[simp] theorem State.beginIssue_phase (c : Word) : (s.beginIssue c).phase = s.phase := rfl
@[simp] theorem State.beginIssue_pq (c : Word) : (s.beginIssue c).pq = s.pq := rfl
@[simp] theorem State.beginIssue_seq (c : Word) : (s.beginIssue c).seq = s.seq := rfl
@[simp] theorem State.beginIssue_lcmd (c : Word) : (s.beginIssue c).lcmd = s.lcmd := rfl
@[simp] theorem State.beginIssue_larg (c : Word) : (s.beginIssue c).larg = s.larg := rfl
@[simp] theorem State.beginIssue_stack (c : Word) : (s.beginIssue c).stack = s.stack := rfl
@[simp] theorem State.beginIssue_budget (c : Word) : (s.beginIssue c).budget = s.budget := rfl
@[simp] theorem State.beginIssue_cur (c : Word) : (s.beginIssue c).cur = s.cur := rfl
@[simp] theorem State.beginIssue_work (c : Word) : (s.beginIssue c).work = s.work := rfl
@[simp] theorem State.beginIssue_opened (c : Word) : (s.beginIssue c).opened = false := rfl
@[simp] theorem State.beginIssue_mark (c : Word) : (s.beginIssue c).mark = s.mark := rfl
@[simp] theorem State.beginIssue_inReset (c : Word) : (s.beginIssue c).inReset = s.inReset := rfl
@[simp] theorem State.beginIssue_inq (c : Word) : (s.beginIssue c).inq = s.inq := rfl
@[simp] theorem State.beginIssue_popped (c : Word) : (s.beginIssue c).popped = s.popped := rfl
@[simp] theorem State.beginIssue_sink (c : Word) : (s.beginIssue c).sink = s.sink := rfl
@[simp] theorem State.beginIssue_events (c : Word) : (s.beginIssue c).events = s.events := rfl
@[simp] theorem State.beginIssue_accesses (c : Word) : (s.beginIssue c).accesses = s.accesses := rfl
@[simp] theorem State.beginIssue_stalled (c : Word) : (s.beginIssue c).stalled = s.stalled := rfl
@[simp] theorem State.beginIssue_draws (c : Word) : (s.beginIssue c).draws = s.draws := rfl

/-! ## State.acceptWord -/

@[simp] theorem State.acceptWord_cfg (c : Word) : (s.acceptWord c).cfg = s.cfg := rfl
@[simp] theorem State.acceptWord_cmdLast (c : Word) : (s.acceptWord c).cmdLast = c := rfl
@[simp] theorem State.acceptWord_busy (c : Word) : (s.acceptWord c).busy = true := rfl
@[simp] theorem State.acceptWord_done (c : Word) : (s.acceptWord c).done = false := rfl
@[simp] theorem State.acceptWord_ovr (c : Word) : (s.acceptWord c).ovr = false := rfl
@[simp] theorem State.acceptWord_err (c : Word) : (s.acceptWord c).err = .none := rfl
@[simp] theorem State.acceptWord_planValid (c : Word) : (s.acceptWord c).planValid = s.planValid := rfl
@[simp] theorem State.acceptWord_planFmt (c : Word) : (s.acceptWord c).planFmt = s.planFmt := rfl
@[simp] theorem State.acceptWord_treeValid (c : Word) : (s.acceptWord c).treeValid = s.treeValid := rfl
@[simp] theorem State.acceptWord_codesValid (c : Word) : (s.acceptWord c).codesValid = s.codesValid := rfl
@[simp] theorem State.acceptWord_arg (c : Word) : (s.acceptWord c).arg = s.arg := rfl
@[simp] theorem State.acceptWord_result (c : Word) : (s.acceptWord c).result = s.result := rfl
@[simp] theorem State.acceptWord_origBits (c : Word) : (s.acceptWord c).origBits = s.origBits := rfl
@[simp] theorem State.acceptWord_bodyBits (c : Word) : (s.acceptWord c).bodyBits = s.bodyBits := rfl
@[simp] theorem State.acceptWord_planSaved (c : Word) : (s.acceptWord c).planSaved = s.planSaved := rfl
@[simp] theorem State.acceptWord_freq (c : Word) : (s.acceptWord c).freq = s.freq := rfl
@[simp] theorem State.acceptWord_codes (c : Word) : (s.acceptWord c).codes = s.codes := rfl
@[simp] theorem State.acceptWord_store (c : Word) : (s.acceptWord c).store = s.store := rfl
@[simp] theorem State.acceptWord_writer (c : Word) : (s.acceptWord c).writer = s.writer := rfl
@[simp] theorem State.acceptWord_reader (c : Word) : (s.acceptWord c).reader = s.reader := rfl
@[simp] theorem State.acceptWord_phase (c : Word) : (s.acceptWord c).phase = s.phase := rfl
@[simp] theorem State.acceptWord_pq (c : Word) : (s.acceptWord c).pq = s.pq := rfl
@[simp] theorem State.acceptWord_seq (c : Word) : (s.acceptWord c).seq = s.seq := rfl
@[simp] theorem State.acceptWord_lcmd (c : Word) : (s.acceptWord c).lcmd = c := rfl
@[simp] theorem State.acceptWord_larg (c : Word) : (s.acceptWord c).larg = s.arg := rfl
@[simp] theorem State.acceptWord_stack (c : Word) : (s.acceptWord c).stack = s.stack := rfl
@[simp] theorem State.acceptWord_budget (c : Word) : (s.acceptWord c).budget = s.budget := rfl
@[simp] theorem State.acceptWord_cur (c : Word) : (s.acceptWord c).cur = s.cur := rfl
@[simp] theorem State.acceptWord_work (c : Word) : (s.acceptWord c).work = s.work := rfl
@[simp] theorem State.acceptWord_opened (c : Word) : (s.acceptWord c).opened = false := rfl
@[simp] theorem State.acceptWord_mark (c : Word) : (s.acceptWord c).mark = s.mark := rfl
@[simp] theorem State.acceptWord_inReset (c : Word) : (s.acceptWord c).inReset = s.inReset := rfl
@[simp] theorem State.acceptWord_inq (c : Word) : (s.acceptWord c).inq = s.inq := rfl
@[simp] theorem State.acceptWord_popped (c : Word) : (s.acceptWord c).popped = s.popped := rfl
@[simp] theorem State.acceptWord_sink (c : Word) : (s.acceptWord c).sink = s.sink := rfl
@[simp] theorem State.acceptWord_events (c : Word) : (s.acceptWord c).events = s.events := rfl
@[simp] theorem State.acceptWord_accesses (c : Word) : (s.acceptWord c).accesses = s.accesses := rfl
@[simp] theorem State.acceptWord_stalled (c : Word) : (s.acceptWord c).stalled = s.stalled := rfl
@[simp] theorem State.acceptWord_draws (c : Word) : (s.acceptWord c).draws = s.draws := rfl

/-! ## State.recordPops -/

@[simp] theorem State.recordPops_cfg (t : State) : (s.recordPops t).cfg = t.cfg := rfl
@[simp] theorem State.recordPops_cmdLast (t : State) : (s.recordPops t).cmdLast = t.cmdLast := rfl
@[simp] theorem State.recordPops_busy (t : State) : (s.recordPops t).busy = t.busy := rfl
@[simp] theorem State.recordPops_done (t : State) : (s.recordPops t).done = t.done := rfl
@[simp] theorem State.recordPops_ovr (t : State) : (s.recordPops t).ovr = t.ovr := rfl
@[simp] theorem State.recordPops_err (t : State) : (s.recordPops t).err = t.err := rfl
@[simp] theorem State.recordPops_planValid (t : State) : (s.recordPops t).planValid = t.planValid := rfl
@[simp] theorem State.recordPops_planFmt (t : State) : (s.recordPops t).planFmt = t.planFmt := rfl
@[simp] theorem State.recordPops_treeValid (t : State) : (s.recordPops t).treeValid = t.treeValid := rfl
@[simp] theorem State.recordPops_codesValid (t : State) : (s.recordPops t).codesValid = t.codesValid := rfl
@[simp] theorem State.recordPops_arg (t : State) : (s.recordPops t).arg = t.arg := rfl
@[simp] theorem State.recordPops_result (t : State) : (s.recordPops t).result = t.result := rfl
@[simp] theorem State.recordPops_origBits (t : State) : (s.recordPops t).origBits = t.origBits := rfl
@[simp] theorem State.recordPops_bodyBits (t : State) : (s.recordPops t).bodyBits = t.bodyBits := rfl
@[simp] theorem State.recordPops_planSaved (t : State) : (s.recordPops t).planSaved = t.planSaved := rfl
@[simp] theorem State.recordPops_freq (t : State) : (s.recordPops t).freq = t.freq := rfl
@[simp] theorem State.recordPops_codes (t : State) : (s.recordPops t).codes = t.codes := rfl
@[simp] theorem State.recordPops_store (t : State) : (s.recordPops t).store = t.store := rfl
@[simp] theorem State.recordPops_writer (t : State) : (s.recordPops t).writer = t.writer := rfl
@[simp] theorem State.recordPops_reader (t : State) : (s.recordPops t).reader = t.reader := rfl
@[simp] theorem State.recordPops_phase (t : State) : (s.recordPops t).phase = t.phase := rfl
@[simp] theorem State.recordPops_pq (t : State) : (s.recordPops t).pq = t.pq := rfl
@[simp] theorem State.recordPops_seq (t : State) : (s.recordPops t).seq = t.seq := rfl
@[simp] theorem State.recordPops_lcmd (t : State) : (s.recordPops t).lcmd = t.lcmd := rfl
@[simp] theorem State.recordPops_larg (t : State) : (s.recordPops t).larg = t.larg := rfl
@[simp] theorem State.recordPops_stack (t : State) : (s.recordPops t).stack = t.stack := rfl
@[simp] theorem State.recordPops_budget (t : State) : (s.recordPops t).budget = t.budget := rfl
@[simp] theorem State.recordPops_cur (t : State) : (s.recordPops t).cur = t.cur := rfl
@[simp] theorem State.recordPops_work (t : State) : (s.recordPops t).work = t.work := rfl
@[simp] theorem State.recordPops_opened (t : State) : (s.recordPops t).opened = t.opened := rfl
@[simp] theorem State.recordPops_mark (t : State) : (s.recordPops t).mark = t.mark := rfl
@[simp] theorem State.recordPops_inReset (t : State) : (s.recordPops t).inReset = t.inReset := rfl
@[simp] theorem State.recordPops_inq (t : State) : (s.recordPops t).inq = t.inq := rfl
@[simp] theorem State.recordPops_popped (t : State) : (s.recordPops t).popped = t.popped ++ s.inq.take (s.inq.length - t.inq.length) := rfl
@[simp] theorem State.recordPops_sink (t : State) : (s.recordPops t).sink = t.sink := rfl
@[simp] theorem State.recordPops_events (t : State) : (s.recordPops t).events = t.events := rfl
@[simp] theorem State.recordPops_accesses (t : State) : (s.recordPops t).accesses = t.accesses := rfl
@[simp] theorem State.recordPops_stalled (t : State) : (s.recordPops t).stalled = t.stalled := rfl
@[simp] theorem State.recordPops_draws (t : State) : (s.recordPops t).draws = t.draws := rfl

end Sys2Proof.Machine
end

