-- ==== Sys2Proof/Laws/Ports.lean ====
section
/-! SUPPORT. What the port operations and the bit writer and reader do: their footprints (everything they can change)
and their results on a sink that takes every token and on an IN that holds the bits. -/

namespace Sys2Proof.Machine

/-! ## Runs -/

/-- Every state a run of steps ends in satisfies `P`. -/
def Run.All (P : State → Prop) : Run → Prop
  | .done s => P s
  | .ended s => P s
  | .raised _ s => P s
  | .held s _ => P s
  | .stuck _ => True

theorem Run.All.mono {P Q : State → Prop} {r : Run} (h : r.All P) (hpq : ∀ s, P s → Q s) : r.All Q := by
  cases r <;> first | exact hpq _ h | trivial

theorem Run.All.and {P Q : State → Prop} {r : Run} (hp : r.All P) (hq : r.All Q) : r.All fun s => P s ∧ Q s := by
  cases r <;> first | exact ⟨hp, hq⟩ | trivial

theorem Run.andThen_all {P Q : State → Prop} {r : Run} {later : List Work} {next : State → Run} (h : r.All P)
    (hpq : ∀ s, P s → Q s) (hn : ∀ s, r = .done s → P s → (next s).All Q) : (r.andThen later next).All Q := by
  cases r with
  | done s => exact hn s rfl h
  | ended s => exact hpq _ h
  | raised e s => exact hpq _ h
  | held s l => exact hpq _ h
  | stuck f => trivial

@[simp] theorem Run.andThen_done (s : State) (later : List Work) (next : State → Run) :
    (Run.done s).andThen later next = next s := rfl

@[simp] theorem Run.andThen_ended (s : State) (later : List Work) (next : State → Run) :
    (Run.ended s).andThen later next = .ended s := rfl

@[simp] theorem Run.andThen_raised (e : ErrCode) (s : State) (later : List Work) (next : State → Run) :
    (Run.raised e s).andThen later next = .raised e s := rfl

@[simp] theorem Run.andThen_held (s : State) (left later : List Work) (next : State → Run) :
    (Run.held s left).andThen later next = .held s (left ++ later) := rfl

@[simp] theorem Run.andThen_stuck (f : Fault) (later : List Work) (next : State → Run) :
    (Run.stuck f).andThen later next = .stuck f := rfl

theorem Run.andThen_assoc (r : Run) (l₁ l₂ : List Work) (f g : State → Run) :
    (r.andThen l₁ f).andThen l₂ g = r.andThen (l₁ ++ l₂) fun s => (f s).andThen l₂ g := by
  cases r <;> simp

/-! ## Footprints -/

/-- Only the writer, the sink and the draw counter differ. -/
def WriterOnly (s s' : State) : Prop := ∃ w k d, s' = { s with writer := w, sink := k, draws := d }

/-- Only the reader, the tokens on IN and the draw counter differ. -/
def ReaderOnly (s s' : State) : Prop := ∃ r q d, s' = { s with reader := r, inq := q, draws := d }

theorem WriterOnly.refl (s : State) : WriterOnly s s := ⟨s.writer, s.sink, s.draws, rfl⟩

theorem WriterOnly.trans {a b c : State} (h : WriterOnly a b) (h' : WriterOnly b c) : WriterOnly a c := by
  obtain ⟨w, k, d, rfl⟩ := h
  obtain ⟨w', k', d', rfl⟩ := h'
  exact ⟨w', k', d', rfl⟩

theorem ReaderOnly.refl (s : State) : ReaderOnly s s := ⟨s.reader, s.inq, s.draws, rfl⟩

theorem ReaderOnly.trans {a b c : State} (h : ReaderOnly a b) (h' : ReaderOnly b c) : ReaderOnly a c := by
  obtain ⟨w, k, d, rfl⟩ := h
  obtain ⟨w', k', d', rfl⟩ := h'
  exact ⟨w', k', d', rfl⟩

/-! ## The OUT port -/

theorem Sink.accepts_zero (k : Sink) : k.accepts 0 = true := by simp [Sink.accepts]

/-- A sink that takes the next n + 1 tokens answers `ok` now, and takes n after it. -/
theorem Sink.accepts_succ {k : Sink} {n : Nat} (h : k.accepts (n + 1) = true) :
    k.next = some .ok ∧ ∀ t, (k.record t .ok).accepts n = true := by
  obtain ⟨script, rest, taken⟩ := k
  cases script with
  | nil => simp_all [Sink.accepts, Sink.next, Sink.record]
  | cons a as =>
    simp only [Sink.accepts, Sink.next, Sink.record, List.take_succ_cons, List.all_cons, List.length_cons,
      List.tail_cons, Bool.and_eq_true, Bool.or_eq_true, decide_eq_true_eq, beq_iff_eq, Nat.add_le_add_iff_right] at *
    exact ⟨by rw [h.1.1], fun _ => ⟨h.1.2, h.2.imp decide_eq_true id⟩⟩

theorem Sink.accepts_mono {k : Sink} {m n : Nat} (h : k.accepts n = true) (hmn : m ≤ n) : k.accepts m = true := by
  simp only [Sink.accepts, Bool.and_eq_true, Bool.or_eq_true, List.all_eq_true, decide_eq_true_eq, beq_iff_eq] at *
  refine ⟨fun a ha => h.1 a ?_, h.2.elim (fun h' => .inl (hmn.trans h')) .inr⟩
  exact List.take_subset_take_left _ hmn ha

@[simp] theorem Sink.take_nil (k : Sink) : k.take [] = k := by simp [Sink.take]

@[simp] theorem Sink.take_cons (k : Sink) (t : OutToken) (ts : List OutToken) :
    k.take (t :: ts) = (k.record t .ok).take ts := by
  simp [Sink.take, Sink.record, List.drop_tail]

theorem Sink.take_append (k : Sink) (ts us : List OutToken) : k.take (ts ++ us) = (k.take ts).take us := by
  simp [Sink.take, List.drop_drop]

/-- After a sink took `ts`, it takes what it would have taken after them. -/
theorem Sink.accepts_take {k : Sink} {ts : List OutToken} {n : Nat} (h : k.accepts (ts.length + n) = true) :
    (k.take ts).accepts n = true := by
  induction ts generalizing k with
  | nil => simpa using h
  | cons t ts ih =>
    rw [Sink.take_cons]
    refine ih ((Sink.accepts_succ (n := ts.length + n) ?_).2 t)
    rw [← h, List.length_cons]
    congr 1
    omega

@[simp] theorem outBytes_length (bs : List Byte) : (outBytes bs).length = bs.length := by simp [outBytes]

theorem push_of_next {s : State} {a : Answer} (h : s.sink.next = some a) (t : OutToken) :
    s.push t = .answered a { s with sink := s.sink.record t a } := by simp [State.push, h]

theorem push_of_waiting {s : State} (h : s.sink.next = none) (t : OutToken) : s.push t = .waiting := by
  simp [State.push, h]

/-- Everything `OutPush` can do: the sink answers, or does not yet. -/
theorem push_cases (s : State) (t : OutToken) :
    (∃ a, s.sink.next = some a ∧ s.push t = .answered a { s with sink := s.sink.record t a }) ∨
    (s.sink.next = none ∧ s.push t = .waiting) := by
  cases h : s.sink.next with
  | some a => exact .inl ⟨a, rfl, push_of_next h t⟩
  | none => exact .inr ⟨rfl, push_of_waiting h t⟩

/-! ## The bit writer -/

/-- Everything `offerByte` can do. -/
theorem offerByte_cases (b : Byte) (s : State) :
    (s.sink.next = some .ok ∧ offerByte b s = .done { s with sink := s.sink.record (.byte b) .ok }) ∨
    (s.sink.next = some .fail ∧ offerByte b s = .raised .ioError { s with
      sink := s.sink.record (.byte b) .fail, writer := { s.writer with closed := true } }) ∨
    (s.sink.next = none ∧ offerByte b s = .held s [.offer b]) := by
  cases h : s.sink.next with
  | none => exact .inr (.inr ⟨rfl, by simp [offerByte, push_of_waiting h]⟩)
  | some a => cases a <;> simp [offerByte, push_of_next h]

theorem offerByte_footprint (b : Byte) (s : State) : (offerByte b s).All (WriterOnly s) := by
  rcases offerByte_cases b s with ⟨_, h⟩ | ⟨_, h⟩ | ⟨_, h⟩ <;> rw [h] <;> exact ⟨_, _, _, rfl⟩

/-- Everything `offerEnd` can do. -/
theorem offerEnd_cases (s : State) :
    (s.sink.next = some .ok ∧ offerEnd s = .done { s with sink := s.sink.record .eos .ok }) ∨
    (s.sink.next = some .fail ∧ offerEnd s = .raised .ioError { s with sink := s.sink.record .eos .fail }) ∨
    (s.sink.next = none ∧ offerEnd s = .held s [.offerEnd]) := by
  cases h : s.sink.next with
  | none => exact .inr (.inr ⟨rfl, by simp [offerEnd, push_of_waiting h]⟩)
  | some a => cases a <;> simp [offerEnd, push_of_next h]

theorem offerEnd_footprint (s : State) : (offerEnd s).All (WriterOnly s) := by
  rcases offerEnd_cases s with ⟨_, h⟩ | ⟨_, h⟩ | ⟨_, h⟩ <;> rw [h] <;> exact ⟨_, _, _, rfl⟩

theorem endStream_footprint (s : State) : (endStream s).All (WriterOnly s) :=
  (offerEnd_footprint _).mono fun _ h => WriterOnly.trans ⟨_, _, _, rfl⟩ h

theorem pushBit_writerOnly (s : State) (b : Bool) : WriterOnly s (s.pushBit b) := ⟨_, _, _, rfl⟩

theorem dropWbuf_writerOnly (s : State) : WriterOnly s s.dropWbuf := ⟨_, _, _, rfl⟩

@[simp] theorem emit_nil (s : State) : emit [] s = .done s := rfl

/-- `WPushBit` when the bit does not complete a byte (41_bitstream.md rule R86). -/
theorem emit_cons_of_ne {b : Bool} {bs : Bits} {s : State} (h : s.writer.buf.length ≠ 7) :
    emit (b :: bs) s = emit bs (s.pushBit b) := by
  simp [emit, h]

/-- `WPushBit` when the bit completes a byte (rule R86). -/
theorem emit_cons_of_eq {b : Bool} {bs : Bits} {s : State} (h : s.writer.buf.length = 7) :
    emit (b :: bs) s =
      (offerByte (byteOf (s.writer.buf ++ [b])) (s.pushBit b).dropWbuf).andThen [.emit bs] (emit bs) := by
  simp [emit, h]

/-- Emitting bits changes only the writer, the sink and the draw counter. -/
theorem emit_footprint (bs : Bits) (s : State) : (emit bs s).All (WriterOnly s) := by
  induction bs generalizing s with
  | nil => exact WriterOnly.refl s
  | cons b bs ih =>
    by_cases h : s.writer.buf.length = 7
    · rw [emit_cons_of_eq h]
      have h₀ : WriterOnly s (s.pushBit b).dropWbuf := (pushBit_writerOnly s b).trans (dropWbuf_writerOnly _)
      refine Run.andThen_all ((offerByte_footprint _ _).mono fun s' h' => h₀.trans h') (fun _ h => h) ?_
      exact fun s' _ hs' => (ih s').mono fun s'' h'' => hs'.trans h''
    · rw [emit_cons_of_ne h]
      exact (ih _).mono fun s' h' => (pushBit_writerOnly s b).trans h'

theorem raiseCount_of_fits {c : DWord} {k d : Nat} (h : c.toNat + k < 2 ^ 64) :
    raiseCount c k d = BitVec.ofNat 64 (c.toNat + k) := if_pos h

theorem raiseDraws_of_fits {c : DWord} {k d : Nat} (h : c.toNat + k < 2 ^ 64) : raiseDraws c k d = d := if_pos h

theorem pushBit_of_fits {s : State} {b : Bool} (h : s.writer.bits.toNat + 1 < 2 ^ 64) :
    s.pushBit b = { s with
      writer := ⟨s.writer.closed, s.writer.buf ++ [b], BitVec.ofNat 64 (s.writer.bits.toNat + 1)⟩ } := by
  simp [State.pushBit, raiseCount_of_fits h, raiseDraws_of_fits h]

/-- What `WriteBits` leaves when the sink takes every byte and WBITS stays in its range (41_bitstream.md rules R86,
R87): the bytes the buffered and the new bits fill leave through OUT, and the rest is buffered. -/
theorem emit_accepted (bs : Bits) (s : State) (hb : s.writer.buf.length < 8)
    (hk : s.sink.accepts ((s.writer.buf.length + bs.length) / 8) = true)
    (hw : s.writer.bits.toNat + bs.length < 2 ^ 64) :
    emit bs s = .done { s with
      writer := ⟨s.writer.closed, (s.writer.buf ++ bs).drop (8 * ((s.writer.buf.length + bs.length) / 8)),
        BitVec.ofNat 64 (s.writer.bits.toNat + bs.length)⟩
      sink := s.sink.take (outBytes (packBytes ((s.writer.buf.length + bs.length) / 8) (s.writer.buf ++ bs))) } := by
  induction bs generalizing s with
  | nil =>
    have h0 : s.writer.buf.length / 8 = 0 := Nat.div_eq_of_lt hb
    simp [h0, outBytes]
  | cons b bs ih =>
    simp only [List.length_cons] at hk hw ⊢
    have hw1 : s.writer.bits.toNat + 1 < 2 ^ 64 := by omega
    have hwn : (BitVec.ofNat 64 (s.writer.bits.toNat + 1)).toNat = s.writer.bits.toNat + 1 := by
      rw [BitVec.toNat_ofNat, Nat.mod_eq_of_lt hw1]
    by_cases h : s.writer.buf.length = 7
    · rw [emit_cons_of_eq h]
      have hn : (s.writer.buf.length + (bs.length + 1)) / 8 = bs.length / 8 + 1 := by omega
      rw [hn] at hk ⊢
      obtain ⟨hnext, hacc⟩ := Sink.accepts_succ hk
      have hl : (s.writer.buf ++ [b]).length = 8 := by simp [h]
      have hall : s.writer.buf ++ b :: bs = (s.writer.buf ++ [b]) ++ bs := by simp
      have ht : (s.writer.buf ++ b :: bs).take 8 = s.writer.buf ++ [b] := by
        rw [hall, List.take_append_of_le_length (by omega), List.take_of_length_le (by omega)]
      have hd : (s.writer.buf ++ b :: bs).drop 8 = bs := by
        rw [hall, ← hl, List.drop_left]
      rw [pushBit_of_fits hw1]
      simp only [State.dropWbuf]
      rw [offerByte, push_of_next (by exact hnext)]
      simp only [Run.andThen_done]
      rw [ih _ (by simp) (by simpa using hacc _) (by simp only [hwn]; omega), packBytes_succ, ht, hd,
        show 8 * (bs.length / 8 + 1) = 8 + 8 * (bs.length / 8) by omega, ← List.drop_drop, hd]
      simp only [hwn, List.nil_append, List.length_nil, Nat.zero_add, outBytes, List.map_cons, Sink.take_cons]
      simp [Nat.add_assoc, Nat.add_comm]
    · rw [emit_cons_of_ne h, pushBit_of_fits hw1]
      have hl : (s.writer.buf ++ [b]).length + bs.length = s.writer.buf.length + (bs.length + 1) := by simp; omega
      have hlt : (s.writer.buf ++ [b]).length < 8 := by simp; omega
      rw [ih _ hlt (by simpa only [hl] using hk) (by simp only [hwn]; omega)]
      simp only [hwn, hl, List.append_assoc, List.singleton_append]
      simp [Nat.add_assoc, Nat.add_comm]

/-- `WClose()` on a closed writer does nothing: a stream is ended "exactly once" (rule R89). -/
theorem closeStream_closed {s : State} (h : s.writer.closed = true) : closeStream s = .done s := by
  simp [closeStream, h]

/-- Closing a stream changes only the writer and the sink (and never the draw counter). -/
theorem closeStream_footprint (s : State) : (closeStream s).All (WriterOnly s) := by
  unfold closeStream
  split
  · exact WriterOnly.refl s
  split
  · exact endStream_footprint s
  · refine Run.andThen_all ((offerByte_footprint _ _).mono fun s' h' => (dropWbuf_writerOnly s).trans h') (fun _ h => h) ?_
    exact fun s' _ hs' => (endStream_footprint s').mono fun s'' h'' => hs'.trans h''

/-- What `WClose()` leaves when the sink takes every token (rule R89): the padded partial byte, if there is one, then
`End`. -/
theorem closeStream_accepted (s : State) (ho : s.writer.closed = false) (hb : s.writer.buf.length < 8)
    (hk : s.sink.accepts ((s.writer.buf.length + 7) / 8 + 1) = true) :
    closeStream s = .done { s with
      writer := ⟨true, [], s.writer.bits⟩
      sink := s.sink.take (outBytes (closedBytes s.writer.buf) ++ [.eos]) } := by
  have hend : ∀ t : State, t.sink.accepts 1 = true → endStream t = .done { t with
      writer := { t.writer with closed := true }, sink := t.sink.record .eos .ok } := by
    intro t ht
    have := (Sink.accepts_succ ht).1
    simp [endStream, offerEnd, State.push, this]
  by_cases h : s.writer.buf = []
  · have hl : s.writer.buf.length = 0 := by simp [h]
    rw [hl] at hk
    simp only [closeStream, ho, h, Bool.false_eq_true, if_false, if_true]
    rw [hend s (by simpa using hk)]
    simp [closedBytes, outBytes, h]
  · have hpos : 0 < s.writer.buf.length := List.length_pos_iff.2 h
    have hn : (s.writer.buf.length + 7) / 8 = 1 := by omega
    rw [hn] at hk
    obtain ⟨hnext, hacc⟩ := Sink.accepts_succ hk
    simp only [closeStream, ho, h, Bool.false_eq_true, if_false]
    rw [offerByte, push_of_next (by exact hnext)]
    simp only [Run.andThen_done]
    rw [hend _ (by simpa using hacc _)]
    simp [closedBytes, hn, packBytes_succ, outBytes, List.take_of_length_le (Nat.le_of_lt hb), State.dropWbuf]

/-! ## The bit reader -/

theorem fill_of_enough {w : Nat} {buf : Bits} (ts : List InToken) (h : w ≤ buf.length) : fill w ts buf = .enough buf ts := by
  have : ¬buf.length < w := by omega
  cases ts <;> simp [fill, this]

theorem fill_cons_byte {w : Nat} {buf : Bits} {b : Byte} {ts : List InToken} (h : buf.length < w) :
    fill w (.byte b :: ts) buf = fill w ts (buf ++ bitsOfByte b) := by simp [fill, h]

/-- Pulling the bytes a read needs and no more: "the reader pulls bytes from IN on demand and never ahead of need"
(41_bitstream.md rule R91). -/
theorem fill_bytes (w : Nat) (bs : List Byte) (rest : List InToken) (buf : Bits)
    (hneed : bs = [] ∨ buf.length + 8 * (bs.length - 1) < w) (hw : w ≤ buf.length + 8 * bs.length) :
    fill w (inBytes bs ++ rest) buf = .enough (buf ++ streamBits bs) rest := by
  induction bs generalizing buf with
  | nil => simpa [inBytes] using fill_of_enough rest (by simpa using hw)
  | cons b bs ih =>
    have hlt : buf.length < w := by
      rcases hneed with h | h
      · cases h
      · simp at h; omega
    have hstep : fill w (inBytes (b :: bs) ++ rest) buf = fill w (inBytes bs ++ rest) (buf ++ bitsOfByte b) := by
      simpa [inBytes] using fill_cons_byte (ts := List.map InToken.byte bs ++ rest) hlt
    rw [hstep, ih]
    · simp
    · rcases bs with _ | ⟨b', bs⟩
      · exact .inl rfl
      · right
        rcases hneed with h | h
        · cases h
        · simp at h ⊢; omega
    · simp at hw ⊢; omega

/-- A read that meets the end of its stream drops what it had buffered (rule R93). -/
theorem fill_ended (w : Nat) (bs : List Byte) (rest : List InToken) (buf : Bits) (h : buf.length + 8 * bs.length < w) :
    fill w (inBytes bs ++ .eos :: rest) buf = .ended rest := by
  induction bs generalizing buf with
  | nil => simp at h; simp [inBytes, fill, h]
  | cons b bs ih =>
    simp only [List.length_cons] at h
    have : fill w (inBytes (b :: bs) ++ .eos :: rest) buf = fill w (inBytes bs ++ .eos :: rest) (buf ++ bitsOfByte b) := by
      simpa [inBytes] using fill_cons_byte (ts := List.map InToken.byte bs ++ .eos :: rest) (by omega)
    rw [this, ih _ (by simp; omega)]

/-- Every outcome of a `ReadBits` is a state whose reader, IN and draw counter alone may differ. -/
def ReadResult.All (P : State → Prop) : ReadResult → Prop
  | .got _ s => P s
  | .sentinel s => P s
  | .failed s => P s
  | .waiting s => P s

theorem readBits_footprint (s : State) (w : Nat) : (s.readBits w).All (ReaderOnly s) := by
  unfold State.readBits
  split
  · exact ReaderOnly.refl s
  · split <;> exact ⟨_, _, _, rfl⟩

theorem ReadResult.andThen_all {P Q : State → Prop} {r : ReadResult} {later : List Work} {onS : State → Run}
    {next : Nat → State → Run} (h : r.All P) (hpq : ∀ s, P s → Q s) (hs : ∀ s, P s → (onS s).All Q)
    (hn : ∀ v s, r = .got v s → P s → (next v s).All Q) : (r.andThen later onS next).All Q := by
  cases r with
  | got v s => exact hn v s rfl h
  | sentinel s => exact hs s h
  | failed s => exact hpq _ h
  | waiting s => exact hpq _ h

/-- An exhausted reader returns SENTINEL and pops nothing (rule R93). -/
theorem readBits_exhausted {s : State} (h : s.reader.exh = true) (w : Nat) : s.readBits w = .sentinel s := by
  simp [State.readBits, h]

/-- What `ReadBits(w)` leaves when the buffer and the next bytes on IN hold the field (rule R93). -/
theorem readBits_got (s : State) (w : Nat) (bs : List Byte) (rest : List InToken) (hx : s.reader.exh = false)
    (hq : s.inq = inBytes bs ++ rest) (hneed : bs = [] ∨ s.reader.buf.length + 8 * (bs.length - 1) < w)
    (hw : w ≤ s.reader.buf.length + 8 * bs.length) (hr : s.reader.bits.toNat + w < 2 ^ 64) :
    s.readBits w = .got (valueOf ((s.reader.buf ++ streamBits bs).take w)) { s with
      inq := rest
      reader := ⟨false, (s.reader.buf ++ streamBits bs).drop w, BitVec.ofNat 64 (s.reader.bits.toNat + w)⟩ } := by
  simp [State.readBits, hx, hq, fill_bytes w bs rest _ hneed hw, State.takeBits, raiseCount_of_fits hr,
    raiseDraws_of_fits hr]

/-- What `ReadBits(w)` leaves when its stream ends first (rule R93). -/
theorem readBits_ended (s : State) (w : Nat) (bs : List Byte) (rest : List InToken) (hx : s.reader.exh = false)
    (hq : s.inq = inBytes bs ++ .eos :: rest) (h : s.reader.buf.length + 8 * bs.length < w) :
    s.readBits w = .sentinel { s with inq := rest, reader := ⟨true, [], s.reader.bits⟩ } := by
  simp [State.readBits, hx, hq, fill_ended w bs rest _ h, State.exhaust]

/-- A read that meets an `Error` token before it has its bits (41_bitstream.md rule R92). -/
theorem fill_failed (w : Nat) (bs : List Byte) (rest : List InToken) (buf : Bits) (h : buf.length + 8 * bs.length < w) :
    fill w (inBytes bs ++ .error :: rest) buf = .failed rest := by
  induction bs generalizing buf with
  | nil => simp at h; simp [inBytes, fill, h]
  | cons b bs ih =>
    simp only [List.length_cons] at h
    have : fill w (inBytes (b :: bs) ++ .error :: rest) buf = fill w (inBytes bs ++ .error :: rest) (buf ++ bitsOfByte b) := by
      simpa [inBytes] using fill_cons_byte (ts := List.map InToken.byte bs ++ .error :: rest) (by omega)
    rw [this, ih _ (by simp; omega)]

/-- A read that finds IN empty before it has its bits keeps those it pulled (20_memory.md rule R62). -/
theorem fill_short (w : Nat) (bs : List Byte) (buf : Bits) (h : buf.length + 8 * bs.length < w) :
    fill w (inBytes bs) buf = .empty (buf ++ streamBits bs) := by
  induction bs generalizing buf with
  | nil => simp at h; simp [inBytes, fill, h]
  | cons b bs ih =>
    simp only [List.length_cons] at h
    have : fill w (inBytes (b :: bs)) buf = fill w (inBytes bs) (buf ++ bitsOfByte b) := by
      simpa [inBytes] using fill_cons_byte (ts := List.map InToken.byte bs) (by omega)
    rw [this, ih _ (by simp; omega)]
    simp

theorem readBits_failed (s : State) (w : Nat) (bs : List Byte) (rest : List InToken) (hx : s.reader.exh = false)
    (hq : s.inq = inBytes bs ++ .error :: rest) (h : s.reader.buf.length + 8 * bs.length < w) :
    s.readBits w = .failed { s with inq := rest, reader := ⟨true, [], s.reader.bits⟩ } := by
  simp [State.readBits, hx, hq, fill_failed w bs rest _ h, State.exhaust]

theorem readBits_waiting (s : State) (w : Nat) (bs : List Byte) (hx : s.reader.exh = false) (hq : s.inq = inBytes bs)
    (h : s.reader.buf.length + 8 * bs.length < w) :
    s.readBits w = .waiting { s with inq := [], reader := ⟨false, s.reader.buf ++ streamBits bs, s.reader.bits⟩ } := by
  simp [State.readBits, hx, hq, fill_short w bs _ h]

end Sys2Proof.Machine
end

