-- ==== Sys2Proof/Laws/Tables.lean ====
section
/-! SUPPORT. The tables: FREQ, the node store and the code table, read after write. -/

namespace Sys2Proof.Machine

/-! ## FREQ -/

/-- FREQ[256] is hardwired (10_state.md rule R41). -/
@[simp] theorem freqAt_pseudoEof (s : State) : s.freqAt Config.pseudoEof = Config.peofFreq := by
  simp [State.freqAt, Config.pseudoEof]

theorem freqAt_byte (s : State) (b : Byte) : s.freqAt (symbolOfByte b) = s.freq[b.toNat] := by
  simp [State.freqAt, symbolOfByte, b.isLt]

/-- A count that is raised is the only one that changes (42_frequency.md rule R106). -/
theorem freqAt_countByte (s : State) (b c : Byte) (left : List InToken) :
    (s.countByte b left).freqAt (symbolOfByte c) =
      if b = c then s.freqAt (symbolOfByte c) + 1#32 else s.freqAt (symbolOfByte c) := by
  simp only [freqAt_byte, State.countByte_freq, Vector.getElem_set]
  by_cases h : b = c
  · subst h; simp
  · have : b.toNat ≠ c.toNat := fun hn => h (BitVec.eq_of_toNat_eq hn)
    simp [h, this]

theorem symbols_nodup : symbols.Nodup := List.nodup_finRange _

@[simp] theorem mem_symbols (y : Symbol) : y ∈ symbols := List.mem_finRange _

@[simp] theorem symbols_length : symbols.length = 257 := List.length_finRange

/-- The insertion order is the ascending order of the symbols (43_tree.md rule R111). -/
theorem freqTable_eq (s : State) : s.freqTable = symbols.map fun y => (y, s.freqAt y) := by
  apply List.ext_getElem
  · simp [State.freqTable]
  · intro i h₁ h₂
    have hi : i < 257 := by simpa using h₂
    simp only [State.freqTable, List.getElem_zip, List.getElem_map, Prod.mk.injEq, true_and]
    have hy : (symbols[i]'(by simpa using hi)).val = i := by simp [symbols]
    by_cases hlt : i < 256
    · rw [List.getElem_append_left (by simpa using hlt)]
      simp [State.freqAt, hy, hlt]
    · have : i = 256 := by omega
      subst this
      simp [State.freqAt, hy]

/-- L counts the symbols with a positive frequency (rule R113). -/
theorem leafCount_eq (s : State) : s.leafCount = symbols.countP fun y => s.freqAt y != 0#32 := by
  rw [State.leafCount, freqTable_eq, List.countP_map]
  rfl

/-- "L ≥ 1, since FREQ[256] = 1" (rule R113). -/
theorem leafCount_pos (s : State) : 0 < s.leafCount := by
  rw [leafCount_eq, List.countP_pos_iff]
  exact ⟨Config.pseudoEof, mem_symbols _, by simp [Config.peofFreq]⟩

theorem leafCount_le (s : State) : s.leafCount ≤ 257 := by
  rw [leafCount_eq]
  exact List.countP_le_length.trans (by simp)

/-! ## The node store -/

@[simp] theorem NodeStore.put_node_self (st : NodeStore) (i : NodeIx) (n : Node) : (st.put i n).node i = n := by
  simp [NodeStore.put, NodeStore.node]

@[simp] theorem NodeStore.put_node_ne (st : NodeStore) {i j : NodeIx} (n : Node) (h : i ≠ j) :
    (st.put i n).node j = st.node j := by
  have : i.val ≠ j.val := fun hv => h (Fin.ext hv)
  simp [NodeStore.put, NodeStore.node, this]

theorem NodeStore.put_node (st : NodeStore) (i j : NodeIx) (n : Node) :
    (st.put i n).node j = if i = j then n else st.node j := by
  by_cases h : i = j
  · subst h; simp
  · simp [h]

@[simp] theorem NodeStore.put_count (st : NodeStore) (i : NodeIx) (n : Node) : (st.put i n).count = st.count := rfl

@[simp] theorem NodeStore.put_root (st : NodeStore) (i : NodeIx) (n : Node) : (st.put i n).root = st.root := rfl

@[simp] theorem NodeStore.empty_node (i : NodeIx) : NodeStore.empty.node i = Node.zero := by
  simp [NodeStore.empty, NodeStore.node]

@[simp] theorem NodeStore.empty_count : NodeStore.empty.count = 0 := rfl

/-- Everything `alloc` can do: it takes the index NODE_COUNT, or the store is full. -/
theorem NodeStore.alloc_cases (st : NodeStore) :
    (∃ h : st.count.val < 513, st.alloc = some (⟨st.count.val, h⟩,
      { st with count := ⟨st.count.val + 1, Nat.succ_lt_succ h⟩ })) ∨
    (st.count.val = 513 ∧ st.alloc = none) := by
  by_cases h : st.count.val < 513
  · exact .inl ⟨h, by simp [NodeStore.alloc, h]⟩
  · refine .inr ⟨?_, by simp [NodeStore.alloc, h]⟩
    have := st.count.isLt
    omega

/-! ## The code table -/

@[simp] theorem Code.none_bits : Code.none.bits = [] := rfl

@[simp] theorem Code.none_valid : Code.none.valid = false := rfl

@[simp] theorem codeAt_clearCodes (s : State) (y : Symbol) : s.clearCodes.codeAt y = Code.none := by
  simp [State.codeAt]

/-- The walk of a tree that a node store holds is the tree's serialization (43_tree.md rule R116). -/
theorem ser_of_holds {st : NodeStore} {i : NodeIx} {t : HTree} {d : Nat} (h : st.holds i t) (hd : t.depth < d) :
    ser d st i = some t.bits := by
  induction t generalizing i d with
  | leaf y =>
    obtain ⟨d, rfl⟩ := Nat.exists_eq_succ_of_ne_zero (Nat.ne_of_gt (Nat.lt_of_le_of_lt (Nat.zero_le _) hd))
    simp only [NodeStore.holds] at h
    simp [ser, h.1, h.2, HTree.bits, Config.symWidth]
  | node l r ihl ihr =>
    obtain ⟨d, rfl⟩ := Nat.exists_eq_succ_of_ne_zero (Nat.ne_of_gt (Nat.lt_of_le_of_lt (Nat.zero_le _) hd))
    simp only [NodeStore.holds] at h
    simp only [HTree.depth, Nat.succ_eq_add_one, Nat.add_lt_add_iff_right] at hd
    have hl : l.depth < d := Nat.lt_of_le_of_lt (Nat.le_max_left _ _) hd
    have hr : r.depth < d := Nat.lt_of_le_of_lt (Nat.le_max_right _ _) hd
    simp [ser, h.1, ihl h.2.1 hl, ihr h.2.2 hr, HTree.bits]

/-- What a code table becomes when the leaves of a tree are visited in pre-order from the path `p` (44_codetable.md
rule R125): of several leaves of a symbol the last one sets its code. -/
def setPaths (es : List (Symbol × Bits)) (p : Bits) (cs : Codes) : Codes :=
  es.foldl (fun cs e => cs.set e.1.val ⟨true, p ++ e.2⟩) cs

/-- The walk of a tree that a node store holds sets the paths of its leaves (rule R125). -/
theorem visit_of_holds {st : NodeStore} {i : NodeIx} {t : HTree} {d : Nat} (h : st.holds i t) (hd : t.depth < d)
    (p : Bits) (cs : Codes) : visit d st i p cs = some (setPaths t.paths p cs) := by
  induction t generalizing i d p cs with
  | leaf y =>
    obtain ⟨d, rfl⟩ := Nat.exists_eq_succ_of_ne_zero (Nat.ne_of_gt (Nat.lt_of_le_of_lt (Nat.zero_le _) hd))
    simp only [NodeStore.holds] at h
    simp [visit, h.1, h.2, HTree.paths, setPaths]
  | node l r ihl ihr =>
    obtain ⟨d, rfl⟩ := Nat.exists_eq_succ_of_ne_zero (Nat.ne_of_gt (Nat.lt_of_le_of_lt (Nat.zero_le _) hd))
    simp only [NodeStore.holds] at h
    simp only [HTree.depth, Nat.succ_eq_add_one, Nat.add_lt_add_iff_right] at hd
    have hl : l.depth < d := Nat.lt_of_le_of_lt (Nat.le_max_left _ _) hd
    have hr : r.depth < d := Nat.lt_of_le_of_lt (Nat.le_max_right _ _) hd
    simp only [visit, h.1, Bool.false_eq_true, if_false, ihl h.2.1 hl, ihr h.2.2 hr, HTree.paths, setPaths,
      List.foldl_append, List.foldl_map, List.append_assoc, List.singleton_append]

/-- A tree of at most 513 nodes is at most 256 deep (43_tree.md rule R113, 44_codetable.md rule R125). -/
theorem HTree.two_depth_lt_size (t : HTree) : 2 * t.depth < t.size := by
  induction t with
  | leaf y => simp [HTree.depth, HTree.size]
  | node l r ihl ihr => simp only [HTree.depth, HTree.size]; omega

theorem HTree.size_eq (t : HTree) : t.size + 1 = 2 * t.leaves := by
  induction t with
  | leaf y => rfl
  | node l r ihl ihr => simp only [HTree.leaves, HTree.size]; omega

/-- T(L) = 11 L - 1 (43_tree.md rule R117). -/
theorem HTree.bits_length (t : HTree) : t.bits.length + 1 = 11 * t.leaves := by
  induction t with
  | leaf y => simp [HTree.bits, HTree.leaves]
  | node l r ihl ihr => simp only [HTree.bits, HTree.leaves, List.length_cons, List.length_append]; omega

/-- A complete store's walks end (43_tree.md rule R116, 44_codetable.md rule R125). -/
theorem NodeStore.complete.serialized {st : NodeStore} {t : HTree} (h : st.complete t) : st.serialized = some t.bits :=
  ser_of_holds h.1 (by have := t.two_depth_lt_size; have := h.2.2.1; have := st.count.isLt; simp only [Config.maxCodeLen]; omega)

theorem NodeStore.complete.codesOver {st : NodeStore} {t : HTree} (h : st.complete t) (cs : Codes) :
    st.codesOver cs = some (setPaths t.paths [] cs) :=
  visit_of_holds h.1 (by have := t.two_depth_lt_size; have := h.2.2.1; have := st.count.isLt; simp only [Config.maxCodeLen]; omega) _ _

end Sys2Proof.Machine
end

