-- ==== Sys2Proof/Laws/Engine.lean ====
section
/-! SUPPORT. The loops of the commands and the engine: their footprints, and running a command's steps one after the
other. -/

namespace Sys2Proof.Machine

/-! ## Footprints of the loops -/

/-- Counting changes IN, FREQ and ORIG_BITS alone (42_frequency.md rule R106). -/
def CountOnly (s s' : State) : Prop := ∃ q f o, s' = { s with inq := q, freq := f, origBits := o }

theorem CountOnly.trans {a b c : State} (h : CountOnly a b) (h' : CountOnly b c) : CountOnly a c := by
  obtain ⟨q, f, o, rfl⟩ := h
  obtain ⟨q', f', o', rfl⟩ := h'
  exact ⟨q', f', o', rfl⟩

theorem countByte_countOnly (s : State) (b : Byte) (ts : List InToken) : CountOnly s (s.countByte b ts) := ⟨_, _, _, rfl⟩

theorem countLoop_footprint (ts : List InToken) (n : Nat) (s : State) : (countLoop ts n s).All (CountOnly s) := by
  induction ts generalizing n s with
  | nil => exact ⟨_, _, _, rfl⟩
  | cons t ts ih =>
    cases t with
    | byte b =>
      unfold countLoop
      split
      · exact ⟨_, _, _, rfl⟩
      · exact (ih _ _).mono fun s' h => (countByte_countOnly s b ts).trans h
    | eos => exact ⟨_, _, _, rfl⟩
    | error => exact ⟨_, _, _, rfl⟩

/-- Encoding a body changes IN, the writer, the sink and the draw counter alone (46_compressor.md rule R145). -/
def EncodeOnly (s s' : State) : Prop := ∃ q w k d, s' = { s with inq := q, writer := w, sink := k, draws := d }

theorem EncodeOnly.trans {a b c : State} (h : EncodeOnly a b) (h' : EncodeOnly b c) : EncodeOnly a c := by
  obtain ⟨q, w, k, d, rfl⟩ := h
  obtain ⟨q', w', k', d', rfl⟩ := h'
  exact ⟨q', w', k', d', rfl⟩

theorem WriterOnly.encodeOnly {s s' : State} (h : WriterOnly s s') : EncodeOnly s s' := by
  obtain ⟨w, k, d, rfl⟩ := h
  exact ⟨_, _, _, _, rfl⟩

theorem encodeLoop_footprint (ts : List InToken) (s : State) : (encodeLoop ts s).All (EncodeOnly s) := by
  induction ts generalizing s with
  | nil => exact ⟨_, _, _, _, rfl⟩
  | cons t ts ih =>
    have h₀ : EncodeOnly s { s with inq := ts } := ⟨_, _, _, _, rfl⟩
    cases t with
    | byte b =>
      unfold encodeLoop
      simp only
      split
      · refine Run.andThen_all ((emit_footprint _ _).mono fun s' h => h₀.trans h.encodeOnly) (fun _ h => h) ?_
        exact fun s' _ hs' => (ih s').mono fun s'' h'' => hs'.trans h''
      · exact h₀
    | eos => exact (emit_footprint _ _).mono fun s' h => h₀.trans h.encodeOnly
    | error => exact h₀

/-- Decoding a body changes the reader, IN, the writer, the sink, CUR and the draw counter alone (47_decompressor.md
rule R151). -/
def DecodeOnly (s s' : State) : Prop :=
  ∃ r q w k c d, s' = { s with reader := r, inq := q, writer := w, sink := k, cur := c, draws := d }

theorem DecodeOnly.refl (s : State) : DecodeOnly s s := ⟨_, _, _, _, _, _, rfl⟩

theorem DecodeOnly.trans {a b c : State} (h : DecodeOnly a b) (h' : DecodeOnly b c) : DecodeOnly a c := by
  obtain ⟨_, _, _, _, _, _, rfl⟩ := h
  obtain ⟨_, _, _, _, _, _, rfl⟩ := h'
  exact ⟨_, _, _, _, _, _, rfl⟩

theorem WriterOnly.decodeOnly {s s' : State} (h : WriterOnly s s') : DecodeOnly s s' := by
  obtain ⟨_, _, _, rfl⟩ := h
  exact ⟨_, _, _, _, _, _, rfl⟩

theorem ReaderOnly.decodeOnly {s s' : State} (h : ReaderOnly s s') : DecodeOnly s s' := by
  obtain ⟨_, _, _, rfl⟩ := h
  exact ⟨_, _, _, _, _, _, rfl⟩

theorem decodeLoop_footprint (n : Nat) (s : State) : (decodeLoop n s).All (DecodeOnly s) := by
  induction n generalizing s with
  | zero => trivial
  | succ n ih =>
    unfold decodeLoop
    split
    · split
      · exact DecodeOnly.refl s
      · refine Run.andThen_all ((emit_footprint _ _).mono fun s' h => h.decodeOnly) (fun _ h => h) ?_
        intro s' _ hs'
        have h₁ : DecodeOnly s' s'.rewind := ⟨_, _, _, _, _, _, rfl⟩
        exact (ih _).mono fun s'' h'' => (hs'.trans h₁).trans h''
    · refine ReadResult.andThen_all ((readBits_footprint s 1)) (fun _ h => h.decodeOnly) (fun _ h => h.decodeOnly) ?_
      intro v s' _ hs'
      have h₁ : DecodeOnly s' (s'.descend v) := ⟨_, _, _, _, _, _, rfl⟩
      exact (ih _).mono fun s'' h'' => (hs'.decodeOnly.trans h₁).trans h''

/-- Reading a header changes the reader, IN, FREQ, the tree and the registers of the build and the deserialization alone
(45_header.md rules R134 to R136). -/
def HeaderOnly (s s' : State) : Prop :=
  ∃ r q d f p st tv pq sq fs b, s' = { s with
    reader := r, inq := q, draws := d, freq := f, phase := p, store := st, treeValid := tv, pq := pq, seq := sq
    stack := fs, budget := b } ∧ (s.phase ≠ .idle → p ≠ .idle)

theorem HeaderOnly.refl (s : State) : HeaderOnly s s := ⟨_, _, _, _, _, _, _, _, _, _, _, rfl, by simp⟩

theorem HeaderOnly.trans {a b c : State} (h : HeaderOnly a b) (h' : HeaderOnly b c) : HeaderOnly a c := by
  obtain ⟨_, _, _, _, _, _, _, _, _, _, _, rfl, h1⟩ := h
  obtain ⟨_, _, _, _, _, _, _, _, _, _, _, rfl, h2⟩ := h'
  exact ⟨_, _, _, _, _, _, _, _, _, _, _, rfl, fun h => h2 (h1 h)⟩

theorem ReaderOnly.headerOnly {s s' : State} (h : ReaderOnly s s') : HeaderOnly s s' := by
  obtain ⟨_, _, _, rfl⟩ := h
  exact ⟨_, _, _, _, _, _, _, _, _, _, _, rfl, by simp⟩

theorem buildTree_headerOnly (s : State) : HeaderOnly s s.buildTree := ⟨_, _, _, _, _, _, _, _, _, _, _, rfl, by simp⟩

theorem spend_headerOnly (s : State) (n : Nat) : HeaderOnly s (s.spend n) := ⟨_, _, _, _, _, _, _, _, _, _, _, rfl, by simp⟩

theorem rootCheck_footprint (s : State) : (rootCheck s).All (HeaderOnly s) := by
  unfold rootCheck
  split
  · exact HeaderOnly.refl s
  · exact ⟨_, _, _, _, _, _, _, _, _, _, _, rfl, by simp⟩

theorem spareLoop_footprint (n : Nat) (s : State) : (spareLoop n s).All (HeaderOnly s) := by
  induction n generalizing s with
  | zero => exact rootCheck_footprint s
  | succ n ih =>
    refine ReadResult.andThen_all (readBits_footprint s 1) (fun _ h => h.headerOnly) (fun _ h => h.headerOnly) ?_
    exact fun v s' _ hs' => (ih _).mono fun s'' h'' => (hs'.headerOnly.trans (spend_headerOnly s' 1)).trans h''

/-- Everything `nodeDone` can do, given what the steps after it can. -/
theorem nodeDone_footprint (j : NodeIx) (s : State) (next : State → Run)
    (hn : ∀ s', (next s').All (HeaderOnly s')) : (nodeDone j s next).All (HeaderOnly s) := by
  unfold nodeDone
  split
  · exact (hn _).mono fun s' h => HeaderOnly.trans ⟨_, _, _, _, _, _, _, _, _, _, _, rfl, by simp⟩ h
  · exact (spareLoop_footprint _ _).mono fun s' h => HeaderOnly.trans ⟨_, _, _, _, _, _, _, _, _, _, _, rfl, by simp⟩ h

theorem leafSymbol_footprint (i : NodeIx) (s : State) (next : State → Run)
    (hn : ∀ s', (next s').All (HeaderOnly s')) : (leafSymbol i s next).All (HeaderOnly s) := by
  refine ReadResult.andThen_all (readBits_footprint s _) (fun _ h => h.headerOnly) (fun _ h => h.headerOnly) ?_
  intro v s' _ hs'
  have h₁ : HeaderOnly s (s'.spend Config.symWidth) := hs'.headerOnly.trans (spend_headerOnly s' _)
  simp only
  split
  · exact (nodeDone_footprint i _ next hn).mono fun s'' h'' =>
      h₁.trans (HeaderOnly.trans ⟨_, _, _, _, _, _, _, _, _, _, _, rfl, by simp⟩ h'')
  · exact h₁

theorem newNode_footprint (l : Bool) (i : NodeIx) (s : State) (next : State → Run)
    (hn : ∀ s', (next s').All (HeaderOnly s')) : (newNode l i s next).All (HeaderOnly s) := by
  unfold newNode
  split
  · simp only
    split
    · exact ⟨_, _, _, _, _, _, _, _, _, _, _, rfl, by simp⟩
    · exact (leafSymbol_footprint i _ next hn).mono fun s'' h'' =>
        HeaderOnly.trans ⟨_, _, _, _, _, _, _, _, _, _, _, rfl, by simp⟩ h''
  · exact (hn _).mono fun s'' h'' => HeaderOnly.trans ⟨_, _, _, _, _, _, _, _, _, _, _, rfl, by simp⟩ h''

theorem treeLoop_footprint (room : Nat) (s : State) : (treeLoop room s).All (HeaderOnly s) := by
  induction room generalizing s with
  | zero =>
    unfold treeLoop
    split
    · exact HeaderOnly.refl s
    · refine ReadResult.andThen_all (readBits_footprint s 1) (fun _ h => h.headerOnly) (fun _ h => h.headerOnly) ?_
      exact fun v s' _ hs' => hs'.headerOnly.trans (spend_headerOnly s' 1)
  | succ room ih =>
    unfold treeLoop
    split
    · exact HeaderOnly.refl s
    · refine ReadResult.andThen_all (readBits_footprint s 1) (fun _ h => h.headerOnly) (fun _ h => h.headerOnly) ?_
      intro v s' _ hs'
      have h₁ : HeaderOnly s (s'.spend 1) := hs'.headerOnly.trans (spend_headerOnly s' 1)
      rcases (s'.spend 1).store.alloc_cases with ⟨hc, ha⟩ | ⟨_, ha⟩
      · simp only [ha]
        exact (newNode_footprint _ _ _ _ ih).mono fun s'' h'' =>
          h₁.trans (HeaderOnly.trans ⟨_, _, _, _, _, _, _, _, _, _, _, rfl, by simp⟩ h'')
      · simp only [ha]
        exact h₁

theorem treeFrom_footprint (s : State) : (treeFrom s).All (HeaderOnly s) := treeLoop_footprint _ _

theorem treeSymFrom_footprint (i : NodeIx) (s : State) : (treeSymFrom i s).All (HeaderOnly s) :=
  leafSymbol_footprint i s _ treeFrom_footprint

theorem countFields_footprint (n : Nat) (s : State) : (countFields n s).All (HeaderOnly s) := by
  induction n generalizing s with
  | zero => exact buildTree_headerOnly s
  | succ n ih =>
    refine ReadResult.andThen_all (readBits_footprint s _) (fun _ h => h.headerOnly) (fun _ h => h.headerOnly) ?_
    intro v s' _ hs'
    have h₁ : HeaderOnly s' (s'.setCount (n + 1) v) := ⟨_, _, _, _, _, _, _, _, _, _, _, rfl, by simp⟩
    exact (ih _).mono fun s'' h'' => (hs'.headerOnly.trans h₁).trans h''

theorem treeHeader_footprint (s : State) : (treeHeader s).All (HeaderOnly s) := by
  refine ReadResult.andThen_all (readBits_footprint s _) (fun _ h => h.headerOnly) (fun _ h => h.headerOnly) ?_
  intro v s' _ hs'
  exact (treeFrom_footprint _).mono fun s'' h'' =>
    hs'.headerOnly.trans (HeaderOnly.trans ⟨_, _, _, _, _, _, _, _, _, _, _, rfl, by simp⟩ h'')

theorem readSelector_footprint (s : State) : (readSelector s).All (HeaderOnly s) := by
  have h₀ : HeaderOnly s { s with phase := .readHeader } := ⟨_, _, _, _, _, _, _, _, _, _, _, rfl, by simp⟩
  refine ReadResult.andThen_all ((readBits_footprint _ _)) (fun _ h => h₀.trans h.headerOnly)
    (fun _ h => h₀.trans h.headerOnly) ?_
  intro v s' _ hs'
  have h₁ := h₀.trans hs'.headerOnly
  split
  · exact (countFields_footprint _ _).mono fun _ h => h₁.trans h
  split
  · exact (treeHeader_footprint _).mono fun _ h => h₁.trans h
  · exact h₁

theorem readMagic_footprint (s : State) : (readMagic s).All (HeaderOnly s) := by
  have h₀ : HeaderOnly s { s with phase := .validateMagic } := ⟨_, _, _, _, _, _, _, _, _, _, _, rfl, by simp⟩
  refine ReadResult.andThen_all ((readBits_footprint _ _)) (fun _ h => h₀.trans h.headerOnly)
    (fun _ h => h₀.trans h.headerOnly) ?_
  intro v s' _ hs'
  have h₁ := h₀.trans hs'.headerOnly
  split
  · exact (readSelector_footprint _).mono fun _ h => h₁.trans h
  · exact h₁

/-- Everything `genCodes` can do: the store's walk ends and the code table is its paths, or it goes too deep. -/
theorem genCodes_cases (s : State) :
    (∃ cs b, s.store.codesOver s.codes = some cs ∧
      genCodes s = .done { s with phase := .codegen, codes := cs, codesValid := true, bodyBits := b }) ∨
    (s.store.codesOver s.codes = none ∧ genCodes s = .stuck .treeTooDeep) := by
  unfold genCodes
  cases h : s.store.codesOver s.codes with
  | some cs => exact .inl ⟨cs, _, rfl, rfl⟩
  | none => exact .inr ⟨rfl, rfl⟩

/-! ## Running a command's steps -/

@[simp] theorem runWorks_nil (s : State) : runWorks [] s = .done s := rfl

theorem runWorks_cons (w : Work) (ws : List Work) (s : State) :
    runWorks (w :: ws) s = (runWork w s).andThen ws (runWorks ws) := rfl

/-- Steps that follow a run of steps run after it. -/
theorem runWorks_append (ws₁ ws₂ : List Work) (s : State) :
    runWorks (ws₁ ++ ws₂) s = (runWorks ws₁ s).andThen ws₂ (runWorks ws₂) := by
  induction ws₁ generalizing s with
  | nil => rfl
  | cons w ws ih =>
    simp only [List.cons_append, runWorks_cons, Run.andThen_assoc]
    congr 1
    funext s'
    exact ih s'

/-- A command that gets time runs its steps (70_reset_and_hazards.md rule R184). -/
theorem launch_runs {s : State} (h : s.stalled = false) (p : Phase) (ws : List Work) :
    launch p ws s = (runWorks ws { s with phase := p, opened := false }).settle := by
  simp [launch, h]

theorem resume_idle {s : State} (h : s.busy = false) : resume s = .next s := by simp [resume, h]

theorem resume_running {s : State} (h : s.busy = true) (hs : s.stalled = false) :
    resume s = (runWorks s.work s).settle := by simp [resume, h, hs]

/-! ## How a command ends -/

/-- Everything a termination can do (60_exceptions.md rule R160): it ends the command at once; or, after the `WOpen` of
COMPRESS or DECOMPRESS with the stream open, it closes the writer and pushes `Abort`, which the sink has answered, or
has not yet. -/
theorem terminate_cases (s : State) (e : ErrCode) :
    ((s.opened && !s.writer.closed) = false ∧ s.terminate e = { s with result := 0#64 }.finishError e) ∨
    (s.opened = true ∧ s.writer.closed = false ∧ ∃ a, s.sink.next = some a ∧
      s.terminate e = { s with
        result := 0#64, writer := ⟨true, [], s.writer.bits⟩, sink := s.sink.record .abort a }.finishError e) ∨
    (s.opened = true ∧ s.writer.closed = false ∧ s.sink.next = none ∧
      s.terminate e = { s with
        result := 0#64, writer := ⟨true, [], s.writer.bits⟩, work := [.abort e] }) := by
  by_cases h : (s.opened && !s.writer.closed) = true
  · simp only [Bool.and_eq_true, Bool.not_eq_true'] at h
    cases hn : s.sink.next with
    | some a => exact .inr (.inl ⟨h.1, h.2, a, rfl, by simp [State.terminate, h.1, h.2, State.push, hn]⟩)
    | none => exact .inr (.inr ⟨h.1, h.2, rfl, by simp [State.terminate, h.1, h.2, State.push, hn]⟩)
  · rw [Bool.not_eq_true] at h
    exact .inl ⟨h, by simp [State.terminate, h]⟩

theorem toS64_of_fits {v : Int} {d : Nat} (h : fitsS64 v = true) : toS64 v d = BitVec.ofInt 64 v := if_pos h

theorem s64Draws_of_fits {v : Int} {d : Nat} (h : fitsS64 v = true) : s64Draws v d = d := if_pos h

/-- RESULT of a value in its range (10_state.md rule R33). -/
theorem setResult_of_fits {s : State} {v : Int} (h : fitsS64 v = true) :
    s.setResult v = { s with result := BitVec.ofInt 64 v } := by
  simp [State.setResult, toS64_of_fits h, s64Draws_of_fits h]

/-- A register's own value is in the range of s64. -/
theorem fitsS64_toInt (d : DWord) : fitsS64 d.toInt = true := by
  have h₁ := BitVec.le_toInt d
  have h₂ := BitVec.toInt_lt (x := d)
  simp only [fitsS64, Bool.and_eq_true, decide_eq_true_eq]
  constructor <;> [exact h₁; exact h₂]

/-- A refused COMPRESS hands PLAN_SAVED on unchanged (46_compressor.md rule R143). -/
theorem setResult_planSaved (s : State) : s.setResult s.planSaved.toInt = { s with result := s.planSaved } := by
  rw [setResult_of_fits (fitsS64_toInt _), BitVec.ofInt_toInt]

end Sys2Proof.Machine
end

