-- ==== Sys2Proof/Laws/Streams.lean ====
section
/-! SUPPORT. Whole fields and streams through the writer and the reader: writing a bit string, a sink that fails, ending one
stream and opening the next, and reading fields off a run of bytes one after the other. -/

namespace Sys2Proof.Machine

/-! ## The sink -/

theorem Sink.next_eq (k : Sink) : k.next = k.answerAt 0 := by
  obtain ⟨script, rest, taken⟩ := k
  cases script <;> rfl

theorem Sink.answerAt_record (k : Sink) (t : OutToken) (a : Answer) (j : Nat) :
    (k.record t a).answerAt j = k.answerAt (j + 1) := by
  obtain ⟨script, rest, taken⟩ := k
  cases script <;> simp [Sink.answerAt, Sink.record]

/-- The answers after a sink took `ts` are those it would have given after them. -/
theorem Sink.answerAt_take (k : Sink) (ts : List OutToken) (j : Nat) :
    (k.take ts).answerAt j = k.answerAt (ts.length + j) := by
  simp [Sink.answerAt, Sink.take]

/-- A sink that takes n tokens takes the first one and then the others. -/
theorem Sink.accepts_take_left {k : Sink} {ts us : List OutToken} (h : k.accepts (ts ++ us).length = true) :
    k.accepts ts.length = true ∧ (k.take ts).accepts us.length = true :=
  ⟨Sink.accepts_mono h (by simp), Sink.accepts_take (by simpa using h)⟩

/-- A sink that answers each token `ok` answers so at every place. -/
theorem Sink.accepts_answerAt {k : Sink} {n j : Nat} (h : k.accepts n = true) (hj : j < n) :
    k.answerAt j = some .ok := by
  induction n generalizing k j with
  | zero => omega
  | succ n ih =>
    obtain ⟨h1, h2⟩ := Sink.accepts_succ h
    cases j with
    | zero => rw [← Sink.next_eq]; exact h1
    | succ j => rw [← Sink.answerAt_record k .eos .ok]; exact ih (h2 _) (by omega)

/-! ## Packing -/

theorem packBytes_add (m n : Nat) (bs : Bits) : packBytes (m + n) bs = packBytes m bs ++ packBytes n (bs.drop (8 * m)) := by
  induction m generalizing bs with
  | zero => simp
  | succ m ih =>
    rw [show m + 1 + n = (m + n) + 1 by omega, packBytes_succ, packBytes_succ, ih, List.drop_drop, List.cons_append,
      show 8 * (m + 1) = 8 + 8 * m by omega]

/-- Whole bytes do not depend on the bits after them. -/
theorem packBytes_append (n : Nat) (as bs : Bits) (h : 8 * n ≤ as.length) : packBytes n (as ++ bs) = packBytes n as := by
  induction n generalizing as with
  | zero => rfl
  | succ n ih =>
    rw [packBytes_succ, packBytes_succ, List.take_append_of_le_length (by omega), List.drop_append_of_le_length (by omega),
      ih _ (by simp; omega)]

theorem closedBytes_length (bs : Bits) : (closedBytes bs).length = (bs.length + 7) / 8 := by simp [closedBytes]

/-- A closed stream is its whole bytes and the padded rest (41_bitstream.md rule R89). -/
theorem closedBytes_split (bs : Bits) :
    closedBytes bs = packBytes (bs.length / 8) bs ++ closedBytes (bs.drop (8 * (bs.length / 8))) := by
  have : (bs.length + 7) / 8 = bs.length / 8 + ((bs.drop (8 * (bs.length / 8))).length + 7) / 8 := by simp; omega
  rw [closedBytes, this, packBytes_add]
  rfl

theorem streamBits_append (as bs : List Byte) : streamBits (as ++ bs) = streamBits as ++ streamBits bs := by
  simp [streamBits]

theorem inBytes_append (as bs : List Byte) : inBytes (as ++ bs) = inBytes as ++ inBytes bs := by simp [inBytes]

/-- The bits of a closed stream begin with the stream (45_header.md rule R130). -/
theorem streamBits_closedBytes (bs : Bits) : bs <+: streamBits (closedBytes bs) := by
  have key : ∀ (n : Nat) (bs : Bits), bs.length ≤ 8 * n → bs <+: streamBits (packBytes n bs) := by
    intro n
    induction n with
    | zero => intro bs h; have : bs = [] := List.length_eq_zero_iff.1 (by omega); simp [this]
    | succ n ih =>
      intro bs h
      rw [packBytes_succ, streamBits_cons]
      have h8 : padTo 8 (bs.take 8) = bs.take 8 ++ List.replicate (8 - (bs.take 8).length) false := rfl
      have hb : bitsOfByte (byteOf (bs.take 8)) = padTo 8 (bs.take 8) := by
        have : byteOf (bs.take 8) = byteOf (padTo 8 (bs.take 8)) := by
          unfold byteOf
          rw [padTo_of_le (bs := padTo 8 (bs.take 8)) (by simp)]
        rw [this, bitsOfByte_byteOf (by simp)]
      rw [hb]
      by_cases hl : 8 ≤ bs.length
      · have : padTo 8 (bs.take 8) = bs.take 8 := padTo_of_le (by simp; omega)
        rw [this]
        conv_lhs => rw [← List.take_append_drop 8 bs]
        exact (List.prefix_append_right_inj _).2 (ih (bs.drop 8) (by simp; omega))
      · rw [h8, List.take_of_length_le (by omega), List.append_assoc]
        exact List.prefix_append _ _
  exact key _ _ (by omega)

/-! ## Writing -/

/-- `WriteBits` under `CanWrite` (rules R86, R87). -/
theorem emit_canWrite {s : State} {bits : Bits} (h : s.CanWrite bits) : emit bits s = .done (s.written bits) :=
  emit_accepted bits s h.buf h.accepts h.wbits

theorem written_nil {s : State} (h : s.writer.buf.length < 8) : s.written [] = s := by
  have h0 : s.writer.buf.length / 8 = 0 := Nat.div_eq_of_lt h
  simp [State.written, h0, outBytes]

/-- Writing two bit strings is writing the one after the other. -/
theorem canWrite_append {s : State} {as bs : Bits} (h : s.CanWrite (as ++ bs)) :
    s.CanWrite as ∧ (s.written as).CanWrite bs ∧ (s.written as).written bs = s.written (as ++ bs) := by
  obtain ⟨hb, hw, hk⟩ := h
  rw [List.length_append] at hw hk
  have hw' : (BitVec.ofNat 64 (s.writer.bits.toNat + as.length)).toNat = s.writer.bits.toNat + as.length := by
    rw [BitVec.toNat_ofNat, Nat.mod_eq_of_lt (by omega)]
  set q := (s.writer.buf.length + as.length) / 8 with hq
  have hl : ((s.writer.buf ++ as).drop (8 * q)).length = s.writer.buf.length + as.length - 8 * q := by simp
  have hq2 : (s.writer.buf.length + (as.length + bs.length)) / 8 =
      q + (((s.writer.buf ++ as).drop (8 * q)).length + bs.length) / 8 := by rw [hl]; omega
  have hd : (s.writer.buf ++ as).drop (8 * q) ++ bs = (s.writer.buf ++ (as ++ bs)).drop (8 * q) := by
    rw [← List.append_assoc s.writer.buf as bs,
      List.drop_append_of_le_length (l₁ := s.writer.buf ++ as) (l₂ := bs) (by simp; omega)]
  refine ⟨⟨hb, by omega, Sink.accepts_mono hk (by omega)⟩, ⟨?_, ?_, ?_⟩, ?_⟩
  · simp only [State.written, ← hq]
    rw [hl]
    omega
  · simp only [State.written, hw']
    omega
  · simp only [State.written, ← hq]
    exact Sink.accepts_take (by rw [outBytes_length, packBytes_length, ← hq2]; exact hk)
  · simp only [State.written, ← hq, hw', List.length_append, hq2, hd, packBytes_add]
    have hp : packBytes q (s.writer.buf ++ (as ++ bs)) = packBytes q (s.writer.buf ++ as) := by
      rw [← List.append_assoc, packBytes_append _ _ _ (by simp; omega)]
    rw [hp]
    simp only [List.drop_drop, outBytes, List.map_append, Sink.take_append, Nat.mul_add, Nat.add_assoc]

/-- `WriteBits` when the sink answers `fail` to the byte after the first `j` (rule R86). -/
theorem emit_failsAt {s : State} {bits : Bits} {j : Nat} (h : s.FailsAt bits j) :
    emit bits s = .raised .ioError (s.failed bits j) := by
  induction bits generalizing s j with
  | nil => exact absurd h.more (by have := h.buf; simp; omega)
  | cons b bs ih =>
    obtain ⟨hb, hw, hm, hk, hf⟩ := h
    simp only [List.length_cons] at hw hm
    have hw1 : s.writer.bits.toNat + 1 < 2 ^ 64 := by omega
    have hwn : (BitVec.ofNat 64 (s.writer.bits.toNat + 1)).toNat = s.writer.bits.toNat + 1 := by
      rw [BitVec.toNat_ofNat, Nat.mod_eq_of_lt hw1]
    by_cases h7 : s.writer.buf.length = 7
    · rw [emit_cons_of_eq h7, pushBit_of_fits hw1]
      have hl : (s.writer.buf ++ [b]).length = 8 := by simp [h7]
      have hall : s.writer.buf ++ b :: bs = (s.writer.buf ++ [b]) ++ bs := by simp
      have ht : (s.writer.buf ++ b :: bs).take 8 = s.writer.buf ++ [b] := by
        rw [hall, List.take_append_of_le_length (by omega), List.take_of_length_le (by omega)]
      have hd : (s.writer.buf ++ b :: bs).drop 8 = bs := by rw [hall, ← hl, List.drop_left]
      cases j with
      | zero =>
        rw [← Sink.next_eq] at hf
        simp only [State.dropWbuf]
        rw [offerByte, push_of_next (by exact hf)]
        simp [Run.andThen, State.failed, outBytes, ht, h7]
      | succ j =>
        obtain ⟨hn, ha⟩ := Sink.accepts_succ hk
        simp only [State.dropWbuf]
        rw [offerByte, push_of_next (by exact hn)]
        simp only [Run.andThen_done]
        rw [ih (j := j) ⟨by simp, by simp only [hwn]; omega, by simp; omega, by simpa using ha _,
          by simpa [Sink.answerAt_record] using hf⟩]
        simp only [State.failed, hwn, packBytes_succ, ht, hd, List.nil_append, List.length_nil, outBytes, List.map_cons,
          Sink.take_cons, show 8 * (j + 1) = 8 + 8 * j by omega, ← List.drop_drop]
        have : s.writer.bits.toNat + 1 + (8 + 8 * j) = s.writer.bits.toNat + (8 * (j + 1 + 1) - s.writer.buf.length) := by
          omega
        simp [this]
    · rw [emit_cons_of_ne h7, pushBit_of_fits hw1]
      have hl : (s.writer.buf ++ [b]).length + bs.length = s.writer.buf.length + (bs.length + 1) := by simp; omega
      refine (ih (j := j) ?_).trans ?_
      · exact ⟨by simp; omega, by simp only [hwn]; omega, by simp only [hl]; exact hm, hk, hf⟩
      have : s.writer.bits.toNat + 1 + (8 * (j + 1) - (s.writer.buf.length + 1)) =
          s.writer.bits.toNat + (8 * (j + 1) - s.writer.buf.length) := by omega
      simp [State.failed, hwn, this]

/-! ## Ending a stream and opening the next -/

theorem closingTokens_length (s : State) :
    s.closingTokens.length = if s.writer.closed then 0 else (s.writer.buf.length + 7) / 8 + 1 := by
  unfold State.closingTokens
  split <;> simp [closedBytes_length]

/-- `WClose()` with a sink that takes every token (rule R89). -/
theorem closeStream_ends {s : State} (hb : s.writer.buf.length < 8) (ho : s.writer.closed = false)
    (hk : s.sink.accepts s.closingTokens.length = true) :
    closeStream s = .done { s with writer := ⟨true, [], s.writer.bits⟩, sink := s.sink.take s.closingTokens } := by
  rw [closingTokens_length, ho] at hk
  rw [closeStream_accepted s ho hb (by simpa using hk)]
  simp [State.closingTokens, ho]

/-- The tokens that end a stream with bits pending: the padded byte, then `End` (rule R89). -/
theorem closingTokens_pending {s : State} (hb : s.writer.buf.length < 8) (ho : s.writer.closed = false)
    (hp : s.writer.buf ≠ []) : s.closingTokens = [.byte (byteOf s.writer.buf), .eos] := by
  have h1 : 0 < s.writer.buf.length := List.length_pos_iff.2 hp
  have h2 : (s.writer.buf.length + 7) / 8 = 1 := by omega
  simp [State.closingTokens, ho, closedBytes, h2, packBytes, outBytes, List.take_of_length_le (Nat.le_of_lt hb)]

/-- `WClose()` when the sink answers `fail` to one of its tokens (rule R89). -/
theorem closeStream_fails {s : State} {before : List OutToken} {x : OutToken} (hb : s.writer.buf.length < 8)
    (hk : s.sink.FailsOn s.closingTokens before x) : closeStream s = .raised .ioError (s.closeFailed before x) := by
  obtain ⟨hp, ha, hf⟩ := hk
  cases ho : s.writer.closed with
  | true => simp [State.closingTokens, ho] at hp
  | false =>
    by_cases hbuf : s.writer.buf = []
    · have hc : s.closingTokens = [.eos] := by simp [State.closingTokens, ho, hbuf, closedBytes, packBytes, outBytes]
      rw [hc] at hp
      obtain ⟨rfl, rfl⟩ : before = [] ∧ x = .eos := by
        have := hp.length_le
        have hn : before = [] := List.length_eq_zero_iff.1 (by simpa using this)
        subst hn
        simpa [List.cons_prefix_cons] using hp
      rw [List.length_nil, ← Sink.next_eq] at hf
      rw [closeStream, if_neg (by simp [ho]), if_pos hbuf, endStream, offerEnd, push_of_next (by exact hf)]
      simp [State.closeFailed, hbuf]
    · rw [closingTokens_pending hb ho hbuf] at hp
      rw [closeStream, if_neg (by simp [ho]), if_neg hbuf]
      cases before with
      | nil =>
        obtain rfl : x = .byte (byteOf s.writer.buf) := by simpa [List.cons_prefix_cons] using hp
        rw [List.length_nil, ← Sink.next_eq] at hf
        rw [offerByte, push_of_next (by exact hf)]
        simp [State.closeFailed, State.dropWbuf]
      | cons y ys =>
        obtain ⟨rfl, hp⟩ : y = .byte (byteOf s.writer.buf) ∧ ys ++ [x] <+: [.eos] := by
          simpa [List.cons_prefix_cons] using hp
        obtain ⟨rfl, rfl⟩ : ys = [] ∧ x = .eos := by
          have := hp.length_le
          have hn : ys = [] := List.length_eq_zero_iff.1 (by simpa using this)
          subst hn
          simpa [List.cons_prefix_cons] using hp
        obtain ⟨hn, -⟩ := Sink.accepts_succ (n := 0) ha
        rw [offerByte, push_of_next (by exact hn)]
        have hf' : (s.sink.record (.byte (byteOf s.writer.buf)) .ok).next = some .fail := by
          rw [Sink.next_eq, Sink.answerAt_record]
          exact hf
        simp only [Run.andThen_done, endStream, offerEnd]
        rw [push_of_next (by exact hf')]
        simp [State.closeFailed, State.dropWbuf]

/-- `WOpen()` with a sink that takes every token (rule R88). -/
theorem openNext {s : State} (hb : s.writer.buf.length < 8) (hk : s.sink.accepts s.closingTokens.length = true)
    (ws : List Work) : runWorks (.closeStream :: .openStream :: ws) s = runWorks ws s.reopened := by
  cases hc : s.writer.closed with
  | true =>
    have : closeStream s = .done s := closeStream_closed hc
    simp [runWorks_cons, runWork, this, State.startStream, State.reopened, State.closingTokens, hc]
  | false => simp [runWorks_cons, runWork, closeStream_ends hb hc hk, State.startStream, State.reopened]

/-! ## Reading -/

/-- The bytes read so far for `k` bits of a stream. -/
theorem afterBits_zero {s : State} {bits : Bits} {bs : List Byte} {rest : List InToken} (h : s.Carries bits bs rest) :
    s.afterBits bs rest 0 = s := by
  have h0 : (0 - s.reader.buf.length + 7) / 8 = 0 := by omega
  have := h.tokens
  cases s
  simp_all [State.afterBits]

/-- A field is read off the stream at its place (rules R91 to R93). -/
theorem readBits_at {s : State} {pre field post : Bits} {bs : List Byte} {rest : List InToken}
    (h : s.Carries (pre ++ field ++ post) bs rest) :
    (s.afterBits bs rest pre.length).readBits field.length =
      .got (valueOf field) (s.afterBits bs rest (pre.length + field.length)) := by
  obtain ⟨hx, hb, hq, hf, hr⟩ := h
  have hlen := hf.length_le
  simp only [List.length_append, streamBits_length] at hlen hr
  set B := s.reader.buf.length with hB
  set i := (pre.length - B + 7) / 8 with hi
  set j := (pre.length + field.length - B + 7) / 8 with hj
  have hij : i ≤ j := by omega
  have hjl : j ≤ bs.length := by omega
  have hil : i ≤ bs.length := by omega
  have hsplit : streamBits (bs.take j) = streamBits (bs.take i) ++ streamBits ((bs.drop i).take (j - i)) := by
    rw [← streamBits_append, ← List.take_add, Nat.add_sub_cancel' hij]
  have hbuf : ((s.reader.buf ++ streamBits (bs.take i)).drop pre.length).length = B + 8 * i - pre.length := by
    simp [Nat.min_eq_left hil, ← hB]
  have hcat : (s.reader.buf ++ streamBits (bs.take i)).drop pre.length ++ streamBits ((bs.drop i).take (j - i)) =
      (s.reader.buf ++ streamBits (bs.take j)).drop pre.length := by
    rw [hsplit, ← List.append_assoc, List.drop_append_of_le_length (l₁ := s.reader.buf ++ streamBits (bs.take i))
      (by simp [Nat.min_eq_left hil, ← hB]; omega)]
  have htake : ((s.reader.buf ++ streamBits (bs.take j)).drop pre.length).take field.length = field := by
    have hp : pre ++ field <+: s.reader.buf ++ streamBits (bs.take j) := by
      have h1 : pre ++ field <+: s.reader.buf ++ streamBits bs := (List.prefix_append _ _).trans hf
      have h2 : s.reader.buf ++ streamBits (bs.take j) <+: s.reader.buf ++ streamBits bs := by
        rw [List.prefix_append_right_inj]
        conv_rhs => rw [← List.take_append_drop j bs, streamBits_append]
        exact List.prefix_append _ _
      exact List.prefix_of_prefix_length_le h1 h2 (by simp [Nat.min_eq_left hjl, ← hB]; omega)
    obtain ⟨u, hu⟩ := hp
    rw [← hu, List.append_assoc, List.drop_left, List.take_left]
  have hbits : (BitVec.ofNat 64 (s.reader.bits.toNat + pre.length)).toNat = s.reader.bits.toNat + pre.length := by
    rw [BitVec.toNat_ofNat, Nat.mod_eq_of_lt (by omega)]
  have htl : ((bs.drop i).take (j - i)).length = j - i := by simp; omega
  rw [readBits_got _ _ ((bs.drop i).take (j - i)) (inBytes (bs.drop j) ++ rest)]
  · simp only [State.afterBits, ← hB, ← hi, ← hj, hcat, htake, hbits, List.drop_drop, hx, Nat.add_assoc]
  · exact hx
  · simp only [State.afterBits, ← hB, ← hi]
    rw [← List.append_assoc]
    congr 1
    rw [← inBytes_append]
    congr 1
    conv_lhs => rw [← List.take_append_drop (j - i) (bs.drop i), List.drop_drop, Nat.add_sub_cancel' hij]
  · rw [htl]
    by_cases hz : j - i = 0
    · left; rw [hz, List.take_zero]
    · right
      simp only [State.afterBits, ← hB, ← hi, hbuf]
      omega
  · rw [htl]
    simp only [State.afterBits, ← hB, ← hi, hbuf]
    omega
  · simp only [State.afterBits, hbits]
    omega

/-- A read that meets the end of its stream, after `k` bits of it (rule R93). -/
theorem readBits_short {s : State} {k w : Nat} {bs : List Byte} {rest : List InToken} (hx : s.reader.exh = false)
    (hk : k ≤ s.reader.buf.length + 8 * bs.length) (hw : s.reader.buf.length + 8 * bs.length < k + w) :
    (s.afterBits bs (.eos :: rest) k).readBits w =
      .sentinel { s with inq := rest, reader := ⟨true, [], BitVec.ofNat 64 (s.reader.bits.toNat + k)⟩ } := by
  rw [readBits_ended _ _ (bs.drop ((k - s.reader.buf.length + 7) / 8)) rest]
  · rfl
  · exact hx
  · rfl
  · have : (k - s.reader.buf.length + 7) / 8 ≤ bs.length := by omega
    simp [State.afterBits, Nat.min_eq_left this]
    omega

end Sys2Proof.Machine
end

