-- ==== Sys2Proof/Laws/Trees.lean ====
section
/-! SUPPORT. Trees in the node store: what writing a node leaves of them, their codes, the trees a build makes and the
trees a deserialization makes. -/

namespace Sys2Proof.Machine

/-! ## Trees and their nodes -/

theorem NodeStore.indices_length (st : NodeStore) (i : NodeIx) (t : HTree) : (st.indices i t).length = t.size := by
  induction t generalizing i with
  | leaf y => rfl
  | node l r ihl ihr => simp only [NodeStore.indices, List.length_cons, List.length_append, ihl, ihr, HTree.size]

theorem NodeStore.mem_indices_self (st : NodeStore) (i : NodeIx) (t : HTree) : i ∈ st.indices i t := by
  cases t <;> simp [NodeStore.indices]

/-- A tree depends on its own nodes alone. -/
theorem NodeStore.tree_congr {st st' : NodeStore} {i : NodeIx} {t : HTree}
    (h : ∀ k ∈ st.indices i t, st'.node k = st.node k) :
    st'.indices i t = st.indices i t ∧ (st.holds i t → st'.holds i t) := by
  induction t generalizing i with
  | leaf y =>
    have hi := h i (st.mem_indices_self i _)
    exact ⟨rfl, fun hh => by simpa only [NodeStore.holds, hi] using hh⟩
  | node l r ihl ihr =>
    have hi := h i (st.mem_indices_self i _)
    simp only [NodeStore.indices, List.mem_cons, List.mem_append] at h
    have hl := ihl (i := (st.node i).left) fun k hk => h k (.inr (.inl hk))
    have hr := ihr (i := (st.node i).right) fun k hk => h k (.inr (.inr hk))
    refine ⟨by simp only [NodeStore.indices, hi, hl.1, hr.1], fun hh => ?_⟩
    simp only [NodeStore.holds, hi] at hh ⊢
    exact ⟨hh.1, hl.2 hh.2.1, hr.2 hh.2.2⟩

/-- Writing a node outside a tree leaves the tree. -/
theorem NodeStore.tree_put {st : NodeStore} {i j : NodeIx} {t : HTree} (n : Node) (h : j ∉ st.indices i t) :
    (st.put j n).indices i t = st.indices i t ∧ (st.holds i t → (st.put j n).holds i t) :=
  tree_congr fun _ hk => st.put_node_ne n (fun hjk => h (hjk ▸ hk))

theorem NodeStore.empty_not_complete (t : HTree) : ¬NodeStore.empty.complete t := by
  intro h
  have h1 := h.2.2.1
  have h2 := t.size_eq
  have : 0 < t.size := by cases t <;> simp [HTree.size]
  simp at h1
  omega

/-- The nodes of a complete store are its nodes in use (10_state.md rule R43). -/
theorem NodeStore.complete.inUse {st : NodeStore} {t : HTree} (h : st.complete t) : st.inUse (st.indices st.root t) :=
  ⟨h.2.1, by rw [st.indices_length]; exact h.2.2.1, h.2.2.2⟩

theorem NodeStore.complete_of_inUse {st : NodeStore} {t : HTree} (h : st.holds st.root t)
    (hu : st.inUse (st.indices st.root t)) : st.complete t :=
  ⟨h, hu.1, by rw [← st.indices_length st.root]; exact hu.2.1, hu.2.2⟩

/-- A store holds one tree. -/
theorem NodeStore.holds_unique {st : NodeStore} {i : NodeIx} {t u : HTree} (ht : st.holds i t) (hu : st.holds i u) :
    t = u := by
  induction t generalizing i u with
  | leaf y =>
    cases u with
    | leaf z => simp only [NodeStore.holds] at ht hu; rw [← ht.2, ← hu.2]
    | node l r => simp only [NodeStore.holds] at ht hu; simp [ht.1] at hu
  | node l r ihl ihr =>
    cases u with
    | leaf z => simp only [NodeStore.holds] at ht hu; simp [ht.1] at hu
    | node l' r' =>
      simp only [NodeStore.holds] at ht hu
      rw [ihl ht.2.1 hu.2.1, ihr ht.2.2 hu.2.2]

/-! ## Codes -/

/-- A path has at most as many bits as the tree is deep (44_codetable.md rule R125). -/
theorem HTree.paths_length {t : HTree} {e : Symbol × Bits} (h : e ∈ t.paths) : e.2.length ≤ t.depth := by
  induction t generalizing e with
  | leaf y => simp only [HTree.paths, List.mem_singleton] at h; simp [h, HTree.depth]
  | node l r ihl ihr =>
    simp only [HTree.paths, List.mem_append, List.mem_map] at h
    rcases h with ⟨d, hd, rfl⟩ | ⟨d, hd, rfl⟩
    · have := ihl hd; simp only [HTree.depth, List.length_cons]; omega
    · have := ihr hd; simp only [HTree.depth, List.length_cons]; omega

theorem HTree.codeOf_length (t : HTree) (y : Symbol) : (t.codeOf y).bits.length ≤ t.depth := by
  unfold HTree.codeOf
  split
  · rename_i e he
    exact paths_length (List.mem_reverse.1 (List.mem_of_find?_eq_some he))
  · simp

theorem setPaths_get (es : List (Symbol × Bits)) (cs : Codes) (y : Symbol) :
    (setPaths es [] cs)[y.val] = match es.reverse.find? (fun e => e.1 == y) with
      | some e => ⟨true, e.2⟩
      | none => cs[y.val] := by
  induction es generalizing cs with
  | nil => simp [setPaths]
  | cons e es ih =>
    have : setPaths (e :: es) [] cs = setPaths es [] (cs.set e.1.val ⟨true, e.2⟩) := by simp [setPaths]
    rw [this, ih, List.reverse_cons, List.find?_append]
    cases hf : es.reverse.find? (fun e => e.1 == y) with
    | some e' => simp
    | none =>
      by_cases hy : e.1 = y
      · subst hy; simp
      · have : e.1.val ≠ y.val := fun h => hy (Fin.ext h)
        simp [hy, this]

/-- Over a table that holds no code outside the tree's, generation leaves the tree's codes (rule R125). -/
theorem setPaths_codeOf (t : HTree) (cs : Codes) (y : Symbol)
    (h : (∀ z : Symbol, cs[z.val] = ⟨false, []⟩) ∨ ∀ z : Symbol, cs[z.val] = t.codeOf z) :
    (setPaths t.paths [] cs)[y.val] = t.codeOf y := by
  rw [setPaths_get]
  cases hf : t.paths.reverse.find? (fun e => e.1 == y) with
  | some e => simp [HTree.codeOf, hf]
  | none =>
    rcases h with h | h
    · simp [HTree.codeOf, hf, h y]
    · exact h y

/-! ## Building (43_tree.md rules R111 to R115) -/

/-- The symbols of a table with a positive frequency, in its order (rule R111). -/
def positives (table : List (Symbol × Word)) : List (Symbol × Word) := table.filter fun e => e.2 != 0#32

theorem leafCount_positives (s : State) : s.leafCount = (positives s.freqTable).length := by
  simp [State.leafCount, positives, List.countP_eq_length_filter]

/-- Everything inserting the leaves of a table does, in a store with room for them (rules R111, R114). -/
theorem addLeaves_spec (table : List (Symbol × Word)) (b : Builder)
    (h : b.store.count.val + (positives table).length ≤ 513) :
    let b' := addLeaves table b
    b'.store.count.val = b.store.count.val + (positives table).length ∧ b'.store.root = b.store.root ∧
    b'.seq = b.seq + (positives table).length ∧
    (∀ i : NodeIx, i.val < b.store.count.val → b'.store.node i = b.store.node i) ∧
    (∀ (k : Nat) (hk : k < (positives table).length), b'.store.node ⟨b.store.count.val + k, by omega⟩ =
      ⟨true, (positives table)[k].1, (positives table)[k].2.setWidth 64, 0, 0⟩) ∧
    ∃ new : List PqEntry, b'.pq = b.pq ++ new ∧ new.length = (positives table).length ∧
      ∀ (k : Nat) (hk : k < new.length) (hk' : k < (positives table).length),
        new[k] = ⟨(positives table)[k].2.toNat, b.seq + k, ⟨b.store.count.val + k, by omega⟩⟩ := by
  induction table generalizing b with
  | nil => simp [addLeaves, positives]
  | cons e table ih =>
    by_cases he : e.2 = 0#32
    · have h1 : addLeaves (e :: table) b = addLeaves table b := by simp [addLeaves, he]
      have h2 : positives (e :: table) = positives table := by simp [positives, he]
      simp only [h1, h2] at h ⊢
      exact ih b h
    · have h2 : positives (e :: table) = e :: positives table := by simp [positives, he]
      simp only [h2, List.length_cons] at h
      have hc : b.store.count.val < 513 := by omega
      have ha : b.store.alloc = some (⟨b.store.count.val, hc⟩,
          { b.store with count := ⟨b.store.count.val + 1, Nat.succ_lt_succ hc⟩ }) := by simp [NodeStore.alloc, hc]
      have h1 : addLeaves (e :: table) b = addLeaves table (b.addLeaf e.1 e.2) := by simp [addLeaves, he]
      have hb : b.addLeaf e.1 e.2 =
          ⟨({ b.store with count := ⟨b.store.count.val + 1, Nat.succ_lt_succ hc⟩ } : NodeStore).put
              ⟨b.store.count.val, hc⟩ ⟨true, e.1, e.2.setWidth 64, 0, 0⟩,
            b.pq ++ [⟨e.2.toNat, b.seq, ⟨b.store.count.val, hc⟩⟩], b.seq + 1⟩ := by
        simp [Builder.addLeaf, ha, Builder.insert]
      obtain ⟨i1, i2, i3, i4, i5, new, i6, i7, i8⟩ := ih (b.addLeaf e.1 e.2) (by rw [hb]; simp only [NodeStore.put_count]; omega)
      simp only [h1, h2, List.length_cons]
      simp only [hb, NodeStore.put_count, NodeStore.put_root] at i1 i2 i3 i4 i5 i6 i8 ⊢
      refine ⟨by omega, i2, by omega, fun i hi => ?_, fun k hk => ?_, ?_⟩
      · rw [i4 i (by omega), NodeStore.put_node_ne]
        · rfl
        · intro hh; rw [← hh] at hi; simp at hi
      · cases k with
        | zero =>
          rw [i4 ⟨b.store.count.val + 0, by omega⟩ (by simp)]
          exact NodeStore.put_node_self _ _ _
        | succ k =>
          have := i5 k (by omega)
          simp only [List.getElem_cons_succ]
          rw [← this]
          congr 2
          omega
      · refine ⟨_, by rw [i6, List.append_assoc, List.singleton_append], by simp [i7], fun k hk hk' => ?_⟩
        cases k with
        | zero => simp
        | succ k =>
          simp only [List.getElem_cons_succ]
          rw [i8 k (by simpa using hk) (by simpa using hk')]
          simp only [PqEntry.mk.injEq, true_and, Fin.mk.injEq]
          omega

theorem least_mem (e : PqEntry) (es : List PqEntry) : least e es ∈ e :: es := by
  induction es generalizing e with
  | nil => simp [least]
  | cons x xs ih =>
    have : least e (x :: xs) = least (if x.before e then x else e) xs := rfl
    rw [this]
    by_cases hx : x.before e = true
    · rw [if_pos hx]; exact List.mem_cons_of_mem _ (ih x)
    · rw [if_neg hx]
      rcases List.mem_cons.1 (ih e) with h | h
      · rw [h]; exact List.mem_cons_self
      · exact List.mem_cons_of_mem _ (List.mem_cons_of_mem _ h)

/-- The order of the queue as one comparison (rule R110). -/
theorem before_iff (a b : PqEntry) : a.before b = true ↔ a.key < b.key ∨ a.key = b.key ∧ a.seq < b.seq := by
  simp [PqEntry.before]

/-- No entry comes before the least one (rule R110). -/
theorem least_first (e : PqEntry) (es : List PqEntry) {z : PqEntry} (hz : z ∈ e :: es) : z.before (least e es) = false := by
  have key : ∀ a b c : PqEntry, a.before b = false → b.before c = false → a.before c = false := by
    intro a b c h1 h2
    rw [← Bool.not_eq_true, before_iff] at *
    omega
  induction es generalizing e z with
  | nil =>
    simp only [List.mem_singleton] at hz
    subst hz
    rw [← Bool.not_eq_true, before_iff]
    simp [least]
  | cons x xs ih =>
    have h1 : least e (x :: xs) = least (if x.before e then x else e) xs := rfl
    have h2 := fun {z} hz => ih (if x.before e then x else e) (z := z) hz
    rw [h1]
    by_cases hx : x.before e = true
    · rw [if_pos hx] at h2 ⊢
      rcases List.mem_cons.1 hz with rfl | hz
      · refine key _ x _ ?_ (h2 List.mem_cons_self)
        rw [← Bool.not_eq_true, before_iff]
        rw [before_iff] at hx
        omega
      · exact h2 hz
    · rw [if_neg hx] at h2 ⊢
      rcases List.mem_cons.1 hz with rfl | hz
      · exact h2 List.mem_cons_self
      · rcases List.mem_cons.1 hz with rfl | hz
        · exact key _ e _ (by simpa using hx) (h2 List.mem_cons_self)
        · exact h2 (List.mem_cons_of_mem _ hz)

/-- Everything `PQRemoveMin` does: it takes one entry off the queue, which none of the others comes before (rule R110). -/
theorem removeMin_cases (b : Builder) :
    (b.pq = [] ∧ b.removeMin = none) ∨
    ∃ e rest, b.removeMin = some (e, { b with pq := rest }) ∧ b.pq.Perm (e :: rest) ∧
      ∀ z ∈ rest, z.before e = false := by
  cases h : b.pq with
  | nil => exact .inl ⟨rfl, by simp [Builder.removeMin, h]⟩
  | cons e es =>
    refine .inr ⟨least e es, (e :: es).erase (least e es), by simp [Builder.removeMin, h], ?_, fun z hz => ?_⟩
    · exact List.perm_cons_erase (least_mem e es)
    · exact least_first e es (List.mem_of_mem_erase hz)

/-- Everything a merge does to the queue and the store (rules R112, R114): the two entries that come first give way to a
new internal node at index NODE_COUNT, whose left and right child they are. -/
theorem merge_eq {b : Builder} (h2 : 2 ≤ b.pq.length) (hc : b.store.count.val < 513) :
    ∃ (x y : PqEntry) (rest : List PqEntry), b.pq.Perm (x :: y :: rest) ∧ (∀ z ∈ y :: rest, z.before x = false) ∧
      (∀ z ∈ rest, z.before y = false) ∧
      b.merge = ⟨({ b.store with count := ⟨b.store.count.val + 1, Nat.succ_lt_succ hc⟩ } : NodeStore).put
          ⟨b.store.count.val, hc⟩ ⟨false, 0, BitVec.ofNat 64 (x.key + y.key), x.node, y.node⟩,
        rest ++ [⟨x.key + y.key, b.seq, ⟨b.store.count.val, hc⟩⟩], b.seq + 1⟩ := by
  rcases removeMin_cases b with ⟨h0, -⟩ | ⟨x, r1, hm1, hp1, hx⟩
  · simp [h0] at h2
  rcases removeMin_cases { b with pq := r1 } with ⟨h0, -⟩ | ⟨y, rest, hm2, hp2, hy⟩
  · simp only at h0
    subst h0
    have := hp1.length_eq
    simp at this
    omega
  simp only at hp2
  have ha : b.store.alloc = some (⟨b.store.count.val, hc⟩,
      { b.store with count := ⟨b.store.count.val + 1, Nat.succ_lt_succ hc⟩ }) := by simp [NodeStore.alloc, hc]
  exact ⟨x, y, rest, hp1.trans (hp2.cons x), fun z hz => hx z (hp2.mem_iff.2 hz), hy,
    by simp [Builder.merge, hm1, hm2, ha, Builder.insert]⟩

/-- The entries of the queue are the roots of disjoint trees that take all nodes in use. -/
structure Builder.Forest (b : Builder) (f : NodeIx → HTree) : Prop where
  holds : ∀ e ∈ b.pq, b.store.holds e.node (f e.node)
  used : b.store.inUse (b.pq.flatMap fun e => b.store.indices e.node (f e.node))
  keys : ∀ e ∈ b.pq, (b.store.node e.node).nfreq = BitVec.ofNat 64 e.key

/-- Everything a merge does (rules R112, R114): two entries give way to a new internal node at index NODE_COUNT, whose
children they are, and the trees of the queue stay disjoint. -/
theorem merge_spec {b : Builder} {f : NodeIx → HTree} (hf : b.Forest f) (h2 : 2 ≤ b.pq.length)
    (hc : b.store.count.val < 513) :
    ∃ (x y : PqEntry) (rest : List PqEntry) (g : NodeIx → HTree), b.pq.Perm (x :: y :: rest) ∧
      b.merge = ⟨({ b.store with count := ⟨b.store.count.val + 1, Nat.succ_lt_succ hc⟩ } : NodeStore).put
          ⟨b.store.count.val, hc⟩ ⟨false, 0, BitVec.ofNat 64 (x.key + y.key), x.node, y.node⟩,
        rest ++ [⟨x.key + y.key, b.seq, ⟨b.store.count.val, hc⟩⟩], b.seq + 1⟩ ∧
      b.merge.Forest g ∧ g ⟨b.store.count.val, hc⟩ = .node (f x.node) (f y.node) := by
  obtain ⟨x, y, rest, hp, -, -, hmerge⟩ := merge_eq h2 hc
  let i : NodeIx := ⟨b.store.count.val, hc⟩
  let g : NodeIx → HTree := fun k => if k = i then .node (f x.node) (f y.node) else f k
  refine ⟨x, y, rest, g, hp, hmerge, ?_, by simp [g, i]⟩
  have hused := hf.used
  have hmem : ∀ e ∈ b.pq, ∀ k ∈ b.store.indices e.node (f e.node), k.val < b.store.count.val := fun e he k hk =>
    hused.2.2 k (List.mem_flatMap.2 ⟨e, he, hk⟩)
  have hni : ∀ e ∈ b.pq, i ∉ b.store.indices e.node (f e.node) := fun e he hk =>
    Nat.lt_irrefl _ (hmem e he i hk)
  have hne : ∀ e ∈ b.pq, e.node ≠ i := fun e he hh => by
    have := hmem e he e.node (b.store.mem_indices_self _ _)
    rw [hh] at this
    exact Nat.lt_irrefl _ this
  have hx : x ∈ b.pq := hp.mem_iff.2 (by simp)
  have hy : y ∈ b.pq := hp.mem_iff.2 (by simp)
  have hr : ∀ e ∈ rest, e ∈ b.pq := fun e he => hp.mem_iff.2 (by simp [he])
  have htree : ∀ e ∈ b.pq, b.merge.store.indices e.node (f e.node) = b.store.indices e.node (f e.node) ∧
      b.merge.store.holds e.node (f e.node) := by
    intro e he
    have := NodeStore.tree_congr (st := b.store) (st' := b.merge.store) (i := e.node) (t := f e.node) (by
      intro k hk
      rw [hmerge]
      simp only
      rw [NodeStore.put_node_ne]
      · rfl
      · intro hh
        exact hni e he (show i ∈ _ by rw [show i = k from hh]; exact hk))
    exact ⟨this.1, this.2 (hf.holds e he)⟩
  have hnode : b.merge.store.node i = ⟨false, 0, BitVec.ofNat 64 (x.key + y.key), x.node, y.node⟩ := by
    rw [hmerge]; exact NodeStore.put_node_self _ _ _
  have hpq : b.merge.pq = rest ++ [⟨x.key + y.key, b.seq, i⟩] := by rw [hmerge]
  have hg : ∀ e ∈ b.pq, g e.node = f e.node := fun e he => if_neg (hne e he)
  have hflat : (b.merge.pq.flatMap fun e => b.merge.store.indices e.node (g e.node)) =
      (rest.flatMap fun e => b.store.indices e.node (f e.node)) ++
        i :: (b.store.indices x.node (f x.node) ++ b.store.indices y.node (f y.node)) := by
    rw [hpq, List.flatMap_append]
    congr 1
    · apply List.flatMap_congr
      intro e he
      rw [hg e (hr e he), (htree e (hr e he)).1]
    · simp only [List.flatMap_cons, List.flatMap_nil, List.append_nil]
      have : g i = .node (f x.node) (f y.node) := if_pos rfl
      rw [this]
      simp only [NodeStore.indices, hnode, (htree x hx).1, (htree y hy).1]
  have hperm : (i :: b.pq.flatMap fun e => b.store.indices e.node (f e.node)).Perm
      (b.merge.pq.flatMap fun e => b.merge.store.indices e.node (g e.node)) := by
    rw [hflat]
    have h1 := (List.Perm.flatMap_right (fun e : PqEntry => b.store.indices e.node (f e.node)) hp).cons i
    refine h1.trans ?_
    simp only [List.flatMap_cons]
    rw [← List.append_assoc]
    exact (List.perm_append_comm (l₁ := i :: _)).trans (List.Perm.refl _)
  constructor
  · intro e he
    rw [hpq, List.mem_append, List.mem_singleton] at he
    rcases he with he | he
    · rw [hg e (hr e he)]
      exact (htree e (hr e he)).2
    · subst he
      have : g i = .node (f x.node) (f y.node) := if_pos rfl
      simp only [this, NodeStore.holds, hnode]
      exact ⟨trivial, (htree x hx).2, (htree y hy).2⟩
  · have hcount : b.merge.store.count.val = b.store.count.val + 1 := by rw [hmerge]; rfl
    refine ⟨?_, ?_, ?_⟩
    · rw [← hperm.nodup_iff, List.nodup_cons]
      exact ⟨fun hh => Nat.lt_irrefl _ (hused.2.2 i hh), hused.1⟩
    · rw [← hperm.length_eq, List.length_cons, hused.2.1, hcount]
    · intro k hk
      rw [← hperm.mem_iff, List.mem_cons] at hk
      rw [hcount]
      rcases hk with rfl | hk
      · exact Nat.lt_succ_self _
      · exact Nat.lt_succ_of_lt (hused.2.2 k hk)
  · intro e he
    rw [hpq, List.mem_append, List.mem_singleton] at he
    rcases he with he | he
    · have hn : b.merge.store.node e.node = b.store.node e.node := by
        rw [hmerge]
        simp only
        rw [NodeStore.put_node_ne]
        · rfl
        · exact fun hh => hne e (hr e he) hh.symm
      rw [hn]
      exact hf.keys e (hr e he)
    · subst he
      rw [hnode]

/-- Everything `n` merges do to a queue of n + 1 entries (rules R112, R114, R115). -/
theorem mergeAll_spec (n : Nat) {b : Builder} {f : NodeIx → HTree} (hf : b.Forest f) (hl : b.pq.length = n + 1)
    (hc : b.store.count.val + n ≤ 513) :
    ∃ (g : NodeIx → HTree) (e : PqEntry), (mergeAll n b).pq = [e] ∧ (mergeAll n b).Forest g ∧
      (mergeAll n b).store.count.val = b.store.count.val + n ∧ (mergeAll n b).store.root = b.store.root ∧
      (∀ k : NodeIx, k.val < b.store.count.val → (mergeAll n b).store.node k = b.store.node k) ∧
      (∀ (j : Nat) (hj : j < n), ∃ l r : NodeIx, l.val < b.store.count.val + j ∧ r.val < b.store.count.val + j ∧
        (mergeAll n b).store.node ⟨b.store.count.val + j, by omega⟩ = ⟨false, 0,
          ((mergeAll n b).store.node l).nfreq + ((mergeAll n b).store.node r).nfreq, l, r⟩) ∧
      (n = 0 → b.pq = [e] ∧ g = f) ∧
      (0 < n → e.node.val + 1 = b.store.count.val + n ∧ ∃ l r, g e.node = .node l r) := by
  induction n generalizing b f with
  | zero =>
    obtain ⟨e, he⟩ := List.length_eq_one_iff.1 hl
    exact ⟨f, e, he, hf, by simp [mergeAll], rfl, fun _ _ => rfl, fun j hj => absurd hj (Nat.not_lt_zero _),
      fun _ => ⟨he, rfl⟩, fun h => absurd h (Nat.lt_irrefl _)⟩
  | succ n ih =>
    have hc' : b.store.count.val < 513 := by omega
    obtain ⟨x, y, rest, g₁, hp, hm, hg₁, hnew⟩ := merge_spec hf (by omega) hc'
    have hmc : b.merge.store.count.val = b.store.count.val + 1 := by rw [hm]; rfl
    have hml : b.merge.pq.length = n + 1 := by
      have := hp.length_eq
      rw [hm]
      simp only [List.length_cons, List.length_append, List.length_nil] at this ⊢
      omega
    obtain ⟨g, e, i1, i2, i3, i4, i5, i6, i7, i8⟩ := ih hg₁ hml (by omega)
    have hmn : ∀ k : NodeIx, k.val < b.store.count.val → b.merge.store.node k = b.store.node k := by
      intro k hk
      rw [hm]
      simp only
      rw [NodeStore.put_node_ne]
      · rfl
      · intro hh; rw [← hh] at hk; exact Nat.lt_irrefl _ hk
    have hx : x ∈ b.pq := hp.mem_iff.2 (by simp)
    have hy : y ∈ b.pq := hp.mem_iff.2 (by simp)
    have hlt : ∀ d ∈ b.pq, d.node.val < b.store.count.val := fun d hd =>
      hf.used.2.2 _ (List.mem_flatMap.2 ⟨d, hd, b.store.mem_indices_self _ _⟩)
    refine ⟨g, e, i1, i2, by rw [mergeAll]; omega, i4.trans (by rw [hm]; rfl), fun k hk => ?_, fun j hj => ?_,
      fun h => absurd h (Nat.succ_ne_zero _), fun _ => ?_⟩
    · rw [mergeAll, i5 k (by omega), hmn k hk]
    · rw [mergeAll]
      cases j with
      | zero =>
        refine ⟨x.node, y.node, hlt x hx, hlt y hy, ?_⟩
        have hxn := i5 x.node (by have := hlt x hx; omega)
        have hyn := i5 y.node (by have := hlt y hy; omega)
        rw [hxn, hyn, hmn _ (hlt x hx), hmn _ (hlt y hy), hf.keys x hx, hf.keys y hy]
        have hnd := i5 ⟨b.store.count.val + 0, by omega⟩ (by simp only; omega)
        rw [hnd, hm]
        simp only [Nat.add_zero, NodeStore.put_node_self, BitVec.ofNat_add]
      | succ j =>
        obtain ⟨l, r, hl1, hr1, hn⟩ := i6 j (by omega)
        refine ⟨l, r, by omega, by omega, ?_⟩
        rw [← hn]
        congr 2
        omega
    · cases n with
      | zero =>
        obtain ⟨hpe, hge⟩ := i7 rfl
        subst hge
        have : e = ⟨x.key + y.key, b.seq, ⟨b.store.count.val, hc'⟩⟩ := by
          rw [hm] at hpe
          have hr : rest = [] := by
            have := congrArg List.length hpe
            simp only [List.length_append, List.length_cons, List.length_nil] at this
            exact List.length_eq_zero_iff.1 (by omega)
          simp [hr] at hpe
          exact hpe.symm
        subst this
        exact ⟨by simp, _, _, hnew⟩
      | succ m =>
        obtain ⟨h1, h2⟩ := i8 (Nat.succ_pos _)
        exact ⟨by omega, h2⟩

/-- The queue is in the order of the nodes: an entry's insertion number is its node's index and its key is the node's
NFREQ, the keys add up below 2^64, and the entries are exactly the nodes without a parent (rules R110, R112, R114). -/
structure Builder.Ordered (b : Builder) : Prop where
  nodup : (b.pq.map (·.node)).Nodup
  seqs  : ∀ e ∈ b.pq, e.seq = e.node.val
  next  : b.seq = b.store.count.val
  keys  : ∀ e ∈ b.pq, (b.store.node e.node).nfreq.toNat = e.key
  total : (b.pq.map (·.key)).sum < 2 ^ 64
  older : ∀ k : NodeIx, k.val < b.store.count.val → (b.store.node k).leaf = false →
    (b.store.node k).left.val < b.store.count.val ∧ (b.store.node k).right.val < b.store.count.val
  roots : ∀ j : NodeIx, j ∈ b.pq.map (·.node) ↔ j.val < b.store.count.val ∧ ∀ k : NodeIx, k.val < b.store.count.val →
    (b.store.node k).leaf = false → (b.store.node k).left ≠ j ∧ (b.store.node k).right ≠ j

/-- The internal node `i` was made of the two nodes that come first of those without a parent then, with the sum of
their frequencies (rules R110, R112). -/
def NodeStore.MergedAt (st : NodeStore) (i : NodeIx) : Prop :=
  (st.unmerged i (st.node i).left ∧ st.unmerged i (st.node i).right ∧ st.before (st.node i).left (st.node i).right ∧
    ∀ j, st.unmerged i j → j ≠ (st.node i).left → j ≠ (st.node i).right → st.before (st.node i).right j) ∧
  (st.node i).nfreq.toNat = (st.node (st.node i).left).nfreq.toNat + (st.node (st.node i).right).nfreq.toNat

/-- Only the nodes up to `i` matter to how `i` was made. -/
theorem mergedAt_congr {st st' : NodeStore} {i : NodeIx} (h : ∀ k : NodeIx, k.val ≤ i.val → st'.node k = st.node k)
    (hm : st.MergedAt i) : st'.MergedAt i := by
  obtain ⟨⟨h1, h2, h3, h4⟩, h5⟩ := hm
  have hi := h i (Nat.le_refl _)
  have hu : ∀ j, st'.unmerged i j ↔ st.unmerged i j := by
    intro j
    unfold NodeStore.unmerged
    refine and_congr Iff.rfl (forall_congr' fun k => ?_)
    by_cases hk : k.val < i.val
    · rw [h k (Nat.le_of_lt hk)]
    · simp [hk]
  have hb : ∀ j k, j.val < i.val → k.val < i.val → st.before j k → st'.before j k := by
    intro j k hj hk hjk
    unfold NodeStore.before at *
    rwa [h j (Nat.le_of_lt hj), h k (Nat.le_of_lt hk)]
  unfold NodeStore.MergedAt
  rw [hi, h _ (Nat.le_of_lt h1.1), h _ (Nat.le_of_lt h2.1)]
  exact ⟨⟨(hu _).2 h1, (hu _).2 h2, hb _ _ h1.1 h2.1 h3, fun j hj hl hr =>
    hb _ _ h2.1 hj.1 (h4 j ((hu j).1 hj) hl hr)⟩, h5⟩

/-- A merge takes the two nodes that come first, and keeps the queue in order (rules R110, R112, R114). -/
theorem merge_ordered {b : Builder} (ho : b.Ordered) (h2 : 2 ≤ b.pq.length) (hc : b.store.count.val < 513) :
    b.merge.Ordered ∧ b.merge.store.MergedAt ⟨b.store.count.val, hc⟩ ∧
      b.merge.store.count.val = b.store.count.val + 1 ∧ b.merge.pq.length + 1 = b.pq.length ∧
      (b.merge.pq.map (·.key)).sum = (b.pq.map (·.key)).sum ∧
      (b.merge.store.node ⟨b.store.count.val, hc⟩).nfreq.toNat ≤ (b.pq.map (·.key)).sum ∧
      ∀ k : NodeIx, k.val < b.store.count.val → b.merge.store.node k = b.store.node k := by
  obtain ⟨x, y, rest, hp, hx, hy, hm⟩ := merge_eq h2 hc
  set i : NodeIx := ⟨b.store.count.val, hc⟩ with hi
  have hcount : b.merge.store.count.val = b.store.count.val + 1 := by rw [hm]; rfl
  have hold : ∀ k : NodeIx, k.val < b.store.count.val → b.merge.store.node k = b.store.node k := by
    intro k hk
    rw [hm]
    simp only
    rw [NodeStore.put_node_ne]
    · rfl
    · intro hh; rw [← hh] at hk; exact Nat.lt_irrefl _ hk
  have hnew : b.merge.store.node i = ⟨false, 0, BitVec.ofNat 64 (x.key + y.key), x.node, y.node⟩ := by
    rw [hm]; exact NodeStore.put_node_self _ _ _
  have hpq : b.merge.pq = rest ++ [⟨x.key + y.key, b.seq, i⟩] := by rw [hm]
  have hmx : x ∈ b.pq := hp.mem_iff.2 (by simp)
  have hmy : y ∈ b.pq := hp.mem_iff.2 (by simp)
  have hmr : ∀ e ∈ rest, e ∈ b.pq := fun e he => hp.mem_iff.2 (by simp [he])
  have hlt : ∀ e ∈ b.pq, e.node.val < b.store.count.val := fun e he =>
    ((ho.roots e.node).1 (List.mem_map_of_mem he)).1
  have hnd : (x.node :: y.node :: rest.map (·.node)).Nodup := (hp.map PqEntry.node).nodup_iff.1 ho.nodup
  have hsumEq : (b.pq.map (·.key)).sum = x.key + (y.key + (rest.map (·.key)).sum) := by
    rw [(hp.map (·.key)).sum_eq]
    simp
  have hsum : x.key + (y.key + (rest.map (·.key)).sum) < 2 ^ 64 := hsumEq ▸ ho.total
  have hfreq : (b.merge.store.node i).nfreq.toNat = x.key + y.key := by
    rw [hnew]
    show (BitVec.ofNat 64 (x.key + y.key)).toNat = _
    rw [BitVec.toNat_ofNat, Nat.mod_eq_of_lt (by omega)]
  have hcomes : ∀ e ∈ b.pq, ∀ z ∈ b.pq, e.node ≠ z.node → z.before e = false → b.merge.store.before e.node z.node := by
    intro e he z hz hne hb
    unfold NodeStore.before
    rw [hold _ (hlt e he), hold _ (hlt z hz), ho.keys e he, ho.keys z hz]
    rw [← Bool.not_eq_true, before_iff, ho.seqs e he, ho.seqs z hz] at hb
    have : e.node.val ≠ z.node.val := fun hh => hne (Fin.ext hh)
    omega
  have hun : ∀ j : NodeIx, b.merge.store.unmerged i j ↔ j ∈ b.pq.map (·.node) := by
    intro j
    rw [ho.roots j]
    unfold NodeStore.unmerged
    refine and_congr Iff.rfl (forall_congr' fun k => ?_)
    by_cases hk : k.val < b.store.count.val
    · rw [hold k hk]
    · simp [hk, hi]
  have hxy : x.node ≠ y.node := by
    have := List.nodup_cons.1 hnd
    exact fun hh => this.1 (by simp [hh])
  have hxr : ∀ z ∈ rest, x.node ≠ z.node := fun z hz hh => (List.nodup_cons.1 hnd).1 (by
    rw [hh]; exact List.mem_cons_of_mem _ (List.mem_map_of_mem hz))
  have hyr : ∀ z ∈ rest, y.node ≠ z.node := fun z hz hh => (List.nodup_cons.1 (List.nodup_cons.1 hnd).2).1 (by
    rw [hh]; exact List.mem_map_of_mem hz)
  refine ⟨?_, ?_, hcount, ?_, ?_, by rw [hfreq, hsumEq]; omega, hold⟩
  · constructor
    · rw [hpq, List.map_append, List.nodup_append]
      refine ⟨(List.nodup_cons.1 (List.nodup_cons.1 hnd).2).2, by simp, ?_⟩
      intro j hj k hk hjk
      subst hjk
      obtain ⟨e, he, rfl⟩ := List.mem_map.1 hj
      simp only [List.map_cons, List.map_nil, List.mem_singleton] at hk
      have := hlt e (hmr e he)
      rw [hk] at this
      exact Nat.lt_irrefl _ this
    · intro e he
      rw [hpq, List.mem_append, List.mem_singleton] at he
      rcases he with he | rfl
      · exact ho.seqs e (hmr e he)
      · exact ho.next
    · rw [hcount, hm]
      show b.seq + 1 = _
      rw [ho.next]
    · intro e he
      rw [hpq, List.mem_append, List.mem_singleton] at he
      rcases he with he | rfl
      · rw [hold _ (hlt e (hmr e he))]
        exact ho.keys e (hmr e he)
      · exact hfreq
    · rw [hpq]
      simp only [List.map_append, List.map_cons, List.map_nil, List.sum_append, List.sum_cons, List.sum_nil]
      omega
    · intro k hk hl
      rw [hcount] at hk ⊢
      by_cases hki : k = i
      · subst hki
        rw [hnew]
        exact ⟨Nat.lt_succ_of_lt (hlt x hmx), Nat.lt_succ_of_lt (hlt y hmy)⟩
      · have hk' : k.val < b.store.count.val := by
          have : k.val ≠ b.store.count.val := fun hh => hki (Fin.ext hh)
          omega
        rw [hold k hk'] at hl ⊢
        have h0 := ho.older k hk' hl
        omega
    · intro j
      rw [hcount, hpq, List.map_append, List.mem_append]
      simp only [List.map_cons, List.map_nil, List.mem_singleton]
      constructor
      · rintro (hj | rfl)
        · obtain ⟨e, he, rfl⟩ := List.mem_map.1 hj
          have hr := (ho.roots e.node).1 (List.mem_map_of_mem (hmr e he))
          refine ⟨by omega, fun k hk hl => ?_⟩
          by_cases hki : k = i
          · subst hki
            rw [hnew]
            exact ⟨hxr e he, hyr e he⟩
          · have hk' : k.val < b.store.count.val := by
              have : k.val ≠ b.store.count.val := fun hh => hki (Fin.ext hh)
              omega
            rw [hold k hk'] at hl ⊢
            exact hr.2 k hk' hl
        · refine ⟨Nat.lt_succ_self _, fun k hk hl => ?_⟩
          by_cases hki : k = i
          · subst hki
            rw [hnew]
            refine ⟨fun hh => ?_, fun hh => ?_⟩
            · have h0 := hlt x hmx; simp only at hh; rw [hh] at h0; exact Nat.lt_irrefl _ h0
            · have h0 := hlt y hmy; simp only at hh; rw [hh] at h0; exact Nat.lt_irrefl _ h0
          · have hk' : k.val < b.store.count.val := by
              have : k.val ≠ b.store.count.val := fun hh => hki (Fin.ext hh)
              omega
            rw [hold k hk'] at hl ⊢
            have h0 := ho.older k hk' hl
            exact ⟨fun hh => by rw [hh] at h0; exact Nat.lt_irrefl _ h0.1, fun hh => by
              rw [hh] at h0; exact Nat.lt_irrefl _ h0.2⟩
      · rintro ⟨hj, hall⟩
        by_cases hji : j = i
        · exact .inr hji
        · left
          have hj' : j.val < b.store.count.val := by
            have : j.val ≠ b.store.count.val := fun hh => hji (Fin.ext hh)
            omega
          have hjp : j ∈ b.pq.map (·.node) := (ho.roots j).2 ⟨hj', fun k hk hl => by
            have := hall k (by omega)
            rw [hold k hk] at this
            exact this hl⟩
          rw [(hp.map (·.node)).mem_iff] at hjp
          have hch := hall i (Nat.lt_succ_self _)
          rw [hnew] at hch
          have hch := hch rfl
          simp only [List.map_cons, List.mem_cons] at hjp
          rcases hjp with rfl | rfl | hjp
          · exact absurd rfl hch.1
          · exact absurd rfl hch.2
          · exact hjp
  · unfold NodeStore.MergedAt
    rw [hfreq, hnew]
    simp only
    rw [hold _ (hlt x hmx), hold _ (hlt y hmy), ho.keys x hmx, ho.keys y hmy]
    refine ⟨⟨(hun _).2 (List.mem_map_of_mem hmx), (hun _).2 (List.mem_map_of_mem hmy),
      hcomes x hmx y hmy hxy (hx y (by simp)), fun j hj hl hr => ?_⟩, rfl⟩
    rw [hun, (hp.map (·.node)).mem_iff] at hj
    simp only [List.map_cons, List.mem_cons] at hj
    rcases hj with rfl | rfl | hj
    · exact absurd rfl hl
    · exact absurd rfl hr
    · obtain ⟨z, hz, rfl⟩ := List.mem_map.1 hj
      exact hcomes y hmy z (hmr z hz) (hyr z hz) (hy z hz)
  · have := hp.length_eq
    rw [hpq]
    simp only [List.length_append, List.length_cons, List.length_nil] at this ⊢
    omega
  · rw [hpq, hsumEq]
    simp only [List.map_append, List.map_cons, List.map_nil, List.sum_append, List.sum_cons, List.sum_nil]
    omega

theorem positives_length_le (s : State) : (positives s.freqTable).length ≤ 257 :=
  leafCount_positives s ▸ leafCount_le s

theorem positives_pos (s : State) : 0 < (positives s.freqTable).length := leafCount_positives s ▸ leafCount_pos s

/-- The last symbol inserted is the pseudo-EOF: "the pseudo-EOF leaf is always inserted" (rule R111). -/
theorem positives_last (s : State) :
    (positives s.freqTable)[(positives s.freqTable).length - 1]'(by have := positives_pos s; omega) =
      (Config.pseudoEof, Config.peofFreq) := by
  have h : ∃ xs, s.freqTable = xs ++ [(Config.pseudoEof, Config.peofFreq)] := by
    refine ⟨(List.finRange 256).map (fun y => (y.castSucc, s.freqAt y.castSucc)), ?_⟩
    rw [freqTable_eq, symbols, List.finRange_succ_last, List.map_append, List.map_map]
    rfl
  obtain ⟨xs, hx⟩ := h
  have : positives s.freqTable = positives xs ++ [(Config.pseudoEof, Config.peofFreq)] := by
    rw [hx]
    simp [positives, Config.peofFreq]
  simp only [this, List.length_append, List.length_cons, List.length_nil, Nat.zero_add, Nat.add_sub_cancel,
    List.getElem_concat_length]

/-- The frequencies add up to at most 256 * (2^32 - 1) + 1 (43_tree.md rule R114). -/
theorem positives_sum_le (s : State) :
    ((positives s.freqTable).map fun e => e.2.toNat).sum ≤ 256 * (2 ^ 32 - 1) + 1 := by
  have h1 : ((positives s.freqTable).map fun e => e.2.toNat).sum ≤ (s.freqTable.map fun e => e.2.toNat).sum :=
    List.Sublist.sum_le_sum (List.Sublist.map _ List.filter_sublist) (fun _ _ => Nat.zero_le _)
  have h2 : s.freqTable = (List.finRange 256).map (fun y => (y.castSucc, s.freqAt y.castSucc)) ++
      [(Config.pseudoEof, Config.peofFreq)] := by
    rw [freqTable_eq, symbols, List.finRange_succ_last, List.map_append, List.map_map]
    rfl
  have h3 := List.sum_le_card_nsmul ((List.finRange 256).map fun y => (s.freqAt y.castSucc).toNat) (2 ^ 32 - 1) (by
    intro v hv
    obtain ⟨y, -, rfl⟩ := List.mem_map.1 hv
    have := (s.freqAt y.castSucc).isLt
    omega)
  refine h1.trans ?_
  rw [h2]
  simp only [List.map_append, List.map_map, List.map_cons, List.map_nil, List.sum_append, List.sum_cons, List.sum_nil,
    List.length_map, List.length_finRange, smul_eq_mul, Function.comp_def] at h3 ⊢
  have h4 : Config.peofFreq.toNat = 1 := rfl
  omega

/-- Everything `BuildTree` leaves in a cleared node store (rules R113 to R115). -/
theorem buildTree_spec (s : State) (h : s.store = NodeStore.empty) :
    let st := s.buildTree.store
    s.buildTree.pq = [] ∧ st.count.val + 1 = 2 * s.leafCount ∧ st.root.val + 2 = 2 * s.leafCount ∧
    (∀ (k : Nat) (hk : k < (positives s.freqTable).length), st.node ⟨k, by have := positives_length_le s; omega⟩ =
      ⟨true, (positives s.freqTable)[k].1, (positives s.freqTable)[k].2.setWidth 64, 0, 0⟩) ∧
    (∀ (j : Nat) (hj : j + 1 < s.leafCount), ∃ l r : NodeIx, l.val < s.leafCount + j ∧ r.val < s.leafCount + j ∧
      st.node ⟨s.leafCount + j, by have := leafCount_le s; omega⟩ =
        ⟨false, 0, (st.node l).nfreq + (st.node r).nfreq, l, r⟩) ∧
    ∃ t, st.complete t ∧ t.decodable = true ∧ t.leaves = s.leafCount := by
  have hL := leafCount_positives s
  have hpos := positives_pos s
  have hle := positives_length_le s
  have he : s.store.count.val = 0 := by rw [h]; rfl
  obtain ⟨a1, a2, a3, a4, a5, new, a6, a7, a8⟩ := addLeaves_spec s.freqTable ⟨s.store, [], 0⟩ (by simp only [he]; omega)
  simp only [he, Nat.zero_add, List.nil_append] at a1 a2 a3 a4 a5 a6 a8
  have hb : addLeaves s.freqTable ⟨s.store, [], 0⟩ = s.leavesBuilder := rfl
  rw [hb] at a1 a2 a3 a4 a5 a6
  subst a6
  have hnodes : s.leavesBuilder.pq.map (·.node) = List.ofFn fun k : Fin (positives s.freqTable).length =>
      (⟨k.val, by omega⟩ : NodeIx) := by
    apply List.ext_getElem
    · simp [a7]
    · intro k h1 h2
      simp only [List.getElem_map, List.getElem_ofFn]
      rw [a8 k (by simpa using h1) (by simpa using h2)]
  have hmem : ∀ e ∈ s.leavesBuilder.pq, ∃ (k : Nat) (hk : k < (positives s.freqTable).length),
      e = ⟨(positives s.freqTable)[k].2.toNat, k, ⟨k, by omega⟩⟩ := by
    intro e hme
    obtain ⟨k, hk, rfl⟩ := List.getElem_of_mem hme
    exact ⟨k, by omega, a8 k hk (by omega)⟩
  let f : NodeIx → HTree := fun k => .leaf (s.leavesBuilder.store.node k).sym
  have hf : s.leavesBuilder.Forest f := by
    constructor
    · intro e hme
      obtain ⟨k, hk, rfl⟩ := hmem e hme
      simp only [f, NodeStore.holds, a5 k hk, and_self]
    · have hflat : (s.leavesBuilder.pq.flatMap fun e => s.leavesBuilder.store.indices e.node (f e.node)) =
          s.leavesBuilder.pq.map (·.node) := by
        simp only [f, NodeStore.indices]
        exact List.map_eq_flatMap.symm
      rw [hflat, hnodes]
      refine ⟨?_, by simp [a1], ?_⟩
      · rw [List.nodup_ofFn]
        intro i j hij
        simpa [Fin.ext_iff] using hij
      · intro i hi
        obtain ⟨k, rfl⟩ := (List.mem_ofFn' _ _).1 hi
        simp only [a1]
        exact k.isLt
    · intro e hme
      obtain ⟨k, hk, rfl⟩ := hmem e hme
      simp only [a5 k hk]
      apply BitVec.eq_of_toNat_eq
      simp
  obtain ⟨g, e, m1, m2, m3, m4, m5, m6, m7, m8⟩ := mergeAll_spec (s.leavesBuilder.pq.length - 1) hf (by omega) (by omega)
  have hfin : ∀ b : Builder, b.pq = [e] → b.finish = ⟨{ b.store with root := e.node }, [], b.seq⟩ := by
    intro b hb
    have : b.removeMin = some (e, { b with pq := [] }) := by simp [Builder.removeMin, hb, least]
    simp [Builder.finish, this]
  have hbt : s.buildTree.store = { (mergeAll (s.leavesBuilder.pq.length - 1) s.leavesBuilder).store with
      root := e.node } := by
    simp [State.buildTree, hfin _ m1]
  have hbn : ∀ k, s.buildTree.store.node k =
      (mergeAll (s.leavesBuilder.pq.length - 1) s.leavesBuilder).store.node k := by
    intro k; rw [hbt]; rfl
  have hbc : s.buildTree.store.count.val = s.leavesBuilder.store.count.val + (s.leavesBuilder.pq.length - 1) := by
    rw [hbt]; exact m3
  have hroot : e.node.val + 2 = 2 * s.leafCount ∧ (g e.node).decodable = true := by
    by_cases hn : s.leavesBuilder.pq.length - 1 = 0
    · obtain ⟨q1, q2⟩ := m7 hn
      have h1 : (positives s.freqTable).length = 1 := by omega
      have hk : e = s.leavesBuilder.pq[0]'(by omega) := by simp [q1]
      rw [a8 0 (by omega) (by omega)] at hk
      subst hk
      refine ⟨by simp only; omega, ?_⟩
      rw [q2]
      have hl := positives_last s
      simp only [h1, Nat.sub_self] at hl
      simp only [f, HTree.decodable, a5 0 hpos, hl, beq_self_eq_true]
    · obtain ⟨q1, l, r, q2⟩ := m8 (by omega)
      refine ⟨by omega, ?_⟩
      rw [q2]
      rfl
  have hcomplete : s.buildTree.store.complete (g e.node) := by
    have hc := NodeStore.tree_congr (st := (mergeAll (s.leavesBuilder.pq.length - 1) s.leavesBuilder).store)
      (st' := s.buildTree.store) (i := e.node) (t := g e.node) (fun k _ => hbn k)
    have hr : s.buildTree.store.root = e.node := by rw [hbt]
    refine NodeStore.complete_of_inUse ?_ ?_
    · rw [hr]; exact hc.2 (m2.holds e (by rw [m1]; simp))
    · rw [hr, hc.1]
      have := m2.used
      rw [m1] at this
      simp only [List.flatMap_cons, List.flatMap_nil, List.append_nil] at this
      rw [NodeStore.inUse, hbt]
      exact this
  refine ⟨by simp [State.buildTree, hfin _ m1], by omega, by rw [hbt]; exact hroot.1, fun k hk => ?_, fun j hj => ?_,
    g e.node, hcomplete, hroot.2, ?_⟩
  · rw [hbn, m5 _ (by simp only; omega), a5 k hk]
  · obtain ⟨l, r, q1, q2, q3⟩ := m6 j (by omega)
    refine ⟨l, r, by omega, by omega, ?_⟩
    rw [hbn, hbn, hbn, ← q3]
    congr 2
    omega
  · have h1 := (g e.node).size_eq
    have h2 := hcomplete.2.2.1
    omega

/-- Every node that `n` merges make was made of the two nodes that come first (rules R110, R112). -/
theorem mergeAll_ordered (n : Nat) {b : Builder} (ho : b.Ordered) (hl : b.pq.length = n + 1)
    (hc : b.store.count.val + n ≤ 513) :
    (∀ k : NodeIx, k.val < b.store.count.val → (mergeAll n b).store.node k = b.store.node k) ∧
      ∀ i : NodeIx, b.store.count.val ≤ i.val → i.val < b.store.count.val + n → (mergeAll n b).store.MergedAt i ∧
        ((mergeAll n b).store.node i).nfreq.toNat ≤ (b.pq.map (·.key)).sum := by
  induction n generalizing b with
  | zero => exact ⟨fun _ _ => rfl, fun i h1 h2 => absurd h2 (by omega)⟩
  | succ n ih =>
    have hc' : b.store.count.val < 513 := by omega
    obtain ⟨m1, m2, m3, m4, m6, m7, m5⟩ := merge_ordered ho (by omega) hc'
    obtain ⟨i1, i2⟩ := ih m1 (by omega) (by omega)
    refine ⟨fun k hk => ?_, fun i h1 h2 => ?_⟩
    · rw [mergeAll, i1 k (by omega), m5 k hk]
    · rw [mergeAll]
      by_cases hi : i.val = b.store.count.val
      · have hie : i = ⟨b.store.count.val, hc'⟩ := Fin.ext hi
        subst hie
        exact ⟨mergedAt_congr (fun k hk => i1 k (by simp only at hk; omega)) m2, by
          rw [i1 _ (by simp only; omega)]; exact m7⟩
      · rw [← m6]
        exact i2 i (by omega) (by omega)

/-- The queue is in order once the leaves are inserted into a cleared store (rules R110, R111, R114). -/
theorem leavesBuilder_ordered (s : State) (h : s.store = NodeStore.empty) :
    s.leavesBuilder.Ordered ∧ s.leavesBuilder.pq.length = s.leafCount ∧
      s.leavesBuilder.store.count.val = s.leafCount ∧
      s.leavesBuilder.pq.map (·.key) = (positives s.freqTable).map fun e => e.2.toNat := by
  have hL := leafCount_positives s
  have hle := positives_length_le s
  have he : s.store.count.val = 0 := by rw [h]; rfl
  obtain ⟨a1, a2, a3, a4, a5, new, a6, a7, a8⟩ := addLeaves_spec s.freqTable ⟨s.store, [], 0⟩ (by simp only [he]; omega)
  simp only [he, Nat.zero_add, List.nil_append] at a1 a2 a3 a4 a5 a6 a8
  have hb : addLeaves s.freqTable ⟨s.store, [], 0⟩ = s.leavesBuilder := rfl
  rw [hb] at a1 a2 a3 a4 a5 a6
  subst a6
  have hnodes : s.leavesBuilder.pq.map (·.node) = List.ofFn fun k : Fin (positives s.freqTable).length =>
      (⟨k.val, by omega⟩ : NodeIx) := by
    apply List.ext_getElem
    · simp [a7]
    · intro k h1 h2
      simp only [List.getElem_map, List.getElem_ofFn]
      rw [a8 k (by simpa using h1) (by simpa using h2)]
  have hmem : ∀ e ∈ s.leavesBuilder.pq, ∃ (k : Nat) (hk : k < (positives s.freqTable).length),
      e = ⟨(positives s.freqTable)[k].2.toNat, k, ⟨k, by omega⟩⟩ := by
    intro e hme
    obtain ⟨k, hk, rfl⟩ := List.getElem_of_mem hme
    exact ⟨k, by omega, a8 k hk (by omega)⟩
  have hleaf : ∀ k : NodeIx, k.val < s.leavesBuilder.store.count.val → (s.leavesBuilder.store.node k).leaf = true := by
    intro k hk
    rw [a1] at hk
    have := a5 k.val hk
    rw [show (⟨k.val, by omega⟩ : NodeIx) = k from rfl] at this
    rw [this]
  refine ⟨?_, by omega, by omega, List.ext_getElem (by simp [a7]) fun k h1 h2 => by
    simp only [List.getElem_map]
    rw [a8 k (by simpa using h1) (by simpa using h2)]⟩
  constructor
  · rw [hnodes, List.nodup_ofFn]
    intro i j hij
    simpa [Fin.ext_iff] using hij
  · intro e hme
    obtain ⟨k, hk, rfl⟩ := hmem e hme
    rfl
  · rw [a3, a1]
  · intro e hme
    obtain ⟨k, hk, rfl⟩ := hmem e hme
    simp only [a5 k hk]
    rw [BitVec.toNat_setWidth, Nat.mod_eq_of_lt (Nat.lt_of_lt_of_le (BitVec.isLt _) (by norm_num))]
  · have : ∀ v ∈ s.leavesBuilder.pq.map (·.key), v ≤ 2 ^ 32 := by
      intro v hv
      obtain ⟨e, hme, rfl⟩ := List.mem_map.1 hv
      obtain ⟨k, hk, rfl⟩ := hmem e hme
      exact Nat.le_of_lt (BitVec.isLt _)
    have := List.sum_le_card_nsmul _ _ this
    simp only [List.length_map, smul_eq_mul] at this
    omega
  · intro k hk hl
    rw [hleaf k hk] at hl
    exact absurd hl (by simp)
  · intro j
    rw [hnodes, List.mem_ofFn', a1]
    constructor
    · rintro ⟨k, rfl⟩
      exact ⟨k.isLt, fun k' hk' hl => absurd (hleaf k' (by omega)) (by simp [hl])⟩
    · rintro ⟨hj, -⟩
      exact ⟨⟨j.val, hj⟩, rfl⟩

/-- Every internal node of the tree that `BuildTree` leaves in a cleared store was made of the two nodes that came first
(rules R110, R112, R115). -/
theorem buildTree_merges (s : State) (h : s.store = NodeStore.empty) (i : NodeIx) (h1 : s.leafCount ≤ i.val)
    (h2 : i.val < s.buildTree.store.count.val) : s.buildTree.store.MergedAt i ∧
      (s.buildTree.store.node i).nfreq.toNat ≤ ((positives s.freqTable).map fun e => e.2.toNat).sum := by
  obtain ⟨ho, hl, hc, hk⟩ := leavesBuilder_ordered s h
  have hpos := leafCount_pos s
  have hle := leafCount_le s
  obtain ⟨b1, b2, -⟩ := buildTree_spec s h
  obtain ⟨m1, m2⟩ := mergeAll_ordered (s.leavesBuilder.pq.length - 1) ho (by omega) (by omega)
  have hs : ∀ b : Builder, b.finish.store.nodes = b.store.nodes := by
    intro b
    unfold Builder.finish
    rcases removeMin_cases b with ⟨-, hr⟩ | ⟨e, rest, hr, -, -⟩ <;> rw [hr]
  have hn : ∀ k, s.buildTree.store.node k = (mergeAll (s.leavesBuilder.pq.length - 1) s.leavesBuilder).store.node k := by
    intro k
    show (s.buildTree.store.nodes)[k.val] = _
    rw [show s.buildTree.store = ((mergeAll (s.leavesBuilder.pq.length - 1) s.leavesBuilder).finish).store from rfl]
    simp only [hs]
    rfl
  obtain ⟨q1, q2⟩ := m2 i (by omega) (by omega)
  exact ⟨mergedAt_congr (fun k _ => hn k) q1, by rw [hn, ← hk]; exact q2⟩

end Sys2Proof.Machine
end

