-- ==== Sys2Proof/Laws/Codec.lean ====
section
/-! SUPPORT. What the loops of the commands do over a whole run of tokens or bits: counting, encoding, reading headers,
rebuilding a transmitted tree, decoding. -/

namespace Sys2Proof.Machine

/-! ## Reading at a place -/

/-- Only the reader and IN matter to what a stream carries. -/
theorem carries_congr {s s' : State} {bits : Bits} {bs : List Byte} {rest : List InToken} (h : s.Carries bits bs rest)
    (hr : s'.reader = s.reader) (hq : s'.inq = s.inq) : s'.Carries bits bs rest :=
  ⟨by rw [hr]; exact h.live, by rw [hr]; exact h.buf, by rw [hq]; exact h.tokens, by rw [hr]; exact h.first,
    by rw [hr]; exact h.rbits⟩

theorem carries_take {s : State} {as bs : Bits} {ys : List Byte} {rest : List InToken} (h : s.Carries (as ++ bs) ys rest) :
    s.Carries as ys rest :=
  ⟨h.live, h.buf, h.tokens, (List.prefix_append _ _).trans h.first, by have := h.rbits; simp at this; omega⟩

/-- A 32-bit field is read as the number it was written from (45_header.md rule R130). -/
theorem readBits_field {s : State} {pre post : Bits} {n v : Nat} {bs : List Byte} {rest : List InToken}
    (h : s.Carries (pre ++ binN n v ++ post) bs rest) (hv : v < 2 ^ n) :
    (s.afterBits bs rest pre.length).readBits n = .got v (s.afterBits bs rest (pre.length + n)) := by
  have := readBits_at h
  rwa [binN_length, valueOf_binN, Nat.mod_eq_of_lt hv] at this

/-! ## Counting -/

/-- The counting loop over a run of bytes none of whose counts gets full (42_frequency.md rule R106). -/
theorem countLoop_bytes (bs : List Byte) (rest : List InToken) (n : Nat) (s : State) (hq : s.inq = inBytes bs ++ rest)
    (h : ∀ b : Byte, s.freq[b.toNat].toNat + bs.count b < 2 ^ 32) :
    ∃ f : Vector Word 256, (∀ b : Byte, f[b.toNat] = BitVec.ofNat 32 (s.freq[b.toNat].toNat + bs.count b)) ∧
      countLoop (inBytes bs ++ rest) n s = countLoop rest (n + bs.length) { s with freq := f, inq := rest } := by
  induction bs generalizing n s with
  | nil =>
    refine ⟨s.freq, fun b => by simp, ?_⟩
    have hq : s.inq = rest := hq
    subst hq
    rfl
  | cons b bs ih =>
    have hb := h b
    simp only [List.count_cons_self] at hb
    have hne : s.freq[b.toNat] ≠ 0xFFFFFFFF#32 := fun hh => by rw [hh] at hb; simp at hb; omega
    have hset : ∀ c : Byte, (s.countByte b (inBytes bs ++ rest)).freq[c.toNat] =
        if b = c then s.freq[c.toNat] + 1#32 else s.freq[c.toNat] := by
      intro c
      have := freqAt_countByte s b c (inBytes bs ++ rest)
      rwa [freqAt_byte, freqAt_byte] at this
    have hsum : ∀ c : Byte, (s.countByte b (inBytes bs ++ rest)).freq[c.toNat].toNat + bs.count c =
        s.freq[c.toNat].toNat + (b :: bs).count c := by
      intro c
      rw [hset c]
      by_cases hc : b = c
      · subst hc
        rw [if_pos rfl, BitVec.toNat_add, List.count_cons_self, show (1#32).toNat = 1 from rfl]
        omega
      · rw [if_neg hc, List.count_cons_of_ne hc]
    obtain ⟨f, hf, he⟩ := ih (n + 1) (s.countByte b (inBytes bs ++ rest)) rfl (fun c => by rw [hsum c]; exact h c)
    refine ⟨f, fun c => by rw [hf c, hsum c], ?_⟩
    have hstep : countLoop (inBytes (b :: bs) ++ rest) n s =
        countLoop (inBytes bs ++ rest) (n + 1) (s.countByte b (inBytes bs ++ rest)) := by
      simp [inBytes, countLoop, hne]
    rw [hstep, he, List.length_cons, show n + 1 + bs.length = n + (bs.length + 1) by omega]
    rfl

/-- Counting into cleared tables (rule R106). -/
theorem countLoop_tally (s : State) (bs : List Byte) (rest : List InToken) (hc : ∀ b : Byte, bs.count b < 2 ^ 32)
    (hf : s.freq = Vector.replicate 256 0#32) (hq : s.inq = inBytes bs ++ rest) :
    countLoop s.inq 0 s = countLoop rest bs.length { s with freq := countsOf bs, inq := rest } := by
  have h0 : ∀ b : Byte, s.freq[b.toNat] = 0#32 := fun b => by simp [hf]
  obtain ⟨f, h1, h2⟩ := countLoop_bytes bs rest 0 s hq (fun b => by rw [h0 b]; simpa using hc b)
  have hfe : f = countsOf bs := by
    apply Vector.ext
    intro i hi
    have := h1 (BitVec.ofNat 8 i)
    simp only [BitVec.toNat_ofNat, Nat.mod_eq_of_lt hi] at this
    rw [this, countsOf, Vector.getElem_ofFn]
    simp [hf]
  rw [hq, h2, hfe, Nat.zero_add]

/-! ## Encoding -/

/-- The codes of a run of bytes (46_compressor.md rule R145). -/
def State.codesOf (s : State) (bs : List Byte) : Bits := bs.flatMap fun b => (s.codeAt (symbolOfByte b)).bits

/-- The encoding loop over a run of bytes that all have a code (rule R145). -/
theorem encodeLoop_bytes (bs : List Byte) (rest : List InToken) (s : State) (hq : s.inq = inBytes bs ++ rest)
    (hv : ∀ b ∈ bs, (s.codeAt (symbolOfByte b)).valid = true) (hw : s.CanWrite (s.codesOf bs)) :
    encodeLoop (inBytes bs ++ rest) s = encodeLoop rest ({ s with inq := rest }.written (s.codesOf bs)) := by
  induction bs generalizing s with
  | nil =>
    have hq : s.inq = rest := hq
    subst hq
    have := written_nil hw.buf
    exact congrArg (encodeLoop s.inq) this.symm
  | cons b bs ih =>
    have hcons : s.codesOf (b :: bs) = (s.codeAt (symbolOfByte b)).bits ++ s.codesOf bs := rfl
    rw [hcons] at hw
    obtain ⟨w1, w2, w3⟩ := canWrite_append hw
    have hw1 : ({ s with inq := inBytes bs ++ rest } : State).CanWrite (s.codeAt (symbolOfByte b)).bits :=
      ⟨w1.buf, w1.wbits, w1.accepts⟩
    have hstep : encodeLoop (inBytes (b :: bs) ++ rest) s =
        encodeLoop (inBytes bs ++ rest)
          ({ s with inq := inBytes bs ++ rest }.written (s.codeAt (symbolOfByte b)).bits) := by
      rw [show inBytes (b :: bs) ++ rest = .byte b :: (inBytes bs ++ rest) from rfl, encodeLoop]
      simp only [hv b (by simp), if_true]
      rw [emit_canWrite hw1, Run.andThen_done]
    have hw2 : (({ s with inq := inBytes bs ++ rest } : State).written (s.codeAt (symbolOfByte b)).bits).CanWrite
        (s.codesOf bs) := ⟨w2.buf, w2.wbits, w2.accepts⟩
    rw [hstep, ih (({ s with inq := inBytes bs ++ rest } : State).written (s.codeAt (symbolOfByte b)).bits) rfl
      (fun c hc => hv c (by simp [hc])) hw2]
    congr 1
    have : ({ s with inq := rest } : State).written (s.codesOf (b :: bs)) =
        ({ (s.written (s.codeAt (symbolOfByte b)).bits).written (s.codesOf bs) with inq := rest } : State) := by
      rw [hcons, w3]
      rfl
    rw [this]
    rfl

/-! ## Headers -/

/-- The count fields of a CountsFormat header (45_header.md rule R135). -/
theorem countFields_list (fs done : List Word) (hl : done.length + fs.length = 256) {s : State} {pre post : Bits}
    {bs : List Byte} {rest : List InToken} (f : Vector Word 256)
    (h : s.Carries (pre ++ (fs.flatMap fun c => binN 32 c.toNat) ++ post) bs rest) (hf : f.toList.take done.length = done) :
    countFields fs.length ({ s with freq := f }.afterBits bs rest pre.length) =
      .done ({ s with freq := ⟨(done ++ fs).toArray, by simpa using hl⟩ }.afterBits bs rest
        (pre.length + 32 * fs.length)).buildTree := by
  induction fs generalizing done pre f with
  | nil =>
    have hd : done.length = 256 := by simpa using hl
    have : f = ⟨(done ++ []).toArray, by simpa using hl⟩ := by
      apply Vector.ext
      intro i hi
      have hi' : i < done.length := by omega
      simp only [List.append_nil, Vector.getElem_mk, List.getElem_toArray]
      have h1 : done[i] = (f.toList.take done.length)[i]'(by simp; omega) := by simp only [hf]
      rw [h1]
      simp
    simp only [List.length_nil, countFields, Nat.mul_zero, Nat.add_zero]
    rw [this]
  | cons c fs ih =>
    simp only [List.length_cons] at hl
    have h1 : s.Carries (pre ++ binN 32 c.toNat ++ ((fs.flatMap fun c => binN 32 c.toNat) ++ post)) bs rest := by
      simpa [List.append_assoc] using h
    have h2 : s.Carries ((pre ++ binN 32 c.toNat) ++ (fs.flatMap fun c => binN 32 c.toNat) ++ post) bs rest := by
      simpa [List.append_assoc] using h
    have hr := readBits_field (s := { s with freq := f }) (carries_congr h1 rfl rfl) c.isLt
    have hlen : 256 - (fs.length + 1) = done.length := by omega
    simp only [List.length_cons, countFields, Config.intWidth, hr, ReadResult.andThen]
    have hset : State.setCount ({ s with freq := f }.afterBits bs rest (pre.length + 32)) (fs.length + 1) c.toNat =
        { s with freq := f.set done.length c (by omega) }.afterBits bs rest (pre ++ binN 32 c.toNat).length := by
      simp only [State.setCount, State.setFreq, hlen, State.afterBits, List.length_append, binN_length]
      have : (BitVec.ofNat 8 done.length).toNat = done.length := by
        rw [BitVec.toNat_ofNat, Nat.mod_eq_of_lt (by omega)]
      simp only [this, BitVec.ofNat_toNat, BitVec.setWidth_eq]
    rw [hset, ih (done ++ [c]) (by simp; omega) _ h2]
    · simp [Nat.add_assoc, Nat.mul_add, Nat.add_comm]
    · rw [Vector.toList_set, List.length_append, List.length_singleton]
      rw [List.take_set]
      apply List.ext_getElem
      · simp; omega
      · intro i h1 h2
        simp only [List.getElem_set, List.getElem_take]
        by_cases hi : i < done.length
        · rw [if_neg (by omega), List.getElem_append_left hi]
          have h3 : done[i] = (f.toList.take done.length)[i]'(by simp; omega) := by simp only [hf]
          rw [h3]
          simp
        · have : i = done.length := by simp at h2; omega
          subst this
          simp

/-! ## Transmitted trees -/

/-- A deserialization's state: its part of the store, its pending nodes and its budget (43_tree.md rule R118). -/
def State.rebuilding (s : State) (st : NodeStore) (fs : List Frame) (n : Nat) : State :=
  { s with store := st, stack := fs, budget := n }

/-- What the nodes of a transmitted subtree are in the store: a new run of indices in pre-order, NFREQ 0, the nodes
before them untouched and the nodes after them clear (43_tree.md rule R118). -/
structure Rebuilt (st st' : NodeStore) (i : NodeIx) (t : HTree) : Prop where
  count  : st'.count.val = st.count.val + t.size
  root   : st'.root = st.root
  before : ∀ k : NodeIx, k.val < st.count.val → st'.node k = st.node k
  after  : ∀ k : NodeIx, st'.count.val ≤ k.val → st'.node k = Node.zero
  nfreq  : ∀ k : NodeIx, st.count.val ≤ k.val → (st'.node k).nfreq = 0#64
  holds  : st'.holds i t
  order  : (st'.indices i t).map (·.val) = List.range' st.count.val t.size

/-- The pre-order walk over the serialized bits of a tree builds that tree (rules R116, R118). -/
theorem treeLoop_bits (t : HTree) {st : NodeStore} (hcap : st.count.val + t.size ≤ 513)
    (hz : ∀ k : NodeIx, st.count.val ≤ k.val → st.node k = Node.zero) :
    ∃ (i : NodeIx) (st' : NodeStore), i.val = st.count.val ∧ Rebuilt st st' i t ∧
      ∀ {s : State} {pre post : Bits} {bs : List Byte} {rest : List InToken} {fs : List Frame} {n room : Nat},
        s.Carries (pre ++ t.bits ++ post) bs rest → st.count.val + room = 513 → t.bits.length ≤ n →
        treeLoop room ((s.rebuilding st fs n).afterBits bs rest pre.length) =
          nodeDone i ((s.rebuilding st' fs (n - t.bits.length)).afterBits bs rest (pre.length + t.bits.length))
            (treeLoop (room - t.size)) := by
  induction t generalizing st with
  | leaf y =>
    simp only [HTree.size] at hcap
    have hc : st.count.val < 513 := by omega
    set i : NodeIx := ⟨st.count.val, hc⟩ with hi
    have hzi : st.node i = Node.zero := hz i (Nat.le_refl _)
    have hlen : (HTree.leaf y).bits.length = 10 := by simp [HTree.bits]
    rw [hlen]
    set st₁ : NodeStore := { st with count := ⟨st.count.val + 1, Nat.succ_lt_succ hc⟩ } with hst₁
    have hn₁ : ∀ k, st₁.node k = st.node k := fun _ => rfl
    set st₂ := st₁.put i Node.zero with hst₂
    set st₃ := st₂.put i ⟨true, y, 0#64, 0, 0⟩ with hst₃
    refine ⟨i, st₃, rfl, ?_, ?_⟩
    · constructor
      · rfl
      · rfl
      · intro k hk
        have : i ≠ k := fun he => by rw [← he] at hk; simp [hi] at hk
        rw [hst₃, NodeStore.put_node_ne _ _ this, hst₂, NodeStore.put_node_ne _ _ this, hn₁]
      · intro k hk
        have hk' : st.count.val + 1 ≤ k.val := hk
        have : i ≠ k := fun he => by rw [← he] at hk'; simp [hi] at hk'
        rw [hst₃, NodeStore.put_node_ne _ _ this, hst₂, NodeStore.put_node_ne _ _ this, hn₁]
        exact hz k (by omega)
      · intro k hk
        rw [hst₃, NodeStore.put_node]
        split
        · rfl
        · rename_i hne
          rw [hst₂, NodeStore.put_node_ne _ _ hne, hn₁, hz k hk]
          rfl
      · simp [NodeStore.holds, hst₃]
      · simp [NodeStore.indices, HTree.size, hi]
    · intro s pre post bs rest fs n room h hroom hn
      obtain ⟨room, rfl⟩ : ∃ k, room = k + 1 := ⟨room - 1, by omega⟩
      have h1 : (s.rebuilding st fs n).Carries (pre ++ [true] ++ (binN 9 y.val ++ post)) bs rest :=
        carries_congr (s := s) (by simpa [HTree.bits, List.append_assoc] using h) rfl rfl
      have h2 : (s.rebuilding st₂ fs (n - 1)).Carries ((pre ++ [true]) ++ binN 9 y.val ++ post) bs rest :=
        carries_congr (s := s) (by simpa [HTree.bits, List.append_assoc] using h) rfl rfl
      have r1 := readBits_at h1
      have r2 := readBits_field h2 (Nat.lt_of_lt_of_le y.isLt (by norm_num))
      rw [List.length_append, List.length_singleton] at r2
      have hnz : ((s.rebuilding st fs n).afterBits bs rest pre.length).budget ≠ 0 := by
        simp [State.afterBits, State.rebuilding]; omega
      have ha : st.alloc = some (i, st₁) := by simp [NodeStore.alloc, hc, hi, hst₁]
      have hput : st₁.put i { st₁.node i with nfreq := 0#64 } = st₂ := by rw [hn₁, hzi]; rfl
      have hput' : st₂.put i { st₂.node i with leaf := true, sym := y } = st₃ := by
        rw [hst₃, hst₂, NodeStore.put_node_self]; rfl
      unfold treeLoop
      rw [if_neg hnz]
      simp only [List.length_singleton] at r1
      rw [r1]
      simp only [ReadResult.andThen]
      have e1 : ((s.rebuilding st fs n).afterBits bs rest (pre.length + 1)).spend 1 =
          (s.rebuilding st fs (n - 1)).afterBits bs rest (pre.length + 1) := rfl
      rw [e1]
      have e2 : ((s.rebuilding st fs (n - 1)).afterBits bs rest (pre.length + 1)).store.alloc = some (i, st₁) := ha
      rw [e2]
      have e3 : (valueOf [true] == 1) = true := by decide
      simp only [e3, newNode, if_true]
      have e4 : ({ (s.rebuilding st fs (n - 1)).afterBits bs rest (pre.length + 1) with
          store := st₁.put i { st₁.node i with nfreq := 0#64 } } : State) =
          (s.rebuilding st₂ fs (n - 1)).afterBits bs rest (pre.length + 1) := by rw [hput]; rfl
      rw [e4]
      have hb : ¬(((s.rebuilding st fs (n - 1)).afterBits bs rest (pre.length + 1)).budget < Config.symWidth) := by
        simp [State.afterBits, State.rebuilding, Config.symWidth]; omega
      rw [if_neg hb, leafSymbol, Config.symWidth, r2]
      simp only [ReadResult.andThen, y.isLt, dite_true]
      have e5 : ({ ((s.rebuilding st₂ fs (n - 1)).afterBits bs rest (pre.length + 1 + 9)).spend 9 with
          store := st₂.put i { st₂.node i with leaf := true, sym := y } } : State) =
          (s.rebuilding st₃ fs (n - 10)).afterBits bs rest (pre.length + 10) := by rw [hput']; rfl
      exact congrArg (fun x => nodeDone i x (treeLoop room)) e5
  | node l r ihl ihr =>
    have hsize : (HTree.node l r).size = l.size + r.size + 1 := rfl
    rw [hsize] at hcap ⊢
    have hc : st.count.val < 513 := by omega
    set i : NodeIx := ⟨st.count.val, hc⟩ with hi
    have hzi : st.node i = Node.zero := hz i (Nat.le_refl _)
    have hlen : (HTree.node l r).bits.length = 1 + l.bits.length + r.bits.length := by simp [HTree.bits]; omega
    rw [hlen]
    set st₁ : NodeStore := { st with count := ⟨st.count.val + 1, Nat.succ_lt_succ hc⟩ } with hst₁
    have hn₁ : ∀ k, st₁.node k = st.node k := fun _ => rfl
    set st₂ := st₁.put i Node.zero with hst₂
    have hc₂ : st₂.count.val = st.count.val + 1 := rfl
    have hz₂ : ∀ k : NodeIx, st₂.count.val ≤ k.val → st₂.node k = Node.zero := by
      intro k hk
      have : i ≠ k := fun he => by rw [← he, hc₂] at hk; simp [hi] at hk
      rw [hst₂, NodeStore.put_node_ne _ _ this, hn₁]
      exact hz k (by omega)
    obtain ⟨j, st₃, hj, rl, hel⟩ := ihl (st := st₂) (by omega) hz₂
    set st₄ := st₃.put i { st₃.node i with left := j } with hst₄
    have hc₄ : st₄.count.val = st.count.val + 1 + l.size := rl.count
    have hz₄ : ∀ k : NodeIx, st₄.count.val ≤ k.val → st₄.node k = Node.zero := by
      intro k hk
      have : i ≠ k := fun he => by rw [← he, hc₄] at hk; simp [hi] at hk; omega
      rw [hst₄, NodeStore.put_node_ne _ _ this]
      exact rl.after k hk
    obtain ⟨m, st₅, hm, rr, her⟩ := ihr (st := st₄) (by omega) hz₄
    have hi3 : st₃.node i = Node.zero := by
      rw [rl.before i (by rw [hc₂]; simp [hi]), hst₂, NodeStore.put_node_self]
    have hi5 : st₅.node i = ⟨false, 0, 0#64, j, 0⟩ := by
      rw [rr.before i (by rw [hc₄]; simp [hi]; omega), hst₄, NodeStore.put_node_self, hi3]; rfl
    set st₆ := st₅.put i { st₅.node i with right := m } with hst₆
    have hi6 : st₆.node i = ⟨false, 0, 0#64, j, m⟩ := by rw [hst₆, NodeStore.put_node_self, hi5]
    have hne6 : ∀ k : NodeIx, i ≠ k → st₆.node k = st₅.node k := fun k hk => NodeStore.put_node_ne _ _ hk
    have hcl : ∀ k ∈ st₃.indices j l, st.count.val + 1 ≤ k.val ∧ k.val < st.count.val + 1 + l.size := by
      intro k hk
      have : k.val ∈ (st₃.indices j l).map (·.val) := List.mem_map_of_mem hk
      rw [rl.order, hc₂] at this
      simpa [List.mem_range'_1] using this
    have hcr : ∀ k ∈ st₅.indices m r, st.count.val + 1 ≤ k.val := by
      intro k hk
      have : k.val ∈ (st₅.indices m r).map (·.val) := List.mem_map_of_mem hk
      rw [rr.order, hc₄] at this
      simp [List.mem_range'_1] at this
      omega
    have hnl : ∀ k ∈ st₃.indices j l, st₆.node k = st₃.node k := by
      intro k hk
      have hkb := hcl k hk
      have : i ≠ k := fun he => by rw [← he] at hkb; simp [hi] at hkb
      rw [hne6 k this, rr.before k (by rw [hc₄]; omega), hst₄, NodeStore.put_node_ne _ _ this]
    have hnr : ∀ k ∈ st₅.indices m r, st₆.node k = st₅.node k := by
      intro k hk
      have hkb := hcr k hk
      have : i ≠ k := fun he => by rw [← he] at hkb; simp [hi] at hkb
      exact hne6 k this
    have cl := NodeStore.tree_congr hnl
    have cr := NodeStore.tree_congr hnr
    refine ⟨i, st₆, rfl, ?_, ?_⟩
    · constructor
      · show st₅.count.val = _
        rw [rr.count, hc₄]; simp [HTree.size]; omega
      · show st₅.root = _
        rw [rr.root]; show st₃.root = _; rw [rl.root]; rfl
      · intro k hk
        have : i ≠ k := fun he => by rw [← he] at hk; simp [hi] at hk
        rw [hne6 k this, rr.before k (by rw [hc₄]; omega), hst₄, NodeStore.put_node_ne _ _ this,
          rl.before k (by rw [hc₂]; omega), hst₂, NodeStore.put_node_ne _ _ this, hn₁]
      · intro k hk
        have hk' : st₅.count.val ≤ k.val := hk
        have : i ≠ k := fun he => by rw [← he, rr.count, hc₄] at hk'; simp [hi] at hk'; omega
        rw [hne6 k this]
        exact rr.after k hk'
      · intro k hk
        by_cases hik : i = k
        · rw [← hik, hi6]
        · rw [hne6 k hik]
          by_cases hk4 : st₄.count.val ≤ k.val
          · exact rr.nfreq k hk4
          · rw [rr.before k (by omega), hst₄, NodeStore.put_node_ne _ _ hik]
            have : st.count.val ≠ k.val := fun he => hik (Fin.ext he)
            exact rl.nfreq k (by rw [hc₂]; omega)
      · simp only [NodeStore.holds, hi6]
        exact ⟨trivial, cl.2 rl.holds, cr.2 rr.holds⟩
      · simp only [NodeStore.indices, hi6, cl.1, cr.1, List.map_cons, List.map_append, rl.order, rr.order, hc₂, hc₄, hsize,
          List.range'_succ, ← List.range'_append_1]
        rfl
    · intro s pre post bs rest fs n room h hroom hn
      obtain ⟨room, rfl⟩ : ∃ k, room = k + 1 := ⟨room - 1, by omega⟩
      have hl : s.Carries ((pre ++ [false]) ++ l.bits ++ (r.bits ++ post)) bs rest := by
        simpa [HTree.bits, List.append_assoc] using h
      have hr : s.Carries ((pre ++ [false] ++ l.bits) ++ r.bits ++ post) bs rest := by
        simpa [HTree.bits, List.append_assoc] using h
      have h1 : (s.rebuilding st fs n).Carries (pre ++ [false] ++ (l.bits ++ r.bits ++ post)) bs rest :=
        carries_congr (s := s) (by simpa [HTree.bits, List.append_assoc] using h) rfl rfl
      have r1 := readBits_at h1
      have hnz : ((s.rebuilding st fs n).afterBits bs rest pre.length).budget ≠ 0 := by
        simp [State.afterBits, State.rebuilding]; omega
      have ha : st.alloc = some (i, st₁) := by simp [NodeStore.alloc, hc, hi, hst₁]
      have hput : st₁.put i { st₁.node i with nfreq := 0#64, leaf := false } = st₂ := by rw [hn₁, hzi]; rfl
      rw [treeLoop, if_neg hnz]
      simp only [List.length_singleton] at r1
      rw [r1]
      simp only [ReadResult.andThen]
      have e1 : ((s.rebuilding st fs n).afterBits bs rest (pre.length + 1)).spend 1 =
          (s.rebuilding st fs (n - 1)).afterBits bs rest (pre.length + 1) := rfl
      rw [e1]
      have e2 : ((s.rebuilding st fs (n - 1)).afterBits bs rest (pre.length + 1)).store.alloc = some (i, st₁) := ha
      rw [e2]
      have e3 : (valueOf [false] == 1) = false := by decide
      simp only [e3, newNode, Bool.false_eq_true, if_false]
      have e4 : ({ (s.rebuilding st fs (n - 1)).afterBits bs rest (pre.length + 1) with
          store := st₁.put i { st₁.node i with nfreq := 0#64, leaf := false }
          stack := ⟨i, .left⟩ :: ((s.rebuilding st fs (n - 1)).afterBits bs rest (pre.length + 1)).stack } : State) =
          (s.rebuilding st₂ (⟨i, .left⟩ :: fs) (n - 1)).afterBits bs rest (pre ++ [false]).length := by
        rw [hput, List.length_append]; rfl
      refine (congrArg (treeLoop room) e4).trans ?_
      rw [hel hl (by omega) (by omega)]
      have e5 : ∀ next, nodeDone j ((s.rebuilding st₃ (⟨i, .left⟩ :: fs) (n - 1 - l.bits.length)).afterBits bs rest
          ((pre ++ [false]).length + l.bits.length)) next =
          next ((s.rebuilding st₄ (⟨i, .right⟩ :: fs) (n - 1 - l.bits.length)).afterBits bs rest
            (pre ++ [false] ++ l.bits).length) := by
        intro next
        rw [List.length_append (as := pre ++ [false])]
        rfl
      rw [e5, her hr (by omega) (by omega)]
      have e6 : nodeDone m ((s.rebuilding st₅ (⟨i, .right⟩ :: fs) (n - 1 - l.bits.length - r.bits.length)).afterBits bs rest
          ((pre ++ [false] ++ l.bits).length + r.bits.length)) (treeLoop (room - l.size - r.size)) =
          nodeDone i ((s.rebuilding st₆ fs (n - 1 - l.bits.length - r.bits.length)).afterBits bs rest
            ((pre ++ [false] ++ l.bits).length + r.bits.length)) (treeLoop (room - l.size - r.size)) := rfl
      rw [e6]
      have e7 : (pre ++ [false] ++ l.bits).length + r.bits.length = pre.length + (1 + l.bits.length + r.bits.length) := by
        simp; omega
      rw [e7, show n - 1 - l.bits.length - r.bits.length = n - (1 + l.bits.length + r.bits.length) by omega,
        show room + 1 - (l.size + r.size + 1) = room - l.size - r.size by omega]

/-- The declared bits a transmitted tree did not use are dropped (rule R119). -/
theorem spareLoop_bits (spare : Bits) {s : State} {pre post : Bits} {bs : List Byte} {rest : List InToken} {st : NodeStore}
    {fs : List Frame} {n : Nat} (h : s.Carries (pre ++ spare ++ post) bs rest) :
    spareLoop (spare.length + n) ((s.rebuilding st fs (spare.length + n)).afterBits bs rest pre.length) =
      spareLoop n ((s.rebuilding st fs n).afterBits bs rest (pre.length + spare.length)) := by
  induction spare generalizing pre with
  | nil => simp
  | cons b spare ih =>
    have h1 : (s.rebuilding st fs (spare.length + n + 1)).Carries (pre ++ [b] ++ (spare ++ post)) bs rest :=
      carries_congr (s := s) (by simpa [List.append_assoc] using h) rfl rfl
    have h2 : s.Carries ((pre ++ [b]) ++ spare ++ post) bs rest := by simpa [List.append_assoc] using h
    have r1 := readBits_at h1
    simp only [List.length_singleton] at r1
    rw [List.length_cons, Nat.add_right_comm, spareLoop, r1]
    simp only [ReadResult.andThen]
    have e1 : ((s.rebuilding st fs (spare.length + n + 1)).afterBits bs rest (pre.length + 1)).spend 1 =
        (s.rebuilding st fs (spare.length + n)).afterBits bs rest (pre ++ [b]).length := by
      rw [List.length_append, List.length_singleton]
      rfl
    rw [e1, ih h2, List.length_append, List.length_singleton, Nat.add_assoc, Nat.add_comm 1]

end Sys2Proof.Machine
end

