-- ==== Sys2Proof/Laws/Invariant.lean ====
section
/-! SUPPORT. The parts of the invariant: what each operation and each step of a command keeps of them. -/

namespace Sys2Proof.Machine

/-! ## What the steps left to run need -/

theorem tablesReady_mono {p p' t t' c c' : Bool} {ws : List Work} (hp : p = true → p' = true)
    (ht : t = true → t' = true) (hc : c = true → c' = true) (h : tablesReady p t c ws = true) :
    tablesReady p' t' c' ws = true := by
  induction ws generalizing p p' t t' c c' with
  | nil => rfl
  | cons w ws ih =>
    cases w <;>
      first
        | exact ih hp ht hc h
        | exact ih id id id h
        | exact ih id ht hc h
        | exact ih id id hc h
        | exact ih hp id hc h
        | exact Bool.and_eq_true_iff.2 ⟨hc (Bool.and_eq_true_iff.1 h).1, ih hp id id (Bool.and_eq_true_iff.1 h).2⟩
        | exact Bool.and_eq_true_iff.2 ⟨hc (Bool.and_eq_true_iff.1 h).1, ih id id id (Bool.and_eq_true_iff.1 h).2⟩
        | exact Bool.and_eq_true_iff.2 ⟨ht (Bool.and_eq_true_iff.1 h).1, ih hp ht hc (Bool.and_eq_true_iff.1 h).2⟩
        | exact Bool.and_eq_true_iff.2 ⟨hp (Bool.and_eq_true_iff.1 h).1, ih hp ht hc (Bool.and_eq_true_iff.1 h).2⟩
        | exact absurd h Bool.false_ne_true

/-- A list of steps the tables are ready for does not start inside a tree deserialization. -/
theorem tablesFit_of_ready {s : State} {ws : List Work} {p t c : Bool} (hp : p = true → s.planValid = true)
    (ht : t = true → s.treeValid = true) (hc : c = true → s.store = NodeStore.empty)
    (h : tablesReady p t c ws = true) : s.TablesFit ws := by
  have h' : tablesReady s.planValid s.treeValid (s.store == NodeStore.empty) ws = true :=
    tablesReady_mono hp ht (fun hh => beq_iff_eq.2 (hc hh)) h
  cases ws with
  | nil => rfl
  | cons w ws =>
    cases w <;> first | exact h' | exact absurd h' Bool.false_ne_true

/-- A list of steps the writer is ready for does not start with a byte that waits for its answer. -/
theorem writerFit_of_ready {s : State} {ws : List Work} (h : writerReady s.writer.closed ws = true) :
    s.WriterFit ws := by
  cases ws with
  | nil => rfl
  | cons w ws =>
    cases w <;> first | exact h | exact absurd h Bool.false_ne_true

/-- What a run of the step before `ws` leaves: the invariant's parts, and what the rest needs. -/
def Run.Safe (ws : List Work) : Run → Prop
  | .done s => s.Shape ∧ s.Fits ws
  | .ended s => s.Shape ∧ s.reader.buf.length < 8
  | .raised _ s => s.Shape ∧ s.reader.buf.length < 8
  | .held s left => s.Shape ∧ s.Fits (left ++ ws)
  | .stuck _ => False

theorem Run.Safe.andThen {r : Run} {later ws : List Work} {next : State → Run} (h : r.Safe (later ++ ws))
    (hn : ∀ s, r = .done s → s.Shape → s.Fits (later ++ ws) → (next s).Safe ws) : (r.andThen later next).Safe ws := by
  cases r with
  | done s => exact hn s rfl h.1 h.2
  | ended s => exact h
  | raised e s => exact h
  | held s l => simpa [Run.Safe] using h
  | stuck f => exact h

/-! ## The reader -/

theorem fill_enough {w : Nat} {ts : List InToken} {buf buf' : Bits} {left : List InToken}
    (h : fill w ts buf = .enough buf' left) (hb : buf.length < 8 ∨ buf.length < w) :
    w ≤ buf'.length ∧ (buf'.drop w).length < 8 := by
  induction ts generalizing buf with
  | nil =>
    simp only [fill] at h
    split at h
    · cases h
    · cases h; simp; omega
  | cons t ts ih =>
    simp only [fill] at h
    split at h
    · rename_i hlt
      cases t with
      | byte b =>
        simp only at h
        by_cases hw : (buf ++ bitsOfByte b).length < w
        · exact ih h (.inr hw)
        · rw [fill_of_enough _ (by omega)] at h
          cases h
          simp at hw ⊢
          omega
      | eos => cases h
      | error => cases h
    · cases h; simp; omega

theorem fill_empty {w : Nat} {ts : List InToken} {buf buf' : Bits} (h : fill w ts buf = .empty buf') :
    buf'.length < w := by
  induction ts generalizing buf with
  | nil =>
    simp only [fill] at h
    split at h
    · cases h; assumption
    · cases h
  | cons t ts ih =>
    simp only [fill] at h
    split at h
    · cases t with
      | byte b => exact ih h
      | eos => cases h
      | error => cases h
    · cases h

/-- The parts of the state a read can change do not matter to the parts of the invariant that are about the rest. -/
theorem State.Shape.reader {s : State} (h : s.Shape) (r : Reader) (q : List InToken) (d : Nat)
    (hr : r.exh = true → r.buf = []) : ({ s with reader := r, inq := q, draws := d } : State).Shape :=
  ⟨h.selectors, h.closedEmpty, h.wPend, hr, h.planTables, h.tree, h.codes, h.noCodes⟩

/-- What a read leaves of the reader's part of the invariant (41_bitstream.md rules R91 to R93). -/
theorem readBits_cases {s : State} {w : Nat} (h : s.Shape) (hb : s.reader.buf.length < 8 ∨ s.reader.buf.length < w) :
    (∃ v s', s.readBits w = .got v s' ∧ ReaderOnly s s' ∧ s'.Shape ∧ s'.reader.buf.length < 8 ∧ v < 2 ^ w) ∨
    (∃ s', s.readBits w = .sentinel s' ∧ ReaderOnly s s' ∧ s'.Shape ∧ s'.reader.buf.length < 8) ∨
    (∃ s', s.readBits w = .failed s' ∧ ReaderOnly s s' ∧ s'.Shape ∧ s'.reader.buf.length < 8) ∨
    (∃ s', s.readBits w = .waiting s' ∧ ReaderOnly s s' ∧ s'.Shape ∧ s'.reader.buf.length < w) := by
  unfold State.readBits
  split
  · rename_i hx
    refine .inr (.inl ⟨s, rfl, ReaderOnly.refl s, h, ?_⟩)
    rw [h.exhaustedEmpty hx]
    decide
  · rename_i hx
    cases hf : fill w s.inq s.reader.buf with
    | enough buf left =>
      obtain ⟨h1, h2⟩ := fill_enough hf hb
      refine .inl ⟨_, _, rfl, ⟨_, _, _, rfl⟩, h.reader _ _ _ (fun hh => absurd hh hx), h2, ?_⟩
      have := valueOf_lt (buf.take w)
      rwa [List.length_take, Nat.min_eq_left h1] at this
    | ended left => exact .inr (.inl ⟨_, rfl, ⟨_, _, _, rfl⟩, h.reader _ _ s.draws (fun _ => rfl), by simp [State.exhaust]⟩)
    | failed left =>
      exact .inr (.inr (.inl ⟨_, rfl, ⟨_, _, _, rfl⟩, h.reader _ _ s.draws (fun _ => rfl), by simp [State.exhaust]⟩))
    | empty buf =>
      exact .inr (.inr (.inr ⟨_, rfl, ⟨_, _, _, rfl⟩, h.reader _ _ s.draws (fun hh => absurd hh hx), fill_empty hf⟩))

/-- A read inside a step: given what follows a value and what a hold needs. -/
theorem readBits_safe {s : State} {w : Nat} {later ws : List Work} {onS : State → Run} {next : Nat → State → Run}
    (h : s.Shape) (hb : s.reader.buf.length < 8 ∨ s.reader.buf.length < w)
    (hs : ∀ s', ReaderOnly s s' → s'.Shape → s'.reader.buf.length < 8 → (onS s').Safe ws)
    (hw : ∀ s', ReaderOnly s s' → s'.Shape → s'.reader.buf.length < w → s'.Fits (later ++ ws))
    (hn : ∀ v s', ReaderOnly s s' → s'.Shape → s'.reader.buf.length < 8 → v < 2 ^ w → (next v s').Safe ws) :
    ((s.readBits w).andThen later onS next).Safe ws := by
  rcases readBits_cases h hb with ⟨v, s', he, h1, h2, h3, h4⟩ | ⟨s', he, h1, h2, h3⟩ | ⟨s', he, h1, h2, h3⟩ |
    ⟨s', he, h1, h2, h3⟩ <;> rw [he]
  · exact hn v s' h1 h2 h3 h4
  · exact hs s' h1 h2 h3
  · exact ⟨h2, h3⟩
  · exact ⟨h2, hw s' h1 h2 h3⟩

/-! ## Tree deserialization -/

theorem NodeStore.inUse_perm {st st' : NodeStore} {u u' : List NodeIx} (hp : u.Perm u') (hc : st'.count = st.count)
    (h : st.inUse u) : st'.inUse u' := by
  refine ⟨hp.nodup_iff.1 h.1, by rw [← hp.length_eq, h.2.1, hc], fun i hi => ?_⟩
  rw [hc]
  exact h.2.2 i (hp.mem_iff.2 hi)

/-- A tree that takes all nodes in use is complete once ROOT names its root. -/
theorem NodeStore.complete_root {st : NodeStore} {r : NodeIx} {t : HTree} (h : st.holds r t)
    (hu : st.inUse (st.indices r t)) : ({ st with root := r } : NodeStore).complete t := by
  have hc := NodeStore.tree_congr (st := st) (st' := { st with root := r }) (i := r) (t := t) (fun _ _ => rfl)
  refine NodeStore.complete_of_inUse (hc.2 h) ?_
  rw [show ({ st with root := r } : NodeStore).root = r from rfl, hc.1]
  exact hu

theorem NodeStore.pending_congr {st st' : NodeStore} {fs : List Frame} {used : List NodeIx}
    (h : ∀ k ∈ used, st'.node k = st.node k) (hp : st.pending fs used) : st'.pending fs used := by
  induction fs generalizing used with
  | nil => exact hp
  | cons fr fs ih =>
    obtain ⟨i, side⟩ := fr
    cases side with
    | left =>
      obtain ⟨us, rfl, h1, h2⟩ := hp
      refine ⟨us, rfl, ?_, ih (fun k hk => h k (List.mem_cons_of_mem _ hk)) h2⟩
      rw [h i List.mem_cons_self]
      exact h1
    | right =>
      obtain ⟨l, us, rfl, h1, h2, h3⟩ := hp
      have hi := h i List.mem_cons_self
      have ht := NodeStore.tree_congr (st := st) (st' := st') (i := (st.node i).left) (t := l)
        (fun k hk => h k (List.mem_cons_of_mem _ (List.mem_append_left _ hk)))
      refine ⟨l, us, by rw [hi, ht.1], by rw [hi]; exact h1, by rw [hi]; exact ht.2 h2, ih (fun k hk => ?_) h3⟩
      exact h k (List.mem_cons_of_mem _ (List.mem_append_right _ hk))

/-- Completing a node completes the parents that waited for it, up to one that waits for its right child or to the root
(43_tree.md rule R118). -/
theorem unwind_spec {st : NodeStore} {fs : List Frame} {used : List NodeIx} {j : NodeIx} {t : HTree}
    (hp : st.pending fs used) (hh : st.holds j t) (hu : st.inUse (st.indices j t ++ used)) :
    (∃ st' fs' used', unwind j fs st = (st', fs', none) ∧ st'.pending fs' used' ∧ st'.inUse used' ∧
      st'.count = st.count) ∨
    (∃ st' r t', unwind j fs st = (st', [], some r) ∧ st'.holds r t' ∧ st'.inUse (st'.indices r t') ∧
      st'.count = st.count) := by
  induction fs generalizing st used j t with
  | nil =>
    simp only [NodeStore.pending] at hp
    subst hp
    exact .inr ⟨st, j, t, rfl, hh, by simpa using hu, rfl⟩
  | cons fr fs ih =>
    obtain ⟨i, side⟩ := fr
    cases side with
    | left =>
      obtain ⟨us, rfl, h1, h2⟩ := hp
      have hnd := hu.1
      rw [List.nodup_append] at hnd
      obtain ⟨hd1, hd2, hd3⟩ := hnd
      have hij : i ∉ st.indices j t := fun hm => hd3 i hm i List.mem_cons_self rfl
      have hius : i ∉ us := (List.nodup_cons.1 hd2).1
      have ht := NodeStore.tree_put { st.node i with left := j } hij
      refine .inl ⟨_, _, i :: (st.indices j t ++ us), rfl, ?_, ?_, rfl⟩
      · refine ⟨t, us, by simp [ht.1], by simpa using h1, by simpa using ht.2 hh, ?_⟩
        exact NodeStore.pending_congr (fun k hk => NodeStore.put_node_ne _ _ (fun hik => hius (hik ▸ hk))) h2
      · refine NodeStore.inUse_perm ?_ rfl hu
        exact List.perm_middle
    | right =>
      obtain ⟨l, us, rfl, h1, h2, h3⟩ := hp
      have hnd := hu.1
      rw [List.nodup_append] at hnd
      obtain ⟨hd1, hd2, hd3⟩ := hnd
      have hij : i ∉ st.indices j t := fun hm => hd3 i hm i List.mem_cons_self rfl
      have hilu := (List.nodup_cons.1 hd2).1
      rw [List.mem_append, not_or] at hilu
      have ht := NodeStore.tree_put { st.node i with right := j } hij
      have hl := NodeStore.tree_put { st.node i with right := j } hilu.1
      have hpend : (st.put i { st.node i with right := j }).pending fs us :=
        NodeStore.pending_congr (fun k hk => NodeStore.put_node_ne _ _ (fun hik => hilu.2 (hik ▸ hk))) h3
      have hidx : (st.put i { st.node i with right := j }).indices i (.node l t) =
          i :: (st.indices (st.node i).left l ++ st.indices j t) := by
        simp only [NodeStore.indices, NodeStore.put_node_self, hl.1, ht.1]
      have hperm : (st.indices j t ++ i :: (st.indices (st.node i).left l ++ us)).Perm
          ((st.put i { st.node i with right := j }).indices i (.node l t) ++ us) := by
        rw [hidx]
        refine List.perm_middle.trans ?_
        rw [List.cons_append]
        refine List.Perm.cons i ?_
        rw [← List.append_assoc]
        exact List.Perm.append_right us List.perm_append_comm
      have := ih hpend (t := .node l t) (by
        simp only [NodeStore.holds, NodeStore.put_node_self]
        exact ⟨h1, hl.2 h2, ht.2 hh⟩) (NodeStore.inUse_perm hperm rfl hu)
      simpa [unwind] using this

/-- A tree deserialization is under way, with the steps `ws` to run after it. -/
structure Deser (s : State) (ws : List Work) : Prop where
  shape   : s.Shape
  invalid : s.treeValid = false
  writer  : writerReady s.writer.closed ws = true
  tables  : tablesReady false true false ws = true
  buf     : s.reader.buf.length < 8

theorem State.Shape.noPlan {s : State} (h : s.Shape) (ht : s.treeValid = false) : s.planValid = false := by
  cases hp : s.planValid with
  | false => rfl
  | true => rw [(h.planTables hp).1] at ht; cases ht

theorem State.Shape.noCodes' {s : State} (h : s.Shape) (ht : s.treeValid = false) : s.codesValid = false := by
  cases hp : s.codesValid with
  | false => rfl
  | true => rw [(h.codes hp).1] at ht; cases ht

/-- While no tree is held the node store may change (10_state.md rule R29). -/
theorem State.Shape.store {s : State} (h : s.Shape) (ht : s.treeValid = false) (st : NodeStore) (fs : List Frame)
    (n : Nat) : ({ s with store := st, stack := fs, budget := n } : State).Shape :=
  ⟨h.selectors, h.closedEmpty, h.wPend, h.exhaustedEmpty, h.planTables, fun hh => absurd (ht.symm.trans hh) (by decide),
    fun hh => absurd ((h.noCodes' ht).symm.trans hh) (by decide), h.noCodes⟩

theorem Deser.store {s : State} {ws : List Work} (h : Deser s ws) (st : NodeStore) (fs : List Frame) (n : Nat) :
    Deser { s with store := st, stack := fs, budget := n } ws :=
  ⟨h.shape.store h.invalid st fs n, h.invalid, h.writer, h.tables, h.buf⟩

theorem Deser.read {s s' : State} {ws : List Work} (h : Deser s ws) (hr : ReaderOnly s s') (hs : s'.Shape)
    (hb : s'.reader.buf.length < 8) : Deser s' ws := by
  obtain ⟨r, q, d, rfl⟩ := hr
  exact ⟨hs, h.invalid, h.writer, h.tables, hb⟩

theorem Deser.tables' {s : State} {ws : List Work} (h : Deser s ws) :
    tablesReady s.planValid true false ws = true := by rw [h.shape.noPlan h.invalid]; exact h.tables

theorem rootCheck_safe {s : State} {ws : List Work} (h : Deser s ws) {t : HTree} (ht : s.store.complete t) :
    (rootCheck s).Safe ws := by
  unfold rootCheck
  split
  · exact ⟨h.shape, h.buf⟩
  · rename_i hr
    have hc := h.shape.noCodes' h.invalid
    have hd : t.decodable = true := by
      have hh := ht.1
      cases t with
      | leaf y => simp only [NodeStore.holds] at hh; simpa [hh.1, hh.2, HTree.decodable] using hr
      | node l r => rfl
    refine ⟨⟨h.shape.selectors, h.shape.closedEmpty, h.shape.wPend, h.shape.exhaustedEmpty, fun hp => ?_,
      fun _ => ⟨t, ht, hd⟩, fun hh => absurd (hc.symm.trans hh) (by decide), h.shape.noCodes⟩,
      writerFit_of_ready h.writer, ?_, .inl h.buf⟩
    · exact absurd ((h.shape.noPlan h.invalid).symm.trans hp) (by decide)
    · exact tablesFit_of_ready (fun hh => absurd hh Bool.false_ne_true) (fun _ => rfl) (fun hh => absurd hh Bool.false_ne_true) h.tables

theorem spareLoop_safe (n : Nat) {s : State} {ws : List Work} (h : Deser s ws) {t : HTree} (ht : s.store.complete t) :
    (spareLoop n s).Safe ws := by
  induction n generalizing s with
  | zero => exact rootCheck_safe h ht
  | succ n ih =>
    refine readBits_safe h.shape (.inl h.buf) (fun s' hr hs hb => ⟨hs, hb⟩) (fun s' hr hs hb => ?_)
      (fun v s' hr hs hb _ => ?_)
    · have hb' : s'.reader.buf.length < 8 := by omega
      have h' := h.read hr hs hb'
      obtain ⟨r, q, d, rfl⟩ := hr
      exact ⟨h'.writer, ⟨h'.invalid, h'.tables', t, ht⟩, .inl hb'⟩
    · have h' := h.read hr hs hb
      obtain ⟨r, q, d, rfl⟩ := hr
      exact ih (h'.store _ _ _) ht

/-- What goes on at the next node position is safe. -/
def NextSafe (ws : List Work) (next : State → Run) : Prop :=
  ∀ s used, Deser s ws → s.store.pending s.stack used → s.store.inUse used → (next s).Safe ws

theorem nodeDone_safe {s : State} {ws : List Work} {next : State → Run} (h : Deser s ws) (hn : NextSafe ws next)
    {used : List NodeIx} {j : NodeIx} {t : HTree} (hp : s.store.pending s.stack used) (hh : s.store.holds j t)
    (hu : s.store.inUse (s.store.indices j t ++ used)) : (nodeDone j s next).Safe ws := by
  unfold nodeDone
  rcases unwind_spec hp hh hu with ⟨st', fs', used', he, h1, h2, _⟩ | ⟨st', r, t', he, h1, h2, _⟩ <;> rw [he]
  · exact hn _ used' (h.store st' fs' s.budget) h1 h2
  · exact spareLoop_safe _ (h.store _ _ s.budget) (t := t') (NodeStore.complete_root h1 h2)

theorem leafSymbol_safe {s : State} {ws : List Work} {next : State → Run} (h : Deser s ws) (hn : NextSafe ws next)
    {used : List NodeIx} {i : NodeIx} (hp : s.store.pending s.stack used) (hu : s.store.inUse (i :: used)) :
    (leafSymbol i s next).Safe ws := by
  refine readBits_safe h.shape (.inl h.buf) (fun s' hr hs hb => ⟨hs, hb⟩) (fun s' hr hs hb => ?_)
    (fun v s' hr hs hb _ => ?_)
  · obtain ⟨r, q, d, rfl⟩ := hr
    exact ⟨h.writer, ⟨h.invalid, h.tables', used, hp, hu⟩, .inr hb⟩
  · have h' := h.read hr hs hb
    obtain ⟨r, q, d, rfl⟩ := hr
    simp only
    split
    · rename_i hv
      have hiu : i ∉ used := (List.nodup_cons.1 hu.1).1
      refine nodeDone_safe (t := .leaf ⟨v, hv⟩) (used := used) (h'.store _ _ _) hn
        (NodeStore.pending_congr (fun k hk => NodeStore.put_node_ne _ _ (fun hik => hiu (hik ▸ hk))) hp) ?_ ?_
      · simp [NodeStore.holds, State.spend]
      · exact NodeStore.inUse_perm (List.Perm.refl _) rfl hu
    · exact ⟨(h'.store s.store s.stack _).shape, h'.buf⟩

theorem newNode_safe {s : State} {ws : List Work} {next : State → Run} (h : Deser s ws) (hn : NextSafe ws next)
    {used : List NodeIx} {i : NodeIx} (l : Bool) (hp : s.store.pending s.stack used) (hu : s.store.inUse (i :: used)) :
    (newNode l i s next).Safe ws := by
  have hiu : i ∉ used := (List.nodup_cons.1 hu.1).1
  have hpend : ∀ n, (s.store.put i n).pending s.stack used := fun n =>
    NodeStore.pending_congr (fun k hk => NodeStore.put_node_ne _ _ (fun hik => hiu (hik ▸ hk))) hp
  unfold newNode
  split
  · have h' := h.store (s.store.put i { s.store.node i with nfreq := 0#64 }) s.stack s.budget
    simp only
    split
    · exact ⟨h'.shape, h'.buf⟩
    · exact leafSymbol_safe h' hn (hpend _) (NodeStore.inUse_perm (List.Perm.refl _) rfl hu)
  · refine hn _ (i :: used) (h.store _ _ s.budget) ⟨used, rfl, ?_, hpend _⟩
      (NodeStore.inUse_perm (List.Perm.refl _) rfl hu)
    simp

theorem treeLoop_safe (room : Nat) (ws : List Work) : NextSafe ws (treeLoop room) := by
  induction room with
  | zero =>
    intro s used h hp hu
    unfold treeLoop
    split
    · exact ⟨h.shape, h.buf⟩
    · refine readBits_safe h.shape (.inl h.buf) (fun s' hr hs hb => ⟨hs, hb⟩) (fun s' hr hs hb => ?_)
        (fun v s' hr hs hb _ => ?_)
      · obtain ⟨r, q, d, rfl⟩ := hr
        exact ⟨h.writer, ⟨h.invalid, h.tables', used, hp, hu⟩, .inl (by omega)⟩
      · have h' := h.read hr hs hb
        exact ⟨(h'.store s'.store s'.stack _).shape, h'.buf⟩
  | succ room ih =>
    intro s used h hp hu
    unfold treeLoop
    split
    · exact ⟨h.shape, h.buf⟩
    · refine readBits_safe h.shape (.inl h.buf) (fun s' hr hs hb => ⟨hs, hb⟩) (fun s' hr hs hb => ?_)
        (fun v s' hr hs hb _ => ?_)
      · obtain ⟨r, q, d, rfl⟩ := hr
        exact ⟨h.writer, ⟨h.invalid, h.tables', used, hp, hu⟩, .inl (by omega)⟩
      · have h' := h.read hr hs hb
        obtain ⟨r, q, d, rfl⟩ := hr
        rcases s.store.alloc_cases with ⟨hc, ha⟩ | ⟨_, ha⟩
        · simp only [State.spend, ha]
          refine newNode_safe (used := used) (h'.store _ _ _) ih _ ?_ ?_
          · exact NodeStore.pending_congr (st := s.store) (fun k hk => rfl) hp
          · refine ⟨List.nodup_cons.2 ⟨fun hm => Nat.lt_irrefl _ (hu.2.2 _ hm), hu.1⟩, by simp [hu.2.1], fun k hk => ?_⟩
            simp only [List.mem_cons] at hk
            rcases hk with rfl | hk
            · exact Nat.lt_succ_self _
            · exact Nat.lt_succ_of_lt (hu.2.2 k hk)
        · simp only [State.spend, ha]
          exact ⟨(h'.store s.store s.stack _).shape, h'.buf⟩

/-! ## The writer -/

/-- The parts of the state the writer can change matter to the invariant through the writer alone. -/
theorem State.Shape.writer {s : State} (h : s.Shape) (w : Writer) (k : Sink) (d : Nat)
    (hc : w.closed = true → w.buf = []) (hb : w.buf.length < 8) :
    ({ s with writer := w, sink := k, draws := d } : State).Shape :=
  ⟨h.selectors, hc, hb, h.exhaustedEmpty, h.planTables, h.tree, h.codes, h.noCodes⟩

/-- What a run of the writer leaves of it: open after `done` and in a hold, closed after a failure (41_bitstream.md
rules R86, R89). -/
def Written (s : State) : Run → Prop
  | .done s' => WriterOnly s s' ∧ s'.writer.closed = false ∧ s'.writer.buf.length < 8
  | .raised e s' => e = .ioError ∧ WriterOnly s s' ∧ s'.writer.closed = true ∧ s'.writer.buf = []
  | .held s' left => WriterOnly s s' ∧ s'.writer.closed = false ∧ s'.writer.buf = [] ∧
      ∃ b bs, left = [.offer b, .emit bs]
  | .ended _ => False
  | .stuck _ => False

theorem emit_written (bs : Bits) {s : State} (hc : s.writer.closed = false) (hb : s.writer.buf.length < 8) :
    Written s (emit bs s) := by
  induction bs generalizing s with
  | nil => exact ⟨WriterOnly.refl s, hc, hb⟩
  | cons b bs ih =>
    have mono : ∀ {s₁ : State} {r : Run}, WriterOnly s s₁ → Written s₁ r → Written s r := by
      intro s₁ r h₁ hr
      cases r with
      | done s' => exact ⟨h₁.trans hr.1, hr.2⟩
      | ended s' => exact hr
      | raised e s' => exact ⟨hr.1, h₁.trans hr.2.1, hr.2.2⟩
      | held s' l => exact ⟨h₁.trans hr.1, hr.2⟩
      | stuck f => exact hr
    by_cases h : s.writer.buf.length = 7
    · rw [emit_cons_of_eq h]
      have h₀ : WriterOnly s (s.pushBit b).dropWbuf := (pushBit_writerOnly s b).trans (dropWbuf_writerOnly _)
      rcases offerByte_cases (byteOf (s.writer.buf ++ [b])) (s.pushBit b).dropWbuf with ⟨_, he⟩ | ⟨_, he⟩ | ⟨_, he⟩ <;>
        rw [he]
      · exact mono (h₀.trans ⟨_, _, _, rfl⟩) (ih (by simpa using hc) (by simp))
      · exact ⟨rfl, h₀.trans ⟨_, _, _, rfl⟩, rfl, rfl⟩
      · exact ⟨h₀, by simpa using hc, by simp, _, _, rfl⟩
    · rw [emit_cons_of_ne h]
      exact mono (pushBit_writerOnly s b) (ih (by simpa using hc) (by simp; omega))

/-- The steps after a run of the writer find what they need. -/
theorem written_safe {s : State} {later ws : List Work} {r : Run} {next : State → Run} (h : s.Shape)
    (hr : Written s r) (hw : writerReady false (later ++ ws) = true)
    (ht : tablesReady s.planValid s.treeValid (s.store == NodeStore.empty) (later ++ ws) = true)
    (hb : s.reader.buf.length < 8)
    (hn : ∀ s', WriterOnly s s' → s'.Shape → s'.writer.closed = false → (next s').Safe ws) :
    (r.andThen later next).Safe ws := by
  cases r with
  | done s' =>
    obtain ⟨h1, h2, h3⟩ := hr
    refine hn s' h1 ?_ h2
    obtain ⟨w, k, d, rfl⟩ := h1
    exact h.writer w k d (fun hh => absurd (h2.symm.trans hh) (by decide)) h3
  | ended s' => exact hr.elim
  | raised e s' =>
    obtain ⟨_, ⟨w, k, d, rfl⟩, h2, h3⟩ := hr
    exact ⟨h.writer w k d (fun _ => h3) (by rw [show w.buf = [] from h3]; decide), hb⟩
  | held s' left =>
    obtain ⟨⟨w, k, d, rfl⟩, h2, h3, b, bs, rfl⟩ := hr
    refine ⟨h.writer w k d (fun _ => h3) (by rw [show w.buf = [] from h3]; decide), ⟨h2, h3, ?_⟩, ?_, .inl hb⟩
    · show (!false && writerReady false (later ++ ws)) = true
      rw [hw]
      rfl
    · exact ht
  | stuck f => exact hr

/-- The same for a run of the writer that ends its step. -/
theorem written_done {s : State} {ws : List Work} {r : Run} (h : s.Shape) (hr : Written s r)
    (hw : writerReady false ws = true)
    (ht : tablesReady s.planValid s.treeValid (s.store == NodeStore.empty) ws = true)
    (hb : s.reader.buf.length < 8) : r.Safe ws := by
  have := written_safe (later := []) (ws := ws) (next := fun s' => .done s') h hr hw ht hb (by
    intro s' h1 h2 h3
    obtain ⟨w, k, d, rfl⟩ := h1
    refine ⟨h2, writerFit_of_ready (by rw [h3]; exact hw), ?_, .inl hb⟩
    exact tablesFit_of_ready (fun hh => hh) (fun hh => hh) (fun hh => beq_iff_eq.1 hh) ht)
  cases r <;> simpa using this

/-! ## The loops -/

theorem fill_ahead {w : Nat} {ts : List InToken} {buf buf' : Bits} {left : List InToken}
    (h : fill w ts buf = .enough buf' left) : buf'.length + 8 * left.length = buf.length + 8 * ts.length := by
  induction ts generalizing buf with
  | nil =>
    simp only [fill] at h
    split at h
    · cases h
    · cases h; rfl
  | cons t ts ih =>
    simp only [fill] at h
    split at h
    · cases t with
      | byte b =>
        have := ih h
        simp at this ⊢
        omega
      | eos => cases h
      | error => cases h
    · cases h; rfl

/-- A read that returns `w` bits takes them off the bits ahead (47_decompressor.md rule R153). -/
theorem readBits_ahead {s s' : State} {w v : Nat} (h : s.readBits w = .got v s')
    (hb : s.reader.buf.length < 8 ∨ s.reader.buf.length < w) : s'.bitsAhead + w = s.bitsAhead := by
  unfold State.readBits at h
  split at h
  · cases h
  · cases hf : fill w s.inq s.reader.buf with
    | enough buf left =>
      rw [hf] at h
      cases h
      have h1 := fill_ahead hf
      have h2 := (fill_enough hf hb).1
      simp only [State.bitsAhead, State.takeBits, List.length_drop]
      omega
    | ended left => rw [hf] at h; cases h
    | failed left => rw [hf] at h; cases h
    | empty buf => rw [hf] at h; cases h

/-- A store that holds a decoder's tree has no real symbol's leaf for a root. -/
theorem root_no_byte {s : State} (h : s.TreeOk) (ht : s.treeValid = true)
    (hl : (s.store.node s.store.root).leaf = true) : (s.store.node s.store.root).sym = Config.pseudoEof := by
  obtain ⟨t, hc, hd⟩ := h ht
  have hh := hc.1
  cases t with
  | leaf y => simp only [NodeStore.holds] at hh; rw [hh.2]; simpa [HTree.decodable] using hd
  | node l r => simp only [NodeStore.holds] at hh; rw [hl] at hh; cases hh.1

/-- The passes `DecodeBody` can still make (47_decompressor.md rule R153). -/
def passesLeft (s : State) : Nat :=
  2 * s.bitsAhead + if (s.store.node s.cur).leaf = true ∧ (s.store.node s.cur).sym ≠ Config.pseudoEof then 2 else 1

theorem passesLeft_le (s : State) : passesLeft s ≤ 2 * s.bitsAhead + 2 := by
  unfold passesLeft
  split <;> omega

theorem decodeLoop_safe (n : Nat) {s : State} {ws : List Work} (h : s.Shape) (hc : s.writer.closed = false)
    (ht : s.treeValid = true) (hw : writerReady false ws = true)
    (hr : tablesReady s.planValid s.treeValid (s.store == NodeStore.empty) ws = true)
    (hb : s.reader.buf.length < 8) (hn : passesLeft s ≤ n) : (decodeLoop n s).Safe ws := by
  induction n generalizing s with
  | zero => unfold passesLeft at hn; split at hn <;> omega
  | succ n ih =>
    unfold decodeLoop
    split
    · rename_i hl
      split
      · refine ⟨h, writerFit_of_ready (by rw [hc]; exact hw), ?_, .inl hb⟩
        exact tablesFit_of_ready (fun hh => hh) (fun hh => hh) (fun hh => beq_iff_eq.1 hh) hr
      · rename_i hs
        have hr' : tablesReady s.planValid s.treeValid (s.store == NodeStore.empty) ([.rewind, .decodeBody] ++ ws) =
            true := by
          show (s.treeValid && (s.treeValid && tablesReady s.planValid s.treeValid (s.store == NodeStore.empty) ws)) = true
          rw [hr, ht]
          rfl
        refine written_safe h (emit_written _ hc h.wPend) (by
          show (!false && writerReady false ws) = true
          rw [hw]; rfl) hr' hb ?_
        intro s' h1 h2 h3
        obtain ⟨w, k, d, rfl⟩ := h1
        have hp : passesLeft s = 2 * s.bitsAhead + 2 := by simp [passesLeft, hl, hs]
        refine ih (s := ({ s with writer := w, sink := k, draws := d } : State).rewind)
          ⟨h2.selectors, h2.closedEmpty, h2.wPend, h2.exhaustedEmpty, h2.planTables, h2.tree, h2.codes, h2.noCodes⟩
          h3 ht hr hb ?_
        have hroot : ¬((s.store.node s.store.root).leaf = true ∧
            (s.store.node s.store.root).sym ≠ Config.pseudoEof) := fun hh => hh.2 (root_no_byte h.tree ht hh.1)
        have : passesLeft ({ s with writer := w, sink := k, draws := d } : State).rewind = 2 * s.bitsAhead + 1 := by
          unfold passesLeft
          rw [if_neg (by exact hroot)]
          rfl
        omega
    · rename_i hl
      have hp : passesLeft s = 2 * s.bitsAhead + 1 := by simp [passesLeft, hl]
      rcases readBits_cases (w := 1) h (.inl hb) with ⟨v, s', he, h1, h2, h3, _⟩ | ⟨s', he, h1, h2, h3⟩ |
        ⟨s', he, h1, h2, h3⟩ | ⟨s', he, h1, h2, h3⟩ <;> rw [he]
      · have ha := readBits_ahead he (.inl hb)
        obtain ⟨r, q, d, rfl⟩ := h1
        refine ih (s := ({ s with reader := r, inq := q, draws := d } : State).descend v)
          ⟨h2.selectors, h2.closedEmpty, h2.wPend, h2.exhaustedEmpty, h2.planTables, h2.tree, h2.codes, h2.noCodes⟩
          hc ht hr h3 ?_
        have h5 := passesLeft_le (({ s with reader := r, inq := q, draws := d } : State).descend v)
        have h6 : (({ s with reader := r, inq := q, draws := d } : State).descend v).bitsAhead =
          ({ s with reader := r, inq := q, draws := d } : State).bitsAhead := rfl
        omega
      · exact ⟨h2, h3⟩
      · exact ⟨h2, h3⟩
      · obtain ⟨r, q, d, rfl⟩ := h1
        refine ⟨h2, ?_, ?_, .inl (by omega)⟩
        · show (!s.writer.closed && writerReady false ws) = true
          rw [hc, hw]
          rfl
        · show (s.treeValid && tablesReady s.planValid s.treeValid (s.store == NodeStore.empty) ws) = true
          rw [hr, ht]
          rfl

theorem decodeBody_safe {s : State} {ws : List Work} (h : s.Shape) (hc : s.writer.closed = false)
    (ht : s.treeValid = true) (hw : writerReady false ws = true)
    (hr : tablesReady s.planValid s.treeValid (s.store == NodeStore.empty) ws = true)
    (hb : s.reader.buf.length < 8) : (decodeBody s).Safe ws :=
  decodeLoop_safe _ h hc ht hw hr hb (passesLeft_le s)

theorem encodeLoop_safe (ts : List InToken) {s : State} {ws : List Work} (h : s.Shape) (hc : s.writer.closed = false)
    (hw : writerReady false ws = true)
    (hr : tablesReady s.planValid s.treeValid (s.store == NodeStore.empty) ws = true)
    (hb : s.reader.buf.length < 8) : (encodeLoop ts s).Safe ws := by
  have hq : ∀ {s : State} (q : List InToken), s.Shape → ({ s with inq := q } : State).Shape := fun q h =>
    ⟨h.selectors, h.closedEmpty, h.wPend, h.exhaustedEmpty, h.planTables, h.tree, h.codes, h.noCodes⟩
  have hw' : writerReady false ([.encodeBody] ++ ws) = true := by
    show (!false && writerReady false ws) = true
    rw [hw]
    rfl
  induction ts generalizing s with
  | nil =>
    refine ⟨hq _ h, ?_, hr, .inl hb⟩
    show (!s.writer.closed && writerReady false ws) = true
    rw [hc, hw]
    rfl
  | cons t ts ih =>
    cases t with
    | byte b =>
      unfold encodeLoop
      simp only
      split
      · refine written_safe (hq ts h) (emit_written _ hc h.wPend) hw' hr hb ?_
        intro s' h1 h2 h3
        obtain ⟨w, k, d, rfl⟩ := h1
        exact ih h2 h3 hr hb
      · exact ⟨hq _ h, hb⟩
    | eos => exact written_done (hq ts h) (emit_written _ hc h.wPend) hw hr hb
    | error => exact ⟨hq _ h, hb⟩

theorem countLoop_safe (ts : List InToken) (n : Nat) {s : State} {ws : List Work} (h : s.Shape)
    (hw : writerReady s.writer.closed ws = true)
    (hr : tablesReady s.planValid s.treeValid (s.store == NodeStore.empty) ws = true)
    (hb : s.reader.buf.length < 8) : (countLoop ts n s).Safe ws := by
  have hq : ∀ {s : State} (q : List InToken) (f : Vector Word 256) (o : DWord), s.Shape →
      ({ s with inq := q, freq := f, origBits := o } : State).Shape := fun q f o h =>
    ⟨h.selectors, h.closedEmpty, h.wPend, h.exhaustedEmpty, h.planTables, h.tree, h.codes, h.noCodes⟩
  induction ts generalizing n s with
  | nil => exact ⟨hq _ _ _ h, hw, hr, .inl hb⟩
  | cons t ts ih =>
    cases t with
    | byte b =>
      unfold countLoop
      split
      · exact ⟨hq _ _ _ h, hb⟩
      · exact ih (n + 1) (s := s.countByte b ts) (hq (s := s) ts (s.countByte b ts).freq s.origBits h) hw hr hb
    | eos =>
      exact ⟨hq _ _ _ h, writerFit_of_ready hw, tablesFit_of_ready (fun hh => hh) (fun hh => hh) (fun hh => beq_iff_eq.1 hh) hr, .inl hb⟩
    | error => exact ⟨hq _ _ _ h, hb⟩

/-- Closing a stream (41_bitstream.md rule R89). -/
theorem closeStream_safe {s : State} {ws : List Work} (h : s.Shape) (hw : writerReady true ws = true)
    (hr : tablesReady s.planValid s.treeValid (s.store == NodeStore.empty) ws = true)
    (hb : s.reader.buf.length < 8) : (closeStream s).Safe ws := by
  have hfit : ∀ {s' : State}, WriterOnly s s' → s'.writer.closed = true → s'.Fits ws := by
    intro s' h1 h2
    obtain ⟨w, k, d, rfl⟩ := h1
    exact ⟨writerFit_of_ready (by rw [h2]; exact hw),
      tablesFit_of_ready (fun hh => hh) (fun hh => hh) (fun hh => beq_iff_eq.1 hh) hr, .inl hb⟩
  have hend : ∀ {s' : State}, WriterOnly s s' → s'.Shape → s'.writer.buf = [] → (endStream s').Safe ws := by
    intro s' h1 h2 h3
    obtain ⟨w, k, d, rfl⟩ := h1
    have h3' : w.buf = [] := h3
    have hs : ∀ (k : Sink) (d : Nat), ({ s with writer := { w with closed := true }, sink := k, draws := d } : State).Shape :=
      fun k d => h.writer _ _ _ (fun _ => h3') (by simp [h3'])
    unfold endStream
    rcases offerEnd_cases { s with writer := { w with closed := true }, sink := k, draws := d } with ⟨_, he⟩ | ⟨_, he⟩ | ⟨_, he⟩
    · show (offerEnd { s with writer := { w with closed := true }, sink := k, draws := d }).Safe ws
      rw [he]
      exact ⟨hs _ _, hfit ⟨_, _, _, rfl⟩ rfl⟩
    · show (offerEnd { s with writer := { w with closed := true }, sink := k, draws := d }).Safe ws
      rw [he]
      exact ⟨hs _ _, hb⟩
    · show (offerEnd { s with writer := { w with closed := true }, sink := k, draws := d }).Safe ws
      rw [he]
      exact ⟨hs _ _, hw, hr, .inl hb⟩
  unfold closeStream
  split
  · rename_i hc
    exact ⟨h, hfit (WriterOnly.refl s) hc⟩
  · rename_i hc
    have hc' : s.writer.closed = false := by simpa using hc
    split
    · rename_i he
      exact hend (WriterOnly.refl s) h he
    · have hd : s.dropWbuf.Shape := h.writer { s.writer with buf := [] } s.sink s.draws (fun _ => rfl) (by simp)
      rcases offerByte_cases (byteOf s.writer.buf) s.dropWbuf with ⟨_, he⟩ | ⟨_, he⟩ | ⟨_, he⟩ <;> rw [he]
      · exact hend (s' := { s.dropWbuf with sink := s.dropWbuf.sink.record (.byte (byteOf s.writer.buf)) .ok })
          ⟨_, _, _, rfl⟩ (h.writer { s.writer with buf := [] } _ s.draws (fun _ => rfl) (by simp)) rfl
      · exact ⟨h.writer { s.writer with buf := [], closed := true } _ s.draws (fun _ => rfl) (by simp), hb⟩
      · exact ⟨hd, ⟨hc', rfl, hw⟩, hr, .inl hb⟩

/-! ## Building and generating -/

theorem HTree.depth_le {st : NodeStore} {t : HTree} (h : st.complete t) : t.depth ≤ 256 := by
  have h1 := t.two_depth_lt_size
  have h2 := h.2.2.1
  have h3 := st.count.isLt
  omega

/-- A built tree is held, with no plan and no codes (43_tree.md rule R115). -/
theorem buildTree_shape {s : State} (h : s.Shape) (he : s.store = NodeStore.empty) :
    s.buildTree.Shape ∧ s.buildTree.planValid = false ∧ s.buildTree.treeValid = true ∧
      ∃ t, s.buildTree.store.complete t := by
  have hnt : s.treeValid = false := by
    cases ht : s.treeValid with
    | false => rfl
    | true =>
      obtain ⟨t, hc, _⟩ := h.tree ht
      rw [he] at hc
      exact (NodeStore.empty_not_complete t hc).elim
  obtain ⟨_, _, _, _, _, t, hc, hd, _⟩ := buildTree_spec s he
  have hp := h.noPlan hnt
  have hcv := h.noCodes' hnt
  exact ⟨⟨h.selectors, h.closedEmpty, h.wPend, h.exhaustedEmpty, fun hh => absurd (hp.symm.trans hh) (by decide),
    fun _ => ⟨t, hc, hd⟩, fun hh => absurd (hcv.symm.trans hh) (by decide), h.noCodes⟩, hp, rfl, t, hc⟩

/-- Generating the codes of a held tree (44_codetable.md rules R125, R126). -/
theorem genCodes_shape {s : State} (h : s.Shape) (ht : s.treeValid = true) :
    ∃ s', genCodes s = .done s' ∧ s'.Shape ∧ s'.treeValid = true ∧ s'.codesValid = true ∧
      ∃ cs b, s' = { s with phase := .codegen, codes := cs, codesValid := true, bodyBits := b } := by
  obtain ⟨t, hc, hd⟩ := h.tree ht
  rcases genCodes_cases s with ⟨cs, b, h1, h2⟩ | ⟨h1, _⟩
  · refine ⟨_, h2, ?_, ht, rfl, cs, b, rfl⟩
    have hcs : ∀ y : Symbol, cs[y.val] = t.codeOf y := by
      intro y
      rw [hc.codesOver s.codes, Option.some.injEq] at h1
      rw [← h1]
      refine setPaths_codeOf t s.codes y ?_
      cases hv : s.codesValid with
      | false => exact .inl (h.noCodes hv)
      | true =>
        obtain ⟨_, u, hu, hcu⟩ := h.codes hv
        have : t = u := NodeStore.holds_unique hc.1 hu.1
        subst this
        exact .inr hcu
    exact ⟨h.selectors, h.closedEmpty, h.wPend, h.exhaustedEmpty, fun hh => ⟨ht, rfl⟩, h.tree,
      fun _ => ⟨ht, t, hc, hcs⟩, fun hh => absurd hh Bool.true_eq_false.mp⟩
  · rw [hc.codesOver s.codes] at h1
    cases h1

/-- The tables are still cleared, with the steps `ws` to run after the header is read. -/
structure Clean (s : State) (ws : List Work) : Prop where
  shape  : s.Shape
  empty  : s.store = NodeStore.empty
  writer : writerReady s.writer.closed ws = true
  tables : tablesReady s.planValid true false ws = true

theorem Clean.invalid {s : State} {ws : List Work} (h : Clean s ws) : s.treeValid = false := by
  cases ht : s.treeValid with
  | false => rfl
  | true =>
    obtain ⟨t, hc, _⟩ := h.shape.tree ht
    rw [h.empty] at hc
    exact (NodeStore.empty_not_complete t hc).elim

theorem Clean.phase {s : State} {ws : List Work} (h : Clean s ws) (p : Phase) : Clean { s with phase := p } ws :=
  ⟨⟨h.shape.selectors, h.shape.closedEmpty, h.shape.wPend, h.shape.exhaustedEmpty, h.shape.planTables, h.shape.tree,
    h.shape.codes, h.shape.noCodes⟩, h.empty, h.writer, h.tables⟩

/-- The read of a header field: it holds with the step it starts still to run. -/
theorem Clean.field {s : State} {ws : List Work} {w : Work} {onS : State → Run} {next : Nat → State → Run}
    (h : Clean s ws) (hb : s.reader.buf.length < 8 ∨ s.reader.buf.length < 32)
    (hk : w = .magic ∨ w = .selector ∨ w = .treeLen ∨ ∃ n, w = .countFields (n + 1))
    (hS : ∀ s', s'.Shape → s'.reader.buf.length < 8 → (onS s').Safe ws)
    (hn : ∀ v s', Clean s' ws → s'.reader.buf.length < 8 → (next v s').Safe ws) :
    ((s.readBits 32).andThen [w] onS next).Safe ws := by
  refine readBits_safe h.shape hb (fun s' _ h1 h2 => hS s' h1 h2) (fun s' hr h1 h2 => ?_)
    (fun v s' hr h1 h2 _ => hn v s' ?_ h2)
  · obtain ⟨r, q, d, rfl⟩ := hr
    have hT : ((s.store == NodeStore.empty) && tablesReady s.planValid true false ws) = true := by
      rw [beq_iff_eq.2 h.empty, h.tables]
      rfl
    rcases hk with rfl | rfl | rfl | ⟨n, rfl⟩ <;> exact ⟨h.writer, hT, .inr h2⟩
  · obtain ⟨r, q, d, rfl⟩ := hr
    exact ⟨h1, h.empty, h.writer, h.tables⟩

theorem countFields_safe (n : Nat) {s : State} {ws : List Work} (h : Clean s ws)
    (hb : s.reader.buf.length < 8 ∨ 0 < n ∧ s.reader.buf.length < 32) : (countFields n s).Safe ws := by
  induction n generalizing s with
  | zero =>
    obtain ⟨h1, h2, h3, _⟩ := buildTree_shape h.shape h.empty
    have hb' : s.reader.buf.length < 8 := hb.elim id fun hh => absurd hh.1 (Nat.lt_irrefl 0)
    exact ⟨h1, writerFit_of_ready h.writer,
      tablesFit_of_ready (fun hh => hh) (fun _ => rfl) (fun hh => absurd hh Bool.false_ne_true) h.tables, .inl hb'⟩
  | succ n ih =>
    refine h.field (hb.imp id (·.2)) (.inr (.inr (.inr ⟨_, rfl⟩))) (fun s' hs hb => ⟨hs, hb⟩) (fun v s' h' hb => ?_)
    have hs := h'.shape
    exact ih ⟨⟨hs.selectors, hs.closedEmpty, hs.wPend, hs.exhaustedEmpty, hs.planTables, hs.tree, hs.codes, hs.noCodes⟩,
      h'.empty, h'.writer, h'.tables⟩ (.inl hb)

theorem treeHeader_safe {s : State} {ws : List Work} (h : Clean s ws)
    (hb : s.reader.buf.length < 8 ∨ s.reader.buf.length < 32) : (treeHeader s).Safe ws := by
  refine h.field hb (.inr (.inr (.inl rfl))) (fun s' hs hb => ⟨hs, hb⟩) (fun v s' h' hb => ?_)
  have hp := h'.shape.noPlan h'.invalid
  refine treeLoop_safe _ ws _ [] ⟨?_, h'.invalid, h'.writer, ?_, hb⟩ rfl ?_
  · exact h'.shape.store h'.invalid s'.store [] v
  · have := h'.tables
    rwa [hp] at this
  · show s'.store.inUse []
    rw [h'.empty]
    exact ⟨List.nodup_nil, rfl, fun i hi => absurd hi List.not_mem_nil⟩

theorem readSelector_safe {s : State} {ws : List Work} (h : Clean s ws)
    (hb : s.reader.buf.length < 8 ∨ s.reader.buf.length < 32) : (readSelector s).Safe ws := by
  refine (h.phase .readHeader).field hb (.inr (.inl rfl)) (fun s' hs hb => ⟨hs, hb⟩) (fun v s' h' hb => ?_)
  split
  · exact countFields_safe _ h' (.inl hb)
  split
  · exact treeHeader_safe h' (.inl hb)
  · exact ⟨h'.shape, hb⟩

theorem readMagic_safe {s : State} {ws : List Work} (h : Clean s ws)
    (hb : s.reader.buf.length < 8 ∨ s.reader.buf.length < 32) : (readMagic s).Safe ws := by
  refine (h.phase .validateMagic).field hb (.inl rfl) (fun s' hs hb => ⟨hs, hb⟩) (fun v s' h' hb => ?_)
  split
  · exact readSelector_safe h' (.inl hb)
  · exact ⟨h'.shape, hb⟩

/-! ## Every step -/

/-- The parts of the state that none of the invariant's parts is about. -/
theorem State.Shape.rest {s : State} (h : s.Shape) (s' : State) (h1 : s'.cfg = s.cfg) (h2 : s'.writer = s.writer)
    (h3 : s'.reader = s.reader) (h4 : s'.planValid = s.planValid) (h5 : s'.treeValid = s.treeValid)
    (h6 : s'.codesValid = s.codesValid) (h7 : s'.codes = s.codes) (h8 : s'.store = s.store) : s'.Shape := by
  obtain ⟨a1, a2, a3, a4, a5, a6, a7, a8⟩ := h
  refine ⟨h1 ▸ a1, h2 ▸ a2, h2 ▸ a3, h3 ▸ a4, by rw [h4, h5, h6]; exact a5, ?_, ?_, ?_⟩
  · unfold State.TreeOk; rw [h5, h8]; exact a6
  · unfold State.CodesOk State.codeAt; rw [h5, h6, h7, h8]; exact a7
  · unfold State.codeAt; rw [h6, h7]; exact a8

theorem clearCodes_shape {s : State} (h : s.Shape) : s.clearCodes.Shape :=
  ⟨h.selectors, h.closedEmpty, h.wPend, h.exhaustedEmpty, fun hh => absurd hh Bool.false_ne_true, h.tree,
    fun hh => absurd hh Bool.false_ne_true, fun _ y => codeAt_clearCodes s y⟩

theorem clearTree_shape {s : State} (h : s.Shape) : s.clearTree.Shape :=
  ⟨h.selectors, h.closedEmpty, h.wPend, h.exhaustedEmpty, fun hh => absurd hh Bool.false_ne_true,
    fun hh => absurd hh Bool.false_ne_true, fun hh => absurd hh Bool.false_ne_true, fun _ y => codeAt_clearCodes s y⟩

theorem clearAll_shape {s : State} (h : s.Shape) : s.clearAll.Shape :=
  (clearTree_shape h).rest _ rfl rfl rfl rfl rfl rfl rfl rfl

/-- Every step of a command, run where the rest fits, keeps the invariant's parts and leaves what the steps after it
need; and it never stops the machine. -/
theorem runWork_safe (w : Work) {s : State} {ws : List Work} (h : s.Shape) (hf : s.Fits (w :: ws)) :
    (runWork w s).Safe ws := by
  obtain ⟨hw, ht, hb⟩ := hf
  have fit : ∀ {s' : State} {p t c : Bool}, writerReady s'.writer.closed ws = true →
      (p = true → s'.planValid = true) → (t = true → s'.treeValid = true) → (c = true → s'.store = NodeStore.empty) →
      tablesReady p t c ws = true → s'.reader.buf.length < 8 → s'.Fits ws := fun h1 h2 h3 h4 h5 h6 =>
    ⟨writerFit_of_ready h1, tablesFit_of_ready h2 h3 h4 h5, .inl h6⟩
  have hE : ∀ {s : State}, (s.store == NodeStore.empty) = true → s.store = NodeStore.empty := fun hh => beq_iff_eq.1 hh
  have and2 : ∀ {a b : Bool}, (a && b) = true → a = true ∧ b = true := fun hh => by simpa using hh
  have hbuf : readNeed (w :: ws) = 0 → s.reader.buf.length < 8 := fun h0 =>
    hb.elim id fun hh => absurd (h0 ▸ hh) (Nat.not_lt_zero _)
  have plain : ∀ {s' : State}, s'.Shape → s'.writer = s.writer → s'.reader = s.reader → s'.planValid = s.planValid →
      s'.treeValid = s.treeValid → s'.store = s.store → writerReady s.writer.closed ws = true →
      tablesReady s.planValid s.treeValid (s.store == NodeStore.empty) ws = true → readNeed (w :: ws) = 0 →
      Run.Safe ws (.done s') := fun h0 h1 h2 h3 h4 h5 h6 h7 h8 =>
    ⟨h0, fit (by rw [h1]; exact h6) (fun hh => by rw [h3]; exact hh) (fun hh => by rw [h4]; exact hh)
      (fun hh => by rw [h5]; exact hE hh) h7 (by rw [h2]; exact hbuf h8)⟩
  have skip : ∀ {s' : State}, s'.cfg = s.cfg → s'.writer = s.writer → s'.reader = s.reader → s'.planValid = s.planValid →
      s'.treeValid = s.treeValid → s'.codesValid = s.codesValid → s'.codes = s.codes → s'.store = s.store →
      writerReady s.writer.closed ws = true →
      tablesReady s.planValid s.treeValid (s.store == NodeStore.empty) ws = true → readNeed (w :: ws) = 0 →
      Run.Safe ws (.done s') := fun h1 h2 h3 h4 h5 h6 h7 h8 h9 h10 h11 =>
    plain (h.rest _ h1 h2 h3 h4 h5 h6 h7 h8) h2 h3 h4 h5 h8 h9 h10 h11
  have clean : (s.store == NodeStore.empty && tablesReady s.planValid true false ws) = true →
      writerReady s.writer.closed ws = true → Clean s ws := fun h1 h2 => ⟨h, hE (and2 h1).1, h2, (and2 h1).2⟩
  cases w with
  | bitio => exact skip rfl rfl rfl rfl rfl rfl rfl rfl hw ht rfl
  | clearCodes => exact ⟨clearCodes_shape h, fit hw (fun hh => hh) (fun hh => hh) hE ht (hbuf rfl)⟩
  | clearTree => exact ⟨clearTree_shape h, fit hw (fun hh => hh) (fun hh => hh) (fun _ => rfl) ht (hbuf rfl)⟩
  | clearAll => exact ⟨clearAll_shape h, fit hw (fun hh => hh) (fun hh => hh) (fun _ => rfl) ht (hbuf rfl)⟩
  | rReset =>
    exact ⟨⟨h.selectors, h.closedEmpty, h.wPend, fun _ => rfl, h.planTables, h.tree, h.codes, h.noCodes⟩,
      fit hw (fun hh => hh) (fun hh => hh) hE ht (Nat.zero_lt_succ 7)⟩
  | ensureOpen =>
    have hc : s.ensureOpen.writer.closed = false := by
      unfold State.ensureOpen
      split
      · rfl
      · rename_i hh; simpa using hh
    have hs : s.ensureOpen.Shape := by
      unfold State.ensureOpen
      split
      · exact h.writer ⟨false, [], 0#64⟩ s.sink s.draws (fun _ => rfl) (Nat.zero_lt_succ 7)
      · exact h
    have hk : s.ensureOpen = { s with writer := s.ensureOpen.writer } := by
      unfold State.ensureOpen; split <;> rfl
    refine ⟨hs, ?_⟩
    show s.ensureOpen.Fits ws
    rw [hk] at hc ⊢
    exact fit (by rw [hc]; exact hw) (fun hh => hh) (fun hh => hh) hE ht (hbuf rfl)
  | openStream =>
    exact ⟨(h.writer ⟨false, [], 0#64⟩ s.sink s.draws (fun _ => rfl) (Nat.zero_lt_succ 7)).rest _ rfl rfl rfl rfl rfl
      rfl rfl rfl, fit hw (fun hh => hh) (fun hh => hh) hE ht (hbuf rfl)⟩
  | closeStream => exact closeStream_safe h hw ht (hbuf rfl)
  | offer b =>
    obtain ⟨hc, he, hw'⟩ := hw
    show (offerByte b s).Safe ws
    rcases offerByte_cases b s with ⟨_, hs⟩ | ⟨_, hs⟩ | ⟨_, hs⟩ <;> rw [hs]
    · exact ⟨h.writer s.writer _ s.draws h.closedEmpty h.wPend,
        fit (by show writerReady s.writer.closed ws = true; rw [hc]; exact hw') (fun hh => hh) (fun hh => hh) hE ht
          (hbuf rfl)⟩
    · exact ⟨h.writer { s.writer with closed := true } _ s.draws (fun _ => he) h.wPend, hbuf rfl⟩
    · exact ⟨h, ⟨hc, he, hw'⟩, ht, .inl (hbuf rfl)⟩
  | offerEnd =>
    obtain ⟨hc, hw'⟩ := and2 hw
    show (offerEnd s).Safe ws
    rcases offerEnd_cases s with ⟨_, hs⟩ | ⟨_, hs⟩ | ⟨_, hs⟩ <;> rw [hs]
    · exact ⟨h.writer s.writer _ s.draws h.closedEmpty h.wPend,
        fit (by show writerReady s.writer.closed ws = true; rw [hc]; exact hw') (fun hh => hh) (fun hh => hh) hE ht
          (hbuf rfl)⟩
    · exact ⟨h.writer s.writer _ s.draws h.closedEmpty h.wPend, hbuf rfl⟩
    · exact ⟨h, hw, ht, .inl (hbuf rfl)⟩
  | abort e =>
    show (resumeAbort e s).Safe ws
    unfold resumeAbort
    rcases push_cases s .abort with ⟨a, _, hs⟩ | ⟨_, hs⟩ <;> rw [hs]
    · exact ⟨h.writer s.writer _ s.draws h.closedEmpty h.wPend, hbuf rfl⟩
    · exact ⟨h, hw, ht, .inl (hbuf rfl)⟩
  | emit bits =>
    obtain ⟨hc, hw'⟩ := and2 hw
    exact written_done h (emit_written _ (by simpa using hc) h.wPend) hw' ht (hbuf rfl)
  | writeField width =>
    obtain ⟨hc, hw'⟩ := and2 hw
    exact written_done h (emit_written _ (by simpa using hc) h.wPend) hw' ht (hbuf rfl)
  | readField width =>
    have setR : ∀ {s' : State} (v : Int), ReaderOnly s s' → s'.Shape → s'.reader.buf.length < 8 →
        Run.Safe ws (.done (s'.setResult v)) := by
      intro s' v hr hs hb'
      obtain ⟨r, q, d, rfl⟩ := hr
      exact ⟨hs.rest _ rfl rfl rfl rfl rfl rfl rfl rfl, fit hw (fun hh => hh) (fun hh => hh) hE ht hb'⟩
    refine readBits_safe h hb (fun s' hr hs hb' => setR _ hr hs hb') (fun s' hr hs hb' => ?_)
      (fun v s' hr hs hb' _ => setR _ hr hs hb')
    obtain ⟨r, q, d, rfl⟩ := hr
    exact ⟨hw, ht, .inr hb'⟩
  | count n =>
    exact countLoop_safe _ n (s := { s with phase := .count }) (h.rest _ rfl rfl rfl rfl rfl rfl rfl rfl) hw ht (hbuf rfl)
  | build =>
    obtain ⟨h1, h2⟩ := and2 ht
    obtain ⟨b1, b2, b3, b4⟩ := buildTree_shape h (hE h1)
    exact ⟨b1.rest _ rfl rfl rfl rfl rfl rfl rfl rfl,
      fit hw (fun hh => hh) (fun _ => b3) (fun hh => absurd hh Bool.false_ne_true) h2 (hbuf rfl)⟩
  | needTree =>
    show (need s.treeValid s).Safe ws
    unfold need
    split
    · rename_i hv
      exact ⟨h, fit hw (fun hh => hh) (fun _ => hv) hE ht (hbuf rfl)⟩
    · exact ⟨h, hbuf rfl⟩
  | genCodes =>
    obtain ⟨h1, h2⟩ := and2 ht
    obtain ⟨s', he, g1, g2, g3, cs, b, rfl⟩ := genCodes_shape h h1
    show (genCodes s).Safe ws
    rw [he]
    exact ⟨g1, fit hw (fun hh => hh) (fun hh => hh) hE h2 (hbuf rfl)⟩
  | plan fmt =>
    obtain ⟨h1, h2⟩ := and2 ht
    obtain ⟨b1, b2, b3, b4⟩ := buildTree_shape h (hE h1)
    obtain ⟨s', he, g1, g2, g3, cs, b, rfl⟩ := genCodes_shape b1 b3
    show (planStream fmt s).Safe ws
    unfold planStream
    rw [he]
    refine ⟨⟨g1.selectors, g1.closedEmpty, g1.wPend, g1.exhaustedEmpty, fun _ => ⟨b3, rfl⟩, g1.tree, g1.codes,
      g1.noCodes⟩, fit hw (fun _ => rfl) (fun _ => b3) (fun hh => absurd hh Bool.false_ne_true) h2 (hbuf rfl)⟩
  | needPlan =>
    show (need s.planValid s).Safe ws
    unfold need
    split
    · rename_i hv
      exact ⟨h, fit hw (fun _ => hv) (fun _ => (h.planTables hv).1) hE ht (hbuf rfl)⟩
    · exact ⟨h, hbuf rfl⟩
  | gate force =>
    show (gate force s).Safe ws
    unfold gate
    split
    · exact ⟨h.rest _ rfl rfl rfl rfl rfl rfl rfl rfl, hbuf rfl⟩
    · exact ⟨h, fit hw (fun hh => hh) (fun hh => hh) hE ht (hbuf rfl)⟩
  | markW => exact skip rfl rfl rfl rfl rfl rfl rfl rfl hw ht rfl
  | markR => exact skip rfl rfl rfl rfl rfl rfl rfl rfl hw ht rfl
  | headerWrite =>
    obtain ⟨hc, hw'⟩ := and2 hw
    obtain ⟨hp, ht'⟩ := and2 ht
    obtain ⟨t, hct, _⟩ := h.tree (h.planTables hp).1
    have hb' : ∃ bits, s.headerBits s.planFmt = some bits := by
      unfold State.headerBits
      split
      · exact ⟨_, rfl⟩
      · rw [hct.serialized]; exact ⟨_, rfl⟩
    obtain ⟨bits, he⟩ := hb'
    show (headerWrite s.planFmt s).Safe ws
    unfold headerWrite
    rw [he]
    exact written_done (s := { s with phase := .hdrWrite }) (h.rest _ rfl rfl rfl rfl rfl rfl rfl rfl)
      (emit_written _ (by simpa using hc) h.wPend) hw' ht' (hbuf rfl)
  | encodeBody =>
    obtain ⟨hc, hw'⟩ := and2 hw
    exact encodeLoop_safe _ (s := { s with phase := .encodeBody }) (h.rest _ rfl rfl rfl rfl rfl rfl rfl rfl)
      (by simpa using hc) hw' ht (hbuf rfl)
  | magic => exact readMagic_safe (clean ht hw) hb
  | selector => exact readSelector_safe (clean ht hw) hb
  | countFields left =>
    refine countFields_safe left (clean ht hw) ?_
    cases left with
    | zero => exact .inl (hbuf rfl)
    | succ n => exact hb.imp id fun hh => ⟨Nat.succ_pos n, hh⟩
  | treeLen => exact treeHeader_safe (clean ht hw) hb
  | treeNode =>
    obtain ⟨h1, h2, used, h3, h4⟩ := ht
    refine treeLoop_safe _ ws s used ⟨h, h1, hw, ?_, hbuf rfl⟩ h3 h4
    rwa [h.noPlan h1] at h2
  | treeSym i =>
    obtain ⟨h1, h2, used, h3, h4⟩ := ht
    have h2' : tablesReady false true false ws = true := by rwa [h.noPlan h1] at h2
    refine readBits_safe h hb (fun s' hr hs hb => ⟨hs, hb⟩) (fun s' hr hs hb => ?_) (fun v s' hr hs hb' _ => ?_)
    · obtain ⟨r, q, d, rfl⟩ := hr
      exact ⟨hw, ⟨h1, h2, used, h3, h4⟩, .inr hb⟩
    · obtain ⟨r, q, d, rfl⟩ := hr
      have h' : Deser { s with reader := r, inq := q, draws := d } ws := ⟨hs, h1, hw, h2', hb'⟩
      simp only
      split
      · rename_i hv
        have hiu : i ∉ used := (List.nodup_cons.1 h4.1).1
        refine nodeDone_safe (t := .leaf ⟨v, hv⟩) (used := used) (h'.store _ _ _) (fun s u => treeLoop_safe _ ws s u)
          (NodeStore.pending_congr (fun k hk => NodeStore.put_node_ne _ _ (fun hik => hiu (hik ▸ hk))) h3) ?_ ?_
        · simp [NodeStore.holds, State.spend]
        · exact NodeStore.inUse_perm (List.Perm.refl _) rfl h4
      · exact ⟨(h'.store s.store s.stack _).shape, hb'⟩
  | treeSpare =>
    obtain ⟨h1, h2, t, h3⟩ := ht
    exact spareLoop_safe _ ⟨h, h1, hw, by rwa [h.noPlan h1] at h2, hbuf rfl⟩ h3
  | decodeStart =>
    obtain ⟨h1, h2⟩ := and2 ht
    exact skip rfl rfl rfl rfl rfl rfl rfl rfl hw h2 rfl
  | rewind =>
    obtain ⟨h1, h2⟩ := and2 ht
    exact skip rfl rfl rfl rfl rfl rfl rfl rfl hw h2 rfl
  | decodeBody =>
    obtain ⟨hc, hw'⟩ := and2 hw
    obtain ⟨h1, h2⟩ := and2 ht
    exact decodeBody_safe h (by simpa using hc) h1 hw' h2 (hbuf rfl)
  | result r => exact skip rfl rfl rfl rfl rfl rfl rfl rfl hw ht rfl

/-- A command's steps, run in order. -/
theorem runWorks_safe (ws : List Work) {s : State} (h : s.Shape) (hf : s.Fits ws) : (runWorks ws s).Safe [] := by
  induction ws generalizing s with
  | nil => exact ⟨h, hf⟩
  | cons w ws ih =>
    refine Run.Safe.andThen (later := ws) (ws := []) ?_ (fun s' _ h1 h2 => ih h1 (by simpa using h2))
    simpa using runWork_safe w h hf

end Sys2Proof.Machine
end

