-- ==== Sys2Proof/Laws/Commands.lean ====
section
/-! SUPPORT. What a command's steps never touch, how a command ends, and the invariant through a command's start, a hold
and its end. -/

namespace Sys2Proof.Machine

/-- What no step of a command touches: the parameters, the registers of the host's side, the latches, the flags that
only acceptance and the command's end write, and the outside world (10_state.md rules R22 to R32, R40, R47, 20_memory.md
rules R61, R65). -/
structure SameHost (s s' : State) : Prop where
  cfg     : s'.cfg = s.cfg
  cmdLast : s'.cmdLast = s.cmdLast
  busy    : s'.busy = s.busy
  done    : s'.done = s.done
  ovr     : s'.ovr = s.ovr
  err     : s'.err = s.err
  arg     : s'.arg = s.arg
  lcmd    : s'.lcmd = s.lcmd
  larg    : s'.larg = s.larg
  work    : s'.work = s.work
  inReset : s'.inReset = s.inReset
  events  : s'.events = s.events
  popped  : s'.popped = s.popped
  accesses : s'.accesses = s.accesses
  stalled : s'.stalled = s.stalled
  phase   : s.phase ≠ .idle → s'.phase ≠ .idle

theorem SameHost.refl (s : State) : SameHost s s :=
  ⟨rfl, rfl, rfl, rfl, rfl, rfl, rfl, rfl, rfl, rfl, rfl, rfl, rfl, rfl, rfl, fun h => h⟩

theorem SameHost.trans {a b c : State} (h : SameHost a b) (h' : SameHost b c) : SameHost a c :=
  ⟨h'.cfg.trans h.cfg, h'.cmdLast.trans h.cmdLast, h'.busy.trans h.busy, h'.done.trans h.done, h'.ovr.trans h.ovr,
    h'.err.trans h.err, h'.arg.trans h.arg, h'.lcmd.trans h.lcmd, h'.larg.trans h.larg, h'.work.trans h.work,
    h'.inReset.trans h.inReset, h'.events.trans h.events, h'.popped.trans h.popped, h'.accesses.trans h.accesses,
    h'.stalled.trans h.stalled,
    fun hp => h'.phase (h.phase hp)⟩

theorem WriterOnly.sameHost {s s' : State} (h : WriterOnly s s') : SameHost s s' := by
  obtain ⟨_, _, _, rfl⟩ := h
  exact ⟨rfl, rfl, rfl, rfl, rfl, rfl, rfl, rfl, rfl, rfl, rfl, rfl, rfl, rfl, rfl, fun h => h⟩

theorem ReaderOnly.sameHost {s s' : State} (h : ReaderOnly s s') : SameHost s s' := by
  obtain ⟨_, _, _, rfl⟩ := h
  exact ⟨rfl, rfl, rfl, rfl, rfl, rfl, rfl, rfl, rfl, rfl, rfl, rfl, rfl, rfl, rfl, fun h => h⟩

theorem CountOnly.sameHost {s s' : State} (h : CountOnly s s') : SameHost s s' := by
  obtain ⟨_, _, _, rfl⟩ := h
  exact ⟨rfl, rfl, rfl, rfl, rfl, rfl, rfl, rfl, rfl, rfl, rfl, rfl, rfl, rfl, rfl, fun h => h⟩

theorem EncodeOnly.sameHost {s s' : State} (h : EncodeOnly s s') : SameHost s s' := by
  obtain ⟨_, _, _, _, rfl⟩ := h
  exact ⟨rfl, rfl, rfl, rfl, rfl, rfl, rfl, rfl, rfl, rfl, rfl, rfl, rfl, rfl, rfl, fun h => h⟩

theorem DecodeOnly.sameHost {s s' : State} (h : DecodeOnly s s') : SameHost s s' := by
  obtain ⟨_, _, _, _, _, _, rfl⟩ := h
  exact ⟨rfl, rfl, rfl, rfl, rfl, rfl, rfl, rfl, rfl, rfl, rfl, rfl, rfl, rfl, rfl, fun h => h⟩

theorem HeaderOnly.sameHost {s s' : State} (h : HeaderOnly s s') : SameHost s s' := by
  obtain ⟨_, _, _, _, _, _, _, _, _, _, _, rfl, hp⟩ := h
  exact ⟨rfl, rfl, rfl, rfl, rfl, rfl, rfl, rfl, rfl, rfl, rfl, rfl, rfl, rfl, rfl, hp⟩

/-- No step of a command touches the host's side. -/
theorem runWork_host (w : Work) (s : State) : (runWork w s).All (SameHost s) := by
  have keep : ∀ {s' : State}, s'.cfg = s.cfg → s'.cmdLast = s.cmdLast → s'.busy = s.busy → s'.done = s.done →
      s'.ovr = s.ovr → s'.err = s.err → s'.arg = s.arg → s'.lcmd = s.lcmd → s'.larg = s.larg → s'.work = s.work →
      s'.inReset = s.inReset → s'.events = s.events →
      s'.popped = s.popped → s'.accesses = s.accesses → s'.stalled = s.stalled →
      (s.phase ≠ .idle → s'.phase ≠ .idle) → SameHost s s' := fun h1 h2 h3 h4 h5 h6 h7 h8 h9 h10 h11 h12 h13 h14 h15
      h16 => ⟨h1, h2, h3, h4, h5, h6, h7, h8, h9, h10, h11, h12, h13, h14, h15, h16⟩
  have moved : ∀ (p : Phase), p ≠ .idle → SameHost s { s with phase := p } := fun p hp =>
    keep rfl rfl rfl rfl rfl rfl rfl rfl rfl rfl rfl rfl rfl rfl rfl fun _ => hp
  have same : ∀ {s' : State}, s'.cfg = s.cfg → s'.cmdLast = s.cmdLast → s'.busy = s.busy → s'.done = s.done →
      s'.ovr = s.ovr → s'.err = s.err → s'.arg = s.arg → s'.lcmd = s.lcmd → s'.larg = s.larg → s'.work = s.work →
      s'.inReset = s.inReset → s'.events = s.events →
      s'.popped = s.popped → s'.accesses = s.accesses → s'.stalled = s.stalled →
      s'.phase = s.phase → SameHost s s' := fun h1 h2 h3 h4 h5 h6 h7 h8 h9 h10 h11 h12 h13 h14 h15
      h16 => ⟨h1, h2, h3, h4, h5, h6, h7, h8, h9, h10, h11, h12, h13, h14, h15, fun h => h16 ▸ h⟩
  have needHost : ∀ b, (need b s).All (SameHost s) := by
    intro b; unfold need; split <;> exact SameHost.refl s
  cases w with
  | bitio => exact moved .bitio (by decide)
  | clearCodes => exact same rfl rfl rfl rfl rfl rfl rfl rfl rfl rfl rfl rfl rfl rfl rfl rfl
  | clearTree => exact same rfl rfl rfl rfl rfl rfl rfl rfl rfl rfl rfl rfl rfl rfl rfl rfl
  | clearAll => exact same rfl rfl rfl rfl rfl rfl rfl rfl rfl rfl rfl rfl rfl rfl rfl rfl
  | rReset => exact same rfl rfl rfl rfl rfl rfl rfl rfl rfl rfl rfl rfl rfl rfl rfl rfl
  | ensureOpen =>
    show SameHost s s.ensureOpen
    unfold State.ensureOpen
    split
    · exact same rfl rfl rfl rfl rfl rfl rfl rfl rfl rfl rfl rfl rfl rfl rfl rfl
    · exact SameHost.refl s
  | openStream => exact same rfl rfl rfl rfl rfl rfl rfl rfl rfl rfl rfl rfl rfl rfl rfl rfl
  | closeStream => exact (closeStream_footprint s).mono fun _ h => h.sameHost
  | offer b => exact (offerByte_footprint b s).mono fun _ h => h.sameHost
  | offerEnd => exact (offerEnd_footprint s).mono fun _ h => h.sameHost
  | abort e =>
    show (resumeAbort e s).All (SameHost s)
    unfold resumeAbort
    rcases push_cases s .abort with ⟨a, _, hs⟩ | ⟨_, hs⟩ <;> rw [hs]
    · exact same rfl rfl rfl rfl rfl rfl rfl rfl rfl rfl rfl rfl rfl rfl rfl rfl
    · exact SameHost.refl s
  | emit bits => exact (emit_footprint _ s).mono fun _ h => h.sameHost
  | writeField width => exact (emit_footprint _ s).mono fun _ h => h.sameHost
  | readField width =>
    have setR : ∀ {s' : State} (v : Int), ReaderOnly s s' → SameHost s (s'.setResult v) := by
      intro s' v hr
      exact hr.sameHost.trans ⟨rfl, rfl, rfl, rfl, rfl, rfl, rfl, rfl, rfl, rfl, rfl, rfl, rfl, rfl, rfl, fun h => h⟩
    exact ReadResult.andThen_all (readBits_footprint s _) (fun _ h => h.sameHost) (fun _ h => setR _ h)
      (fun v s' _ h => setR _ h)
  | count n => exact (countLoop_footprint _ n _).mono fun _ h => (moved .count (by decide)).trans h.sameHost
  | build =>
    exact (buildTree_headerOnly s).sameHost.trans
      ⟨rfl, rfl, rfl, rfl, rfl, rfl, rfl, rfl, rfl, rfl, rfl, rfl, rfl, rfl, rfl, fun h => h⟩
  | needTree => exact needHost _
  | genCodes =>
    show (genCodes s).All (SameHost s)
    rcases genCodes_cases s with ⟨cs, b, _, he⟩ | ⟨_, he⟩ <;> rw [he]
    · exact keep rfl rfl rfl rfl rfl rfl rfl rfl rfl rfl rfl rfl rfl rfl rfl fun _ => by simp
    · trivial
  | plan fmt =>
    show (planStream fmt s).All (SameHost s)
    unfold planStream
    rcases genCodes_cases s.buildTree with ⟨cs, b, _, he⟩ | ⟨_, he⟩ <;> rw [he]
    · exact (buildTree_headerOnly s).sameHost.trans
        ⟨rfl, rfl, rfl, rfl, rfl, rfl, rfl, rfl, rfl, rfl, rfl, rfl, rfl, rfl, rfl, fun _ => by
          show Phase.cost ≠ Phase.idle
          decide⟩
    · trivial
  | needPlan => exact needHost _
  | gate force =>
    show (gate force s).All (SameHost s)
    unfold gate
    split
    · exact same rfl rfl rfl rfl rfl rfl rfl rfl rfl rfl rfl rfl rfl rfl rfl rfl
    · exact SameHost.refl s
  | markW => exact same rfl rfl rfl rfl rfl rfl rfl rfl rfl rfl rfl rfl rfl rfl rfl rfl
  | markR => exact same rfl rfl rfl rfl rfl rfl rfl rfl rfl rfl rfl rfl rfl rfl rfl rfl
  | headerWrite =>
    show (headerWrite s.planFmt s).All (SameHost s)
    unfold headerWrite
    split
    · trivial
    · exact (emit_footprint _ _).mono fun _ h => (moved .hdrWrite (by decide)).trans h.sameHost
  | encodeBody => exact (encodeLoop_footprint _ _).mono fun _ h => (moved .encodeBody (by decide)).trans h.sameHost
  | magic => exact (readMagic_footprint s).mono fun _ h => h.sameHost
  | selector => exact (readSelector_footprint s).mono fun _ h => h.sameHost
  | countFields left => exact (countFields_footprint _ s).mono fun _ h => h.sameHost
  | treeLen => exact (treeHeader_footprint s).mono fun _ h => h.sameHost
  | treeNode => exact (treeFrom_footprint s).mono fun _ h => h.sameHost
  | treeSym i => exact (treeSymFrom_footprint i s).mono fun _ h => h.sameHost
  | treeSpare => exact (spareLoop_footprint _ s).mono fun _ h => h.sameHost
  | decodeStart =>
    exact keep rfl rfl rfl rfl rfl rfl rfl rfl rfl rfl rfl rfl rfl rfl rfl fun _ => by
      show Phase.decodeBody ≠ Phase.idle
      decide
  | rewind => exact same rfl rfl rfl rfl rfl rfl rfl rfl rfl rfl rfl rfl rfl rfl rfl rfl
  | decodeBody => exact (decodeLoop_footprint _ s).mono fun _ h => h.sameHost
  | result r => exact same rfl rfl rfl rfl rfl rfl rfl rfl rfl rfl rfl rfl rfl rfl rfl rfl

theorem runWorks_host (ws : List Work) (s : State) : (runWorks ws s).All (SameHost s) := by
  induction ws generalizing s with
  | nil => exact SameHost.refl s
  | cons w ws ih =>
    exact Run.andThen_all (runWork_host w s) (fun _ h => h) fun s' _ h => (ih s').mono fun _ h' => h.trans h'

/-! ## The end of a command and the invariant -/

theorem finishError_shape {s : State} (h : s.Shape) (e : ErrCode) : (s.finishError e).Shape :=
  h.rest _ rfl rfl rfl rfl rfl rfl rfl rfl

/-- A termination keeps the invariant, whether it ends the command or holds at its `Abort` (60_exceptions.md rule
R160). -/
theorem terminate_inv {s : State} (h : s.Shape) (hb : s.reader.buf.length < 8) (e : ErrCode)
    (hr : s.busy = true → s.phase ≠ .idle ∧ s.done = false ∧ s.err = .none)
    (ho : s.opened = true → s.busy = true) : (s.terminate e).Inv := by
  have idle : ∀ {s' : State}, s'.Shape → s'.reader.buf.length < 8 → (s'.finishError e).Inv := fun h1 h2 =>
    { toShape := finishError_shape h1 e
      toFits := ⟨rfl, rfl, .inl h2⟩
      idle := fun _ => ⟨rfl, rfl, rfl⟩
      running := fun hh => absurd hh Bool.false_ne_true }
  rcases terminate_cases s e with ⟨_, he⟩ | ⟨_, _, a, _, he⟩ | ⟨hop, _, _, he⟩ <;> rw [he]
  · exact idle (s' := { s with result := 0#64 }) (h.rest _ rfl rfl rfl rfl rfl rfl rfl rfl) hb
  · exact idle (s' := { s with
      result := 0#64, writer := ⟨true, [], s.writer.bits⟩, sink := s.sink.record .abort a })
      ((h.writer ⟨true, [], s.writer.bits⟩ s.sink s.draws (fun _ => rfl) (Nat.zero_lt_succ 7)).rest _ rfl rfl rfl rfl rfl
        rfl rfl rfl) hb
  · exact
      { toShape := (h.writer ⟨true, [], s.writer.bits⟩ s.sink s.draws (fun _ => rfl) (Nat.zero_lt_succ 7)).rest _ rfl rfl
          rfl rfl rfl rfl rfl rfl
        toFits := ⟨rfl, rfl, .inl hb⟩
        idle := fun hh => absurd ((ho hop).symm.trans hh) (by simp)
        running := hr }

/-- A running command's steps end or hold in the invariant. -/
theorem settle_inv {s : State} {ws : List Work} (h : s.Shape) (hf : s.Fits ws) (hb : s.busy = true)
    (hr : s.phase ≠ .idle ∧ s.done = false ∧ s.err = .none) :
    ∃ s', (runWorks ws s).settle = .next s' ∧ s'.Inv := by
  have hs := runWorks_safe ws h hf
  have hh := runWorks_host ws s
  have done : ∀ {s' : State}, s'.Shape → s'.reader.buf.length < 8 → s'.succeed.Inv := fun h1 h2 =>
    { toShape := h1.rest _ rfl rfl rfl rfl rfl rfl rfl rfl
      toFits := ⟨rfl, rfl, .inl h2⟩
      idle := fun _ => ⟨rfl, rfl, rfl⟩
      running := fun hh => absurd hh Bool.false_ne_true }
  have run : ∀ {s' : State}, SameHost s s' → s'.busy = true → s'.phase ≠ .idle ∧ s'.done = false ∧ s'.err = .none :=
    fun h1 _ => ⟨h1.phase hr.1, h1.done.trans hr.2.1, h1.err.trans hr.2.2⟩
  cases hrun : runWorks ws s with
  | done s' =>
    rw [hrun] at hs hh
    exact ⟨_, rfl, done hs.1 (hs.2.rBuf.elim id fun h0 => absurd h0 (Nat.not_lt_zero _))⟩
  | ended s' =>
    rw [hrun] at hs hh
    exact ⟨_, rfl, done hs.1 hs.2⟩
  | raised e s' =>
    rw [hrun] at hs hh
    exact ⟨_, rfl, terminate_inv hs.1 hs.2 e (run hh) (fun _ => hh.busy.trans hb)⟩
  | held s' left =>
    rw [hrun] at hs hh
    have hfit : s'.Fits left := by simpa using hs.2
    refine ⟨_, rfl, ?_⟩
    exact
      { toShape := hs.1.rest _ rfl rfl rfl rfl rfl rfl rfl rfl
        toFits := ⟨hfit.writer, hfit.tables, hfit.rBuf⟩
        idle := fun h0 => absurd ((hh.busy.trans hb).symm.trans h0) (by simp)
        running := fun _ => ⟨hh.phase hr.1, hh.done.trans hr.2.1, hh.err.trans hr.2.2⟩ }
  | stuck f => rw [hrun] at hs; exact hs.elim

/-- Going on with a command keeps the invariant, and never stops the machine. -/
theorem resume_inv {s : State} (h : s.Inv) : ∃ s', resume s = .next s' ∧ s'.Inv := by
  unfold resume
  split
  · rename_i hb
    have hb' : s.busy = true := by simp only [Bool.and_eq_true] at hb; exact hb.1
    exact settle_inv h.toShape h.toFits hb' (h.running hb')
  · exact ⟨s, rfl, h⟩

/-- Starting a command whose steps fit the state keeps the invariant, and never stops the machine. -/
theorem launch_inv {s : State} {p : Phase} {ws : List Work} (h : s.Shape) (hf : s.Fits ws) (hb : s.busy = true)
    (hd : s.done = false) (he : s.err = .none) (hp : p ≠ .idle) : ∃ s', launch p ws s = .next s' ∧ s'.Inv := by
  have h1 : ({ s with phase := p, opened := false } : State).Shape := h.rest _ rfl rfl rfl rfl rfl rfl rfl rfl
  unfold launch
  simp only
  split
  · refine ⟨_, rfl, ?_⟩
    exact
      { toShape := h.rest _ rfl rfl rfl rfl rfl rfl rfl rfl
        toFits := ⟨hf.writer, hf.tables, hf.rBuf⟩
        idle := fun h0 => absurd (hb.symm.trans h0) (by simp)
        running := fun _ => ⟨hp, hd, he⟩ }
  · exact settle_inv h1 ⟨hf.writer, hf.tables, hf.rBuf⟩ hb ⟨hp, hd, he⟩

/-- Every command that was accepted keeps the invariant, and none stops the machine (30_encoding.md rule R78). -/
theorem exec_inv (i : Instr) {s : State} (hs : s.Shape) (hb : s.busy = true) (hd : s.done = false) (he : s.err = .none)
    (hr : s.reader.buf.length < 8) : ∃ s', exec i s = .next s' ∧ s'.Inv := by
  have fit : ∀ ws, writerReady true ws = true ∧ writerReady false ws = true →
      tablesReady false false false ws = true → s.Fits ws := by
    intro ws h1 h2
    refine ⟨writerFit_of_ready ?_, tablesFit_of_ready (p := false) (t := false) (c := false) (by simp) (by simp)
      (by simp) h2, .inl hr⟩
    cases s.writer.closed <;> simp [h1]
  cases i <;> exact launch_inv hs (fit _ ⟨rfl, rfl⟩ rfl) hb hd he (by decide)

/-- A step that leaves the engine and its tables alone keeps the invariant. -/
theorem State.Inv.rest {s : State} (h : s.Inv) (s' : State) (h1 : s'.cfg = s.cfg) (h2 : s'.writer = s.writer)
    (h3 : s'.reader = s.reader) (h4 : s'.planValid = s.planValid) (h5 : s'.treeValid = s.treeValid)
    (h6 : s'.codesValid = s.codesValid) (h7 : s'.codes = s.codes) (h8 : s'.store = s.store) (h9 : s'.stack = s.stack)
    (h10 : s'.work = s.work) (h11 : s'.busy = s.busy) (h12 : s'.phase = s.phase) (h13 : s'.opened = s.opened)
    (h14 : s'.done = s.done) (h15 : s'.err = s.err) : s'.Inv := by
  refine { toShape := h.toShape.rest s' h1 h2 h3 h4 h5 h6 h7 h8, toFits := ⟨?_, ?_, ?_⟩, idle := ?_, running := ?_ }
  · have := h.writer; unfold State.WriterFit at this ⊢; rw [h10, h2]; exact this
  · have := h.tables; unfold State.TablesFit at this ⊢; rw [h10, h4, h5, h8, h9]; exact this
  · rw [h10, h3]; exact h.rBuf
  · rw [h11, h12, h10, h13]; exact h.idle
  · rw [h11, h12, h14, h15]; exact h.running

end Sys2Proof.Machine
end

