-- ==== Sys2Proof/Laws/Decoding.lean ====
section
/-! SUPPORT. Codes and their lengths, the symbols of a built tree, the walk of a decoder down a tree, and code
generation. -/

namespace Sys2Proof.Machine

/-! ## Paths -/

/-- The leaves of a tree in a store, in pre-order, are its nodes of kind Leaf (43_tree.md rule R116). -/
theorem paths_symbols {st : NodeStore} {i : NodeIx} {t : HTree} (h : st.holds i t) :
    t.paths.map (·.1) = ((st.indices i t).filter fun k => (st.node k).leaf).map fun k => (st.node k).sym := by
  induction t generalizing i with
  | leaf y =>
    simp only [NodeStore.holds] at h
    simp [HTree.paths, NodeStore.indices, h.1, h.2]
  | node l r ihl ihr =>
    simp only [NodeStore.holds] at h
    simp only [HTree.paths, NodeStore.indices, List.map_append, List.map_map, List.filter_cons, h.1, Bool.false_eq_true,
      if_false, List.filter_append, ← ihl h.2.1, ← ihr h.2.2]
    rfl

theorem paths_count (t : HTree) : t.paths.length = t.leaves := by
  induction t with
  | leaf y => rfl
  | node l r ihl ihr => simp [HTree.paths, HTree.leaves, ihl, ihr]

/-- A tree is at most its leaves less one deep (43_tree.md rule R113). -/
theorem depth_lt_leaves (t : HTree) : t.depth + 1 ≤ t.leaves := by
  have := t.two_depth_lt_size
  have := t.size_eq
  omega

/-- "No code is the prefix of another" (44_codetable.md rule R126): a leaf's path is no beginning of another's. -/
theorem paths_prefixFree {t : HTree} {e f : Symbol × Bits} (he : e ∈ t.paths) (hf : f ∈ t.paths) (h : e.2 <+: f.2) :
    e = f := by
  induction t generalizing e f with
  | leaf y => simp only [HTree.paths, List.mem_singleton] at he hf; rw [he, hf]
  | node l r ihl ihr =>
    simp only [HTree.paths, List.mem_append, List.mem_map] at he hf
    rcases he with ⟨e, he, rfl⟩ | ⟨e, he, rfl⟩ <;> rcases hf with ⟨f, hf, rfl⟩ | ⟨f, hf, rfl⟩
    · have := ihl he hf ((List.cons_prefix_cons.1 h).2); subst this; rfl
    · exact absurd (List.cons_prefix_cons.1 h).1 (by decide)
    · exact absurd (List.cons_prefix_cons.1 h).1 (by decide)
    · have := ihr he hf ((List.cons_prefix_cons.1 h).2); subst this; rfl

/-- A code is a leaf's path (rule R125). -/
theorem codeOf_mem {t : HTree} {y : Symbol} (h : (t.codeOf y).valid = true) : (y, (t.codeOf y).bits) ∈ t.paths := by
  unfold HTree.codeOf at h ⊢
  cases hf : t.paths.reverse.find? (fun e => e.1 == y) with
  | none => rw [hf] at h; cases h
  | some e =>
    have h1 := List.mem_of_find?_eq_some hf
    have h2 : e.1 = y := by simpa using List.find?_some hf
    rw [← h2]
    exact List.mem_reverse.1 h1

/-- The symbols with a code are those of the leaves (rule R125). -/
theorem codeOf_valid (t : HTree) (y : Symbol) : (t.codeOf y).valid = true ↔ y ∈ t.paths.map (·.1) := by
  constructor
  · exact fun h => List.mem_map.2 ⟨_, codeOf_mem h, rfl⟩
  · intro h
    obtain ⟨e, he, rfl⟩ := List.mem_map.1 h
    unfold HTree.codeOf
    cases hf : t.paths.reverse.find? (fun f => f.1 == e.1) with
    | some f => rfl
    | none =>
      have := List.find?_eq_none.1 hf e (List.mem_reverse.2 he)
      simp at this

theorem codeOf_noCode {t : HTree} {y : Symbol} (h : (t.codeOf y).valid = false) : t.codeOf y = ⟨false, []⟩ := by
  unfold HTree.codeOf at h ⊢
  cases hf : t.paths.reverse.find? (fun e => e.1 == y) with
  | none => rfl
  | some e => rw [hf] at h; cases h

/-- Summing over the values of a list, each as often as it occurs, is summing over the list. -/
theorem sum_counts {α : Type} [DecidableEq α] (keys : List α) (hn : keys.Nodup) (g : α → Nat) (xs : List α)
    (hx : ∀ x ∈ xs, x ∈ keys) : (keys.map fun k => xs.count k * g k).sum = (xs.map g).sum := by
  have one : ∀ (ks : List α) (x : α), ks.Nodup → x ∈ ks → (ks.map fun k => if k = x then g x else 0).sum = g x := by
    intro ks x hk hm
    induction ks with
    | nil => cases hm
    | cons k ks ih =>
      rw [List.nodup_cons] at hk
      rw [List.map_cons, List.sum_cons]
      by_cases hkx : k = x
      · subst hkx
        have : (ks.map fun j => if j = k then g k else 0).sum = 0 := by
          rw [List.sum_eq_zero_iff]
          intro v hv
          obtain ⟨j, hj, rfl⟩ := List.mem_map.1 hv
          exact if_neg fun h : j = k => hk.1 (h ▸ hj)
        rw [this, if_pos rfl, Nat.add_zero]
      · rw [if_neg hkx, Nat.zero_add]
        exact ih hk.2 ((List.mem_cons.1 hm).resolve_left fun h => hkx h.symm)
  induction xs with
  | nil => simp
  | cons x xs ih =>
    rw [List.map_cons, List.sum_cons, ← ih fun y hy => hx y (List.mem_cons_of_mem _ hy), ← one keys x hn (hx x (by simp)),
      ← List.sum_map_add]
    congr 1
    apply List.map_congr_left
    intro k _
    by_cases hk : k = x
    · subst hk; rw [List.count_cons_self, if_pos rfl]; ring
    · rw [List.count_cons_of_ne (fun h => hk h.symm), if_neg hk, Nat.zero_add]

theorem symbolOfByte_inj {a b : Byte} (h : symbolOfByte a = symbolOfByte b) : a = b :=
  BitVec.eq_of_toNat_eq (show (symbolOfByte a).val = (symbolOfByte b).val by rw [h])

theorem symbolOfByte_ne (b : Byte) : symbolOfByte b ≠ Config.pseudoEof := by
  intro h
  have h1 : b.toNat = 256 := congrArg Fin.val h
  have := b.isLt
  omega

/-- Every symbol but the pseudo-EOF is a byte (00_scope.md rule R12). -/
theorem symbol_cases (y : Symbol) : y = Config.pseudoEof ∨ ∃ b : Byte, symbolOfByte b = y := by
  by_cases h : y.val = 256
  · exact .inl (Fin.ext h)
  · have := y.isLt
    refine .inr ⟨BitVec.ofNat 8 y.val, Fin.ext ?_⟩
    show (BitVec.ofNat 8 y.val).toNat = y.val
    rw [BitVec.toNat_ofNat, Nat.mod_eq_of_lt (by omega)]

/-- The body of a stream is as long as the cost formula says (rule R126, 46_compressor.md rule R140). -/
theorem bodyOf_length (t : HTree) (bs : List Byte) (freq : Symbol → Word)
    (hb : ∀ b : Byte, (freq (symbolOfByte b)).toNat = bs.count b) (he : freq Config.pseudoEof = 1#32) :
    (bodyOf t bs).length = bodyCost freq t := by
  have h := sum_counts symbols symbols_nodup (fun y => (t.codeOf y).bits.length)
    (bs.map symbolOfByte ++ [Config.pseudoEof]) (fun x _ => mem_symbols x)
  have hc : ∀ y : Symbol, (bs.map symbolOfByte ++ [Config.pseudoEof]).count y = (freq y).toNat := by
    intro y
    rcases symbol_cases y with rfl | ⟨b, rfl⟩
    · rw [List.count_append, he, List.count_eq_zero.2]
      · simp
      · intro hm
        obtain ⟨b, _, hb'⟩ := List.mem_map.1 hm
        exact symbolOfByte_ne b hb'
    · rw [List.count_append, hb, List.count_singleton, if_neg (by simpa using (symbolOfByte_ne b).symm), Nat.add_zero,
        List.count_map_of_injective _ _ (fun _ _ h => symbolOfByte_inj h)]
  simp only [hc] at h
  rw [bodyCost, h]
  simp [bodyOf, List.length_flatMap, Function.comp_def]

/-! ## Built trees -/

/-- The leaves of the tree that `BuildTree` makes are the symbols with a positive frequency (43_tree.md rules R111,
R114). -/
theorem buildTree_symbols {s : State} (h : s.store = NodeStore.empty) {t : HTree} (ht : s.buildTree.store.complete t) :
    (t.paths.map (·.1)).Perm (symbols.filter fun y => s.freqAt y != 0#32) := by
  obtain ⟨_, b2, b3, b4, b5, _⟩ := buildTree_spec s h
  have hL := leafCount_positives s
  have hle := positives_length_le s
  obtain ⟨h1, h2, h3, h4⟩ := ht
  have hpos : (positives s.freqTable).map (·.1) = symbols.filter fun y => s.freqAt y != 0#32 := by
    rw [positives, freqTable_eq, List.filter_map, List.map_map]
    simp [Function.comp_def]
  have hsz : s.buildTree.store.count.val ≤ 513 := by omega
  have hperm : (s.buildTree.store.indices s.buildTree.store.root t).Perm
      (List.ofFn fun k : Fin s.buildTree.store.count.val => (⟨k.val, by omega⟩ : NodeIx)) := by
    refine (List.subperm_of_subset h2 ?_).perm_of_length_le ?_
    · intro k hk
      rw [List.mem_ofFn']
      exact ⟨⟨k.val, h4 k hk⟩, rfl⟩
    · rw [NodeStore.indices_length, List.length_ofFn, h3]
  rw [paths_symbols h1, ← hpos]
  refine ((hperm.filter _).map _).trans ?_
  have hsplit : (List.ofFn fun k : Fin s.buildTree.store.count.val => (⟨k.val, by omega⟩ : NodeIx)) =
      (List.ofFn fun k : Fin (positives s.freqTable).length => (⟨k.val, by omega⟩ : NodeIx)) ++
      (List.ofFn fun k : Fin (s.leafCount - 1) => (⟨s.leafCount + k.val, by omega⟩ : NodeIx)) := by
    apply List.ext_getElem
    · simp; omega
    · intro k h1 h2
      simp only [List.getElem_ofFn]
      by_cases hk : k < (positives s.freqTable).length
      · rw [List.getElem_append_left (by simpa using hk)]; simp
      · rw [List.getElem_append_right (by simpa using hk)]
        simp only [List.length_ofFn, List.getElem_ofFn, Fin.mk.injEq]
        omega
  rw [hsplit, List.filter_append, List.filter_eq_self.2, List.filter_eq_nil_iff.2, List.append_nil]
  · apply List.Perm.of_eq
    apply List.ext_getElem
    · simp
    · intro k h1 h2
      simp only [List.getElem_map, List.getElem_ofFn]
      rw [b4 k (by simpa using h1)]
  · intro k hk
    rw [List.mem_ofFn'] at hk
    obtain ⟨j, rfl⟩ := hk
    obtain ⟨l, r, _, _, e⟩ := b5 j.val (by omega)
    simp only [e]
    simp
  · intro k hk
    rw [List.mem_ofFn'] at hk
    obtain ⟨j, rfl⟩ := hk
    simp only [b4 j.val j.isLt]

/-- A built tree has a code for each symbol with a positive frequency and for no other (rule R111, 44_codetable.md rule
R125). -/
theorem buildTree_codes {s : State} (h : s.store = NodeStore.empty) {t : HTree} (ht : s.buildTree.store.complete t)
    (y : Symbol) : (t.codeOf y).valid = true ↔ s.freqAt y ≠ 0#32 := by
  rw [codeOf_valid, (buildTree_symbols h ht).mem_iff]
  simp

/-! ## Generating codes -/

/-- Code generation over a cleared code table gives the tree's codes (44_codetable.md rules R125, R126). -/
theorem genCodes_complete {s : State} {t : HTree} (h : s.store.complete t)
    (hc : s.codes = Vector.replicate 257 ⟨false, []⟩) :
    genCodes s = .done { s with
      phase := .codegen, codes := t.codeTable, codesValid := true
      bodyBits := BitVec.ofNat 64 (bodyCost s.freqAt t) } := by
  have hcs : setPaths t.paths [] s.codes = t.codeTable := by
    apply Vector.ext
    intro i hi
    have := setPaths_codeOf t s.codes ⟨i, hi⟩ (.inl fun z => by simp [hc])
    simp only at this
    rw [this]
    simp [HTree.codeTable]
  have hsum : ({ s with phase := .codegen, codes := t.codeTable, codesValid := true } : State).bodySum =
      bodyCost s.freqAt t := by
    rw [State.bodySum, freqTable_eq, bodyCost]
    refine congrArg List.sum ?_
    apply List.ext_getElem
    · simp
    · intro i h1 h2
      have hi : i < 257 := by simpa using h2
      have hy : symbols[i]'(by simpa using hi) = ⟨i, hi⟩ := by simp [symbols]
      simp only [List.getElem_zipWith, List.getElem_map, hy]
      simp [HTree.codeTable, State.freqAt]
  simp only [genCodes, h.codesOver, hcs, hsum]

/-- "Below 2^49" (rule R126). -/
theorem bodyCost_lt {st : NodeStore} {t : HTree} (h : st.complete t) (freq : Symbol → Word) : bodyCost freq t < 2 ^ 49 := by
  have hd : t.depth ≤ 256 := by
    have := t.two_depth_lt_size
    have := h.2.2.1
    have := st.count.isLt
    omega
  have : ∀ ys : List Symbol, (ys.map fun y => (freq y).toNat * (t.codeOf y).bits.length).sum ≤ ys.length * (2 ^ 32 * 256) := by
    intro ys
    induction ys with
    | nil => simp
    | cons y ys ih =>
      rw [List.map_cons, List.sum_cons, List.length_cons, Nat.add_mul, Nat.one_mul, Nat.add_comm]
      exact Nat.add_le_add ih (Nat.mul_le_mul (Nat.le_of_lt (freq y).isLt) ((t.codeOf_length y).trans hd))
  have h2 := this symbols
  rw [symbols_length] at h2
  unfold bodyCost
  omega

/-! ## Decoding -/

/-- A decoder at a node (47_decompressor.md rule R151). -/
def State.atNode (s : State) (i : NodeIx) : State := { s with cur := i }

/-- Reading the first bits of a leaf's path walks down to the subtree they lead to (rule R151). -/
theorem decodeLoop_walk (p q : Bits) {t : HTree} {y : Symbol} {s : State} {i : NodeIx} {pre post : Bits} {bs : List Byte}
    {rest : List InToken} (hh : s.store.holds i t) (he : (y, p ++ q) ∈ t.paths) (h : s.Carries (pre ++ p ++ post) bs rest) :
    ∃ (j : NodeIx) (u : HTree), s.store.holds j u ∧ (y, q) ∈ u.paths ∧ ∀ n,
      decodeLoop (p.length + n) ((s.atNode i).afterBits bs rest pre.length) =
        decodeLoop n ((s.atNode j).afterBits bs rest (pre.length + p.length)) := by
  induction p generalizing t i pre with
  | nil => exact ⟨i, t, hh, he, fun n => by simp⟩
  | cons b p ih =>
    cases t with
    | leaf z => simp [HTree.paths] at he
    | node l r =>
      simp only [NodeStore.holds] at hh
      have h1 : (s.atNode i).Carries (pre ++ [b] ++ (p ++ post)) bs rest :=
        carries_congr (s := s) (by simpa [List.append_assoc] using h) rfl rfl
      have h2 : s.Carries ((pre ++ [b]) ++ p ++ post) bs rest := by simpa [List.append_assoc] using h
      have r1 := readBits_at h1
      rw [List.length_singleton] at r1
      have step : ∀ k n, (k = if b then (s.store.node i).right else (s.store.node i).left) →
          decodeLoop ((b :: p).length + n) ((s.atNode i).afterBits bs rest pre.length) =
            decodeLoop (p.length + n) ((s.atNode k).afterBits bs rest (pre ++ [b]).length) := by
        intro k n hk
        have hleaf : ¬((((s.atNode i).afterBits bs rest pre.length).store.node
            ((s.atNode i).afterBits bs rest pre.length).cur).leaf = true) := by
          show ¬((s.store.node i).leaf = true)
          rw [hh.1]
          exact Bool.false_ne_true
        rw [List.length_cons, show p.length + 1 + n = (p.length + n) + 1 by omega, decodeLoop, if_neg hleaf, r1]
        simp only [ReadResult.andThen]
        congr 1
        rw [List.length_append, List.length_singleton]
        cases b <;> simp only [Bool.false_eq_true, if_false, if_true] at hk <;> rw [hk] <;> rfl
      cases b with
      | false =>
        have he' : (y, p ++ q) ∈ l.paths := by simpa [HTree.paths] using he
        obtain ⟨j, u, hu, hm, hd⟩ := ih hh.2.1 he' h2
        refine ⟨j, u, hu, hm, fun n => ?_⟩
        rw [step _ n rfl, if_neg Bool.false_ne_true, hd n]
        simp [Nat.add_assoc, Nat.add_comm 1]
      | true =>
        have he' : (y, p ++ q) ∈ r.paths := by simpa [HTree.paths] using he
        obtain ⟨j, u, hu, hm, hd⟩ := ih hh.2.2 he' h2
        refine ⟨j, u, hu, hm, fun n => ?_⟩
        rw [step _ n rfl, if_pos rfl, hd n]
        simp [Nat.add_assoc, Nat.add_comm 1]

/-- The subtree a whole path leads to is its leaf. -/
theorem leaf_of_path {st : NodeStore} {j : NodeIx} {u : HTree} {y : Symbol} (h : st.holds j u) (hm : (y, []) ∈ u.paths) :
    (st.node j).leaf = true ∧ (st.node j).sym = y := by
  cases u with
  | leaf z =>
    simp only [NodeStore.holds] at h
    simp only [HTree.paths, List.mem_singleton, Prod.mk.injEq] at hm
    rw [hm.1]
    exact h
  | node l r => simp [HTree.paths] at hm

/-- The codes of a run of bytes in a tree (46_compressor.md rule R145). -/
def HTree.codesOf (t : HTree) (xs : List Byte) : Bits := xs.flatMap fun b => (t.codeOf (symbolOfByte b)).bits

/-- The codes of a run of bytes are one way to spell it (rule R151). -/
theorem spells_codesOf {t : HTree} {xs : List Byte} (hv : ∀ b ∈ xs, (t.codeOf (symbolOfByte b)).valid = true) :
    t.Spells xs (t.codesOf xs) := by
  induction xs with
  | nil => exact .nil
  | cons b xs ih => exact .cons (codeOf_mem (hv b (by simp))) (ih fun x hx => hv x (by simp [hx]))

/-- In a decoder's tree every byte costs at least a bit: only the pseudo-EOF can be the root (43_tree.md rule R119). -/
theorem HTree.Spells.length_le {t : HTree} (hd : t.decodable = true) {xs : List Byte} {body : Bits}
    (h : t.Spells xs body) : xs.length ≤ body.length := by
  induction h with
  | nil => exact Nat.le_refl _
  | @cons b p xs body hp _ ih =>
    have : p ≠ [] := by
      rintro rfl
      cases t with
      | leaf y =>
        have hy : symbolOfByte b = y := by simpa [HTree.paths] using hp
        exact symbolOfByte_ne b (hy.trans (by simpa [HTree.decodable] using hd))
      | node l r => simp [HTree.paths] at hp
    have := List.length_pos_of_ne_nil this
    rw [List.length_cons, List.length_append]
    omega

/-- The decoding loop over bits that spell a run of bytes writes the bytes and is at the root again (rule R151). -/
theorem decodeLoop_spells {t : HTree} {xs : List Byte} {body : Bits} (hsp : t.Spells xs body) {s : State}
    {pre post : Bits} {bs : List Byte} {rest : List InToken} (hh : s.store.holds s.store.root t)
    (h : s.Carries (pre ++ body ++ post) bs rest) (hw : s.CanWrite (streamBits xs)) (n : Nat) :
    decodeLoop (body.length + xs.length + n) ((s.atNode s.store.root).afterBits bs rest pre.length) =
      decodeLoop n (((s.written (streamBits xs)).atNode s.store.root).afterBits bs rest
        (pre.length + body.length)) := by
  induction hsp generalizing s pre with
  | nil =>
    have := written_nil hw.buf
    simp [this]
  | @cons b c xs body hp _ ih =>
    rw [streamBits_cons] at hw ⊢
    obtain ⟨w1, w2, w3⟩ := canWrite_append hw
    have hp : (symbolOfByte b, c ++ []) ∈ t.paths := by rw [List.append_nil]; exact hp
    obtain ⟨j, u, hu, hm, hd⟩ := decodeLoop_walk c [] hh hp (pre := pre) (post := body ++ post)
      (by simpa [List.append_assoc] using h)
    obtain ⟨hl, hs⟩ := leaf_of_path hu hm
    have hlen : (c ++ body).length + (b :: xs).length + n = c.length + ((body.length + xs.length + n) + 1) := by
      simp; omega
    rw [hlen, hd]
    set s₁ := (s.atNode j).afterBits bs rest (pre.length + c.length) with hs₁
    have hl₁ : (s₁.store.node s₁.cur).leaf = true := hl
    have hs₁' : (s₁.store.node s₁.cur).sym = symbolOfByte b := hs
    rw [decodeLoop, if_pos hl₁, hs₁', if_neg (symbolOfByte_ne b)]
    have hbits : binN Config.wordWidth (symbolOfByte b).val = bitsOfByte b := rfl
    have hw₁ : s₁.CanWrite (bitsOfByte b) := ⟨w1.buf, w1.wbits, w1.accepts⟩
    rw [hbits, emit_canWrite hw₁, Run.andThen_done]
    have e1 : (s₁.written (bitsOfByte b)).rewind =
        ((s.written (bitsOfByte b)).atNode (s.written (bitsOfByte b)).store.root).afterBits bs rest
          (pre ++ c).length := by rw [List.length_append]; rfl
    rw [e1, ih (s := s.written (bitsOfByte b)) hh
      (carries_congr (s := s) (by simpa [List.append_assoc] using h) rfl rfl) w2, w3]
    congr 1
    simp only [List.length_append, Nat.add_assoc]
    rfl

end Sys2Proof.Machine
end

