-- ==== Sys2Proof/Laws/Runs.lean ====
section
/-! SUPPORT. Each command that gets time as one run of its pseudocode, the headers a reader reads and a writer writes, and
how a run ends. -/

namespace Sys2Proof.Machine

/-! ## Starting and ending -/

/-- A command at its first step (30_encoding.md rule R78). -/
def State.begun (s : State) (p : Phase) : State := { s with phase := p, opened := false }

theorem launch_begun {s : State} (h : s.stalled = false) (p : Phase) (ws : List Work) :
    launch p ws s = (runWorks ws (s.begun p)).settle := launch_runs h p ws

@[simp] theorem andThen_nil (r : Run) : r.andThen [] .done = r := by cases r <;> simp [Run.andThen]

theorem runWorks_one (w : Work) (s : State) : runWorks [w] s = runWork w s := andThen_nil _

theorem settle_done (s : State) : (Run.done s).settle = .next s.endsQuietly := rfl

theorem settle_ended (s : State) : (Run.ended s).settle = .next s.endsQuietly := rfl

/-- The end of a command with a RESULT in its range (10_state.md rule R33). -/
theorem settle_result {s : State} {v : Int} (h : fitsS64 v = true) :
    (Run.done (s.setResult v)).settle = .next (s.endsWith v) := by
  rw [setResult_of_fits h]
  rfl

/-- An error end without an `Abort` (60_exceptions.md rule R160). -/
theorem settle_raised {s : State} {e : ErrCode} (h : s.opened = false) :
    (Run.raised e s).settle = .next (s.endsInError e) := by
  simp [Run.settle, State.terminate, h, State.endsInError, State.finishError, State.toIdle]

/-- An error end with an `Abort` (rule R160, 41_bitstream.md rule R90). -/
theorem settle_aborted {s : State} {e : ErrCode} {a : Answer} (h : s.opened = true) (hc : s.writer.closed = false)
    (hk : s.sink.answerAt 0 = some a) : (Run.raised e s).settle = .next (s.abortsWith e a) := by
  rw [← Sink.next_eq] at hk
  simp [Run.settle, State.terminate, h, hc, State.push, hk, State.abortsWith, State.endsInError, State.finishError,
    State.toIdle]

theorem fitsS64_nat {n : Nat} (h : n < 2 ^ 63) : fitsS64 (n : Int) = true := by
  simp only [fitsS64, Bool.and_eq_true, decide_eq_true_eq]
  omega

theorem fitsS64_sub {m n : Nat} (h : n ≤ m) (hm : m - n < 2 ^ 63) : fitsS64 ((m : Int) - n) = true := by
  simp only [fitsS64, Bool.and_eq_true, decide_eq_true_eq]
  omega

theorem toNat_ofNat64 {n : Nat} (h : n < 2 ^ 64) : (BitVec.ofNat 64 n).toNat = n := by
  rw [BitVec.toNat_ofNat, Nat.mod_eq_of_lt h]

/-- A precondition that does not hold (60_exceptions.md rule R161). -/
theorem settle_need_fails {s : State} {w : Work} {p : Phase} {ws : List Work}
    (h : runWork w (s.begun p) = .raised .illegalUsage (s.begun p)) :
    (runWorks (w :: ws) (s.begun p)).settle = .next (s.endsInError .illegalUsage) := by
  rw [runWorks_cons, h]
  exact settle_raised rfl

/-! ## The commands -/

theorem begun_opensIfClosed (s : State) (p : Phase) : (s.begun p).opensIfClosed = s.opensIfClosed.begun p := by
  unfold State.opensIfClosed
  show (if s.writer.closed then _ else _) = _
  split <;> rfl

@[simp] theorem opensIfClosed_larg (s : State) : s.opensIfClosed.larg = s.larg := by
  unfold State.opensIfClosed; split <;> rfl

@[simp] theorem opensIfClosed_planFmt (s : State) : s.opensIfClosed.planFmt = s.planFmt := by
  unfold State.opensIfClosed; split <;> rfl

@[simp] theorem opensIfClosed_store (s : State) : s.opensIfClosed.store = s.store := by
  unfold State.opensIfClosed; split <;> rfl

@[simp] theorem opensIfClosed_cfg (s : State) : s.opensIfClosed.cfg = s.cfg := by
  unfold State.opensIfClosed; split <;> rfl

@[simp] theorem opensIfClosed_freq (s : State) : s.opensIfClosed.freq = s.freq := by
  unfold State.opensIfClosed; split <;> rfl

/-- BS_WRITE (41_bitstream.md rule R95). -/
theorem exec_bsWrite {s : State} (width : BitVec 6) (h : s.stalled = false) :
    exec (.bsWrite width) s = (emit (binN width.toNat s.larg.toNat) (s.opensIfClosed.begun .bitio)).settle := by
  rw [show exec (.bsWrite width) s = launch .bitio [.bitio, .ensureOpen, .writeField width] s from rfl, launch_begun h,
    ← begun_opensIfClosed, ← opensIfClosed_larg s]
  have : s.opensIfClosed.larg = (s.begun .bitio).opensIfClosed.larg := by simp [State.begun]
  rw [this]
  show (runWorks [.writeField width] (s.begun .bitio).opensIfClosed).settle = _
  rw [runWorks_one]
  rfl

/-- BS_CLOSE (rule R96). -/
theorem exec_bsClose {s : State} (h : s.stalled = false) : exec .bsClose s = (closeStream (s.begun .bitio)).settle := by
  rw [show exec .bsClose s = launch .bitio [.bitio, .closeStream] s from rfl, launch_begun h]
  show (runWorks [.closeStream] (s.begun .bitio)).settle = _
  rw [runWorks_one]
  rfl

/-- BS_READ (rule R97). -/
theorem exec_bsRead {s : State} (width : BitVec 6) (h : s.stalled = false) :
    exec (.bsRead width) s = (readField width (s.begun .bitio)).settle := by
  rw [show exec (.bsRead width) s = launch .bitio [.bitio, .readField width] s from rfl, launch_begun h]
  show (runWorks [.readField width] (s.begun .bitio)).settle = _
  rw [runWorks_one]
  rfl

/-- FT_COUNT (42_frequency.md rule R108). -/
theorem exec_ftCount {s : State} (h : s.stalled = false) :
    exec .ftCount s = ((countStream 0 (s.cleared.freshReader.begun .count)).andThen [.result .origBits]
      fun t => .done (t.setResult t.origBits.toNat)).settle := by
  rw [show exec .ftCount s = launch .count [.clearAll, .rReset, .count 0, .result .origBits] s from rfl, launch_begun h]
  rfl

/-- TB_BUILD (43_tree.md rule R120). -/
theorem exec_tbBuild {s : State} (h : s.stalled = false) :
    exec .tbBuild s = (Run.done ((s.clearTree.begun .build).buildTree.setResult (s.clearTree.begun .build).leafCount)).settle := by
  rw [show exec .tbBuild s = launch .build [.clearTree, .build] s from rfl, launch_begun h]
  rfl

/-- CT_GEN (44_codetable.md rule R127). -/
theorem exec_ctGen {s : State} (h : s.stalled = false) :
    exec .ctGen s = if s.treeValid then ((genCodes (s.clearCodes.begun .codegen)).andThen [.result .bodyBits]
      fun t => .done (t.setResult t.bodyBits.toNat)).settle else .next (s.endsInError .illegalUsage) := by
  rw [show exec .ctGen s = launch .codegen [.needTree, .clearCodes, .genCodes, .result .bodyBits] s from rfl,
    launch_begun h]
  cases ht : s.treeValid with
  | false =>
    rw [settle_need_fails (by simp [runWork, need, State.begun, ht])]
    rfl
  | true =>
    rw [runWorks_cons, show runWork .needTree (s.begun .codegen) = .done (s.begun .codegen) from by
      simp [runWork, need, State.begun, ht], Run.andThen_done]
    rfl

/-- HDR_WRITE (45_header.md rule R137). -/
theorem exec_hdrWrite {s : State} (h : s.stalled = false) :
    exec .hdrWrite s = if s.planValid then
      ((headerWrite s.planFmt { s.opensIfClosed.begun .hdrWrite with mark := s.opensIfClosed.writer.bits }).andThen
        [.result .wbitsSinceMark] fun t => .done (t.setResult ((t.writer.bits.toNat : Int) - t.mark.toNat))).settle
      else .next (s.endsInError .illegalUsage) := by
  rw [show exec .hdrWrite s = launch .hdrWrite [.needPlan, .ensureOpen, .markW, .headerWrite, .result .wbitsSinceMark] s
    from rfl, launch_begun h]
  cases hp : s.planValid with
  | false =>
    rw [settle_need_fails (by simp [runWork, need, State.begun, hp])]
    rfl
  | true =>
    rw [runWorks_cons, show runWork .needPlan (s.begun .hdrWrite) = .done (s.begun .hdrWrite) from by
      simp [runWork, need, State.begun, hp], Run.andThen_done, if_pos rfl, ← opensIfClosed_planFmt s]
    have : (s.opensIfClosed.planFmt) = (s.begun .hdrWrite).opensIfClosed.planFmt := by simp [State.begun]
    have h2 : s.opensIfClosed.writer.bits = (s.begun .hdrWrite).opensIfClosed.writer.bits := by
      rw [begun_opensIfClosed]; rfl
    rw [this, h2, ← begun_opensIfClosed]
    rfl

/-- HDR_READ (rule R138). -/
theorem exec_hdrRead {s : State} (h : s.stalled = false) :
    exec .hdrRead s = ((readMagic { s.cleared.begun .validateMagic with mark := s.reader.bits }).andThen
      [.result .rbitsSinceMark] fun t => .done (t.setResult ((t.reader.bits.toNat : Int) - t.mark.toNat))).settle := by
  rw [show exec .hdrRead s = launch .validateMagic [.clearAll, .markR, .magic, .result .rbitsSinceMark] s from rfl,
    launch_begun h]
  rfl

/-- ESTIMATE (46_compressor.md rule R141). -/
theorem exec_estimate {s : State} (fmt : Fmt) (h : s.stalled = false) :
    exec (.estimate fmt) s = ((countStream 0 (s.cleared.freshReader.begun .count)).andThen [.plan fmt]
      (planStream fmt)).settle := by
  rw [show exec (.estimate fmt) s = launch .count [.clearAll, .rReset, .count 0, .plan fmt] s from rfl, launch_begun h]
  have : runWorks [.plan fmt] = planStream fmt := funext fun t => runWorks_one (.plan fmt) t
  rw [← this]
  rfl

/-- COMPRESS without a plan (60_exceptions.md rule R161). -/
theorem exec_compress_noPlan {s : State} (force : Bool) (h : s.stalled = false) (hp : s.planValid = false) :
    exec (.compress force) s = .next (s.endsInError .illegalUsage) := by
  rw [show exec (.compress force) s = launch .hdrWrite [.needPlan, .gate force, .rReset, .closeStream, .openStream,
    .headerWrite, .encodeBody, .closeStream, .result .wbits] s from rfl, launch_begun h]
  exact settle_need_fails (by simp [runWork, need, State.begun, hp])

/-- COMPRESS refused (46_compressor.md rule R143). -/
theorem exec_compress_refused {s : State} {force : Bool} (h : s.stalled = false) (hp : s.planValid = true)
    (hr : s.refuses force = true) : exec (.compress force) s = .next { s with result := s.planSaved }.endsQuietly := by
  rw [show exec (.compress force) s = launch .hdrWrite [.needPlan, .gate force, .rReset, .closeStream, .openStream,
    .headerWrite, .encodeBody, .closeStream, .result .wbits] s from rfl, launch_begun h]
  have h1 : runWork .needPlan (s.begun .hdrWrite) = .done (s.begun .hdrWrite) := by simp [runWork, need, State.begun, hp]
  have h2 : runWork (.gate force) (s.begun .hdrWrite) = .ended { s.begun .hdrWrite with result := s.planSaved } := by
    have h3 : (s.begun .hdrWrite).refuses force = true := hr
    simp only [runWork, gate, h3, if_true, setResult_planSaved]
    rfl
  rw [runWorks_cons, h1, Run.andThen_done, runWorks_cons, h2]
  rfl

/-- COMPRESS that goes ahead, up to its header (rule R144). -/
theorem exec_compress_goes {s : State} {force : Bool} (h : s.stalled = false) (hp : s.planValid = true)
    (hr : s.refuses force = false) :
    exec (.compress force) s = (runWorks [.closeStream, .openStream, .headerWrite, .encodeBody, .closeStream,
      .result .wbits] (s.freshReader.begun .hdrWrite)).settle := by
  rw [show exec (.compress force) s = launch .hdrWrite [.needPlan, .gate force, .rReset, .closeStream, .openStream,
    .headerWrite, .encodeBody, .closeStream, .result .wbits] s from rfl, launch_begun h]
  have h1 : runWork .needPlan (s.begun .hdrWrite) = .done (s.begun .hdrWrite) := by simp [runWork, need, State.begun, hp]
  have h2 : runWork (.gate force) (s.begun .hdrWrite) = .done (s.begun .hdrWrite) := by
    have h3 : (s.begun .hdrWrite).refuses force = false := hr
    simp [runWork, gate, h3]
  have h4 : runWork .rReset (s.begun .hdrWrite) = .done (s.freshReader.begun .hdrWrite) := rfl
  rw [runWorks_cons, h1, Run.andThen_done, runWorks_cons, h2, Run.andThen_done, runWorks_cons, h4, Run.andThen_done]

/-- DECOMPRESS (47_decompressor.md rule R152). -/
theorem exec_decompress {s : State} (h : s.stalled = false) :
    exec .decompress s = (runWorks [.closeStream, .openStream, .magic, .decodeStart, .decodeBody, .closeStream,
      .result .wbits] (s.cleared.freshReader.begun .validateMagic)).settle := by
  rw [show exec .decompress s = launch .validateMagic [.clearAll, .rReset, .closeStream, .openStream, .magic,
    .decodeStart, .decodeBody, .closeStream, .result .wbits] s from rfl, launch_begun h]
  have h1 : runWork .clearAll (s.begun .validateMagic) = .done (s.cleared.begun .validateMagic) := rfl
  have h2 : runWork .rReset (s.cleared.begun .validateMagic) = .done (s.cleared.freshReader.begun .validateMagic) := rfl
  rw [runWorks_cons, h1, Run.andThen_done, runWorks_cons, h2, Run.andThen_done]

/-! ## Building -/

/-- A build depends on FREQ and the node store alone (43_tree.md rule R115). -/
theorem buildTree_with {s s' : State} (hf : s'.freq = s.freq) (hs : s'.store = s.store) :
    s'.buildTree = { s' with
      phase := .build, store := s.buildTree.store, pq := s.buildTree.pq, seq := s.buildTree.seq, treeValid := true } := by
  have h1 : s'.freqTable = s.freqTable := by rw [State.freqTable, State.freqTable, hf]
  have h2 : s'.leavesBuilder = s.leavesBuilder := by rw [State.leavesBuilder, State.leavesBuilder, h1, hs]
  unfold State.buildTree
  rw [h2]

/-- What a build leaves alone (rule R115). -/
theorem buildTree_begun (s : State) (p : Phase) : (s.begun p).buildTree = s.buildTree.begun .build := by
  rw [buildTree_with (s := s) (s' := s.begun p) rfl rfl, buildTree_with (s := s) (s' := s) rfl rfl]
  rfl

theorem buildTree_freqAt (s : State) : s.buildTree.freqAt = s.freqAt := rfl

theorem buildTree_leafCount (s : State) : s.buildTree.leafCount = s.leafCount := rfl

/-! ## Counting a stream -/

/-- `CountStream()` of a stream that ends (42_frequency.md rule R106). -/
theorem countStream_ends {s : State} {bs : List Byte} {rest : List InToken} (hc : Countable bs)
    (hq : s.inq = inBytes bs ++ .eos :: rest) :
    countStream 0 (s.cleared.freshReader.begun .count) = .done ((s.counted bs rest).begun .count) :=
  countLoop_tally (s.cleared.freshReader.begun .count) bs (.eos :: rest) hc rfl hq

/-- `CountStream()` of a stream that fails (rule R106). -/
theorem countStream_fails {s : State} {bs : List Byte} {rest : List InToken} (hc : Countable bs)
    (hq : s.inq = inBytes bs ++ .error :: rest) :
    countStream 0 (s.cleared.freshReader.begun .count) = .raised .ioError ((s.tallied bs rest).begun .count) :=
  countLoop_tally (s.cleared.freshReader.begun .count) bs (.error :: rest) hc rfl hq

/-- `CountStream()` of a stream with one byte too often (rule R106). -/
theorem countStream_overflows {s : State} {bs : List Byte} {b : Byte} {rest : List InToken} (hc : Countable bs)
    (hb : bs.count b = 2 ^ 32 - 1) (hq : s.inq = inBytes bs ++ .byte b :: rest) :
    countStream 0 (s.cleared.freshReader.begun .count) = .raised .countOverflow ((s.tallied bs rest).begun .count) := by
  have hf : (countsOf bs)[b.toNat] = 0xFFFFFFFF#32 := by simp [countsOf, hb]
  refine (countLoop_tally (s.cleared.freshReader.begun .count) bs (.byte b :: rest) hc rfl hq).trans ?_
  simp only [countLoop, hf, if_true]
  rfl

/-- The bytes of a stream whose counts all fit (rule R107). -/
theorem countable_length {bs : List Byte} (h : Countable bs) : bs.length ≤ 256 * (2 ^ 32 - 1) := by
  have key := sum_counts ((List.finRange 256).map fun k => (BitVec.ofFin k : Byte))
    ((List.nodup_map_iff (fun a b h => by simpa using h)).2 (List.nodup_finRange _)) (fun _ => 1) bs
    (fun x _ => List.mem_map.2 ⟨x.toFin, List.mem_finRange _, rfl⟩)
  have : ∀ ks : List Byte, (ks.map fun k => bs.count k * 1).sum ≤ ks.length * (2 ^ 32 - 1) := by
    intro ks
    induction ks with
    | nil => simp
    | cons k ks ih =>
      have := h k
      rw [List.map_cons, List.sum_cons, List.length_cons, Nat.add_mul]
      omega
  have h2 := this ((List.finRange 256).map fun k => (BitVec.ofFin k : Byte))
  rw [key] at h2
  simpa using h2

theorem freqAt_counts (s : State) (bs : List Byte) (hc : Countable bs) (hf : s.freq = countsOf bs) (b : Byte) :
    (s.freqAt (symbolOfByte b)).toNat = bs.count b := by
  rw [freqAt_byte, hf]
  have := hc b
  simp [countsOf]
  omega

/-! ## Headers -/

/-- A header has the length the cost formula gives it (46_compressor.md rule R140). -/
theorem headerOf_length (p : Params) (fmt : Fmt) (freq : Vector Word 256) (t : HTree) :
    (headerOf p fmt freq t).length = headerCost fmt t.leaves + Config.preambleBits := by
  cases fmt with
  | counts =>
    have : ∀ l : List Word, (l.flatMap fun f => binN 32 f.toNat).length = 32 * l.length := by
      intro l
      induction l with
      | nil => rfl
      | cons f l ih => simp [ih]; omega
    simp [headerOf, headerCost, Config.preambleBits, this]
  | tree =>
    have := t.bits_length
    simp only [headerOf, List.length_append, binN_length, headerCost, Config.preambleBits]
    omega

/-- `HeaderWrite` of a plan's format (45_header.md rule R133). -/
theorem headerWrite_eq {s : State} {t : HTree} (fmt : Fmt) (h : s.store.complete t) :
    headerWrite fmt s = emit (headerOf s.cfg fmt s.freq t) { s with phase := .hdrWrite } := by
  cases fmt with
  | counts => rfl
  | tree => simp [headerWrite, State.headerBits, h.serialized, headerOf, Config.intWidth]

/-- The preamble's magic field, read (rule R134). -/
theorem readMagic_magic {s : State} {post : Bits} {bs : List Byte} {rest : List InToken}
    (h : s.Carries (binN 32 s.cfg.magic.toNat ++ post) bs rest) :
    readMagic s = readSelector ({ s with phase := .validateMagic }.afterBits bs rest 32) := by
  have h' : ({ s with phase := .validateMagic } : State).Carries ([] ++ binN 32 s.cfg.magic.toNat ++ post) bs rest :=
    carries_congr (s := s) (by simpa using h) rfl rfl
  have r := readBits_field h' s.cfg.magic.isLt
  rw [List.length_nil, afterBits_zero h', Nat.zero_add] at r
  unfold readMagic
  rw [Config.intWidth, r]
  simp only [ReadResult.andThen]
  exact if_pos rfl

/-- A selector field, read after the magic field (rule R134). -/
theorem readSelector_field {s : State} {m f : Word} {post : Bits} {bs : List Byte} {rest : List InToken}
    (h : s.Carries (binN 32 m.toNat ++ binN 32 f.toNat ++ post) bs rest) :
    readSelector (s.afterBits bs rest 32) =
      (if f = s.cfg.selCounts then countFields Config.alphSize ({ s with phase := .readHeader }.afterBits bs rest 64)
       else if f = s.cfg.selTree then treeHeader ({ s with phase := .readHeader }.afterBits bs rest 64)
       else .raised .unknownHeaderFormat ({ s with phase := .readHeader }.afterBits bs rest 64)) := by
  have h' : ({ s with phase := .readHeader } : State).Carries (binN 32 m.toNat ++ binN 32 f.toNat ++ post) bs rest :=
    carries_congr (s := s) h rfl rfl
  have r := readBits_field h' f.isLt
  rw [binN_length] at r
  unfold readSelector
  rw [Config.intWidth]
  rw [show ({ s.afterBits bs rest 32 with phase := .readHeader } : State) =
    ({ s with phase := .readHeader } : State).afterBits bs rest 32 from rfl, r]
  simp only [ReadResult.andThen]
  have e1 : (f.toNat = s.cfg.selCounts.toNat) ↔ f = s.cfg.selCounts :=
    ⟨BitVec.eq_of_toNat_eq, fun hh => by rw [hh]⟩
  have e2 : (f.toNat = s.cfg.selTree.toNat) ↔ f = s.cfg.selTree :=
    ⟨BitVec.eq_of_toNat_eq, fun hh => by rw [hh]⟩
  show (if f.toNat = s.cfg.selCounts.toNat then _ else if f.toNat = s.cfg.selTree.toNat then _ else _) = _
  simp only [e1, e2]

/-- Reading a CountsFormat container's header (rules R134, R135). -/
theorem readMagic_counts {s : State} {freq : Vector Word 256} {t : HTree} {post : Bits} {bs : List Byte}
    {rest : List InToken} (h : s.Carries (headerOf s.cfg .counts freq t ++ post) bs rest) :
    readMagic s = .done ({ s with phase := .readHeader, freq := freq }.afterBits bs rest 8256).buildTree := by
  have h1 : s.Carries (binN 32 s.cfg.magic.toNat ++ (binN 32 s.cfg.selCounts.toNat ++
      ((freq.toList.flatMap fun f => binN 32 f.toNat) ++ post))) bs rest := by
    simpa [headerOf, List.append_assoc] using h
  rw [readMagic_magic h1]
  have h2 : ({ s with phase := .validateMagic } : State).Carries (binN 32 s.cfg.magic.toNat ++
      binN 32 s.cfg.selCounts.toNat ++ ((freq.toList.flatMap fun f => binN 32 f.toNat) ++ post)) bs rest :=
    carries_congr (s := s) (by simpa [List.append_assoc] using h1) rfl rfl
  rw [readSelector_field h2, if_pos (by rfl)]
  have h3 : ({ s with phase := .readHeader } : State).Carries ((binN 32 s.cfg.magic.toNat ++
      binN 32 s.cfg.selCounts.toNat) ++ (freq.toList.flatMap fun f => binN 32 f.toNat) ++ post) bs rest :=
    carries_congr (s := s) (by simpa [List.append_assoc] using h1) rfl rfl
  have h4 := countFields_list freq.toList [] (by simp) s.freq h3 (by simp)
  have hl : (binN 32 s.cfg.magic.toNat ++ binN 32 s.cfg.selCounts.toNat).length = 64 := by simp
  have hf : (⟨([] ++ freq.toList).toArray, by simp⟩ : Vector Word 256) = freq := by
    apply Vector.ext
    intro i hi
    simp
  rw [hl, hf, show freq.toList.length = 256 by simp] at h4
  exact h4

/-- Reading a TreeFormat header up to its first node (rules R134, R136, R119). -/
theorem readMagic_treeStart {s : State} {n : Nat} {post : Bits} {bs : List Byte} {rest : List InToken}
    (hsel : s.cfg.selCounts ≠ s.cfg.selTree) (hn : n < 2 ^ 32) (he : s.store = NodeStore.empty)
    (h : s.Carries (treePreamble s.cfg n ++ post) bs rest) :
    readMagic s =
      treeLoop 513 (({ s with phase := .readHeader }.rebuilding NodeStore.empty [] n).afterBits bs rest 96) := by
  have h1 : s.Carries (binN 32 s.cfg.magic.toNat ++ (binN 32 s.cfg.selTree.toNat ++ (binN 32 n ++ post))) bs rest := by
    simpa [treePreamble, List.append_assoc] using h
  have h2 : ({ s with phase := .validateMagic } : State).Carries (binN 32 s.cfg.magic.toNat ++
      binN 32 s.cfg.selTree.toNat ++ (binN 32 n ++ post)) bs rest :=
    carries_congr (s := s) (by simpa [List.append_assoc] using h1) rfl rfl
  set s₁ : State := { s with phase := .readHeader } with hs₁
  have h3 : s₁.Carries ((binN 32 s.cfg.magic.toNat ++ binN 32 s.cfg.selTree.toNat) ++ binN 32 n ++ post) bs rest :=
    carries_congr (s := s) (by simpa [List.append_assoc] using h1) rfl rfl
  have r3 := readBits_field h3 hn
  have hl : (binN 32 s.cfg.magic.toNat ++ binN 32 s.cfg.selTree.toNat).length = 64 := by simp
  rw [hl] at r3
  rw [readMagic_magic h1, readSelector_field h2, if_neg (fun hh => hsel hh.symm), if_pos (by rfl)]
  unfold treeHeader
  rw [Config.intWidth]
  rw [show ({ ({ s with phase := .validateMagic } : State) with phase := .readHeader } : State).afterBits bs rest 64 =
    s₁.afterBits bs rest 64 from rfl, r3]
  simp only [ReadResult.andThen, deserializeTree, treeFrom]
  have hroom : State.room { s₁.afterBits bs rest (64 + 32) with budget := n, stack := [] } = 513 := by
    show Config.nodeCap - s.store.count.val = 513
    rw [he]; rfl
  rw [hroom, ← he]
  rfl

/-- The walk over a whole transmitted tree from a cleared store, up to the declared bits it did not use (rules R118,
R119). -/
theorem treeLoop_whole {t : HTree} (ht : t.size ≤ 513) :
    ∃ st : NodeStore, st.complete t ∧ st.root = 0 ∧ (st.indices 0 t).map (·.val) = List.range t.size ∧
      (∀ i, (st.node i).nfreq = 0#64) ∧
      ∀ {s : State} {pre post : Bits} {bs : List Byte} {rest : List InToken} {n : Nat},
        s.Carries (pre ++ t.bits ++ post) bs rest → t.bits.length ≤ n →
        treeLoop 513 ((s.rebuilding NodeStore.empty [] n).afterBits bs rest pre.length) =
          spareLoop (n - t.bits.length)
            ((s.rebuilding st [] (n - t.bits.length)).afterBits bs rest (pre.length + t.bits.length)) := by
  obtain ⟨i, st, hi, rb, e⟩ := treeLoop_bits t (st := NodeStore.empty) (by simpa using ht) (fun k _ => by simp)
  have hc0 : NodeStore.empty.count.val = 0 := rfl
  have hi0 : i = 0 := Fin.ext (by rw [hi, hc0]; rfl)
  subst hi0
  set st' : NodeStore := { st with root := 0 } with hst'
  have hcg := NodeStore.tree_congr (st := st) (st' := st') (i := 0) (t := t) fun k _ => rfl
  have hord : (st'.indices 0 t).map (·.val) = List.range t.size := by
    rw [hcg.1, rb.order, hc0, List.range_eq_range']
  have hlt : ∀ k ∈ st'.indices 0 t, k.val < t.size := by
    intro k hk
    have := List.mem_map_of_mem (f := (·.val)) hk
    rw [hord] at this
    exact List.mem_range.1 this
  refine ⟨st', ⟨hcg.2 rb.holds, ?_, ?_, fun k hk => ?_⟩, rfl, hord, fun k => rb.nfreq k (by rw [hc0]; omega),
    fun h hn => e h rfl hn⟩
  · refine List.Nodup.of_map (·.val) ?_
    show ((st'.indices 0 t).map (·.val)).Nodup
    rw [hord]
    exact List.nodup_range
  · show t.size = st.count.val
    rw [rb.count, hc0, Nat.zero_add]
  · show k.val < st.count.val
    rw [rb.count, hc0, Nat.zero_add]
    exact hlt k hk

/-- The last check of a tree that fills its declared bits (rule R119). -/
theorem rootCheck_eq {s : State} {t : HTree} (h : s.store.holds s.store.root t) :
    rootCheck s = if t.decodable then .done { s with treeValid := true } else .raised .malformedHeader s := by
  cases t with
  | leaf y =>
    simp only [NodeStore.holds] at h
    by_cases hy : y = Config.pseudoEof <;> simp [rootCheck, h.1, h.2, HTree.decodable, hy]
  | node l r =>
    simp only [NodeStore.holds] at h
    simp [rootCheck, h.1, HTree.decodable]

/-- Reading a TreeFormat container's header, with `spare` declared bits more than the tree takes (rules R134, R136,
R118, R119). -/
theorem readMagic_tree {s : State} {t : HTree} {spare post : Bits} {bs : List Byte} {rest : List InToken}
    (hsel : s.cfg.selCounts ≠ s.cfg.selTree) (ht : t.size ≤ 513)
    (hlen : t.bits.length + spare.length < 2 ^ 32) (he : s.store = NodeStore.empty)
    (h : s.Carries (treePreamble s.cfg (t.bits.length + spare.length) ++ t.bits ++ spare ++ post) bs rest) :
    ∃ st : NodeStore, st.complete t ∧ st.root = 0 ∧ (st.indices 0 t).map (·.val) = List.range t.size ∧
      (∀ i, (st.node i).nfreq = 0#64) ∧
      readMagic s = rootCheck (({ s with phase := .readHeader }.rebuilding st [] 0).afterBits bs rest
        (96 + (t.bits.length + spare.length))) := by
  have hl : (treePreamble s.cfg (t.bits.length + spare.length)).length = 96 := by simp [treePreamble]
  have hw : ({ s with phase := .readHeader } : State).Carries
      (treePreamble s.cfg (t.bits.length + spare.length) ++ t.bits ++ (spare ++ post)) bs rest :=
    carries_congr (s := s) (by simpa [List.append_assoc] using h) rfl rfl
  obtain ⟨st, h1, h2, h3, h4, e⟩ := treeLoop_whole ht
  refine ⟨st, h1, h2, h3, h4, ?_⟩
  rw [readMagic_treeStart hsel hlen he (by simpa [List.append_assoc] using h), ← hl,
    e hw (Nat.le_add_right _ spare.length), Nat.add_sub_cancel_left]
  have e5 := spareLoop_bits (s := { s with phase := .readHeader }) spare (st := st) (fs := []) (n := 0)
    (carries_congr (s := s) h rfl rfl)
  rw [List.length_append, Nat.add_zero] at e5
  rw [e5, Nat.add_assoc]
  rfl

/-! ## Bodies -/

theorem encodeBody_eq (s : State) : encodeBody s = encodeLoop s.inq { s with phase := .encodeBody } := rfl

theorem codesOf_eq {s : State} {t : HTree} (h : ∀ y, s.codeAt y = t.codeOf y) (bs : List Byte) :
    s.codesOf bs = t.codesOf bs := by
  unfold State.codesOf HTree.codesOf
  congr 1
  funext b
  rw [h]

/-- The encoder over a run of bytes that all have a code (46_compressor.md rule R145). -/
theorem encodeBody_bytes {s : State} {t : HTree} {bs : List Byte} {rest : List InToken} (hq : s.inq = inBytes bs ++ rest)
    (hc : ∀ y, s.codeAt y = t.codeOf y) (hv : ∀ b ∈ bs, (t.codeOf (symbolOfByte b)).valid = true)
    (hw : s.CanWrite (t.codesOf bs)) :
    encodeBody s = encodeLoop rest { s.written (t.codesOf bs) with inq := rest, phase := .encodeBody } := by
  obtain ⟨s₁, hs₁⟩ : ∃ x : State, x = { s with phase := .encodeBody } := ⟨_, rfl⟩
  have h1 : s₁.inq = inBytes bs ++ rest := by rw [hs₁]; exact hq
  have h2 : s₁.codesOf bs = t.codesOf bs := codesOf_eq (fun y => by rw [hs₁]; exact hc y) bs
  have h3 : ∀ b ∈ bs, (s₁.codeAt (symbolOfByte b)).valid = true := fun b hb => by
    have := hv b hb
    rw [← hc] at this
    rw [hs₁]
    exact this
  have h4 : s₁.CanWrite (t.codesOf bs) := by rw [hs₁]; exact ⟨hw.buf, hw.wbits, hw.accepts⟩
  rw [encodeBody_eq, ← hs₁, hq, encodeLoop_bytes bs rest s₁ h1 h3 (by rw [h2]; exact h4), h2, hs₁]
  rfl

/-- The encoder over a whole stream (rule R145). -/
theorem encodeBody_stream {s : State} {t : HTree} {bs : List Byte} {rest : List InToken}
    (hq : s.inq = inBytes bs ++ .eos :: rest) (hc : ∀ y, s.codeAt y = t.codeOf y) (hv : t.covers bs)
    (hw : s.CanWrite (bodyOf t bs)) :
    encodeBody s = .done { s.written (bodyOf t bs) with inq := rest, phase := .encodeBody } := by
  obtain ⟨w1, w2, w3⟩ := canWrite_append (s := s) (as := t.codesOf bs) (bs := (t.codeOf Config.pseudoEof).bits) hw
  rw [encodeBody_bytes hq hc hv.1 w1, encodeLoop]
  obtain ⟨s₁, hs₁⟩ : ∃ x : State, x = { s.written (t.codesOf bs) with inq := rest, phase := .encodeBody } := ⟨_, rfl⟩
  have h1 : ({ s.written (t.codesOf bs) with inq := .eos :: rest, phase := .encodeBody } : State).codeAt Config.pseudoEof =
      t.codeOf Config.pseudoEof := hc _
  have h2 : s₁.CanWrite (t.codeOf Config.pseudoEof).bits := by rw [hs₁]; exact ⟨w2.buf, w2.wbits, w2.accepts⟩
  rw [h1]
  have h3 := emit_canWrite h2
  rw [hs₁] at h3
  refine h3.trans ?_
  have h4 : s.written (bodyOf t bs) = (s.written (t.codesOf bs)).written (t.codeOf Config.pseudoEof).bits := w3.symm
  rw [h4]
  rfl

/-- The decoder's start (47_decompressor.md rule R151). -/
theorem runWorks_decodeStart (s : State) (ws : List Work) :
    runWorks (.decodeStart :: .decodeBody :: ws) s =
      (decodeLoop (2 * s.bitsAhead + 2) ({ s with phase := .decodeBody }.atNode s.store.root)).andThen ws (runWorks ws) := rfl

/-! ## Whole output streams -/

theorem accepts_add {k : Sink} {ts : List OutToken} {n m : Nat} (h : k.accepts n = true) (hm : ts.length + m ≤ n) :
    (k.take ts).accepts m = true := Sink.accepts_take (Sink.accepts_mono h hm)

/-- Packing the bits of bytes gives the bytes (20_memory.md rule R57). -/
theorem packBytes_streamBits (xs : List Byte) : packBytes xs.length (streamBits xs) = xs := by
  induction xs with
  | nil => rfl
  | cons b xs ih =>
    have h1 : (bitsOfByte b ++ streamBits xs).take 8 = bitsOfByte b := by
      rw [List.take_append_of_le_length (by simp), List.take_of_length_le (by simp)]
    have h2 : (bitsOfByte b ++ streamBits xs).drop 8 = streamBits xs := by
      rw [← bitsOfByte_length b, List.drop_left]
    rw [List.length_cons, packBytes_succ, streamBits_cons, h1, h2, ih, byteOf_bitsOfByte]

theorem closedBytes_streamBits (xs : List Byte) : closedBytes (streamBits xs) = xs := by
  unfold closedBytes
  rw [streamBits_length, show (8 * xs.length + 7) / 8 = xs.length by omega]
  exact packBytes_streamBits xs

/-- A new stream can be written while the sink takes its bytes (41_bitstream.md rules R86 to R88). -/
theorem reopened_canWrite {s : State} {bits : Bits} {n : Nat} (hk : s.sink.accepts n = true)
    (hn : s.closingTokens.length + bits.length / 8 ≤ n) (hlt : bits.length < 2 ^ 64) : s.reopened.CanWrite bits :=
  ⟨Nat.zero_lt_succ 7, by
    show (0#64).toNat + bits.length < 2 ^ 64
    simpa using hlt, accepts_add hk (by
    show s.closingTokens.length + (0 + bits.length) / 8 ≤ _
    omega)⟩

/-- The writer and the sink after the whole of a new stream but its end was written. -/
structure Wrote (x : State) (k : Sink) (pre : List OutToken) (bits : Bits) : Prop where
  writer : x.writer = ⟨false, bits.drop (8 * (bits.length / 8)), BitVec.ofNat 64 bits.length⟩
  sink   : x.sink = k.take (pre ++ outBytes (packBytes (bits.length / 8) bits))

theorem reopened_wrote (s : State) (bits : Bits) : Wrote (s.reopened.written bits) s.sink s.closingTokens bits := by
  constructor
  · simp [State.reopened, State.written]
  · rw [Sink.take_append]
    show (s.sink.take s.closingTokens).take (outBytes (packBytes ((0 + bits.length) / 8) ([] ++ bits))) = _
    rw [Nat.zero_add, List.nil_append]

/-- COMPRESS and DECOMPRESS after their whole stream was written (46_compressor.md rule R144, 47_decompressor.md rule
R152): the padded last byte, `End`, and the bits written. -/
theorem closes_stream {x : State} {k : Sink} {pre : List OutToken} {bits : Bits} (h : Wrote x k pre bits)
    (hlt : bits.length < 2 ^ 63) (hk : k.accepts (pre.length + (bits.length + 7) / 8 + 1) = true) :
    (runWorks [.closeStream, .result .wbits] x).settle = .next ({ x with
      writer := ⟨true, [], BitVec.ofNat 64 bits.length⟩
      sink := k.take (pre ++ outBytes (closedBytes bits) ++ [OutToken.eos]) }.endsWith bits.length) := by
  have hbl : x.writer.buf.length = bits.length - 8 * (bits.length / 8) := by simp [h.writer]
  have hcl : x.closingTokens = outBytes (closedBytes (bits.drop (8 * (bits.length / 8)))) ++ [OutToken.eos] := by
    simp [State.closingTokens, h.writer]
  have hclose : closeStream x = .done { x with writer := ⟨true, [], x.writer.bits⟩, sink := x.sink.take x.closingTokens } := by
    refine closeStream_ends (by omega) (by rw [h.writer]) ?_
    rw [h.sink, hcl]
    refine accepts_add hk ?_
    simp [closedBytes_length]
    omega
  rw [runWorks_cons, show runWork .closeStream x = _ from hclose, Run.andThen_done, runWorks_one]
  have hbits64 : x.writer.bits = BitVec.ofNat 64 bits.length := by rw [h.writer]
  have hsink : x.sink.take x.closingTokens = k.take (pre ++ outBytes (closedBytes bits) ++ [OutToken.eos]) := by
    rw [h.sink, hcl, ← Sink.take_append, closedBytes_split bits]
    simp [outBytes]
  rw [hsink]
  show (Run.done (State.setResult _ ((x.writer.bits.toNat : Nat) : Int))).settle = _
  rw [hbits64, toNat_ofNat64 (by omega), settle_result (fitsS64_nat (by omega))]

/-- COMPRESS that goes ahead, after its header (46_compressor.md rule R144). -/
theorem exec_compress_header {s : State} {force : Bool} {t : HTree} (hs : s.stalled = false) (hp : s.planValid = true)
    (hr : 0 ≤ s.planSaved.toInt ∨ force = true) (hc : s.store.complete t) (hb : s.writer.buf.length < 8)
    (hk : s.sink.accepts s.closingTokens.length = true)
    (hw : s.freshReader.reopened.CanWrite (headerOf s.cfg s.planFmt s.freq t)) :
    exec (.compress force) s = (runWorks [.encodeBody, .closeStream, .result .wbits]
      { s.freshReader.reopened.written (headerOf s.cfg s.planFmt s.freq t) with phase := .hdrWrite }).settle := by
  have hr' : s.refuses force = false := by
    unfold State.refuses
    rcases hr with h | h
    · have : ¬ s.planSaved.toInt < 0 := by omega
      simp [this]
    · simp [h]
  rw [exec_compress_goes hs hp hr', openNext (by exact hb) (by exact hk), runWorks_cons]
  have : runWork .headerWrite (s.freshReader.begun .hdrWrite).reopened =
      .done ({ (s.freshReader.begun .hdrWrite).reopened with phase := .hdrWrite }.written
        (headerOf s.cfg s.planFmt s.freq t)) := by
    show headerWrite s.planFmt (s.freshReader.begun .hdrWrite).reopened = _
    rw [headerWrite_eq (t := t) _ (by exact hc)]
    exact emit_canWrite ⟨hw.buf, hw.wbits, hw.accepts⟩
  rw [this, Run.andThen_done]
  rfl

/-! ## Headers and bodies -/

/-- A magic field that differs from MAGIC (45_header.md rule R134). -/
theorem readMagic_bad {s : State} {bits : Bits} {bs : List Byte} {rest : List InToken} (hl : bits.length = 32)
    (hv : valueOf bits ≠ s.cfg.magic.toNat) (h : s.Carries bits bs rest) :
    readMagic s = .raised .invalidMagic ({ s with phase := .validateMagic }.afterBits bs rest 32) := by
  have h' : ({ s with phase := .validateMagic } : State).Carries ([] ++ bits ++ []) bs rest :=
    carries_congr (s := s) (by simpa using h) rfl rfl
  have r := readBits_at h'
  rw [List.length_nil, afterBits_zero h', Nat.zero_add, hl] at r
  unfold readMagic
  rw [Config.intWidth, r]
  simp only [ReadResult.andThen]
  exact if_neg hv

theorem headerOf_length_lt {st : NodeStore} {t : HTree} (h : st.complete t) (p : Params) (fmt : Fmt) (f : Vector Word 256) :
    (headerOf p fmt f t).length < 2 ^ 20 := by
  rw [headerOf_length]
  have := t.size_eq
  have := h.2.2.1
  have := st.count.isLt
  cases fmt <;> simp [headerCost, Config.preambleBits]
  omega

/-- ESTIMATE after the count, when the node store that `BuildTree` leaves holds the tree `t` (46_compressor.md rules
R140, R141): the codes of `t`, the body's cost, and the plan. -/
theorem planStream_complete {s : State} {fmt : Fmt} {t : HTree} (ht : s.buildTree.store.complete t)
    (hl : t.leaves = s.leafCount) (hcod : s.codes = Vector.replicate 257 ⟨false, []⟩) :
    planStream fmt s = .done (({ s.buildTree with
      phase := .codegen, codes := t.codeTable, codesValid := true
      bodyBits := BitVec.ofNat 64 (bodyCost s.freqAt t) } : State).makePlan fmt) ∧
    ({ s.buildTree with
      phase := .codegen, codes := t.codeTable, codesValid := true
      bodyBits := BitVec.ofNat 64 (bodyCost s.freqAt t) } : State).bitsSaved fmt =
      s.origBits.toNat - (headerCost fmt t.leaves + bodyCost s.freqAt t + 64 : Nat) := by
  have hcod' : s.buildTree.codes = Vector.replicate 257 ⟨false, []⟩ := hcod
  have hfa := buildTree_freqAt s
  have hlc := buildTree_leafCount s
  have hob : s.buildTree.origBits = s.origBits := rfl
  have hlt := bodyCost_lt ht s.freqAt
  unfold planStream
  generalize s.buildTree = B at *
  rw [genCodes_complete (t := t) ht hcod', Run.andThen_done, hfa]
  refine ⟨rfl, ?_⟩
  unfold State.bitsSaved
  have e3 : ({ B with
      phase := .codegen, codes := t.codeTable, codesValid := true
      bodyBits := BitVec.ofNat 64 (bodyCost s.freqAt t) } : State).leafCount = t.leaves := by rw [hl, ← hlc]; rfl
  rw [e3]
  simp only [hob, toNat_ofNat64 (show bodyCost s.freqAt t < 2 ^ 64 by omega)]
  rfl


/-- The tree ESTIMATE builds has a code for each byte of its stream and for the pseudo-EOF (43_tree.md rule R113). -/
theorem counted_covers {s : State} {bs : List Byte} {rest : List InToken} (hc : Countable bs) {t : HTree}
    (ht : (s.counted bs rest).buildTree.store.complete t) : t.covers bs := by
  have hcodes := fun y => buildTree_codes (s := s.counted bs rest) rfl ht y
  refine ⟨fun b hb => (hcodes _).2 ?_, (hcodes _).2 ?_⟩
  · intro h0
    have := freqAt_counts (s.counted bs rest) bs hc rfl b
    rw [h0] at this
    have h2 := List.count_pos_iff.2 hb
    simp at this
    omega
  · rw [freqAt_pseudoEof]; decide

/-- FREQ after a header was read: its counts, or the cleared table (45_header.md rules R135, R136). -/
def countsRead (fmt : Fmt) (freq : Vector Word 256) : Vector Word 256 :=
  match fmt with
  | .counts => freq
  | .tree => Vector.replicate 256 0#32

/-- Reading a preamble and header of either format, as DECOMPRESS does (45_header.md rules R134 to R136). -/
theorem readMagic_header {s : State} {fmt : Fmt} {freq : Vector Word 256} {t : HTree} {post : Bits}
    {bs : List Byte} {rest : List InToken}
    (hsel : s.cfg.selCounts ≠ s.cfg.selTree) (ht : Transmits fmt freq t) (he : s.store = NodeStore.empty)
    (hf : s.freq = Vector.replicate 256 0#32) (h : s.Carries (headerOf s.cfg fmt freq t ++ post) bs rest) :
    t.decodable = true ∧ ∃ s' : State, readMagic s = .done (s'.afterBits bs rest (headerOf s.cfg fmt freq t).length) ∧
      s'.store.complete t ∧ s'.treeValid = true ∧ s'.freq = countsRead fmt freq ∧
      s'.reader = s.reader ∧ s'.inq = s.inq ∧ s'.writer = s.writer ∧ s'.sink = s.sink ∧ s'.opened = s.opened ∧
      s'.codesValid = s.codesValid ∧ s'.planValid = s.planValid ∧ s'.err = s.err := by
  cases fmt with
  | counts =>
    have hl : (headerOf s.cfg .counts freq t).length = 8256 := by rw [headerOf_length]; rfl
    have h1 := readMagic_counts (s := s) h
    have hb := buildTree_with (s := { State.reset with freq := freq }) (s' := { s with phase := .readHeader, freq := freq }.afterBits bs rest 8256) rfl (by exact he)
    simp only [Transmits] at ht
    obtain ⟨_, _, _, _, _, t', ht', hd, _⟩ := buildTree_spec ({ State.reset with freq := freq } : State) rfl
    have : t = t' := NodeStore.holds_unique ht.1 ht'.1
    subst this
    refine ⟨hd, ({ s with phase := .readHeader, freq := freq } : State).buildTree, ?_, ?_, rfl, rfl, rfl, rfl, rfl, rfl, rfl, rfl, rfl, rfl⟩
    · rw [h1, hl]
      congr 1
    · have hb2 := buildTree_with (s := { State.reset with freq := freq }) (s' := { s with phase := .readHeader, freq := freq }) rfl (by exact he)
      rw [hb2]
      exact ht
  | tree =>
    simp only [Transmits] at ht
    obtain ⟨hd, hsz⟩ := ht
    have hlt : t.bits.length < 2 ^ 32 := by
      have := t.bits_length; have := t.size_eq; simp [Config.nodeCap] at hsz; omega
    obtain ⟨st, q1, q2, q3, q4, q5⟩ := readMagic_tree (s := s) (t := t) (spare := []) (post := post) (bs := bs) (rest := rest) hsel hsz (by simpa using hlt) he
      (by simpa [headerOf, treePreamble, List.append_assoc] using h)
    have hl : (headerOf s.cfg .tree freq t).length = 96 + t.bits.length := by simp [headerOf]; omega
    refine ⟨hd, { ({ s with phase := .readHeader } : State).rebuilding st [] 0 with treeValid := true }, ?_, q1, rfl, hf, rfl, rfl, rfl, rfl, rfl, rfl, rfl, rfl⟩
    rw [q5, hl, rootCheck_eq (t := t) q1.1, hd]
    rfl

/-- DECOMPRESS up to its body (47_decompressor.md rule R152). -/
theorem decompress_header {s : State} {fmt : Fmt} {freq : Vector Word 256} {t : HTree} {post : Bits}
    {bs : List Byte} {rest : List InToken}
    (hs : s.stalled = false) (hsel : s.cfg.selCounts ≠ s.cfg.selTree) (ht : Transmits fmt freq t)
    (hb : s.writer.buf.length < 8) (hk : s.sink.accepts s.closingTokens.length = true)
    (h : s.freshReader.Carries (headerOf s.cfg fmt freq t ++ post) bs rest) :
    t.decodable = true ∧ ∃ x : State, exec .decompress s =
      ((decodeLoop (2 * (x.afterBits bs rest (headerOf s.cfg fmt freq t).length).bitsAhead + 2)
        ((x.atNode x.store.root).afterBits bs rest (headerOf s.cfg fmt freq t).length)).andThen [.closeStream, .result .wbits] (runWorks [.closeStream, .result .wbits])).settle ∧
      x.store.complete t ∧ x.treeValid = true ∧ x.freq = countsRead fmt freq ∧
      x.reader = ⟨false, [], 0#64⟩ ∧ x.inq = s.inq ∧ x.writer = ⟨false, [], 0#64⟩ ∧ x.sink = s.sink.take s.closingTokens ∧ x.opened = true ∧
      x.codesValid = false ∧ x.planValid = false ∧ x.err = s.err := by
  rw [exec_decompress hs, openNext (by exact hb) (by exact hk)]
  obtain ⟨y, hy⟩ : ∃ y : State, y = (s.cleared.freshReader.begun .validateMagic).reopened := ⟨_, rfl⟩
  rw [← hy]
  have hc : y.Carries (headerOf y.cfg fmt freq t ++ post) bs rest := by
    rw [hy]; exact carries_congr (s := s.freshReader) h rfl rfl
  obtain ⟨hd, z, hz, z1, z2, z3, z4, z5, z6, z7, z8, z9, z10, z11⟩ := readMagic_header (s := y) (by rw [hy]; exact hsel) ht (by rw [hy]; rfl) (by rw [hy]; rfl) hc
  have hcfg : y.cfg = s.cfg := by rw [hy]; rfl
  rw [hcfg] at hz
  refine ⟨hd, { z with phase := .decodeBody }, ?_, z1, z2, z3, ?_, ?_, ?_, ?_, ?_, ?_, ?_, ?_⟩
  · rw [runWorks_cons, show runWork .magic y = _ from hz, Run.andThen_done, runWorks_decodeStart]
    rfl
  · show z.reader = _; rw [z4, hy]; rfl
  · show z.inq = _; rw [z5, hy]; rfl
  · show z.writer = _; rw [z6, hy]; rfl
  · show z.sink = _; rw [z7, hy]; rfl
  · show z.opened = _; rw [z8, hy]; rfl
  · show z.codesValid = _; rw [z9, hy]; rfl
  · show z.planValid = _; rw [z10, hy]; rfl
  · show z.err = _; rw [z11, hy]; rfl

/-- The bits ahead of the reader after the first `k` of its stream were read. -/
theorem bitsAhead_at {x : State} {bs : List Byte} {rest : List InToken} {bits : Bits} (h : x.Carries bits bs rest)
    {k : Nat} (hk : k ≤ bits.length) :
    x.reader.buf.length + 8 * bs.length ≤ (x.afterBits bs rest k).bitsAhead + k := by
  have := h.first.length_le
  simp at this
  have hb := h.buf
  have h1 : (k - x.reader.buf.length + 7) / 8 ≤ bs.length := by omega
  simp only [State.bitsAhead, State.afterBits, List.length_drop, List.length_append, streamBits_length, List.length_take, inBytes, List.length_map]
  rw [Nat.min_eq_left h1]
  omega

/-- The header of a counted stream stands for the tree its counts build (45_header.md rules R135, R136). -/
theorem counted_transmits (s : State) (xs : List Byte) {rest : List InToken} (fmt : Fmt) {u : HTree}
    (hd : u.decodable = true) (hu : (s.counted xs rest).buildTree.store.complete u) :
    Transmits fmt (countsOf xs) u := by
  have hb := buildTree_with (s := s.counted xs rest) (s' := { State.reset with freq := countsOf xs }) rfl rfl
  cases fmt with
  | counts =>
    have e : ({ State.reset with freq := countsOf xs } : State).buildTree.store =
        (s.counted xs rest).buildTree.store := by rw [hb]
    simp only [Transmits]
    rw [e]; exact hu
  | tree =>
    refine ⟨hd, ?_⟩
    have := hu.2.2.1
    generalize (s.counted xs rest).buildTree = B at *
    have h2 := B.store.count.isLt
    simp only [Config.nodeCap]
    omega

end Sys2Proof.Machine
end

