-- ==== Sys2Proof/Laws/Failures.lean ====
section
/-! SUPPORT. How reading a header fails: a stream that is cut short in a field, and a tree that breaks off at a node
(43_tree.md rules R118, R119, 45_header.md rules R134 to R136). -/

namespace Sys2Proof.Machine

/-! ## Cut streams -/

/-- Only the reader and IN matter to where a stream is cut. -/
theorem cutAt_congr {s s' : State} {pre : Bits} {need : Nat} {bs : List Byte} {x : InToken} {rest : List InToken}
    (h : s.CutAt pre need bs x rest) (hr : s'.reader = s.reader) (hq : s'.inq = s.inq) : s'.CutAt pre need bs x rest :=
  ⟨carries_congr h.carries hr hq, by rw [hr]; exact h.short, h.ends⟩

/-- A field that the stream's end cuts short raises the field's error, or IO_ERROR after `Error` (rules R92, R93,
60_exceptions.md rule R164). -/
theorem readBits_cut {s : State} {pre : Bits} {need : Nat} {bs : List Byte} {x : InToken} {rest : List InToken}
    (h : s.CutAt pre need bs x rest) (later : List Work) (e : ErrCode) (next : Nat → State → Run) :
    ((s.afterBits bs (x :: rest) pre.length).readBits need).andThen later (.raised e) next =
      .raised (cutError x e) (s.cut rest pre.length) := by
  have hlen := h.carries.first.length_le
  have hs := h.short
  simp only [List.length_append, streamBits_length] at hlen
  have hk : (pre.length - s.reader.buf.length + 7) / 8 ≤ bs.length := by omega
  have hb : (s.afterBits bs (x :: rest) pre.length).reader.buf.length +
      8 * (bs.drop ((pre.length - s.reader.buf.length + 7) / 8)).length < need := by
    simp [State.afterBits, Nat.min_eq_left hk]
    omega
  rcases h.ends with rfl | rfl
  · rw [readBits_ended _ need (bs.drop ((pre.length - s.reader.buf.length + 7) / 8)) rest (by exact h.carries.live) rfl hb]
    rfl
  · rw [readBits_failed _ need (bs.drop ((pre.length - s.reader.buf.length + 7) / 8)) rest (by exact h.carries.live) rfl hb]
    rfl

/-! ## Errors of the header -/

/-- What `headerRaises` may use of the state the header is read from: the parameters and the cleared tables. -/
def State.Cleared (s x : State) : Prop :=
  x.cfg = s.cfg ∧ x.store = NodeStore.empty ∧ x.freq = Vector.replicate 256 0#32

/-- HDR_READ and DECOMPRESS end with the error that reading the header raises, in the state it raises it in
(45_header.md rule R138, 47_decompressor.md rule R152). -/
theorem headerRaises {s x u : State} {e : ErrCode} (hs : s.stalled = false) (hw : u.writer = x.writer)
    (hk : u.sink = x.sink)
    (h : s.Cleared x → ∀ o, ∃ p fs n, readMagic { x with phase := .validateMagic, opened := o } =
      .raised e { u with phase := p, opened := o, stack := fs, budget := n }) : s.HeaderRaises x u e := by
  constructor
  · rintro rfl
    obtain ⟨p, fs, n, h1⟩ := h ⟨rfl, rfl, rfl⟩ false
    rw [exec_hdrRead hs]
    rw [show ({ s.cleared.begun .validateMagic with mark := s.reader.bits } : State) =
      { ({ s.cleared with mark := s.reader.bits } : State) with phase := .validateMagic, opened := false } from rfl, h1]
    exact settle_raised rfl
  · rintro rfl hb ha a hka
    obtain ⟨p, fs, n, h1⟩ := h ⟨rfl, rfl, rfl⟩ true
    rw [exec_decompress hs, openNext (by exact hb) (by exact ha), runWorks_cons]
    rw [show runWork .magic (s.cleared.freshReader.begun .validateMagic).reopened = _ from h1]
    refine (settle_aborted (a := a) rfl ?_ ?_).trans rfl
    · show u.writer.closed = false
      rw [hw]
      rfl
    · show u.sink.answerAt 0 = some a
      rw [hk]
      show (s.sink.take s.closingTokens).answerAt 0 = some a
      rw [Sink.answerAt_take]
      exact hka

/-! ## Broken count headers -/

/-- FREQ with the counts `cs` in its first entries and 0 in the rest. -/
def countsSoFar (cs : List Word) : Vector Word 256 := Vector.ofFn fun i => cs.getD i.val 0#32

theorem countsSoFar_nil : countsSoFar [] = Vector.replicate 256 0#32 := by
  apply Vector.ext
  intro i hi
  simp [countsSoFar]

theorem countsSoFar_snoc (cs : List Word) (c : Word) (h : cs.length < 256) :
    (countsSoFar cs).set cs.length c h = countsSoFar (cs ++ [c]) := by
  apply Vector.ext
  intro i hi
  rw [Vector.getElem_set]
  simp only [countsSoFar, Vector.getElem_ofFn]
  split
  · rename_i hci
    subst hci
    simp
  · rename_i hci
    by_cases hlt : i < cs.length
    · simp [List.getElem?_append_left hlt]
    · rw [List.getD_eq_default _ _ (by omega), List.getD_eq_default _ _ (by simp; omega)]

/-- The first count fields of a CountsFormat header, with `m` fields after them (45_header.md rule R135). -/
theorem countFields_first (fs done : List Word) (m : Nat) (hl : done.length + fs.length + m = 256) {s : State}
    {pre post : Bits} {bs : List Byte} {rest : List InToken}
    (h : s.Carries (pre ++ (fs.flatMap fun c => binN 32 c.toNat) ++ post) bs rest) :
    countFields (fs.length + m) ({ s with freq := countsSoFar done }.afterBits bs rest pre.length) =
      countFields m ({ s with freq := countsSoFar (done ++ fs) }.afterBits bs rest (pre.length + 32 * fs.length)) := by
  induction fs generalizing done pre with
  | nil => simp
  | cons c fs ih =>
    simp only [List.length_cons] at hl
    have h1 : s.Carries (pre ++ binN 32 c.toNat ++ ((fs.flatMap fun c => binN 32 c.toNat) ++ post)) bs rest := by
      simpa [List.append_assoc] using h
    have h2 : s.Carries ((pre ++ binN 32 c.toNat) ++ (fs.flatMap fun c => binN 32 c.toNat) ++ post) bs rest := by
      simpa [List.append_assoc] using h
    have hr := readBits_field (s := { s with freq := countsSoFar done }) (carries_congr h1 rfl rfl) c.isLt
    have hlen : 256 - (fs.length + m + 1) = done.length := by omega
    rw [List.length_cons, show fs.length + 1 + m = fs.length + m + 1 by omega]
    simp only [countFields, Config.intWidth, hr, ReadResult.andThen]
    have hset : State.setCount ({ s with freq := countsSoFar done }.afterBits bs rest (pre.length + 32)) (fs.length + m + 1)
        c.toNat = { s with freq := countsSoFar (done ++ [c]) }.afterBits bs rest (pre ++ binN 32 c.toNat).length := by
      rw [← countsSoFar_snoc done c (by omega)]
      simp only [State.setCount, State.setFreq, hlen, State.afterBits, List.length_append, binN_length]
      have : (BitVec.ofNat 8 done.length).toNat = done.length := by
        rw [BitVec.toNat_ofNat, Nat.mod_eq_of_lt (by omega)]
      simp only [this, BitVec.ofNat_toNat, BitVec.setWidth_eq]
    rw [hset, ih (done ++ [c]) (by simp; omega) h2]
    simp [Nat.add_assoc, Nat.mul_add, Nat.add_comm]

/-! ## Broken trees -/

/-- How many of the pending calls wait for their left child; each has its right child still to come. -/
def openLefts (fs : List Frame) : Nat := fs.countP fun f => f.side == .left

/-- The pending calls are of internal nodes among `ns`. -/
def framesOf (ns : List (Option Symbol)) (fs : List Frame) : Prop := ∀ f ∈ fs, ns[f.node.val]? = some none

theorem framesOf_append {ns : List (Option Symbol)} {fs : List Frame} (h : framesOf ns fs) (ms : List (Option Symbol)) :
    framesOf (ns ++ ms) fs := by
  intro f hf
  have := h f hf
  rw [List.getElem?_append_left (List.getElem?_eq_some_iff.1 this).1]
  exact this

/-- Writing a child of an internal node keeps what the nodes are. -/
theorem holdsNodes_put {st : NodeStore} {ns : List (Option Symbol)} {m : Nat} (h : st.holdsNodes ns m) {i : NodeIx}
    (hi : ns[i.val]? = some none) {n : Node} (hl : n.leaf = false) (hf : n.nfreq = 0#64) :
    (st.put i n).holdsNodes ns m := by
  refine ⟨h.1, h.2.1, fun k => ?_⟩
  have hk := h.2.2 k
  rw [NodeStore.put_node]
  split
  · rename_i hik
    subst hik
    have hlt := (List.getElem?_eq_some_iff.1 hi).1
    exact ⟨hf, fun _ => hl, fun y hy => by rw [hi] at hy; simp at hy, fun hle => absurd hle (by omega)⟩
  · exact hk

/-- A complete position, while some call waits for its left child, goes on to that call's right child (rule R118). -/
theorem unwind_open (fs : List Frame) {st : NodeStore} {ns : List (Option Symbol)} {m : Nat} (j : NodeIx)
    (h : st.holdsNodes ns m) (hf : framesOf ns fs) (ho : 0 < openLefts fs) :
    ∃ st' fs', unwind j fs st = (st', fs', none) ∧ st'.holdsNodes ns m ∧ framesOf ns fs' ∧
      openLefts fs' + 1 = openLefts fs := by
  induction fs generalizing j st with
  | nil => simp [openLefts] at ho
  | cons f fs ih =>
    obtain ⟨i, side⟩ := f
    have hi : ns[i.val]? = some none := hf ⟨i, side⟩ (by simp)
    have hfs : framesOf ns fs := fun g hg => hf g (by simp [hg])
    cases side with
    | left =>
      refine ⟨st.put i { st.node i with left := j }, ⟨i, .right⟩ :: fs, rfl,
        holdsNodes_put h hi ((h.2.2 i).2.1 hi) (h.2.2 i).1, ?_, ?_⟩
      · intro g hg
        rcases List.mem_cons.1 hg with rfl | hg
        · exact hi
        · exact hfs g hg
      · simp [openLefts]
    | right =>
      have ho' : 0 < openLefts fs := by simpa [openLefts] using ho
      obtain ⟨st', fs', h1, h2, h3, h4⟩ := ih (st := st.put i { st.node i with right := j }) i
        (holdsNodes_put h hi ((h.2.2 i).2.1 hi) (h.2.2 i).1) hfs ho'
      exact ⟨st', fs', h1, h2, h3, by rw [h4]; simp [openLefts]⟩

/-- A node the store allocates after the nodes `ns` (rule R118). -/
theorem holdsNodes_alloc {st : NodeStore} {ns : List (Option Symbol)} (h : st.holdsNodes ns 0) (hc : ns.length < 513) :
    ∃ (i : NodeIx) (st₁ : NodeStore), st.alloc = some (i, st₁) ∧ i.val = ns.length ∧ st₁.node i = Node.zero ∧
      st₁.holdsNodes ns 1 := by
  have hcount : st.count.val = ns.length := h.1
  have hlt : st.count.val < 513 := by omega
  refine ⟨⟨st.count.val, hlt⟩, { st with count := ⟨st.count.val + 1, Nat.succ_lt_succ hlt⟩ }, ?_, hcount, ?_, ?_⟩
  · simp [NodeStore.alloc, hlt]
  · exact (h.2.2 _).2.2.2 (by show ns.length ≤ st.count.val; omega)
  · exact ⟨by show st.count.val + 1 = _; omega, h.2.1, h.2.2⟩

/-- A node whose kind is known joins the nodes read (rule R118). -/
theorem holdsNodes_snoc {st : NodeStore} {ns : List (Option Symbol)} (h : st.holdsNodes ns 1) {i : NodeIx}
    (hi : i.val = ns.length) {o : Option Symbol} {n : Node} (hf : n.nfreq = 0#64) (h0 : o = none → n.leaf = false)
    (h1 : ∀ y, o = some y → n = ⟨true, y, 0#64, 0, 0⟩) : (st.put i n).holdsNodes (ns ++ [o]) 0 := by
  refine ⟨by rw [List.length_append]; exact h.1, h.2.1, fun k => ?_⟩
  have hk := h.2.2 k
  rw [NodeStore.put_node]
  split
  · rename_i hik
    subst hik
    have hg : (ns ++ [o])[i.val]? = some o := by rw [hi]; simp
    rw [hg]
    refine ⟨hf, fun hh => h0 (Option.some.inj hh), fun y hy => h1 y (Option.some.inj hy), fun hle => ?_⟩
    simp at hle
    omega
  · rename_i hne
    have hkn : k.val ≠ ns.length := fun he => hne (Fin.ext (by rw [hi, he]))
    refine ⟨hk.1, fun hh => hk.2.1 ?_, fun y hy => hk.2.2.1 y ?_, fun hle => hk.2.2.2 (by simp at hle; omega)⟩
    · rcases Nat.lt_or_gt_of_ne hkn with hlt | hgt
      · rwa [List.getElem?_append_left hlt] at hh
      · rw [List.getElem?_eq_none (by simp; omega)] at hh; simp at hh
    · rcases Nat.lt_or_gt_of_ne hkn with hlt | hgt
      · rwa [List.getElem?_append_left hlt] at hy
      · rw [List.getElem?_eq_none (by simp; omega)] at hy; simp at hy

@[simp] theorem nodeBits_none : nodeBits none = [false] := rfl

@[simp] theorem nodeBits_some_length (y : Symbol) : (nodeBits (some y)).length = 10 := by simp [nodeBits]

/-- What a node's bit leaves to do when the declared bits and the store have room for a node (rule R118). -/
theorem treeLoop_node {s : State} {pre post : Bits} {b : Bool} {bs : List Byte} {rest : List InToken} {st st₁ : NodeStore}
    {i : NodeIx} {fs : List Frame} {n room : Nat} (h : s.Carries (pre ++ [b] ++ post) bs rest)
    (ha : st.alloc = some (i, st₁)) (hn : 0 < n) :
    treeLoop (room + 1) ((s.rebuilding st fs n).afterBits bs rest pre.length) =
      newNode b i ((s.rebuilding st₁ fs (n - 1)).afterBits bs rest (pre.length + 1)) (treeLoop room) := by
  have r := readBits_at (s := s.rebuilding st fs n) (carries_congr h rfl rfl)
  have hnz : ((s.rebuilding st fs n).afterBits bs rest pre.length).budget ≠ 0 := by
    simp [State.afterBits, State.rebuilding]; omega
  rw [treeLoop, if_neg hnz]
  rw [List.length_singleton] at r
  rw [r]
  simp only [ReadResult.andThen]
  have e1 : ((s.rebuilding st fs n).afterBits bs rest (pre.length + 1)).spend 1 =
      (s.rebuilding st fs (n - 1)).afterBits bs rest (pre.length + 1) := rfl
  rw [e1, show ((s.rebuilding st fs (n - 1)).afterBits bs rest (pre.length + 1)).store.alloc = some (i, st₁) from ha]
  have hv : (valueOf [b] == 1) = b := by cases b <;> decide
  rw [hv]
  rfl

theorem put_zero {st : NodeStore} {i : NodeIx} {ns : List (Option Symbol)} (hz : st.node i = Node.zero) (h : st.holdsNodes ns 1) :
    (st.put i { st.node i with nfreq := 0#64 }).holdsNodes ns 1 ∧
      (st.put i { st.node i with nfreq := 0#64 }).node i = Node.zero := by
  have hn : (st.put i { st.node i with nfreq := 0#64 }).node = st.node := by
    funext k
    rw [NodeStore.put_node]
    split
    · rename_i hik
      subst hik
      rw [hz]
      rfl
    · rfl
  refine ⟨⟨h.1, h.2.1, fun k => ?_⟩, by rw [hn]; exact hz⟩
  rw [hn]
  exact h.2.2 k

/-- The walk over the first nodes of a tree in pre-order, while a position stays open (rules R116, R118). -/
theorem treeLoop_nodes (ms : List (Option Symbol)) {ns : List (Option Symbol)} {st : NodeStore} {fs : List Frame}
    {room : Nat} (hst : st.holdsNodes ns 0) (hfs : framesOf ns fs) (hroom : ns.length + room = 513)
    (hfit : ms.length ≤ room) (ho : staysOpen (openLefts fs + 1) ms = true) :
    ∃ st' fs', st'.holdsNodes (ns ++ ms) 0 ∧
      ∀ {s : State} {pre post : Bits} {bs : List Byte} {rest : List InToken} {n : Nat},
        s.Carries (pre ++ ms.flatMap nodeBits ++ post) bs rest → (ms.flatMap nodeBits).length ≤ n →
        treeLoop room ((s.rebuilding st fs n).afterBits bs rest pre.length) =
          treeLoop (room - ms.length) ((s.rebuilding st' fs' (n - (ms.flatMap nodeBits).length)).afterBits bs rest
            (pre.length + (ms.flatMap nodeBits).length)) := by
  induction ms generalizing ns st fs room with
  | nil => exact ⟨st, fs, by simpa using hst, fun _ _ => rfl⟩
  | cons o ms ih =>
    obtain ⟨room, rfl⟩ : ∃ k, room = k + 1 := ⟨room - 1, by simp at hfit; omega⟩
    simp only [List.length_cons, Nat.add_le_add_iff_right] at hfit
    obtain ⟨i, st₁, ha, hi, hz, h1⟩ := holdsNodes_alloc hst (by omega)
    cases o with
    | none =>
      simp only [List.flatMap_cons, nodeBits_none, List.length_append, List.length_singleton]
      obtain ⟨st', fs', h2, e2⟩ := ih (ns := ns ++ [none]) (room := room)
        (st := st₁.put i { st₁.node i with nfreq := 0#64, leaf := false }) (fs := ⟨i, .left⟩ :: fs)
        (holdsNodes_snoc h1 hi rfl (fun _ => rfl) (fun y hy => by simp at hy))
        (by
          intro f hf
          rcases List.mem_cons.1 hf with rfl | hf
          · show (ns ++ [none])[i.val]? = _
            rw [hi]; simp
          · exact framesOf_append hfs _ f hf)
        (by simp; omega) hfit
        (by simpa [openLefts, staysOpen] using ho)
      refine ⟨st', fs', by simpa using h2, fun {s pre post bs rest n} h hn => ?_⟩
      have e := treeLoop_node (b := false) (post := ms.flatMap nodeBits ++ post) (fs := fs) (n := n) (room := room)
        (by simpa [List.append_assoc] using h) ha (by omega)
      have e4 : newNode false i ((s.rebuilding st₁ fs (n - 1)).afterBits bs rest (pre.length + 1)) (treeLoop room) =
          treeLoop room ((s.rebuilding (st₁.put i { st₁.node i with nfreq := 0#64, leaf := false }) (⟨i, .left⟩ :: fs)
            (n - 1)).afterBits bs rest (pre ++ [false]).length) := by
        rw [List.length_append, List.length_singleton]
        rfl
      rw [e, e4, e2 (pre := pre ++ [false]) (by simpa [List.append_assoc] using h) (by omega), List.length_append,
        List.length_singleton, Nat.sub_sub, Nat.add_assoc, List.length_cons, Nat.add_sub_add_right]
    | some y =>
      simp only [List.flatMap_cons, List.length_append, nodeBits_some_length]
      have hb : nodeBits (some y) = [true] ++ binN 9 y.val := rfl
      have hopen : staysOpen (openLefts fs) ms = true := by simpa [staysOpen] using ho
      have hpos : 0 < openLefts fs := by
        rcases Nat.eq_zero_or_pos (openLefts fs) with h0 | h0
        · rw [h0] at hopen; simp [staysOpen] at hopen
        · exact h0
      obtain ⟨hz1, hz2⟩ := put_zero hz h1
      set st₂ := st₁.put i { st₁.node i with nfreq := 0#64 } with hst₂
      set st₃ := st₂.put i { st₂.node i with leaf := true, sym := y } with hst₃
      have h3 : st₃.holdsNodes (ns ++ [some y]) 0 := by
        refine holdsNodes_snoc hz1 hi ?_ (fun hh => by simp at hh) fun z hz => ?_
        · rw [hz2]; rfl
        · cases hz
          rw [hz2]
          rfl
      obtain ⟨st₄, fs', hu, h4, hfs', hop⟩ := unwind_open fs i h3 (framesOf_append hfs _) hpos
      obtain ⟨st', fs'', h5, e2⟩ := ih (ns := ns ++ [some y]) (room := room) (st := st₄) (fs := fs') h4 hfs'
        (by simp; omega) hfit (by rw [hop]; exact hopen)
      refine ⟨st', fs'', by simpa using h5, fun {s pre post bs rest n} h hn => ?_⟩
      have hc0 : s.Carries (pre ++ [true] ++ (binN 9 y.val ++ (ms.flatMap nodeBits ++ post))) bs rest := by
        simpa [hb, List.append_assoc] using h
      rw [treeLoop_node (fs := fs) (n := n) (room := room) hc0 ha (by omega)]
      have r := readBits_field (s := s.rebuilding st₂ fs (n - 1)) (pre := pre ++ [true])
        (carries_congr (s := s) (by simpa [List.append_assoc] using hc0) rfl rfl) (Nat.lt_of_lt_of_le y.isLt (by norm_num))
      rw [List.length_append, List.length_singleton] at r
      have e5 : newNode true i ((s.rebuilding st₁ fs (n - 1)).afterBits bs rest (pre.length + 1)) (treeLoop room) =
          leafSymbol i ((s.rebuilding st₂ fs (n - 1)).afterBits bs rest (pre.length + 1)) (treeLoop room) := by
        have hbud : ¬(n - 1 < Config.symWidth) := by simp [Config.symWidth]; omega
        simp only [newNode, if_true]
        exact if_neg hbud
      rw [e5]
      unfold leafSymbol
      rw [Config.symWidth, r]
      simp only [ReadResult.andThen]
      rw [dif_pos y.isLt]
      have e6 : nodeDone i ((s.rebuilding st₃ fs (n - 1 - 9)).afterBits bs rest (pre.length + 1 + 9)) (treeLoop room) =
          treeLoop room ((s.rebuilding st₄ fs' (n - 1 - 9)).afterBits bs rest (pre.length + 1 + 9)) := by
        unfold nodeDone
        rw [show unwind i ((s.rebuilding st₃ fs (n - 1 - 9)).afterBits bs rest (pre.length + 1 + 9)).stack
          ((s.rebuilding st₃ fs (n - 1 - 9)).afterBits bs rest (pre.length + 1 + 9)).store = _ from hu]
        rfl
      refine Eq.trans ?_ (e6.trans ?_)
      · rfl
      · have hl : (pre ++ [true] ++ binN 9 y.val).length = pre.length + (1 + 9) := by simp
        have e7 := e2 (s := s) (pre := pre ++ [true] ++ binN 9 y.val) (post := post) (bs := bs) (rest := rest) (n := n - 10)
          (by simpa [hb, List.append_assoc] using h) (by omega)
        rw [hl] at e7
        rw [Nat.sub_sub, Nat.add_assoc, e7, Nat.sub_sub, Nat.add_assoc, List.length_cons, Nat.add_sub_add_right]

/-! ## Broken headers from their first bit -/

@[simp] theorem treePreamble_length (p : Params) (n : Nat) : (treePreamble p n).length = 96 := by simp [treePreamble]

theorem empty_holdsNodes : NodeStore.empty.holdsNodes [] 0 :=
  ⟨rfl, rfl, fun i => ⟨by simp [Node.zero], by simp, by simp, fun _ => by simp⟩⟩

/-- A leaf whose symbol fits the declared bits (rule R118). -/
theorem newNode_leaf {i : NodeIx} {s : State} {next : State → Run} (h : 9 ≤ s.budget) : newNode true i s next =
    leafSymbol i { s with store := s.store.put i { s.store.node i with nfreq := 0#64 } } next := by
  simp only [newNode, if_true]
  exact if_neg (by simp [Config.symWidth]; omega)

/-- The preamble, the length and the first nodes of a TreeFormat header (rules R134, R136, R118). -/
theorem readMagic_nodes {s : State} {n : Nat} {ns : List (Option Symbol)} (hsel : s.cfg.selCounts ≠ s.cfg.selTree)
    (hn : n < 2 ^ 32) (ho : staysOpen 1 ns = true) (hl : (ns.flatMap nodeBits).length ≤ n) (hcap : ns.length ≤ 513) :
    ∃ st fs, st.holdsNodes ns 0 ∧ ∀ {x : State} {post : Bits} {bs : List Byte} {rest : List InToken},
      x.Carries (treePreamble s.cfg n ++ ns.flatMap nodeBits ++ post) bs rest → s.Cleared x → ∀ o,
      readMagic { x with phase := .validateMagic, opened := o } =
        treeLoop (513 - ns.length) ((({ x with phase := .readHeader, opened := o } : State).rebuilding st fs
          (n - (ns.flatMap nodeBits).length)).afterBits bs rest (treePreamble s.cfg n ++ ns.flatMap nodeBits).length) := by
  obtain ⟨st, fs, h1, e⟩ := treeLoop_nodes ns (ns := []) (st := NodeStore.empty) (fs := []) (room := 513)
    empty_holdsNodes (fun f hf => by simp at hf) rfl hcap (by simpa [openLefts] using ho)
  refine ⟨st, fs, by simpa using h1, fun {x post bs rest} h hx o => ?_⟩
  have hcfg : ({ x with phase := .validateMagic, opened := o } : State).cfg = s.cfg := hx.1
  rw [readMagic_treeStart (s := { x with phase := .validateMagic, opened := o }) (n := n) (post := ns.flatMap nodeBits ++ post) (by rw [hcfg]; exact hsel) hn hx.2.1
    (by rw [hcfg, ← List.append_assoc]; exact carries_congr h rfl rfl)]
  have := e (s := { x with phase := .readHeader, opened := o }) (n := n) (carries_congr h rfl rfl) hl
  rw [treePreamble_length] at this
  rw [List.length_append, treePreamble_length, ← this]

/-- The preamble, the length and the whole tree of a TreeFormat header (rules R134, R136, R118). -/
theorem readMagic_wholeTree {s : State} {n : Nat} {t : HTree} (hsel : s.cfg.selCounts ≠ s.cfg.selTree)
    (hn : n < 2 ^ 32) (hl : t.bits.length ≤ n) (hcap : t.size ≤ 513) :
    ∃ st : NodeStore, st.complete t ∧ st.root = 0 ∧
      ∀ {x : State} {post : Bits} {bs : List Byte} {rest : List InToken},
        x.Carries (treePreamble s.cfg n ++ t.bits ++ post) bs rest → s.Cleared x → ∀ o,
        readMagic { x with phase := .validateMagic, opened := o } =
          spareLoop (n - t.bits.length) ((({ x with phase := .readHeader, opened := o } : State).rebuilding st []
            (n - t.bits.length)).afterBits bs rest (treePreamble s.cfg n ++ t.bits).length) := by
  obtain ⟨st, h1, h2, _, _, e⟩ := treeLoop_whole hcap
  refine ⟨st, h1, h2, fun {x post bs rest} h hx o => ?_⟩
  have hcfg : ({ x with phase := .validateMagic, opened := o } : State).cfg = s.cfg := hx.1
  rw [readMagic_treeStart (s := { x with phase := .validateMagic, opened := o }) (n := n) (post := t.bits ++ post) (by rw [hcfg]; exact hsel) hn hx.2.1
    (by rw [hcfg, ← List.append_assoc]; exact carries_congr h rfl rfl)]
  have := e (s := { x with phase := .readHeader, opened := o }) (n := n) (carries_congr h rfl rfl) hl
  rw [treePreamble_length] at this
  rw [List.length_append, treePreamble_length, ← this]

end Sys2Proof.Machine
end

