-- ==== Sys2Proof/Laws/PerInstr.lean ====
section
/-! SUPPORT. Statements made per instruction: the word of a command selects its own row of the match and mask table, and
no other (30_encoding.md rules R74, R76). -/

namespace Sys2Proof.Laws.EncodedRow

/-- The operation of a command (rule R74). -/
def opcode : Instr → Opcode
  | .estimate _ => .estimate
  | .compress _ => .compress
  | .decompress => .decompress
  | .ftCount => .ftCount
  | .tbBuild => .tbBuild
  | .ctGen => .ctGen
  | .hdrWrite => .hdrWrite
  | .hdrRead => .hdrRead
  | .bsWrite _ => .bsWrite
  | .bsClose => .bsClose
  | .bsRead _ => .bsRead
  | .bsRreset => .bsRreset

/-- The word of the instruction selects exactly one row, that of its operation. -/
def Statement (i : Instr) : Prop :=
  i.WellFormed = true → (rows.filter fun r => r.selects (encode i)).map (·.op) = [opcode i]

theorem estimate (fmt : Fmt) : Statement (.estimate fmt) := by
  cases fmt <;> exact fun _ => by decide

theorem compress (force : Bool) : Statement (.compress force) := by
  cases force <;> exact fun _ => by decide

theorem decompress : Statement .decompress := fun _ => by decide

theorem ftCount : Statement .ftCount := fun _ => by decide

theorem tbBuild : Statement .tbBuild := fun _ => by decide

theorem ctGen : Statement .ctGen := fun _ => by decide

theorem hdrWrite : Statement .hdrWrite := fun _ => by decide

theorem hdrRead : Statement .hdrRead := fun _ => by decide

theorem bsWrite (width : BitVec 6) : Statement (.bsWrite width) := by
  intro _
  revert width
  decide +kernel

theorem bsClose : Statement .bsClose := fun _ => by decide

theorem bsRead (width : BitVec 6) : Statement (.bsRead width) := by
  intro _
  revert width
  decide +kernel

theorem bsRreset : Statement .bsRreset := fun _ => by decide

end Sys2Proof.Laws.EncodedRow
end

