-- ==== Sys2Proof/Laws/Pops.lean ====
section
/-! SUPPORT. The engine takes tokens from the front of IN only (20_memory.md rule R55): what each step of a command, each
command and each turn leaves on IN is the end of what was there. -/

namespace Sys2Proof.Machine

/-- What is left on IN is the end of what was there. -/
def Pops (s s' : State) : Prop := s'.inq <:+ s.inq

theorem Pops.refl (s : State) : Pops s s := List.suffix_refl _

theorem Pops.trans {a b c : State} (h : Pops a b) (h' : Pops b c) : Pops a c := List.IsSuffix.trans h' h

theorem Pops.of_eq {s s' : State} (h : s'.inq = s.inq) : Pops s s' := by
  unfold Pops
  rw [h]

theorem WriterOnly.pops {s s' : State} (h : WriterOnly s s') : Pops s s' := by
  obtain ⟨_, _, _, rfl⟩ := h
  exact Pops.refl s

/-- Pulling tokens until enough bits are buffered takes them from the front (41_bitstream.md rules R92, R93). -/
theorem fill_pops (w : Nat) (ts : List InToken) (buf : Bits) :
    match fill w ts buf with
    | .enough _ left | .ended left | .failed left => left <:+ ts
    | .empty _ => True := by
  induction ts generalizing buf with
  | nil =>
    unfold fill
    by_cases h : buf.length < w <;> simp [h]
  | cons t ts ih =>
    unfold fill
    by_cases h : buf.length < w
    · rw [if_pos h]
      cases t with
      | byte b =>
        have := ih (buf ++ bitsOfByte b)
        simp only
        generalize fill w ts (buf ++ bitsOfByte b) = f at this ⊢
        cases f <;> first | exact this.trans (List.suffix_cons _ _) | trivial
      | eos => exact List.suffix_cons _ _
      | error => exact List.suffix_cons _ _
    · rw [if_neg h]

theorem readBits_pops (s : State) (w : Nat) : (s.readBits w).All (Pops s) := by
  unfold State.readBits
  split
  · exact Pops.refl s
  · have := fill_pops w s.inq s.reader.buf
    generalize fill w s.inq s.reader.buf = f at this ⊢
    cases f with
    | empty buf => exact List.nil_suffix
    | _ => exact this

theorem countLoop_pops (ts : List InToken) (n : Nat) (s : State) (h : ts <:+ s.inq) : (countLoop ts n s).All (Pops s) := by
  induction ts generalizing n s with
  | nil => exact List.nil_suffix
  | cons t ts ih =>
    have ht : ts <:+ s.inq := (List.suffix_cons t ts).trans h
    cases t with
    | byte b =>
      unfold countLoop
      split
      · exact ht
      · have h1 : Pops s (s.countByte b ts) := ht
        exact (ih _ _ (List.suffix_refl _)).mono fun _ h' => h1.trans h'
    | eos => exact ht
    | error => exact ht

theorem encodeLoop_pops (ts : List InToken) (s : State) (h : ts <:+ s.inq) : (encodeLoop ts s).All (Pops s) := by
  induction ts generalizing s with
  | nil => exact List.nil_suffix
  | cons t ts ih =>
    have ht : ts <:+ s.inq := (List.suffix_cons t ts).trans h
    have h₀ : Pops s { s with inq := ts } := ht
    cases t with
    | byte b =>
      unfold encodeLoop
      simp only
      split
      · refine Run.andThen_all ((emit_footprint _ _)) (fun _ h' => h₀.trans h'.pops) ?_
        intro s' _ hs'
        have hq : s'.inq = ts := by
          obtain ⟨_, _, _, rfl⟩ := hs'
          rfl
        exact (ih s' (by rw [hq])).mono fun _ h' => (h₀.trans hs'.pops).trans h'
      · exact h₀
    | eos => exact (emit_footprint _ _).mono fun _ h' => h₀.trans h'.pops
    | error => exact h₀

theorem decodeLoop_pops (n : Nat) (s : State) : (decodeLoop n s).All (Pops s) := by
  induction n generalizing s with
  | zero => trivial
  | succ n ih =>
    unfold decodeLoop
    split
    · split
      · exact Pops.refl s
      · refine Run.andThen_all (emit_footprint _ _) (fun _ h => h.pops) fun s' _ hs' => ?_
        exact (ih s'.rewind).mono fun _ h => hs'.pops.trans h
    · refine ReadResult.andThen_all (readBits_pops s 1) (fun _ h => h) (fun _ h => h) fun v s' _ hs' => ?_
      exact (ih (s'.descend v)).mono fun _ h => hs'.trans h

theorem spareLoop_pops (n : Nat) (s : State) : (spareLoop n s).All (Pops s) := by
  induction n generalizing s with
  | zero =>
    unfold spareLoop rootCheck
    split <;> exact Pops.refl s
  | succ n ih =>
    refine ReadResult.andThen_all (readBits_pops s 1) (fun _ h => h) (fun _ h => h) fun v s' _ hs' => ?_
    exact (ih (s'.spend 1)).mono fun _ h => hs'.trans h

theorem nodeDone_pops (j : NodeIx) (s : State) (next : State → Run) (hn : ∀ s', (next s').All (Pops s')) :
    (nodeDone j s next).All (Pops s) := by
  unfold nodeDone
  split
  · exact hn _
  · exact spareLoop_pops _ _

theorem leafSymbol_pops (i : NodeIx) (s : State) (next : State → Run) (hn : ∀ s', (next s').All (Pops s')) :
    (leafSymbol i s next).All (Pops s) := by
  refine ReadResult.andThen_all (readBits_pops s _) (fun _ h => h) (fun _ h => h) fun v s' _ hs' => ?_
  simp only
  split
  · exact (nodeDone_pops i _ next hn).mono fun _ h => Pops.trans hs' h
  · exact hs'

theorem newNode_pops (l : Bool) (i : NodeIx) (s : State) (next : State → Run) (hn : ∀ s', (next s').All (Pops s')) :
    (newNode l i s next).All (Pops s) := by
  unfold newNode
  split
  · simp only
    split
    · exact Pops.refl s
    · exact leafSymbol_pops i _ next hn
  · exact hn _

theorem treeLoop_pops (room : Nat) (s : State) : (treeLoop room s).All (Pops s) := by
  induction room generalizing s with
  | zero =>
    unfold treeLoop
    split
    · exact Pops.refl s
    · exact ReadResult.andThen_all (readBits_pops s 1) (fun _ h => h) (fun _ h => h) fun v s' _ hs' => hs'
  | succ room ih =>
    unfold treeLoop
    split
    · exact Pops.refl s
    · refine ReadResult.andThen_all (readBits_pops s 1) (fun _ h => h) (fun _ h => h) fun v s' _ hs' => ?_
      rcases (s'.spend 1).store.alloc_cases with ⟨hc, ha⟩ | ⟨_, ha⟩ <;> simp only [ha]
      · exact (newNode_pops _ _ _ _ ih).mono fun _ h => Pops.trans hs' h
      · exact hs'

theorem treeFrom_pops (s : State) : (treeFrom s).All (Pops s) := treeLoop_pops _ _

theorem treeSymFrom_pops (i : NodeIx) (s : State) : (treeSymFrom i s).All (Pops s) :=
  leafSymbol_pops i s _ treeFrom_pops

theorem countFields_pops (n : Nat) (s : State) : (countFields n s).All (Pops s) := by
  induction n generalizing s with
  | zero => exact Pops.refl s
  | succ n ih =>
    refine ReadResult.andThen_all (readBits_pops s _) (fun _ h => h) (fun _ h => h) fun v s' _ hs' => ?_
    exact (ih (s'.setCount (n + 1) v)).mono fun _ h => Pops.trans hs' h

theorem treeHeader_pops (s : State) : (treeHeader s).All (Pops s) := by
  refine ReadResult.andThen_all (readBits_pops s _) (fun _ h => h) (fun _ h => h) fun v s' _ hs' => ?_
  exact (treeLoop_pops _ _).mono fun _ h => Pops.trans hs' h

theorem readSelector_pops (s : State) : (readSelector s).All (Pops s) := by
  refine ReadResult.andThen_all (readBits_pops { s with phase := .readHeader } _) (fun _ h => h) (fun _ h => h)
    fun v s' _ hs' => ?_
  split
  · exact (countFields_pops _ _).mono fun _ h => Pops.trans hs' h
  split
  · exact (treeHeader_pops _).mono fun _ h => Pops.trans hs' h
  · exact hs'

theorem readMagic_pops (s : State) : (readMagic s).All (Pops s) := by
  refine ReadResult.andThen_all (readBits_pops { s with phase := .validateMagic } _) (fun _ h => h) (fun _ h => h)
    fun v s' _ hs' => ?_
  split
  · exact (readSelector_pops _).mono fun _ h => Pops.trans hs' h
  · exact hs'

/-- Each step of a command takes tokens from the front of IN only (20_memory.md rule R55). -/
theorem runWork_pops (w : Work) (s : State) : (runWork w s).All (Pops s) := by
  have needPops : ∀ b, (need b s).All (Pops s) := by
    intro b; unfold need; split <;> exact Pops.refl s
  have genPops : ∀ s', s'.inq = s.inq → (genCodes s').All (Pops s) := by
    intro s' h
    rcases genCodes_cases s' with ⟨cs, b, _, he⟩ | ⟨_, he⟩ <;> rw [he]
    · exact Pops.of_eq h
    · trivial
  cases w with
  | bitio | clearCodes | clearTree | clearAll | rReset | openStream | markW | markR | decodeStart | rewind | result |
    build => exact Pops.refl s
  | ensureOpen =>
    show Pops s s.ensureOpen
    unfold State.ensureOpen
    split <;> exact Pops.refl s
  | closeStream => exact (closeStream_footprint s).mono fun _ h => h.pops
  | offer b => exact (offerByte_footprint b s).mono fun _ h => h.pops
  | offerEnd => exact (offerEnd_footprint s).mono fun _ h => h.pops
  | abort e =>
    show (resumeAbort e s).All (Pops s)
    unfold resumeAbort
    rcases push_cases s .abort with ⟨a, _, hs⟩ | ⟨_, hs⟩ <;> rw [hs] <;> exact Pops.refl s
  | emit bits => exact (emit_footprint _ s).mono fun _ h => h.pops
  | writeField width => exact (emit_footprint _ s).mono fun _ h => h.pops
  | readField width =>
    have setR : ∀ {s' : State} (v : Int), Pops s s' → Pops s (s'.setResult v) := fun v h => h.trans (Pops.of_eq rfl)
    exact ReadResult.andThen_all (readBits_pops s width.toNat) (fun _ h => h) (fun _ h => setR _ h)
      (fun v s' _ h => setR _ h)
  | count n => exact countLoop_pops _ n _ (List.suffix_refl _)
  | needTree => exact needPops _
  | genCodes => exact genPops s rfl
  | plan fmt =>
    exact Run.andThen_all (genPops s.buildTree rfl) (fun _ h => h) fun s' _ h => h
  | needPlan => exact needPops _
  | gate force =>
    show (gate force s).All (Pops s)
    unfold gate
    split <;> exact Pops.refl s
  | headerWrite =>
    show (headerWrite s.planFmt s).All (Pops s)
    unfold headerWrite
    split
    · trivial
    · exact (emit_footprint _ _).mono fun _ h => Pops.trans (Pops.of_eq rfl) h.pops
  | encodeBody => exact encodeLoop_pops _ _ (List.suffix_refl _)
  | magic => exact readMagic_pops s
  | selector => exact readSelector_pops s
  | countFields left => exact countFields_pops _ s
  | treeLen => exact treeHeader_pops s
  | treeNode => exact treeFrom_pops s
  | treeSym i => exact treeSymFrom_pops i s
  | treeSpare => exact spareLoop_pops _ s
  | decodeBody => exact decodeLoop_pops _ s

theorem runWorks_pops (ws : List Work) (s : State) : (runWorks ws s).All (Pops s) := by
  induction ws generalizing s with
  | nil => exact Pops.refl s
  | cons w ws ih =>
    exact Run.andThen_all (runWork_pops w s) (fun _ h => h) fun s' _ h => (ih s').mono fun _ h' => h.trans h'

/-- However a run of steps ends, what is left on IN is the end of what was there. -/
theorem settle_pops {r : Run} {s t : State} (h : r.All (Pops s)) (ht : r.settle = .next t) : Pops s t := by
  cases r with
  | done u => cases ht; exact h
  | ended u => cases ht; exact h
  | raised e u =>
    cases ht
    rcases terminate_cases u e with ⟨_, he⟩ | ⟨_, _, a, _, he⟩ | ⟨_, _, _, he⟩ <;> rw [he] <;> exact h
  | held u l => cases ht; exact h
  | stuck f => cases ht

theorem launch_pops {p : Phase} {ws : List Work} {s t : State} (h : launch p ws s = .next t) : Pops s t := by
  unfold launch at h
  simp only at h
  split at h
  · cases h
    exact Pops.refl s
  · exact Pops.trans (Pops.of_eq rfl) (settle_pops (runWorks_pops ws { s with phase := p, opened := false }) h)

theorem exec_pops {i : Instr} {s t : State} (h : exec i s = .next t) : Pops s t := by
  cases i <;> exact launch_pops h

theorem resume_pops {s t : State} (h : resume s = .next t) : Pops s t := by
  unfold resume at h
  split at h
  · exact settle_pops (runWorks_pops _ s) h
  · cases h
    exact Pops.refl s

/-- A turn records exactly the tokens it took (00_scope.md rule R14). -/
theorem turn_next {s t : State} {ps : List InToken} (h : s.inq = ps ++ t.inq) :
    s.turn (.next t) = .next { t with popped := t.popped ++ ps } := by
  simp [State.turn, State.recordPops, h]

end Sys2Proof.Machine
end

