-- ==== Sys2Proof/Laws/Timing.lean ====
section
/-! SUPPORT. What comes later comes in time: a command that holds and then finds more tokens on IN or more answers of
the sink goes on as if they had been there from its start (20_memory.md rules R55, R56, R62, 70_reset_and_hazards.md rule
R184); and what the host does to ARG does not reach a running command (10_state.md rule R32). -/

namespace Sys2Proof.Machine

/-- What can come while a command's steps run: tokens for IN, and answers for a sink that has none of its own left; with
them the fields that no step reads, ARG and the list of steps left. -/
structure News where
  tokens  : List InToken
  answers : List Answer
  /-- What the sink answers after its script, before the news and with it. -/
  old     : Option Answer
  new     : Option Answer
  arg     : Word
  work    : List Work
  fair    : old = none ∨ answers = [] ∧ new = old

namespace News

variable (d : News)

/-- The state with the news. -/
def on (s : State) : State :=
  { s with
    inq := s.inq ++ d.tokens, sink := ⟨s.sink.script ++ d.answers, d.new, s.sink.taken⟩, arg := d.arg, work := d.work }

/-- Nothing new at the ports. -/
def Empty : Prop := d.tokens = [] ∧ d.answers = [] ∧ d.new = d.old

end News

/-- Two runs are one, unless one of them ran out of passes. -/
def Run.Agrees (r r' : Run) : Prop := r = r' ∨ (∃ f, r = .stuck f) ∨ ∃ f, r' = .stuck f

theorem Run.Agrees.refl (r : Run) : r.Agrees r := .inl rfl

theorem Run.Agrees.andThen {r r' : Run} (h : r.Agrees r') {later : List Work} {next next' : State → Run}
    (hn : ∀ s, r = .done s → (next s).Agrees (next' s)) :
    (r.andThen later next).Agrees (r'.andThen later next') := by
  rcases h with rfl | ⟨f, rfl⟩ | ⟨f, rfl⟩
  · cases r <;> first | exact hn _ rfl | exact .inl rfl
  · exact .inr (.inl ⟨f, rfl⟩)
  · exact .inr (.inr ⟨f, rfl⟩)

/-- The run `r'` with the news does what `r` does without: it ends as `r` ends, and where `r` holds it goes on as the
steps that `r` left, or, with no news, holds too. -/
def Run.Late (d : News) (r r' : Run) : Prop :=
  match r with
  | .done u => u.sink.rest = d.old ∧ r' = .done (d.on u)
  | .ended u => u.sink.rest = d.old ∧ r' = .ended (d.on u)
  | .raised e u => u.sink.rest = d.old ∧ r' = .raised e (d.on u)
  | .held u left =>
    u.sink.rest = d.old ∧ r'.Agrees (runWorks left (d.on u)) ∧ (d.Empty → r' = .held (d.on u) left)
  | .stuck _ => True

theorem Run.Late.andThen {d : News} {r r' : Run} (h : r.Late d r') {later : List Work} {next next' : State → Run}
    (hn : ∀ u, r = .done u → u.sink.rest = d.old → (next u).Late d (next' (d.on u)))
    (hl : ∀ v, r' = .done v → (next' v).Agrees (runWorks later v)) :
    (r.andThen later next).Late d (r'.andThen later next') := by
  cases r with
  | done u =>
    obtain ⟨h1, rfl⟩ := h
    exact hn u rfl h1
  | ended u => obtain ⟨h1, rfl⟩ := h; exact ⟨h1, rfl⟩
  | raised e u => obtain ⟨h1, rfl⟩ := h; exact ⟨h1, rfl⟩
  | held u left =>
    refine ⟨h.1, ?_, fun he => by rw [h.2.2 he]; rfl⟩
    rw [runWorks_append]
    exact h.2.1.andThen hl
  | stuck f => trivial

/-- The steps of a command, and steps that follow by the same name. -/
theorem Run.Late.next {d : News} {r r' : Run} (h : r.Late d r') {later : List Work} {next : State → Run}
    (hn : ∀ u, u.sink.rest = d.old → (next u).Late d (next (d.on u))) (hl : ∀ v, next v = runWorks later v) :
    (r.andThen later next).Late d (r'.andThen later next) :=
  h.andThen (fun u _ hu => hn u hu) fun v _ => .inl (hl v)

theorem runWorks_single (w : Work) (s : State) : runWorks [w] s = runWork w s := by
  rw [runWorks_cons]
  cases runWork w s <;> simp

/-! ## The OUT port -/

section

variable {d : News} {s : State}

/-- An answer the sink has ready is not changed by answers that come after it. -/
theorem Sink.next_more (k : Sink) {as : List Answer} {r : Option Answer} (hr : k.rest = none ∨ as = [] ∧ r = k.rest)
    {a : Answer} (h : k.next = some a) :
    (⟨k.script ++ as, r, k.taken⟩ : Sink).next = some a ∧
      ∀ t b, (⟨k.script ++ as, r, k.taken⟩ : Sink).record t b = ⟨(k.record t b).script ++ as, r, (k.record t b).taken⟩ := by
  obtain ⟨script, rest, taken⟩ := k
  cases script with
  | cons b bs => exact ⟨h, fun _ _ => rfl⟩
  | nil =>
    have h0 : rest = some a := h
    rcases hr with hr | ⟨h1, h2⟩
    · rw [show rest = none from hr] at h0; cases h0
    · rw [h1, h2]; exact ⟨h0, fun _ _ => rfl⟩

/-- Offering a token: an answer that is there is the same with the news, and with no news none comes. -/
theorem push_late (h : s.sink.rest = d.old) (t : OutToken) :
    (∃ a u, s.push t = .answered a u ∧ (d.on s).push t = .answered a (d.on u) ∧ u.sink.rest = d.old) ∨
    (s.push t = .waiting ∧ (d.Empty → (d.on s).push t = .waiting)) := by
  unfold State.push
  cases hn : s.sink.next with
  | some a =>
    obtain ⟨h1, h2⟩ := s.sink.next_more (by rw [h]; exact d.fair) hn
    refine .inl ⟨a, _, rfl, ?_, h⟩
    rw [show (d.on s).sink.next = some a from h1]
    simp only
    rw [show (d.on s).sink.record t a = _ from h2 t a]
    rfl
  | none =>
    refine .inr ⟨rfl, fun he => ?_⟩
    rw [show (d.on s).sink.next = none by rw [← hn]; simp [News.on, he.2.1, he.2.2, ← h]]

theorem offerByte_late (h : s.sink.rest = d.old) (b : Byte) : (offerByte b s).Late d (offerByte b (d.on s)) := by
  rcases push_late h (.byte b) with ⟨a, u, h1, h2, h3⟩ | ⟨h1, h2⟩
  · cases a <;> simp only [offerByte, h1, h2] <;> exact ⟨h3, rfl⟩
  · have : offerByte b s = .held s [.offer b] := by simp [offerByte, h1]
    rw [this]
    refine ⟨h, .inl (runWorks_single (.offer b) _).symm, fun he => ?_⟩
    simp [offerByte, h2 he]

theorem emit_late (bs : Bits) {s : State} (h : s.sink.rest = d.old) : (emit bs s).Late d (emit bs (d.on s)) := by
  induction bs generalizing s with
  | nil => exact ⟨h, rfl⟩
  | cons b bs ih =>
    by_cases hf : s.writer.buf.length = 7
    · rw [emit_cons_of_eq hf, emit_cons_of_eq (s := d.on s) hf]
      exact (offerByte_late (s := (s.pushBit b).dropWbuf) h _).next (fun u hu => ih hu)
        fun v => (runWorks_single (.emit bs) v).symm
    · rw [emit_cons_of_ne hf, emit_cons_of_ne (s := d.on s) hf]
      exact ih (s := s.pushBit b) h

theorem offerEnd_late (h : s.sink.rest = d.old) : (offerEnd s).Late d (offerEnd (d.on s)) := by
  rcases push_late h .eos with ⟨a, u, h1, h2, h3⟩ | ⟨h1, h2⟩
  · cases a <;> simp only [offerEnd, h1, h2] <;> exact ⟨h3, rfl⟩
  · have : offerEnd s = .held s [.offerEnd] := by simp [offerEnd, h1]
    rw [this]
    refine ⟨h, .inl (runWorks_single (.offerEnd) _).symm, fun he => ?_⟩
    simp [offerEnd, h2 he]

theorem resumeAbort_late (h : s.sink.rest = d.old) (e : ErrCode) : (resumeAbort e s).Late d (resumeAbort e (d.on s)) := by
  rcases push_late h .abort with ⟨a, u, h1, h2, h3⟩ | ⟨h1, h2⟩
  · simp only [resumeAbort, h1, h2]; exact ⟨h3, rfl⟩
  · have : resumeAbort e s = .held s [.abort e] := by simp [resumeAbort, h1]
    rw [this]
    refine ⟨h, .inl (runWorks_single (.abort e) _).symm, fun he => ?_⟩
    simp [resumeAbort, h2 he]

theorem closeStream_late (h : s.sink.rest = d.old) : (closeStream s).Late d (closeStream (d.on s)) := by
  have hend : ∀ {u : State}, u.sink.rest = d.old → (endStream u).Late d (endStream (d.on u)) := fun {u} hu =>
    offerEnd_late (s := { u with writer := { u.writer with closed := true } }) hu
  unfold closeStream
  by_cases hc : s.writer.closed = true
  · rw [if_pos hc, if_pos (show (d.on s).writer.closed = true from hc)]
    exact ⟨h, rfl⟩
  rw [if_neg hc, if_neg (show ¬(d.on s).writer.closed = true from hc)]
  by_cases hb : s.writer.buf = []
  · rw [if_pos hb, if_pos (show (d.on s).writer.buf = [] from hb)]
    exact hend h
  rw [if_neg hb, if_neg (show ¬(d.on s).writer.buf = [] from hb)]
  refine (offerByte_late (s := s.dropWbuf) h _).andThen (fun u _ hu => hend hu) fun v hv => .inl ?_
  rw [runWorks_single]
  have hw : v.writer = s.dropWbuf.writer := by
    have hv' : offerByte (byteOf s.writer.buf) (d.on s).dropWbuf = .done v := hv
    rcases offerByte_cases (byteOf s.writer.buf) (d.on s).dropWbuf with ⟨_, h'⟩ | ⟨_, h'⟩ | ⟨_, h'⟩ <;> rw [h'] at hv' <;>
      cases hv'
    rfl
  show endStream v = closeStream v
  have h1 : ¬v.writer.closed = true := by rw [hw]; exact hc
  have h2 : v.writer.buf = [] := by rw [hw]; rfl
  rw [closeStream, if_neg h1, if_pos h2]

/-! ## The IN port -/

/-- Tokens that come after those on IN are left where those are enough, and are pulled where they are not. -/
theorem fill_late (w : Nat) (ts more : List InToken) (buf : Bits) :
    match fill w ts buf with
    | .enough b left => fill w (ts ++ more) buf = .enough b (left ++ more)
    | .ended left => fill w (ts ++ more) buf = .ended (left ++ more)
    | .failed left => fill w (ts ++ more) buf = .failed (left ++ more)
    | .empty b => fill w (ts ++ more) buf = fill w more b ∧ b.length < w := by
  induction ts generalizing buf with
  | nil =>
    by_cases h : buf.length < w
    · simp [fill, h]
    · cases more <;> simp [fill, h]
  | cons t ts ih =>
    by_cases h : buf.length < w
    · cases t with
      | byte b => simpa [fill, h] using ih (buf ++ bitsOfByte b)
      | eos => simp [fill, h]
      | error => simp [fill, h]
    · simp [fill, h]

/-- `ReadBits`: bits that are there are the same with the news; a read that waits goes on where it was. -/
theorem readBits_late (s : State) (w : Nat) :
    match s.readBits w with
    | .got v u => (d.on s).readBits w = .got v (d.on u)
    | .sentinel u => (d.on s).readBits w = .sentinel (d.on u)
    | .failed u => (d.on s).readBits w = .failed (d.on u)
    | .waiting u => (d.on s).readBits w = (d.on u).readBits w ∧ (d.Empty → (d.on s).readBits w = .waiting (d.on u)) := by
  by_cases hx : s.reader.exh = true
  · have hx' : (d.on s).reader.exh = true := hx
    simp only [State.readBits, hx, hx', if_true]
  · have hx' : ¬(d.on s).reader.exh = true := hx
    have hf := fill_late w s.inq d.tokens s.reader.buf
    unfold State.readBits
    rw [if_neg hx, if_neg hx', show (d.on s).inq = s.inq ++ d.tokens from rfl,
      show (d.on s).reader.buf = s.reader.buf from rfl]
    cases hs : fill w s.inq s.reader.buf with
    | enough b left => rw [hs] at hf; simp only at hf; rw [hf]; rfl
    | ended left => rw [hs] at hf; simp only at hf; rw [hf]; rfl
    | failed left => rw [hs] at hf; simp only at hf; rw [hf]; rfl
    | empty b =>
      rw [hs] at hf
      simp only at hf ⊢
      rw [hf.1]
      have hu : ¬(d.on { s with inq := [], reader := { s.reader with buf := b } }).reader.exh = true := hx
      refine ⟨?_, fun he => ?_⟩
      · rw [if_neg hu, show (d.on { s with inq := [], reader := { s.reader with buf := b } }).inq = d.tokens from rfl,
          show (d.on { s with inq := [], reader := { s.reader with buf := b } }).reader.buf = b from rfl]
        cases fill w d.tokens b <;> rfl
      · rw [he.1, fill, if_pos hf.2]
        simp [News.on, he.1]

/-- A step that starts with a read does the same with the news as without, if what follows the read does, and if the
step that a hold leaves is the same step. -/
theorem read_late (h : s.sink.rest = d.old) (w : Nat) {later : List Work} {onS onS' : State → Run}
    {next next' : Nat → State → Run}
    (hs : ∀ u, ReaderOnly s u → u.sink.rest = d.old → (onS u).Late d (onS' (d.on u)))
    (hn : ∀ v u, s.readBits w = .got v u → ReaderOnly s u → u.sink.rest = d.old →
      (next v u).Late d (next' v (d.on u)))
    (hl : ∀ u, ReaderOnly s u → (((d.on u).readBits w).andThen later onS' next').Agrees (runWorks later (d.on u))) :
    ((s.readBits w).andThen later onS next).Late d (((d.on s).readBits w).andThen later onS' next') := by
  have hf := readBits_footprint s w
  have hk : ∀ {u : State}, ReaderOnly s u → u.sink.rest = d.old := by
    rintro u ⟨_, _, _, rfl⟩
    exact h
  have hr := readBits_late (d := d) s w
  cases hv : s.readBits w with
  | got v u => rw [hv] at hf hr; simp only at hr; rw [hr]; exact hn v u hv hf (hk hf)
  | sentinel u => rw [hv] at hf hr; simp only at hr; rw [hr]; exact hs u hf (hk hf)
  | failed u => rw [hv] at hf hr; simp only at hr; rw [hr]; exact ⟨hk hf, rfl⟩
  | waiting u =>
    rw [hv] at hf hr
    refine ⟨hk hf, ?_, fun he => by rw [hr.2 he]; rfl⟩
    rw [hr.1]
    exact hl u hf

/-! ## The loops over IN -/

theorem countLoop_late (n : Nat) (h : s.sink.rest = d.old) (hp : s.phase = .count) {q : List InToken} (hq : s.inq = q) :
    (countLoop q n s).Late d (countLoop (q ++ d.tokens) n (d.on s)) := by
  induction q generalizing n s with
  | nil =>
    have e1 : ({ s with inq := [] } : State) = s := by rw [← hq]
    have e2 : ({ d.on s with phase := .count } : State) = d.on s := by rw [show Phase.count = (d.on s).phase from hp.symm]
    rw [countLoop, e1]
    refine ⟨h, .inl ?_, fun he => ?_⟩
    · rw [runWorks_single, List.nil_append]
      show _ = countLoop (s.inq ++ d.tokens) n { d.on s with phase := .count }
      rw [e2, hq, List.nil_append]
    · rw [he.1, List.append_nil, countLoop]
      simp [News.on, he.1, hq]
  | cons t q ih =>
    cases t with
    | byte b =>
      rw [List.cons_append, countLoop, countLoop, show (d.on s).freq = s.freq from rfl]
      split
      · exact ⟨h, rfl⟩
      · exact ih (s := s.countByte b q) (n + 1) h hp rfl
    | eos => exact ⟨h, rfl⟩
    | error => exact ⟨h, rfl⟩

theorem encodeLoop_late (h : s.sink.rest = d.old) (hp : s.phase = .encodeBody) {q : List InToken} (hq : s.inq = q) :
    (encodeLoop q s).Late d (encodeLoop (q ++ d.tokens) (d.on s)) := by
  induction q generalizing s with
  | nil =>
    have e1 : ({ s with inq := [] } : State) = s := by rw [← hq]
    have e2 : ({ d.on s with phase := .encodeBody } : State) = d.on s := by
      rw [show Phase.encodeBody = (d.on s).phase from hp.symm]
    rw [encodeLoop, e1]
    refine ⟨h, .inl ?_, fun he => ?_⟩
    · rw [runWorks_single, List.nil_append]
      show _ = encodeLoop (s.inq ++ d.tokens) { d.on s with phase := .encodeBody }
      rw [e2, hq, List.nil_append]
    · rw [he.1, List.append_nil, encodeLoop]
      simp [News.on, he.1, hq]
  | cons t q ih =>
    cases t with
    | byte b =>
      rw [List.cons_append, encodeLoop, encodeLoop, show (d.on s).codeAt (symbolOfByte b) = s.codeAt (symbolOfByte b) from rfl]
      split
      · refine (emit_late _ (s := { s with inq := q }) h).andThen (fun u hu hk => ?_) fun v hv => .inl ?_
        · have hw := emit_footprint (s.codeAt (symbolOfByte b)).bits { s with inq := q }
          rw [hu] at hw
          obtain ⟨_, _, _, rfl⟩ := hw
          exact ih hk hp rfl
        · have hw := emit_footprint (s.codeAt (symbolOfByte b)).bits (d.on { s with inq := q })
          have hv' : emit (s.codeAt (symbolOfByte b)).bits (d.on { s with inq := q }) = .done v := hv
          rw [hv'] at hw
          obtain ⟨_, _, _, rfl⟩ := hw
          rw [runWorks_single]
          show _ = encodeLoop (q ++ d.tokens) _
          congr 1
          simp [News.on, hp]
      · exact ⟨h, rfl⟩
    | eos => exact emit_late _ (s := { s with inq := q }) h
    | error => exact ⟨h, rfl⟩

/-- A decoder that has passes enough does the same with any number more. -/
theorem decodeLoop_more (n k : Nat) (s : State) : (∃ f, decodeLoop n s = .stuck f) ∨ decodeLoop (n + k) s = decodeLoop n s := by
  induction n generalizing s with
  | zero => exact .inl ⟨_, rfl⟩
  | succ n ih =>
    rw [Nat.succ_add, decodeLoop, decodeLoop]
    split
    · split
      · exact .inr rfl
      · cases emit (binN Config.wordWidth (s.store.node s.cur).sym.val) s with
        | done u => exact ih u.rewind
        | _ => exact .inr rfl
    · cases s.readBits 1 with
      | got v u => exact ih (u.descend v)
      | _ => exact .inr rfl

theorem decodeLoop_agrees (n m : Nat) (s : State) : (decodeLoop n s).Agrees (decodeLoop m s) := by
  rcases Nat.le_total n m with h | h
  · obtain ⟨k, rfl⟩ := Nat.exists_eq_add_of_le h
    rcases decodeLoop_more n k s with h | h
    · exact .inr (.inl h)
    · exact .inl h.symm
  · obtain ⟨k, rfl⟩ := Nat.exists_eq_add_of_le h
    rcases decodeLoop_more m k s with h | h
    · exact .inr (.inr h)
    · exact .inl h

theorem decodeLoop_late (n k : Nat) (h : s.sink.rest = d.old) :
    (decodeLoop n s).Late d (decodeLoop (n + k) (d.on s)) := by
  induction n generalizing s with
  | zero => trivial
  | succ n ih =>
    rw [Nat.succ_add, decodeLoop, decodeLoop, show (d.on s).store = s.store from rfl,
      show (d.on s).cur = s.cur from rfl]
    split
    · split
      · exact ⟨h, rfl⟩
      · refine (emit_late _ h).andThen (fun u _ hu => ih (s := u.rewind) hu) fun v _ => ?_
        have e : runWorks [.rewind, .decodeBody] v = decodeBody v.rewind := runWorks_single .decodeBody v.rewind
        rw [e]
        exact decodeLoop_agrees _ _ v.rewind
    · rename_i hl
      refine read_late h 1 (fun u _ hu => ⟨hu, rfl⟩) (fun v u _ _ hu => ih (s := u.descend v) hu) fun u hu => ?_
      rw [runWorks_single]
      have hl' : ¬((d.on u).store.node (d.on u).cur).leaf = true := by
        obtain ⟨_, _, _, rfl⟩ := hu
        exact hl
      have := decodeLoop_agrees (n + k + 1) (2 * (d.on u).bitsAhead + 2) (d.on u)
      rw [decodeLoop, if_neg hl'] at this
      exact this

/-! ## Reading a header -/

theorem rootCheck_late (h : s.sink.rest = d.old) : (rootCheck s).Late d (rootCheck (d.on s)) := by
  unfold rootCheck
  rw [show (d.on s).store = s.store from rfl]
  split <;> exact ⟨h, rfl⟩

theorem spareLoop_late (n : Nat) (h : s.sink.rest = d.old) (hb : s.budget = n) :
    (spareLoop n s).Late d (spareLoop n (d.on s)) := by
  induction n generalizing s with
  | zero => exact rootCheck_late h
  | succ n ih =>
    refine read_late h 1 (fun u _ hu => ⟨hu, rfl⟩) (fun v u _ hr hu => ?_) fun u hr => ?_
    · obtain ⟨_, _, _, rfl⟩ := hr
      exact ih (s := State.spend _ 1) hu (by show s.budget - 1 = n; omega)
    · obtain ⟨_, _, _, rfl⟩ := hr
      rw [runWorks_single]
      show Run.Agrees _ (spareLoop s.budget _)
      rw [hb]
      exact .refl _

theorem unwind_count (j : NodeIx) (fs : List Frame) (st : NodeStore) : (unwind j fs st).1.count = st.count := by
  induction fs generalizing j st with
  | nil => rfl
  | cons f fs ih =>
    obtain ⟨i, side⟩ := f
    cases side with
    | left => rfl
    | right => exact ih i (st.put i { st.node i with right := j })

/-- What follows a node position does the same with the news as without, in a store with `c` nodes. -/
def NextLate (d : News) (c : Fin 514) (next next' : State → Run) : Prop :=
  ∀ u : State, u.store.count = c → u.sink.rest = d.old → (next u).Late d (next' (d.on u))

theorem nodeDone_late (j : NodeIx) {next next' : State → Run} (hn : NextLate d s.store.count next next')
    (h : s.sink.rest = d.old) : (nodeDone j s next).Late d (nodeDone j (d.on s) next') := by
  have hc := unwind_count j s.stack s.store
  unfold nodeDone
  rw [show (d.on s).stack = s.stack from rfl, show (d.on s).store = s.store from rfl]
  generalize unwind j s.stack s.store = o at hc ⊢
  obtain ⟨st, fs, o⟩ := o
  cases o with
  | none => exact hn { s with store := st, stack := fs } hc h
  | some r => exact spareLoop_late (s := { s with store := { st with root := r }, stack := fs }) _ h rfl

theorem nodeDone_congr (j : NodeIx) (s : State) {f g : State → Run}
    (hfg : ∀ u : State, u.store.count = s.store.count → f u = g u) : nodeDone j s f = nodeDone j s g := by
  have hc := unwind_count j s.stack s.store
  unfold nodeDone
  generalize unwind j s.stack s.store = o at hc ⊢
  obtain ⟨st, fs, o⟩ := o
  cases o with
  | none => exact hfg { s with store := st, stack := fs } hc
  | some r => rfl

theorem leafSymbol_congr (i : NodeIx) (s : State) {f g : State → Run}
    (hfg : ∀ u : State, u.store.count = s.store.count → f u = g u) : leafSymbol i s f = leafSymbol i s g := by
  unfold leafSymbol
  have hr := readBits_footprint s Config.symWidth
  cases hv : s.readBits Config.symWidth with
  | got v u =>
    rw [hv] at hr
    obtain ⟨_, _, _, rfl⟩ := hr
    simp only [ReadResult.andThen]
    split
    · exact nodeDone_congr i _ hfg
    · rfl
  | _ => rfl

theorem leafSymbol_late (i : NodeIx) {next next' : State → Run} (hn : NextLate d s.store.count next next')
    (hf : ∀ u : State, u.store.count = s.store.count → next' u = treeFrom u) (h : s.sink.rest = d.old) :
    (leafSymbol i s next).Late d (leafSymbol i (d.on s) next') := by
  refine read_late h _ (fun u _ hu => ⟨hu, rfl⟩) (fun v u _ hr hu => ?_) fun u hr => ?_
  · obtain ⟨_, _, _, rfl⟩ := hr
    simp only
    split
    · exact nodeDone_late (s := { State.spend _ _ with store := NodeStore.put _ i _ }) i hn hu
    · exact ⟨hu, rfl⟩
  · obtain ⟨_, _, _, rfl⟩ := hr
    rw [runWorks_single]
    exact .inl (leafSymbol_congr i _ hf)

theorem newNode_late (l : Bool) (i : NodeIx) {next next' : State → Run} (hn : NextLate d s.store.count next next')
    (hf : ∀ u : State, u.store.count = s.store.count → next' u = treeFrom u) (h : s.sink.rest = d.old) :
    (newNode l i s next).Late d (newNode l i (d.on s) next') := by
  unfold newNode
  cases l with
  | true =>
    simp only [if_true]
    rw [show (d.on s).budget = s.budget from rfl]
    split
    · exact ⟨h, rfl⟩
    · exact leafSymbol_late (s := { s with store := NodeStore.put _ i _ }) i hn hf h
  | false => exact hn { s with store := NodeStore.put _ i _, stack := ⟨i, .left⟩ :: s.stack } rfl h

theorem treeLoop_late (room : Nat) (h : s.sink.rest = d.old) (hr : s.room = room) :
    (treeLoop room s).Late d (treeLoop room (d.on s)) := by
  induction room generalizing s with
  | zero =>
    unfold treeLoop
    rw [show (d.on s).budget = s.budget from rfl]
    split
    · exact ⟨h, rfl⟩
    · rename_i hb
      refine read_late h 1 (fun u _ hu => ⟨hu, rfl⟩) (fun v u _ _ hu => ⟨hu, rfl⟩) fun u hu => ?_
      obtain ⟨_, _, _, rfl⟩ := hu
      rw [runWorks_single]
      show Run.Agrees _ (treeLoop s.room _)
      rw [hr]
      refine .inl ?_
      conv_rhs => unfold treeLoop
      exact (if_neg hb).symm
  | succ room ih =>
    unfold treeLoop
    rw [show (d.on s).budget = s.budget from rfl]
    split
    · exact ⟨h, rfl⟩
    · rename_i hb
      refine read_late h 1 (fun u _ hu => ⟨hu, rfl⟩) (fun v u _ hu hk => ?_) fun u hu => ?_
      · have hst : u.store = s.store := by
          obtain ⟨_, _, _, rfl⟩ := hu
          rfl
        rw [show ((d.on u).spend 1).store = u.store from rfl, show (u.spend 1).store = u.store from rfl, hst]
        rcases s.store.alloc_cases with ⟨hc, ha⟩ | ⟨_, ha⟩
        · have hroom : ∀ u : State, u.store.count.val = s.store.count.val + 1 → u.room = room := by
            intro u hu
            simp only [State.room] at hr ⊢
            omega
          simp only [ha]
          exact newNode_late (s := { u.spend 1 with store := { s.store with count := _ } }) _ _
            (fun w hw hk => ih hk (hroom w (by rw [hw])))
            (fun w hw => by rw [treeFrom, hroom w (by rw [hw])]) hk
        · simp only [ha]
          exact ⟨hk, rfl⟩
      · obtain ⟨_, _, _, rfl⟩ := hu
        rw [runWorks_single]
        show Run.Agrees _ (treeLoop s.room _)
        rw [hr]
        refine .inl ?_
        conv_rhs => unfold treeLoop
        exact (if_neg hb).symm

theorem treeFrom_late (h : s.sink.rest = d.old) : (treeFrom s).Late d (treeFrom (d.on s)) := treeLoop_late _ h rfl

theorem countFields_late (n : Nat) (h : s.sink.rest = d.old) : (countFields n s).Late d (countFields n (d.on s)) := by
  induction n generalizing s with
  | zero => exact ⟨h, rfl⟩
  | succ n ih =>
    exact read_late h _ (fun u _ hu => ⟨hu, rfl⟩) (fun v u _ _ hu => ih (s := u.setCount (n + 1) v) hu)
      fun _ _ => .inl (runWorks_single (.countFields (n + 1)) _).symm

theorem treeHeader_late (h : s.sink.rest = d.old) : (treeHeader s).Late d (treeHeader (d.on s)) :=
  read_late h _ (fun _ _ hu => ⟨hu, rfl⟩) (fun v u _ _ hu => treeFrom_late (s := { u with budget := v, stack := [] }) hu)
    fun _ _ => .inl (runWorks_single .treeLen _).symm

theorem readSelector_late (h : s.sink.rest = d.old) : (readSelector s).Late d (readSelector (d.on s)) := by
  refine read_late (s := { s with phase := .readHeader }) h _ (fun u _ hu => ⟨hu, rfl⟩) (fun v u _ _ hu => ?_)
    fun u hr => ?_
  · rw [show (d.on u).cfg = u.cfg from rfl]
    split
    · exact countFields_late _ hu
    split
    · exact treeHeader_late hu
    · exact ⟨hu, rfl⟩
  · obtain ⟨_, _, _, rfl⟩ := hr
    rw [runWorks_single]
    exact .refl _

theorem readMagic_late (h : s.sink.rest = d.old) : (readMagic s).Late d (readMagic (d.on s)) := by
  refine read_late (s := { s with phase := .validateMagic }) h _ (fun u _ hu => ⟨hu, rfl⟩) (fun v u _ _ hu => ?_)
    fun u hr => ?_
  · rw [show (d.on u).cfg = u.cfg from rfl]
    split
    · exact readSelector_late hu
    · exact ⟨hu, rfl⟩
  · obtain ⟨_, _, _, rfl⟩ := hr
    rw [runWorks_single]
    exact .refl _

/-! ## Every step -/

theorem on_freqTable : (d.on s).freqTable = s.freqTable := by
  unfold State.freqTable
  rw [show (d.on s).freq = s.freq from rfl]

theorem on_leafCount : (d.on s).leafCount = s.leafCount := by
  unfold State.leafCount
  rw [on_freqTable]

theorem on_buildTree : (d.on s).buildTree = d.on s.buildTree := by
  unfold State.buildTree State.leavesBuilder
  rw [on_freqTable, show (d.on s).store = s.store from rfl]
  rfl

theorem on_makePlan (fmt : Fmt) : (d.on s).makePlan fmt = d.on (s.makePlan fmt) := by
  unfold State.makePlan State.bitsSaved
  rw [on_leafCount, show (d.on s).origBits = s.origBits from rfl, show (d.on s).bodyBits = s.bodyBits from rfl]
  rfl

theorem runWork_late (w : Work) (h : s.sink.rest = d.old) : (runWork w s).Late d (runWork w (d.on s)) := by
  have needs : ∀ b, (need b s).Late d (need b (d.on s)) := by
    intro b; unfold need; split <;> exact ⟨h, rfl⟩
  have result : ∀ u : State, u.sink.rest = d.old → ∀ v, (Run.done (u.setResult v)).Late d (.done ((d.on u).setResult v)) :=
    fun _ hu _ => ⟨hu, rfl⟩
  have gen : ∀ u : State, u.sink.rest = d.old → (genCodes u).Late d (genCodes (d.on u)) := by
    intro u hu
    unfold genCodes
    rw [show (d.on u).store = u.store from rfl, show (d.on u).codes = u.codes from rfl]
    cases u.store.codesOver u.codes with
    | none => trivial
    | some cs => exact ⟨hu, rfl⟩
  cases w with
  | bitio | clearCodes | clearTree | clearAll | rReset | openStream | markW | markR | decodeStart | rewind =>
    exact ⟨h, rfl⟩
  | result r =>
    show (Run.done (s.setResult (r.value s))).Late d (.done ((d.on s).setResult (r.value (d.on s))))
    rw [show r.value (d.on s) = r.value s by cases r <;> rfl]
    exact result s h _
  | build =>
    show (Run.done _).Late d (.done ((d.on s).buildTree.setResult (d.on s).leafCount))
    rw [on_buildTree, on_leafCount]
    exact result s.buildTree h _
  | ensureOpen =>
    show (Run.done s.ensureOpen).Late d (.done (d.on s).ensureOpen)
    unfold State.ensureOpen
    rw [show (d.on s).writer = s.writer from rfl]
    split <;> exact ⟨h, rfl⟩
  | closeStream => exact closeStream_late h
  | offer b => exact offerByte_late h b
  | offerEnd => exact offerEnd_late h
  | abort e => exact resumeAbort_late h e
  | emit bits => exact emit_late bits h
  | writeField width => exact emit_late _ h
  | readField width =>
    exact read_late h _ (fun u _ hu => result u hu _) (fun v u _ _ hu => result u hu _)
      fun u _ => .inl (runWorks_single (.readField width) _).symm
  | count n => exact countLoop_late (s := { s with phase := .count }) n h rfl rfl
  | needTree => exact needs _
  | genCodes => exact gen s h
  | plan fmt =>
    have hg := gen s.buildTree h
    show (planStream fmt s).Late d (planStream fmt (d.on s))
    unfold planStream
    rw [on_buildTree]
    rcases genCodes_cases s.buildTree with ⟨cs, b, _, he⟩ | ⟨_, he⟩ <;> rw [he] at hg ⊢
    · rw [hg.2]
      exact ⟨h, by rw [Run.andThen_done, on_makePlan]⟩
    · trivial
  | needPlan => exact needs _
  | gate force =>
    show (gate force s).Late d (gate force (d.on s))
    unfold gate
    rw [show (d.on s).refuses force = s.refuses force from rfl]
    split <;> exact ⟨h, rfl⟩
  | headerWrite =>
    show (headerWrite s.planFmt s).Late d (headerWrite s.planFmt (d.on s))
    unfold headerWrite
    rw [show (d.on s).headerBits s.planFmt = s.headerBits s.planFmt from rfl]
    cases s.headerBits s.planFmt with
    | none => trivial
    | some bits => exact emit_late bits (s := { s with phase := .hdrWrite }) h
  | encodeBody => exact encodeLoop_late (s := { s with phase := .encodeBody }) h rfl rfl
  | magic => exact readMagic_late h
  | selector => exact readSelector_late h
  | countFields left => exact countFields_late left h
  | treeLen => exact treeHeader_late h
  | treeNode => exact treeFrom_late h
  | treeSym i => exact leafSymbol_late i (fun u _ hu => treeFrom_late hu) (fun _ _ => rfl) h
  | treeSpare => exact spareLoop_late s.budget h rfl
  | decodeBody =>
    have e : 2 * (d.on s).bitsAhead + 2 = (2 * s.bitsAhead + 2) + 16 * d.tokens.length := by
      simp only [State.bitsAhead, News.on, List.length_append]
      omega
    show (decodeLoop _ s).Late d (decodeLoop (2 * (d.on s).bitsAhead + 2) (d.on s))
    rw [e]
    exact decodeLoop_late _ _ h

theorem runWorks_late (ws : List Work) (h : s.sink.rest = d.old) : (runWorks ws s).Late d (runWorks ws (d.on s)) := by
  induction ws generalizing s with
  | nil => exact ⟨h, rfl⟩
  | cons w ws ih => exact (runWork_late w h).next (fun u hu => ih hu) fun v => rfl

/-! ## Turns -/

/-- The host's ARG does not reach a running command (10_state.md rule R32), nor does the list of steps it is at. -/
theorem settle_aside {ws : List Work} {s t : State} (h : (runWorks ws s).settle = .next t) (a : Word) (w : List Work) :
    (runWorks ws { s with arg := a, work := w }).settle = .next { t with arg := a } := by
  obtain ⟨d, hd⟩ : ∃ d : News, d = ⟨[], [], s.sink.rest, s.sink.rest, a, w, .inr ⟨rfl, rfl⟩⟩ := ⟨_, rfl⟩
  have hon : ∀ u : State, u.sink.rest = s.sink.rest → d.on u = { u with arg := a, work := w } := by
    intro u hu
    simp [News.on, hd, ← hu]
  have hl := runWorks_late (d := d) ws (s := s) (by rw [hd])
  rw [hon s rfl] at hl
  have hold : d.old = s.sink.rest := by rw [hd]
  cases hr : runWorks ws s with
  | done u =>
    rw [hr] at hl h
    cases h
    rw [hl.2, hon u (hl.1.trans hold)]
    rfl
  | ended u =>
    rw [hr] at hl h
    cases h
    rw [hl.2, hon u (hl.1.trans hold)]
    rfl
  | raised e u =>
    rw [hr] at hl h
    cases h
    rw [hl.2, hon u (hl.1.trans hold)]
    show Host.Outcome.next (State.terminate _ e) = _
    congr 1
    unfold State.terminate
    simp only
    split
    · simp only [State.push]
      cases u.sink.next <;> rfl
    · rfl
  | held u left =>
    rw [hr] at hl h
    cases h
    rw [hl.2.2 (by rw [hd]; exact ⟨rfl, rfl, rfl⟩), hon u (hl.1.trans hold)]
    rfl
  | stuck f => rw [hr] at h; cases h

theorem settle_arg {ws : List Work} {s t : State} (h : (runWorks ws s).settle = .next t) : t.arg = s.arg := by
  have h1 := settle_aside h s.arg s.work
  rw [show ({ s with arg := s.arg, work := s.work } : State) = s from rfl, h] at h1
  have h2 := Host.Outcome.next.inj h1
  rw [h2]

theorem resumeAbort_settle {s : State} (hc : s.writer.closed = true) (e : ErrCode) : (resumeAbort e s).settle =
    match s.sink.next with
    | some a => .next ({ s with result := 0#64, sink := s.sink.record .abort a }.finishError e)
    | none => .next { s with work := [.abort e] } := by
  unfold resumeAbort State.push
  cases s.sink.next <;> simp [Run.settle, State.terminate, hc]

theorem terminate_open {s : State} (h : (s.opened && !s.writer.closed) = true) (e : ErrCode) : s.terminate e =
    match s.sink.next with
    | some a => { s with
        result := 0#64, writer := ⟨true, [], s.writer.bits⟩, sink := s.sink.record .abort a }.finishError e
    | none => { s with result := 0#64, writer := ⟨true, [], s.writer.bits⟩, work := [.abort e] } := by
  unfold State.terminate State.push
  simp only [h, if_true]
  cases s.sink.next <;> rfl

/-- A termination comes to the same whether the sink answers its `Abort` at once or later (60_exceptions.md rule
R160). -/
theorem terminate_given {s : State} (hb : s.busy = true) (hs : s.stalled = false) (e : ErrCode) (ts : List InToken)
    (as : List Answer) (r : Option Answer) (hr : s.sink.rest = none ∨ as = [] ∧ r = s.sink.rest) :
    .next ((s.given ts as r).terminate e) = resume ((s.terminate e).given ts as r) := by
  by_cases h : (s.opened && !s.writer.closed) = true
  · rw [terminate_open h, terminate_open (s := s.given ts as r) h]
    cases hn : s.sink.next with
    | some a =>
      obtain ⟨h1, h2⟩ := s.sink.next_more hr hn
      have h1' : (s.given ts as r).sink.next = some a := h1
      have h2' : (s.given ts as r).sink.record .abort a = _ := h2 .abort a
      simp only [h1', h2']
      rfl
    | none =>
      obtain ⟨u, hu⟩ : ∃ u : State, u = State.given { s with
        result := 0#64, writer := ⟨true, [], s.writer.bits⟩, work := [.abort e] } ts as r := ⟨_, rfl⟩
      show _ = resume (State.given { s with
        result := 0#64, writer := ⟨true, [], s.writer.bits⟩, work := [.abort e] } ts as r)
      rw [← hu, resume_running (by rw [hu]; exact hb) (by rw [hu]; exact hs),
        show u.work = [.abort e] by rw [hu]; rfl, runWorks_single]
      show _ = (resumeAbort e u).settle
      rw [resumeAbort_settle (by rw [hu]; rfl), hu]
      show _ = match (s.given ts as r).sink.next with
        | some a => _
        | none => _
      cases (s.given ts as r).sink.next <;> rfl
  · have h' : ¬((s.given ts as r).opened && !(s.given ts as r).writer.closed) = true := h
    rw [Bool.not_eq_true] at h h'
    simp only [State.terminate, h, h', Bool.false_eq_true, if_false]
    rfl

/-- What comes to the ports during a hold might as well have been there before: a turn with the news comes to what the
turn without it and one that takes the command up with it come to (20_memory.md rules R55, R56, R62), unless a decoder
ran out of passes. -/
theorem settle_given {ws : List Work} {s t : State} (hb : s.busy = true) (hs : s.stalled = false)
    (h : (runWorks ws s).settle = .next t) (ts : List InToken) (as : List Answer) (r : Option Answer)
    (hr : s.sink.rest = none ∨ as = [] ∧ r = s.sink.rest) :
    (runWorks ws (s.given ts as r)).settle = resume (t.given ts as r) ∨
      (∃ f, (runWorks ws (s.given ts as r)).settle = .fault f) ∨ ∃ f, resume (t.given ts as r) = .fault f := by
  obtain ⟨d, hd⟩ : ∃ d : News, d = ⟨ts, as, s.sink.rest, r, s.arg, s.work, hr⟩ := ⟨_, rfl⟩
  have hon : ∀ u : State, SameHost s u → d.on u = u.given ts as r := by
    intro u hu
    simp [News.on, State.given, hd, ← hu.arg, ← hu.work]
  have hl := runWorks_late (d := d) ws (s := s) (by rw [hd])
  have hh := runWorks_host ws s
  rw [hon s (SameHost.refl s)] at hl
  cases hw : runWorks ws s with
  | done u =>
    rw [hw] at hl hh h
    cases h
    refine .inl ?_
    rw [hl.2, hon u hh]
    rfl
  | ended u =>
    rw [hw] at hl hh h
    cases h
    refine .inl ?_
    rw [hl.2, hon u hh]
    rfl
  | raised e u =>
    rw [hw] at hl hh h
    cases h
    refine .inl ?_
    rw [hl.2, hon u hh]
    exact terminate_given (hh.busy.trans hb) (hh.stalled.trans hs) e ts as r (by rw [hl.1, hd]; exact hr)
  | held u left =>
    rw [hw] at hl hh h
    cases h
    obtain ⟨-, hl, -⟩ := hl
    rw [hon u hh] at hl
    have hrun : resume (State.given { u with work := left } ts as r) =
        (runWorks left { u.given ts as r with work := left }).settle :=
      resume_running (hh.busy.trans hb) (hh.stalled.trans hs)
    rw [hrun]
    cases ht : (runWorks left { u.given ts as r with work := left }).settle with
    | next t' =>
      have hback : (runWorks left (u.given ts as r)).settle = .next t' := by
        have h1 := settle_aside ht u.arg u.work
        rwa [show ({ t' with arg := u.arg } : State) = t' by rw [show u.arg = t'.arg from (settle_arg ht).symm]] at h1
      rcases hl with hl | ⟨f, hl⟩ | ⟨f, hl⟩
      · exact .inl (by rw [hl]; exact hback)
      · exact .inr (.inl ⟨f, by rw [hl]; rfl⟩)
      · rw [hl] at hback; cases hback
    | fault f => exact .inr (.inr ⟨f, rfl⟩)
    | refused f => cases hr : runWorks left { u.given ts as r with work := left } <;> rw [hr] at ht <;> cases ht
  | stuck f => rw [hw] at h; cases h

end

end Sys2Proof.Machine
end

