-- ==== Sys2Proof/Laws/Turns.lean ====
section
/-! SUPPORT. What a command's steps can raise and what they leave when they hold, and from it what the work of a held
command is made of and what each of its turns keeps, however often it was taken up again (20_memory.md rule R62,
60_exceptions.md rule R159). -/

namespace Sys2Proof.Machine

/-! ## What a step can raise and what it can leave -/

/-- A step of reading a header (45_header.md rules R134 to R136). -/
def Work.ofHeader : Work → Bool
  | .magic | .selector | .countFields _ | .treeLen | .treeNode | .treeSym _ | .treeSpare => true
  | _ => false

/-- The errors that a step, or what it leaves when it holds, can raise (60_exceptions.md rule R159). -/
def Work.errs : Work → List ErrCode
  | .closeStream | .offer _ | .offerEnd | .emit _ | .writeField _ | .readField _ | .headerWrite => [.ioError]
  | .abort e => [e]
  | .count _ => [.ioError, .countOverflow]
  | .needTree | .needPlan => [.illegalUsage]
  | .encodeBody => [.illegalUsage, .ioError]
  | .magic | .selector | .countFields _ | .treeLen | .treeNode | .treeSym _ | .treeSpare =>
    [.invalidMagic, .unknownHeaderFormat, .ioError, .malformedHeader]
  | .decodeBody => [.corruptStream, .ioError]
  | _ => []

/-- `x` can be among what the step `w` leaves when it holds. -/
def Work.leaves (w x : Work) : Prop :=
  match w with
  | .offer _ => ∃ b, x = .offer b
  | .offerEnd => x = .offerEnd
  | .closeStream => (∃ b, x = .offer b) ∨ x = .closeStream ∨ x = .offerEnd
  | .abort e => x = .abort e
  | .emit _ | .writeField _ | .headerWrite => (∃ b, x = .offer b) ∨ ∃ bs, x = .emit bs
  | .readField width => x = .readField width
  | .count _ => ∃ n, x = .count n
  | .encodeBody => (∃ b, x = .offer b) ∨ (∃ bs, x = .emit bs) ∨ x = .encodeBody
  | .decodeBody => (∃ b, x = .offer b) ∨ (∃ bs, x = .emit bs) ∨ x = .rewind ∨ x = .decodeBody
  | w => w.ofHeader = true ∧ x.ofHeader = true

/-- A run of steps raises only errors of `es` and leaves only steps that satisfy `P` when it holds. -/
def Run.Within (es : List ErrCode) (P : Work → Prop) : Run → Prop
  | .raised e _ => e ∈ es
  | .held _ left => ∀ x ∈ left, P x
  | _ => True

theorem Run.Within.mono {es es' : List ErrCode} {P Q : Work → Prop} {r : Run} (h : r.Within es P)
    (he : ∀ e ∈ es, e ∈ es') (hp : ∀ x, P x → Q x) : r.Within es' Q := by
  cases r with
  | raised e s => exact he e h
  | held s left => exact fun x hx => hp x (h x hx)
  | _ => trivial

theorem Run.andThen_within {es : List ErrCode} {P : Work → Prop} {r : Run} {later : List Work} {next : State → Run}
    (h : r.Within es P) (hl : ∀ x ∈ later, P x) (hn : ∀ s, (next s).Within es P) :
    (r.andThen later next).Within es P := by
  cases r with
  | done s => exact hn s
  | held s left =>
    intro x hx
    rcases List.mem_append.1 hx with h' | h'
    · exact h x h'
    · exact hl x h'
  | raised e s => exact h
  | _ => trivial

theorem ReadResult.andThen_within {es : List ErrCode} {P : Work → Prop} {r : ReadResult} {later : List Work}
    {onS : State → Run} {next : Nat → State → Run} (hi : ErrCode.ioError ∈ es) (hl : ∀ x ∈ later, P x)
    (hs : ∀ s, (onS s).Within es P) (hn : ∀ v s, (next v s).Within es P) : (r.andThen later onS next).Within es P := by
  cases r with
  | got v s => exact hn v s
  | sentinel s => exact hs s
  | failed s => exact hi
  | waiting s => exact hl

/-- What remains of bits handed to the writer: a byte offered, and bits not taken yet. -/
def Work.ofWriter (x : Work) : Prop := (∃ b, x = .offer b) ∨ ∃ bs, x = .emit bs

theorem offerByte_within (b : Byte) (s : State) : (offerByte b s).Within [.ioError] fun x => ∃ b, x = .offer b := by
  unfold offerByte
  split
  · trivial
  · exact List.mem_singleton.2 rfl
  · exact fun x hx => ⟨b, List.mem_singleton.1 hx⟩

theorem emit_within (bs : Bits) (s : State) : (emit bs s).Within [.ioError] Work.ofWriter := by
  induction bs generalizing s with
  | nil => trivial
  | cons b bs ih =>
    unfold emit
    simp only
    split
    · exact Run.andThen_within ((offerByte_within _ _).mono (fun _ h => h) fun _ h => .inl h)
        (fun x hx => .inr ⟨bs, List.mem_singleton.1 hx⟩) ih
    · exact ih _

theorem offerEnd_within (s : State) : (offerEnd s).Within [.ioError] fun x => x = .offerEnd := by
  unfold offerEnd
  split
  · trivial
  · exact List.mem_singleton.2 rfl
  · exact fun x hx => List.mem_singleton.1 hx

theorem closeStream_within (s : State) : (closeStream s).Within [.ioError] (Work.leaves .closeStream) := by
  have hend : ∀ s, (endStream s).Within [.ioError] (Work.leaves .closeStream) := fun s =>
    (offerEnd_within _).mono (fun _ h => h) fun _ h => .inr (.inr h)
  unfold closeStream
  split
  · trivial
  split
  · exact hend s
  · exact Run.andThen_within ((offerByte_within _ _).mono (fun _ h => h) fun _ h => .inl h)
      (fun x hx => .inr (.inl (List.mem_singleton.1 hx))) hend

theorem countLoop_within (ts : List InToken) (n : Nat) (s : State) :
    (countLoop ts n s).Within [.ioError, .countOverflow] (Work.leaves (.count n)) := by
  induction ts generalizing n s with
  | nil => exact fun x hx => ⟨n, List.mem_singleton.1 hx⟩
  | cons t ts ih =>
    cases t with
    | byte b =>
      unfold countLoop
      split
      · simp [Run.Within]
      · exact ih (n + 1) _
    | eos => trivial
    | error => simp [countLoop, Run.Within]

theorem encodeLoop_within (ts : List InToken) (s : State) :
    (encodeLoop ts s).Within [.illegalUsage, .ioError] (Work.leaves .encodeBody) := by
  have hemit : ∀ bs s, (emit bs s).Within [.illegalUsage, .ioError] (Work.leaves .encodeBody) := fun bs s =>
    (emit_within bs s).mono (fun e h => .tail _ h) fun x h => h.elim .inl fun h => .inr (.inl h)
  induction ts generalizing s with
  | nil => exact fun x hx => .inr (.inr (List.mem_singleton.1 hx))
  | cons t ts ih =>
    cases t with
    | byte b =>
      unfold encodeLoop
      simp only
      split
      · exact Run.andThen_within (hemit _ _) (fun x hx => .inr (.inr (List.mem_singleton.1 hx))) ih
      · simp [Run.Within]
    | eos => exact hemit _ _
    | error => simp [encodeLoop, Run.Within]

theorem decodeLoop_within (n : Nat) (s : State) :
    (decodeLoop n s).Within [.corruptStream, .ioError] (Work.leaves .decodeBody) := by
  induction n generalizing s with
  | zero => trivial
  | succ n ih =>
    unfold decodeLoop
    split
    · split
      · trivial
      · refine Run.andThen_within ((emit_within _ _).mono (fun e h => .tail _ h)
          fun x h => h.elim .inl fun h => .inr (.inl h)) (fun x hx => ?_) fun s' => ih _
        simp only [List.mem_cons, List.not_mem_nil, or_false] at hx
        exact .inr (.inr hx)
    · exact ReadResult.andThen_within (by decide) (fun x hx => .inr (.inr (.inr (List.mem_singleton.1 hx))))
        (fun s' => by simp [Run.Within]) fun v s' => ih _

/-- The errors of reading a header (45_header.md rules R134 to R136). -/
def headerErrs : List ErrCode := [.invalidMagic, .unknownHeaderFormat, .ioError, .malformedHeader]

theorem ofHeader_of_mem {w : Work} (hw : w.ofHeader = true) : ∀ x ∈ [w], x.ofHeader = true := by
  intro x hx
  rw [List.mem_singleton.1 hx]
  exact hw

theorem malformed_within (s : State) (P : Work → Prop) : (Run.raised .malformedHeader s).Within headerErrs P := by
  simp [Run.Within, headerErrs]

theorem spareLoop_within (n : Nat) (s : State) : (spareLoop n s).Within headerErrs (·.ofHeader = true) := by
  induction n generalizing s with
  | zero =>
    unfold spareLoop rootCheck
    split
    · exact malformed_within _ _
    · trivial
  | succ n ih =>
    exact ReadResult.andThen_within (by decide) (ofHeader_of_mem rfl) (fun _ => malformed_within _ _) fun v s' => ih _

theorem nodeDone_within (j : NodeIx) (s : State) (next : State → Run)
    (hn : ∀ s', (next s').Within headerErrs (·.ofHeader = true)) :
    (nodeDone j s next).Within headerErrs (·.ofHeader = true) := by
  unfold nodeDone
  split
  · exact hn _
  · exact spareLoop_within _ _

theorem leafSymbol_within (i : NodeIx) (s : State) (next : State → Run)
    (hn : ∀ s', (next s').Within headerErrs (·.ofHeader = true)) :
    (leafSymbol i s next).Within headerErrs (·.ofHeader = true) := by
  refine ReadResult.andThen_within (by decide) (ofHeader_of_mem rfl) (fun _ => malformed_within _ _) fun v s' => ?_
  simp only
  split
  · exact nodeDone_within i _ next hn
  · exact malformed_within _ _

theorem newNode_within (l : Bool) (i : NodeIx) (s : State) (next : State → Run)
    (hn : ∀ s', (next s').Within headerErrs (·.ofHeader = true)) :
    (newNode l i s next).Within headerErrs (·.ofHeader = true) := by
  unfold newNode
  split
  · simp only
    split
    · exact malformed_within _ _
    · exact leafSymbol_within i _ next hn
  · exact hn _

theorem treeLoop_within (room : Nat) (s : State) : (treeLoop room s).Within headerErrs (·.ofHeader = true) := by
  induction room generalizing s with
  | zero =>
    unfold treeLoop
    split
    · exact malformed_within _ _
    · exact ReadResult.andThen_within (by decide) (ofHeader_of_mem rfl) (fun _ => malformed_within _ _)
        fun _ _ => malformed_within _ _
  | succ room ih =>
    unfold treeLoop
    split
    · exact malformed_within _ _
    · refine ReadResult.andThen_within (by decide) (ofHeader_of_mem rfl) (fun _ => malformed_within _ _) fun v s' => ?_
      rcases (s'.spend 1).store.alloc_cases with ⟨hc, ha⟩ | ⟨_, ha⟩ <;> simp only [ha]
      · exact newNode_within _ _ _ _ ih
      · exact malformed_within _ _

theorem countFields_within (n : Nat) (s : State) : (countFields n s).Within headerErrs (·.ofHeader = true) := by
  induction n generalizing s with
  | zero => trivial
  | succ n ih =>
    exact ReadResult.andThen_within (by decide) (ofHeader_of_mem rfl) (fun _ => malformed_within _ _) fun v s' => ih _

theorem treeHeader_within (s : State) : (treeHeader s).Within headerErrs (·.ofHeader = true) :=
  ReadResult.andThen_within (by decide) (ofHeader_of_mem rfl) (fun _ => malformed_within _ _)
    fun _ _ => treeLoop_within _ _

theorem readSelector_within (s : State) : (readSelector s).Within headerErrs (·.ofHeader = true) := by
  refine ReadResult.andThen_within (by decide) (ofHeader_of_mem rfl) (fun _ => by simp [Run.Within, headerErrs])
    fun v s' => ?_
  split
  · exact countFields_within _ _
  split
  · exact treeHeader_within _
  · simp [Run.Within, headerErrs]

theorem readMagic_within (s : State) : (readMagic s).Within headerErrs (·.ofHeader = true) := by
  refine ReadResult.andThen_within (by decide) (ofHeader_of_mem rfl) (fun _ => by simp [Run.Within, headerErrs])
    fun v s' => ?_
  split
  · exact readSelector_within _
  · simp [Run.Within, headerErrs]

/-- What each step of a command can raise and what it can leave when it holds. -/
theorem runWork_within (w : Work) (s : State) : (runWork w s).Within w.errs w.leaves := by
  have header : ∀ {w : Work} {r : Run}, w.ofHeader = true → r.Within headerErrs (·.ofHeader = true) →
      r.Within w.errs w.leaves := by
    intro w r hw hr
    cases w <;> first
      | exact Bool.noConfusion hw
      | exact hr.mono (fun _ h => h) fun x h => ⟨rfl, h⟩
  have gen : ∀ s es P, (genCodes s).Within es P := by
    intro s es P
    rcases genCodes_cases s with ⟨cs, b, _, he⟩ | ⟨_, he⟩ <;> rw [he] <;> trivial
  have needs : ∀ b P, (need b s).Within [.illegalUsage] P := by
    intro b P
    unfold need
    split
    · trivial
    · exact List.mem_singleton.2 rfl
  cases w with
  | bitio | clearCodes | clearTree | clearAll | rReset | ensureOpen | openStream | markW | markR | decodeStart | rewind |
    result | build => trivial
  | closeStream => exact closeStream_within s
  | offer b => exact offerByte_within b s
  | offerEnd => exact offerEnd_within s
  | abort e =>
    show (resumeAbort e s).Within _ _
    unfold resumeAbort
    split
    · exact List.mem_singleton.2 rfl
    · exact fun x hx => List.mem_singleton.1 hx
  | emit bits => exact emit_within _ s
  | writeField width => exact emit_within _ s
  | readField width =>
    exact ReadResult.andThen_within (List.mem_singleton.2 rfl) (fun x hx => List.mem_singleton.1 hx) (fun _ => trivial)
      fun _ _ => trivial
  | count n => exact countLoop_within _ n _
  | needTree => exact needs _ _
  | genCodes => exact gen s _ _
  | plan fmt => exact Run.andThen_within (gen _ _ _) (fun _ hx => absurd hx (by simp)) fun _ => trivial
  | needPlan => exact needs _ _
  | gate force =>
    show (gate force s).Within _ _
    unfold gate
    split <;> trivial
  | headerWrite =>
    show (headerWrite s.planFmt s).Within _ _
    unfold headerWrite
    split
    · trivial
    · exact emit_within _ _
  | encodeBody => exact encodeLoop_within _ _
  | magic => exact header rfl (readMagic_within s)
  | selector => exact header rfl (readSelector_within s)
  | countFields left => exact header rfl (countFields_within _ s)
  | treeLen => exact header rfl (treeHeader_within s)
  | treeNode => exact header rfl (treeLoop_within _ s)
  | treeSym i => exact header rfl (leafSymbol_within i s _ fun s' => treeLoop_within _ s')
  | treeSpare => exact header rfl (spareLoop_within _ s)
  | decodeBody => exact decodeLoop_within _ _

/-! ## What a held command is made of -/

/-- Of the state that COMPRESS and DECOMPRESS leave at their `WOpen` (41_bitstream.md rule R88), none is left by another
step. -/
theorem runWork_opened (w : Work) (s : State) :
    (runWork w s).All fun s' => s'.opened = true → s.opened = true ∨ w = .openStream := by
  have same : ∀ {s' : State}, s'.opened = s.opened → s'.opened = true → s.opened = true ∨ w = .openStream :=
    fun h h' => .inl (h ▸ h')
  have writer : ∀ {s' u : State}, u.opened = s.opened → WriterOnly u s' → s'.opened = true →
      s.opened = true ∨ w = .openStream := by
    intro s' u hu h
    obtain ⟨_, _, _, rfl⟩ := h
    exact same hu
  have header : ∀ {s' : State}, HeaderOnly s s' → s'.opened = true → s.opened = true ∨ w = .openStream := by
    intro s' h
    obtain ⟨_, _, _, _, _, _, _, _, _, _, _, rfl, _⟩ := h
    exact same rfl
  have needs : ∀ b, (need b s).All fun s' => s'.opened = true → s.opened = true ∨ w = .openStream := by
    intro b; unfold need; split <;> exact same rfl
  have gen : ∀ u : State, u.opened = s.opened →
      (genCodes u).All fun s' => s'.opened = true → s.opened = true ∨ w = .openStream := by
    intro u hu
    rcases genCodes_cases u with ⟨cs, b, _, he⟩ | ⟨_, he⟩ <;> rw [he]
    · exact same hu
    · trivial
  cases w with
  | bitio | clearCodes | clearTree | clearAll | rReset | markW | markR | decodeStart | rewind | result | build =>
    exact same rfl
  | openStream => exact fun _ => .inr rfl
  | ensureOpen => exact same (by unfold State.ensureOpen; split <;> rfl)
  | closeStream => exact (closeStream_footprint s).mono fun _ h => writer rfl h
  | offer b => exact (offerByte_footprint b s).mono fun _ h => writer rfl h
  | offerEnd => exact (offerEnd_footprint s).mono fun _ h => writer rfl h
  | abort e =>
    show (resumeAbort e s).All _
    unfold resumeAbort
    rcases push_cases s .abort with ⟨a, _, hs⟩ | ⟨_, hs⟩ <;> rw [hs] <;> exact same rfl
  | emit bits => exact (emit_footprint _ s).mono fun _ h => writer rfl h
  | writeField width => exact (emit_footprint _ s).mono fun _ h => writer rfl h
  | readField width =>
    have reader : ∀ {s' : State}, ReaderOnly s s' → s'.opened = s.opened := by
      rintro s' ⟨_, _, _, rfl⟩
      rfl
    have result : ∀ {s' : State} (v : Int), ReaderOnly s s' → (s'.setResult v).opened = s.opened :=
      fun _ h => by
        rw [← reader h]
        rfl
    exact ReadResult.andThen_all (readBits_footprint s _) (fun _ h => same (reader h))
      (fun _ h => same (result _ h)) fun _ _ _ h => same (result _ h)
  | count n =>
    exact (countLoop_footprint _ n _).mono fun s' h => by
      obtain ⟨_, _, _, rfl⟩ := h
      exact same rfl
  | needTree => exact needs _
  | genCodes => exact gen s rfl
  | plan fmt => exact Run.andThen_all (gen s.buildTree rfl) (fun _ h => h) fun s' _ h => h
  | needPlan => exact needs _
  | gate force =>
    show (gate force s).All _
    unfold gate
    split <;> exact same rfl
  | headerWrite =>
    show (headerWrite s.planFmt s).All _
    unfold headerWrite
    split
    · trivial
    · exact (emit_footprint _ _).mono fun _ h => writer (u := { s with phase := .hdrWrite }) rfl h
  | encodeBody =>
    exact (encodeLoop_footprint _ _).mono fun s' h => by
      obtain ⟨_, _, _, _, rfl⟩ := h
      exact same rfl
  | magic => exact (readMagic_footprint s).mono fun _ h => header h
  | selector => exact (readSelector_footprint s).mono fun _ h => header h
  | countFields left => exact (countFields_footprint _ s).mono fun _ h => header h
  | treeLen => exact (treeHeader_footprint s).mono fun _ h => header h
  | treeNode => exact (treeFrom_footprint s).mono fun _ h => header h
  | treeSym i => exact (treeSymFrom_footprint i s).mono fun _ h => header h
  | treeSpare => exact (spareLoop_footprint _ s).mono fun _ h => header h
  | decodeBody =>
    exact (decodeLoop_footprint _ s).mono fun s' h => by
      obtain ⟨_, _, _, _, _, _, rfl⟩ := h
      exact same rfl

/-- A set of steps that holds whatever one of them leaves, and, where it has the `WOpen` of COMPRESS and DECOMPRESS, the
`Abort` of whatever one of them raises (60_exceptions.md rule R160). -/
structure Work.Closed (C : Work → Prop) : Prop where
  left  : ∀ w x, C w → w.leaves x → C x
  abort : C .openStream → ∀ w e, C w → e ∈ w.errs → C (.abort e)

/-- A stream that the command opened was opened by a step of the set. -/
def State.OpenedBy (s : State) (C : Work → Prop) : Prop := s.opened = true → C .openStream

/-- A run of steps of a closed set raises and leaves what its steps can. -/
theorem runWorks_within {C : Work → Prop} (hC : Work.Closed C) (ws : List Work) (s : State) (h : ∀ w ∈ ws, C w)
    (ho : s.OpenedBy C) :
    match runWorks ws s with
    | .raised e u => (∃ w, C w ∧ e ∈ w.errs) ∧ u.OpenedBy C
    | .held u left => (∀ x ∈ left, C x) ∧ u.OpenedBy C
    | .done u | .ended u => u.OpenedBy C
    | .stuck _ => True := by
  induction ws generalizing s with
  | nil => exact ho
  | cons w ws ih =>
    have hw := h w (.head _)
    have h1 := runWork_within w s
    have h2 := (runWork_opened w s).mono fun s' (h' : s'.opened = true → s.opened = true ∨ w = .openStream) =>
      (fun hs => (h' hs).elim ho fun he => he ▸ hw : s'.OpenedBy C)
    rw [runWorks_cons]
    cases hr : runWork w s with
    | done s' => rw [hr] at h2; exact ih s' (fun x hx => h x (.tail _ hx)) h2
    | ended s' => rw [hr] at h2; exact h2
    | raised e s' => rw [hr] at h1 h2; exact ⟨⟨w, hw, h1⟩, h2⟩
    | held s' left =>
      rw [hr] at h1 h2
      refine ⟨fun x hx => ?_, h2⟩
      rcases List.mem_append.1 hx with h' | h'
      · exact hC.left w x hw (h1 x h')
      · exact h x (.tail _ h')
    | stuck f => trivial

/-! ## Frames over every turn of a command -/

/-- A command's steps, from its first (the pseudocode of 41_bitstream.md to 47_decompressor.md). -/
def stepsOf : Instr → List Work
  | .bsWrite width => [.bitio, .ensureOpen, .writeField width]
  | .bsClose => [.bitio, .closeStream]
  | .bsRead width => [.bitio, .readField width]
  | .bsRreset => [.bitio, .rReset]
  | .ftCount => [.clearAll, .rReset, .count 0, .result .origBits]
  | .tbBuild => [.clearTree, .build]
  | .ctGen => [.needTree, .clearCodes, .genCodes, .result .bodyBits]
  | .hdrWrite => [.needPlan, .ensureOpen, .markW, .headerWrite, .result .wbitsSinceMark]
  | .hdrRead => [.clearAll, .markR, .magic, .result .rbitsSinceMark]
  | .estimate fmt => [.clearAll, .rReset, .count 0, .plan fmt]
  | .compress force =>
    [.needPlan, .gate force, .rReset, .closeStream, .openStream, .headerWrite, .encodeBody, .closeStream, .result .wbits]
  | .decompress =>
    [.clearAll, .rReset, .closeStream, .openStream, .magic, .decodeStart, .decodeBody, .closeStream, .result .wbits]

theorem exec_launch (i : Instr) : ∃ p, ∀ s, exec i s = launch p (stepsOf i) s := by
  cases i <;> exact ⟨_, fun _ => rfl⟩

/-- A relation that every step of the set keeps, and every way a turn can end: what it says of two states it says of the
states before and after a turn. -/
structure Work.Frame (C : Work → Prop) (R : State → State → Prop) : Prop where
  refl  : ∀ s, R s s
  trans : ∀ {s t u}, R s t → R t u → R s u
  run   : ∀ w s, C w → (runWork w s).All (R s)
  raise : ∀ s e, s.OpenedBy C → (∃ w, C w ∧ e ∈ w.errs) → R s (s.terminate e)
  done  : ∀ s : State, R s s.succeed
  hold  : ∀ (s : State) (left : List Work), R s { s with work := left }
  start : ∀ (s : State) (p : Phase), R s { s with phase := p, opened := false }

theorem Work.Frame.runWorks {C : Work → Prop} {R : State → State → Prop} (hR : Work.Frame C R) (ws : List Work) (s : State)
    (h : ∀ w ∈ ws, C w) : (runWorks ws s).All (R s) := by
  induction ws generalizing s with
  | nil => exact hR.refl s
  | cons w ws ih =>
    exact Run.andThen_all (hR.run w s (h w (.head _))) (fun _ h => h) fun s' _ h1 =>
      (ih s' fun x hx => h x (.tail _ hx)).mono fun _ h2 => hR.trans h1 h2

/-- What is left of the steps after a turn is of the set, and the relation holds over the turn. -/
theorem Work.Frame.settle {C : Work → Prop} {R : State → State → Prop} (hC : Work.Closed C) (hR : Work.Frame C R)
    {ws : List Work} {s t : State} (h : ∀ w ∈ ws, C w) (ho : s.OpenedBy C) (ht : (Machine.runWorks ws s).settle = .next t) :
    R s t ∧ (∀ w ∈ t.work, C w) ∧ t.OpenedBy C := by
  have h1 := hR.runWorks ws s h
  have h2 := runWorks_within hC ws s h ho
  have idle : ∀ {u : State}, u.work = [] → u.opened = false → (∀ w ∈ u.work, C w) ∧ u.OpenedBy C := by
    intro u hu hf
    exact ⟨by simp [hu], fun h' => by rw [hf] at h'; cases h'⟩
  cases hr : Machine.runWorks ws s with
  | done u => rw [hr] at h1 ht; cases ht; exact ⟨hR.trans h1 (hR.done u), idle rfl rfl⟩
  | ended u => rw [hr] at h1 ht; cases ht; exact ⟨hR.trans h1 (hR.done u), idle rfl rfl⟩
  | raised e u =>
    rw [hr] at h1 h2 ht
    cases ht
    refine ⟨hR.trans h1 (hR.raise u e h2.2 h2.1), ?_⟩
    obtain ⟨⟨w, hw, he⟩, hop⟩ := h2
    rcases terminate_cases u e with ⟨_, h'⟩ | ⟨_, _, _, _, h'⟩ | ⟨h3, _, _, h'⟩ <;> rw [h']
    · exact idle rfl rfl
    · exact idle rfl rfl
    · refine ⟨fun x hx => ?_, hop⟩
      rw [List.mem_singleton.1 hx]
      exact hC.abort (hop h3) w e hw he
  | held u left => rw [hr] at h1 h2 ht; cases ht; exact ⟨hR.trans h1 (hR.hold u left), h2⟩
  | stuck f => rw [hr] at ht; cases ht

theorem Work.Frame.exec {C : Work → Prop} {R : State → State → Prop} (hC : Work.Closed C) (hR : Work.Frame C R) {i : Instr}
    {s t : State} (hi : ∀ w ∈ stepsOf i, C w) (ht : Machine.exec i s = .next t) :
    R s t ∧ (∀ w ∈ t.work, C w) ∧ t.OpenedBy C := by
  obtain ⟨p, hp⟩ := exec_launch i
  rw [hp, launch] at ht
  simp only at ht
  have ho : State.OpenedBy { s with phase := p, opened := false } C := fun h => Bool.noConfusion h
  split at ht
  · cases ht
    exact ⟨hR.trans (hR.start s p) (hR.hold _ _), hi, ho⟩
  · obtain ⟨h1, h2⟩ := hR.settle hC hi ho ht
    exact ⟨hR.trans (hR.start s p) h1, h2⟩

theorem Work.Frame.resume {C : Work → Prop} {R : State → State → Prop} (hC : Work.Closed C) (hR : Work.Frame C R)
    {s t : State} (hw : ∀ w ∈ s.work, C w) (ho : s.OpenedBy C) (ht : Machine.resume s = .next t) :
    R s t ∧ (∀ w ∈ t.work, C w) ∧ t.OpenedBy C := by
  unfold Machine.resume at ht
  split at ht
  · exact hR.settle hC hw ho ht
  · cases ht
    exact ⟨hR.refl s, hw, ho⟩

/-- The relation that says nothing. -/
theorem Work.Frame.any (C : Work → Prop) : Work.Frame C fun _ _ => True where
  refl _ := trivial
  trans _ _ := trivial
  run w s _ := by cases runWork w s <;> trivial
  raise _ _ _ _ := trivial
  done _ := trivial
  hold _ _ := trivial
  start _ _ := trivial

/-- The steps left of a held command are of the set its own steps are of. -/
theorem Held.works {C : Work → Prop} (hC : Work.Closed C) {i : Instr} {s₀ s : State} (hi : ∀ w ∈ stepsOf i, C w)
    (h : Held i s₀ s) : (∀ w ∈ s.work, C w) ∧ s.OpenedBy C := by
  induction h with
  | issued h _ => exact ((Work.Frame.any C).exec hC hi h).2
  | waited _ ho ih =>
    obtain ⟨_, _, _, _, _, _, _, _, _, _, rfl⟩ := ho
    exact ih
  | resumed _ h _ ih => exact ((Work.Frame.any C).resume hC ih.1 ih.2 h).2

/-- A held command is running. -/
theorem Held.busy {i : Instr} {s₀ s : State} (h : Held i s₀ s) : s.busy = true := by
  induction h with
  | issued _ h => exact h
  | waited _ ho ih =>
    obtain ⟨_, _, _, _, _, _, _, _, _, _, rfl⟩ := ho
    exact ih
  | resumed _ _ h _ => exact h

/-- What the steps of a command keep is kept over each of its turns. -/
theorem Turn.frame {C : Work → Prop} {R : State → State → Prop} (hC : Work.Closed C) (hR : Work.Frame C R) {i : Instr}
    {s₀ s t : State} (hi : ∀ w ∈ stepsOf i, C w) (h : Turn i s₀ s t) : R s t := by
  rcases h with ⟨rfl, h⟩ | ⟨hh, h⟩
  · exact (hR.exec hC hi h).1
  · obtain ⟨h1, h2⟩ := hh.works hC hi
    exact (hR.resume hC h1 h2 h).1

/-- What the steps of a command keep, and the outside too, is kept from its acceptance to the end of each turn. -/
theorem Turn.since {C : Work → Prop} {R : State → State → Prop} (hC : Work.Closed C) (hR : Work.Frame C R)
    (hO : ∀ s t : State, s.Outside t → R s t) {i : Instr} {s₀ s t : State} (hi : ∀ w ∈ stepsOf i, C w)
    (h : Turn i s₀ s t) : R s₀ t := by
  have held : ∀ {u : State}, Held i s₀ u → R s₀ u := by
    intro u hu
    induction hu with
    | issued h' _ => exact (hR.exec hC hi h').1
    | waited _ ho ih => exact hR.trans ih (hO _ _ ho)
    | resumed hs hr _ ih =>
      obtain ⟨h1, h2⟩ := hs.works hC hi
      exact hR.trans ih (hR.resume hC h1 h2 hr).1
  rcases h with ⟨rfl, h⟩ | ⟨hh, h⟩
  · exact (hR.exec hC hi h).1
  · obtain ⟨h1, h2⟩ := hh.works hC hi
    exact hR.trans (held hh) (hR.resume hC h1 h2 h).1

end Sys2Proof.Machine
end

