-- ==== Sys2Proof/Tests/Slice0.lean ====
section
/-! SUPPORT. The model's own tests: the well-formedness smoke, command words from the encoding tables, single steps with
the results of 95_test_vectors.md, and for every statement with hypotheses a state and operands that meet them. -/

namespace Sys2Proof.Tests

-- One theorem at a time: the kernel evaluations below wait for one another, each on a thread of its own.
set_option Elab.async false

open Sys2Proof.Machine

/-! ## Well-formedness (30_encoding.md rules R73, R76) -/

theorem test_wf_write_width_0 : (Instr.bsWrite 0#6).WellFormed = false := by decide

theorem test_wf_write_width_33 : (Instr.bsWrite 33#6).WellFormed = false := by decide

theorem test_wf_read_width_0 : (Instr.bsRead 0#6).WellFormed = false := by decide

theorem test_wf_read_width_63 : (Instr.bsRead 63#6).WellFormed = false := by decide

theorem test_wf_widths : (Instr.bsWrite 1#6).WellFormed = true ∧ (Instr.bsRead 32#6).WellFormed = true := by decide

/-! ## Command words, written out from rules R70 and R74: OP 7:0, FMT 9:8, FORCE 10, WIDTH 21:16 -/

theorem test_decode_estimate : decode 0b0000000000_000000_00000_0_00_00000001#32 = .ok (.estimate .counts) ∧
    decode 0b0000000000_000000_00000_0_01_00000001#32 = .ok (.estimate .tree) := by decide

theorem test_decode_compress : decode 0b0000000000_000000_00000_0_00_00000010#32 = .ok (.compress false) ∧
    decode 0b0000000000_000000_00000_1_00_00000010#32 = .ok (.compress true) := by decide

theorem test_decode_decompress : decode 0b0000000000_000000_00000_0_00_00000011#32 = .ok .decompress := by decide

theorem test_decode_ftCount : decode 0b0000000000_000000_00000_0_00_00010000#32 = .ok .ftCount := by decide

theorem test_decode_tbBuild : decode 0b0000000000_000000_00000_0_00_00010001#32 = .ok .tbBuild := by decide

theorem test_decode_ctGen : decode 0b0000000000_000000_00000_0_00_00010010#32 = .ok .ctGen := by decide

theorem test_decode_hdrWrite : decode 0b0000000000_000000_00000_0_00_00010011#32 = .ok .hdrWrite := by decide

theorem test_decode_hdrRead : decode 0b0000000000_000000_00000_0_00_00010100#32 = .ok .hdrRead := by decide

theorem test_decode_bsWrite : decode 0b0000000000_001000_00000_0_00_00100000#32 = .ok (.bsWrite 8#6) := by decide

theorem test_decode_bsClose : decode 0b0000000000_000000_00000_0_00_00100001#32 = .ok .bsClose := by decide

theorem test_decode_bsRead : decode 0b0000000000_100000_00000_0_00_00100010#32 = .ok (.bsRead 32#6) := by decide

theorem test_decode_bsRreset : decode 0b0000000000_000000_00000_0_00_00100011#32 = .ok .bsRreset := by decide

/-- The illegal words of vectors V108 to V115 and of section 2. -/
def illegalWords : List Word :=
  [0x00000000#32, 0x00000301#32, 0x00000401#32, 0x00000102#32, 0x00000103#32, 0x000000FF#32, 0x00000004#32,
    0x00000015#32, 0x00000024#32, 0x00000810#32, 0x00400020#32, 0x00000020#32, 0x00210020#32, 0x00000022#32,
    0x00010021#32]

theorem test_illegal_words : illegalWords.all (fun w => !legal w) = true := by decide

theorem test_table_word : decodeTableWord 32 0x00200022 = some (.bsRead 32#6) := by decide

/-! ## Small states and single steps -/

/-- IN tokens: the bytes, then `tail`. -/
def tokens (bytes : List Nat) (tail : List InToken) : List InToken :=
  bytes.map (fun n => InToken.byte (BitVec.ofNat 8 n)) ++ tail

/-- The reset state with tokens on IN. -/
def holding (ts : List InToken) : State := { State.reset with inq := ts }

/-- A sink that gives these answers and then no more. -/
def scripted (as : List Answer) : Sink := ⟨as, none, []⟩

/-- The next state of a step, looked at through a test. -/
def next (o : Host.Outcome State Fault Refusal) (test : State → Bool) : Bool :=
  match o with
  | .next s => test s
  | _ => false

theorem exists_next {o : Host.Outcome State Fault Refusal} {test : State → Bool} (h : next o test = true) :
    ∃ t, o = .next t ∧ test t = true := by
  cases o with
  | next t => exact ⟨t, rfl, h⟩
  | fault f => cases h
  | refused r => cases h

theorem next_of {o : Host.Outcome State Fault Refusal} {P : State → Prop} (test : State → Bool)
    (h : next o test = true) (hp : ∀ t, test t = true → P t) : ∃ t, o = .next t ∧ P t :=
  (exists_next h).imp fun t ht => ⟨ht.1, hp t ht.2⟩

theorem next_exists {o : Host.Outcome State Fault Refusal} (h : next o (fun _ => true) = true) : ∃ t, o = .next t :=
  (exists_next h).imp fun _ ht => ht.1

/-- One step: the host issues a command word. -/
def issue (w : Nat) (s : State) : Host.Outcome State Fault Refusal := step (s.withFetchWord 32 w)

/-- The command accepted in `s₀` held, got time and was taken up again by a turn whose end satisfies `test`. -/
def TakenUp (i : Instr) (s₀ : State) (test : State → Bool) : Prop :=
  ∃ s t, s.stalled = false ∧ Held i s₀ s ∧ resume s = .next t ∧ Turn i s₀ s t ∧ test t = true

/-- A command that holds, and goes on when tokens and answers of the sink come. -/
theorem turn_after_hold {i : Instr} {s₀ : State} (q : List InToken) (as : List Answer) (test : State → Bool)
    (h : next (exec i s₀) (fun u => u.busy && !u.stalled && next
      (resume { u with inq := u.inq ++ q, sink := { u.sink with script := as } }) test) = true) :
    TakenUp i s₀ test := by
  obtain ⟨u, h1, h2⟩ := exists_next h
  simp only [Bool.and_eq_true, Bool.not_eq_true'] at h2
  obtain ⟨t, h3, h4⟩ := exists_next h2.2
  have hh : Held i s₀ { u with inq := u.inq ++ q, sink := { u.sink with script := as } } :=
    .waited (.issued h1 h2.1.1) ⟨_, _, _, _, _, _, _, _, _, _, rfl⟩
  exact ⟨{ u with inq := u.inq ++ q, sink := { u.sink with script := as } }, t, h2.1.2, hh, h3, .inr ⟨hh, h3⟩, h4⟩

/-- The sink's record as bytes, `End` as 256 and `Abort` as 257, a token answered `fail` as 1000 more. -/
def pushed (s : State) : List Nat :=
  s.sink.taken.map fun e =>
    (match e.1 with
      | .byte b => b.toNat
      | .eos => 256
      | .abort => 257) + (if e.2 = .fail then 1000 else 0)

/-- The store of the one-leaf tree (vector V31). -/
def leafStore : NodeStore := ⟨NodeStore.empty.nodes.set 0 ⟨true, 256, 1#64, 0, 0⟩, 1, 0⟩

/-- The store of "aaaa": node 0 Leaf 0x61 4, node 1 Leaf P 1, node 2 Int 5 (1, 0), ROOT 2 (section 1). -/
def pairStore : NodeStore :=
  ⟨((NodeStore.empty.nodes.set 0 ⟨true, 0x61, 4#64, 0, 0⟩).set 1 ⟨true, 256, 1#64, 0, 0⟩).set 2
    ⟨false, 0, 5#64, 1, 0⟩, 3, 2⟩

/-- Whether two stores agree, their nodes compared as lists. -/
def sameStore (a b : NodeStore) : Bool :=
  decide (a.nodes.toList = b.nodes.toList) && decide (a.count = b.count) && decide (a.root = b.root)

theorem eq_of_sameStore {a b : NodeStore} (h : sameStore a b = true) : a = b := by
  obtain ⟨an, ac, ar⟩ := a
  obtain ⟨bn, bc, br⟩ := b
  simp only [sameStore, Bool.and_eq_true, decide_eq_true_eq] at h
  obtain ⟨⟨h1, rfl⟩, rfl⟩ := h
  rw [Vector.toList_inj.mp h1]

/-- The tree of "aaaa". -/
def pairTree : HTree := .node (.leaf 256) (.leaf 0x61)

/-- FREQ after "aaaa". -/
def pairFreq : Vector Word 256 := (Vector.replicate 256 0#32).set 0x61 4#32

/-- The plan of "aaaa" in a format (section 1: PLAN_SAVED -8229 or -90), with tokens on IN. -/
def planned (fmt : Fmt) (ts : List InToken) : State :=
  { State.reset with
    planValid := true, treeValid := true, codesValid := true, planFmt := fmt
    planSaved := BitVec.ofInt 64 (match fmt with | .counts => -8229 | .tree => -90)
    freq := pairFreq, store := pairStore, origBits := 32#64, bodyBits := 5#64
    codes := ((Vector.replicate 257 ⟨false, []⟩).set 0x61 ⟨true, [true]⟩).set 256 ⟨true, [false]⟩
    inq := ts }

/-- The container of "aaaa" in TreeFormat (vector V58). -/
def container : List Nat :=
  [0xFA, 0xCE, 0x82, 0x00, 0x00, 0x00, 0x00, 0x16, 0x00, 0x00, 0x00, 0x15, 0x60, 0x13, 0x0F, 0x80]

/-- Vector V6: only the low 4 bits "1101" are written. -/
theorem test_bsWrite_low_bits : next (issue 0x00040020 { State.reset with arg := 0xABCD#32 })
    (fun s => s.writer == ⟨false, [true, true, false, true], 4#64⟩ && s.result == 0#64) = true := by decide +kernel

/-- Vector V11: the sink answers `fail`. -/
theorem test_bsWrite_fail :
    next (issue 0x00080020 { State.reset with arg := 0x41#32, sink := scripted [.fail] })
      (fun s => s.statusWord == 0x00001052#32 && pushed s == [1065] && s.writer.bits == 8#64) = true := by decide +kernel

/-- Vector V3: "00" pending after 10 bits leaves as 40, then `End`. -/
theorem test_bsClose_pads : next (issue 0x00000021 { State.reset with writer := ⟨false, [false, true], 10#64⟩ })
    (fun s => pushed s == [0x40, 256] && s.statusWord == 0x00001002#32 && s.writer.bits == 10#64) = true := by
  decide +kernel

/-- Vector V10: nothing to close. -/
theorem test_bsClose_closed : next (issue 0x00000021 State.reset)
    (fun s => pushed s == [] && s.statusWord == 0x00001002#32) = true := by decide +kernel

/-- Vector V13. -/
theorem test_bsRead : next (issue 0x00030022 (holding (tokens [0xB0, 0x40] [.eos])))
    (fun s => s.result == 5#64 && s.statusWord == 0x000A1002#32 && s.inq == tokens [0x40] [.eos]) = true := by
  decide +kernel

/-- Vector V21: the sentinel. -/
theorem test_bsRead_sentinel : next (issue 0x000C0022 (holding (tokens [0xA5] [.eos])))
    (fun s => s.result == BitVec.ofInt 64 (-1) && s.inq == [] && s.reader == ⟨true, [], 0#64⟩) = true := by
  decide +kernel

/-- The first step of vector V17: nothing popped, the reader fresh. -/
theorem test_bsRreset :
    next (issue 0x00000023 { holding (tokens [0x7F] [.eos]) with reader := ⟨true, [], 10#64⟩ })
      (fun s => s.reader == ⟨false, [], 0#64⟩ && s.inq == tokens [0x7F] [.eos]) = true := by decide +kernel

/-- Vector V22. -/
theorem test_ftCount : next (issue 0x00000010 (holding (tokens [0x61, 0x61, 0x61, 0x61] [.eos])))
    (fun s => s.result == 32#64 && s.freqAt 0x61 == 4#32 && s.freqAt 256 == 1#32 && s.statusWord == 0x00001002#32) =
      true := by decide +kernel

/-- Vector V26: the count 2^32 - 1 meets another 0x41. -/
theorem test_ftCount_overflow :
    next (countLoop (tokens [0x41] [.eos]) 0 { State.reset with freq := (Vector.replicate 256 0#32).set 0x41 0xFFFFFFFF#32 }).settle
      (fun s => s.err == .countOverflow && s.freqAt 0x41 == 0xFFFFFFFF#32 && s.inq == [.eos] && s.origBits == 0#64) =
        true := by decide +kernel

/-- Vector V27: the tree of "aab". -/
theorem test_tbBuild :
    next (issue 0x00000011
        { State.reset with freq := ((Vector.replicate 256 0#32).set 0x61 2#32).set 0x62 1#32 })
      (fun s => s.result == 3#64 && s.store.nodesWord == 0x00040005#32 && s.store.node 3 == ⟨false, 0, 2#64, 1, 2⟩ &&
        s.store.node 4 == ⟨false, 0, 4#64, 0, 3⟩) = true := by decide +kernel

/-- Vector V31: TB_BUILD after reset. -/
theorem test_tbBuild_empty : next (issue 0x00000011 State.reset)
    (fun s => s.result == 1#64 && sameStore s.store leafStore && s.statusWord == 0x00001402#32) = true := by decide +kernel

/-- Vector V39: the codes of "aaaa". -/
theorem test_ctGen :
    next (issue 0x00000012 { State.reset with treeValid := true, freq := pairFreq, store := pairStore })
      (fun s => s.result == 5#64 && s.codeAt 0x61 == ⟨true, [true]⟩ && s.codeAt 256 == ⟨true, [false]⟩) = true := by
  decide +kernel

/-- Vector V47: no tree. -/
theorem test_ctGen_usage : next (issue 0x00000012 State.reset)
    (fun s => s.statusWord == 0x00001042#32 && s.result == 0#64) = true := by decide +kernel

/-- Vector V51. -/
theorem test_hdrWrite : next (issue 0x00000013 (planned .tree []))
    (fun s => s.result == 117#64 && s.statusWord == 0x0000AF02#32 &&
      pushed s == [0xFA, 0xCE, 0x82, 0x00, 0x00, 0x00, 0x00, 0x16, 0x00, 0x00, 0x00, 0x15, 0x60, 0x13]) = true := by
  decide +kernel

/-- Vector V50: no plan. -/
theorem test_hdrWrite_usage : next (issue 0x00000013 State.reset)
    (fun s => s.statusWord == 0x00001042#32 && pushed s == []) = true := by decide +kernel

/-- Vector V55. -/
theorem test_hdrRead : next (issue 0x00000014 (holding (tokens container [.eos])))
    (fun s => s.result == 117#64 && s.statusWord == 0x00061402#32 && s.inq == tokens [0x80] [.eos] &&
      s.store.node 0 == ⟨false, 0, 0#64, 1, 2⟩ && s.store.node 2 == ⟨true, 0x61, 0#64, 0, 0⟩) = true := by
  decide +kernel

/-- HDR_READ of vector V93's bytes: a leaf with 4 bits of budget left. -/
theorem test_hdrRead_malformed :
    next (issue 0x00000014 (holding (tokens
        [0xFA, 0xCE, 0x82, 0x00, 0x00, 0x00, 0x00, 0x16, 0x00, 0x00, 0x00, 0x05, 0xC0] [.eos])))
      (fun s => s.err == .malformedHeader && s.reader.bits == 97#64 && s.store.count == 1) = true := by decide +kernel

/-- Vector V63: ESTIMATE TREE on "ab". -/
theorem test_estimate_tree : next (issue 0x00000101 (holding (tokens [0x61, 0x62] [.eos])))
    (fun s => s.result == BitVec.ofInt 64 (-117) && s.planSaved == BitVec.ofInt 64 (-117) &&
      s.statusWord == 0x00001F02#32) = true := by decide +kernel

/-- Section 1: ESTIMATE COUNTS on "aaaa". -/
theorem test_estimate_counts : next (issue 0x00000001 (holding (tokens [0x61, 0x61, 0x61, 0x61] [.eos])))
    (fun s => s.result == BitVec.ofInt 64 (-8229) && s.statusWord == 0x00001D02#32 && sameStore s.store pairStore) = true := by
  decide +kernel

/-- Vector V58. -/
theorem test_compress_force : next (issue 0x00000402 (planned .tree (tokens [0x61, 0x61, 0x61, 0x61] [.eos])))
    (fun s => s.result == 122#64 && pushed s == container ++ [256]) = true := by decide +kernel

/-- Vector V66: refused. -/
theorem test_compress_refused : next (issue 0x00000002 (planned .counts (tokens [0x61, 0x61, 0x61, 0x61] [.eos])))
    (fun s => s.result == BitVec.ofInt 64 (-8229) && s.statusWord == 0x00001D02#32 && pushed s == [] &&
      s.inq == tokens [0x61, 0x61, 0x61, 0x61] [.eos]) = true := by decide +kernel

/-- Vector V77. -/
theorem test_decompress : next (issue 0x00000003 (holding (tokens container [.eos])))
    (fun s => s.result == 32#64 && pushed s == [0x61, 0x61, 0x61, 0x61, 256] && s.statusWord == 0x000C1402#32 &&
      s.inq == [.eos]) = true := by decide +kernel

/-- Vectors V78 and V79: the container cut after 15 bytes, by `End` and by `Error`. -/
theorem test_decompress_cut : [(InToken.eos, 0x00011432#32), (.error, 0x00011452#32)].all (fun e =>
    next (issue 0x00000003 (holding (tokens (container.take 15) [e.1])))
      fun s => pushed s == [0x61, 0x61, 0x61, 257] && s.statusWord == e.2 && s.writer.bits == 24#64) = true := by
  decide +kernel

/-- Section 9: an illegal word keeps the stream and the plan. -/
theorem test_illegal_word :
    next (issue 0x00000000 { planned .tree [] with writer := ⟨false, [false, false, false, false, true], 117#64⟩ })
      (fun s => s.statusWord == 0x0000AF82#32 && s.cmdLast == 0#32) = true := by decide +kernel

/-- Program 5: CODE_BITS[0x62][0] is at 0x4C40 and reads "10" as 0x80000000. -/
theorem test_window :
    regAt 0x4C40#16 = .codeBits 0x62 0 ∧ codeWord [true, false] 0 = 0x80000000#32 ∧ regAt 0x2188#16 = .codeLen 0x62 ∧
      regAt 0x804C#16 = .node 4 3 := by decide +kernel

/-! ## Witnesses: states and operands that meet each statement's hypotheses -/

/-- A running BS_READ that holds on an empty IN. -/
def heldRead : State :=
  { State.reset with busy := true, phase := .bitio, lcmd := 0x00200022#32, work := [.readField 32#6] }

theorem leafStore_complete : leafStore.complete (.leaf 256) := by
  refine ⟨⟨by decide +kernel, by decide +kernel⟩, by decide +kernel, rfl, by decide +kernel⟩

theorem pairStore_complete : pairStore.complete pairTree := by
  refine ⟨⟨by decide +kernel, ⟨by decide +kernel, by decide +kernel⟩, by decide +kernel, by decide +kernel⟩, ?_, rfl, ?_⟩
  · show (pairStore.indices 2 pairTree).Nodup
    decide +kernel
  · show ∀ i ∈ pairStore.indices 2 pairTree, _
    decide +kernel

theorem planned_codes (fmt : Fmt) (ts : List InToken) (y : Symbol) : (planned fmt ts).codeAt y = pairTree.codeOf y := by
  show (((Vector.replicate 257 ⟨false, []⟩).set 0x61 ⟨true, [true]⟩).set 256 ⟨true, [false]⟩ : Vector Code 257)[y.val] =
    pairTree.codeOf y
  simp only [Vector.getElem_set, Vector.getElem_replicate]
  by_cases h1 : y = 256
  · subst h1
    decide
  · by_cases h2 : y = 0x61
    · subst h2
      decide
    · have h3 : (256 : Nat) ≠ y.val := fun h => h1 (Fin.ext h.symm)
      have h4 : (0x61 : Nat) ≠ y.val := fun h => h2 (Fin.ext h.symm)
      simp [h3, h4, HTree.codeOf, HTree.paths, pairTree, Ne.symm h1, Ne.symm h2]

theorem reset_shape : State.reset.Shape where
  selectors := by decide
  closedEmpty := fun _ => rfl
  wPend := by decide
  exhaustedEmpty := fun _ => rfl
  planTables := fun h => by cases h
  tree := fun h => by cases h
  codes := fun h => by cases h
  noCodes := fun _ y => Vector.getElem_replicate ..

theorem heldRead_inv : heldRead.Inv where
  selectors := by decide
  closedEmpty := fun _ => rfl
  wPend := by decide
  exhaustedEmpty := fun _ => rfl
  planTables := fun h => by cases h
  tree := fun h => by cases h
  codes := fun h => by cases h
  noCodes := fun _ y => Vector.getElem_replicate ..
  writer := rfl
  tables := rfl
  rBuf := .inl (by decide)
  idle := fun h => by cases h
  running := fun _ => by decide

theorem witness_DecodeEncode : (Instr.bsWrite 32#6).WellFormed = true ∧ (Instr.bsRead 1#6).WellFormed = true := by decide

theorem witness_EncodeDecode : decode 0x00000402#32 = .ok (.compress true) := by decide

/-- One word for each of the ways to be illegal, in the statement's order; two rows that one word selects; and an
illegal word while the HCE is idle. -/
theorem witness_LegalWords :
    (0x000000FF#32).extractLsb' 0 8 ∉ ([0x01#8, 0x02#8, 0x03#8, 0x10#8, 0x11#8, 0x12#8, 0x13#8, 0x14#8, 0x20#8, 0x21#8,
      0x22#8, 0x23#8] : List (BitVec 8)) ∧
    (0x00000810#32).extractLsb' 11 5 ≠ 0#5 ∧ (0x00400020#32).extractLsb' 22 10 ≠ 0#10 ∧
    (0x00000201#32).extractLsb' 8 2 = 2#2 ∧ (0x00000301#32).extractLsb' 8 2 = 3#2 ∧
    ((0x00000103#32).extractLsb' 0 8 ≠ 0x01#8 ∧ (0x00000103#32).extractLsb' 8 2 ≠ 0#2) ∧
    ((0x00000401#32).extractLsb' 0 8 ≠ 0x02#8 ∧ (0x00000401#32).getLsbD 10 = true) ∧
    ((0x00010021#32).extractLsb' 0 8 ≠ 0x20#8 ∧ (0x00010021#32).extractLsb' 0 8 ≠ 0x22#8 ∧
      (0x00010021#32).extractLsb' 16 6 ≠ 0#6) ∧
    ((0x00000022#32).extractLsb' 0 8 = 0x22#8 ∧ ((0x00000022#32).extractLsb' 16 6).toNat = 0) ∧
    ((0x00210020#32).extractLsb' 0 8 = 0x20#8 ∧ 33 ≤ ((0x00210020#32).extractLsb' 16 6).toNat) ∧
    (∃ r ∈ rows, r.selects 0x00000023#32 = true) ∧
    legal 0x00000000#32 = false ∧ State.reset.busy = false ∧ State.reset.inReset = false := by decide

/-- FT_COUNT's word; each kind of action that can lift a hold; and a turn that pops two tokens. -/
theorem witness_StepRunsDecoded :
    State.reset.busy = false ∧ State.reset.inReset = false ∧ decode 0x00000010#32 = .ok .ftCount ∧
    (∃ ts, Event.place [.eos] = .place ts) ∧ (∃ as, Event.answers [.ok] = .answers as) ∧
    (∃ r, Event.sinkRest none = .sinkRest r) ∧ (∃ on, Event.stall true = .stall on) ∧
    (∃ t, exec .ftCount (holding (tokens [0x61] [.eos])) = .next t ∧ t.inq = []) ∧
    ∃ t, step (State.withFetchWord (holding (tokens [0x61] [.eos])) 32 0x00000010) = .next t ∧
      t.popped = tokens [0x61] [.eos] := by
  refine ⟨rfl, rfl, by decide, ⟨_, rfl⟩, ⟨_, rfl⟩, ⟨_, rfl⟩, ⟨_, rfl⟩, ?_, ?_⟩
  · exact next_of (fun s => s.inq == []) (by decide +kernel) fun _ h => by simpa using h
  · exact next_of (fun s => s.popped == tokens [0x61] [.eos]) (by decide +kernel) fun _ h => by simpa using h

theorem witness_ErrorsBeforeAnyChange :
    (legal 0x00210020#32 = false ∧ State.reset.busy = false ∧ State.reset.inReset = false) ∧
      State.reset.stalled = false ∧ State.reset.planValid = false ∧ State.reset.treeValid = false := by decide

theorem witness_CommandWhileBusy : (heldRead.busy = true ∧ heldRead.inReset = false) ∧
    ∃ t, step { State.reset with ovr := true, events := [.busWrite 0x004#16 4 0x00000023#32] } = .next t ∧
      State.reset.busy = false :=
  ⟨by decide, (exists_next (test := fun s => s.ovr == false) (by decide +kernel)).imp fun _ h => ⟨h.1, rfl⟩⟩

theorem witness_ArgRegister : State.reset.inReset = false ∧
    (∃ t, exec (.bsWrite 3#6) { State.reset with arg := 5#32 } = .next t) ∧
    ∃ t, resume { heldRead with inq := tokens [1, 2, 3, 4] [] } = .next t ∧ t.busy = false := by
  refine ⟨rfl, ?_, ?_⟩
  · exact next_exists (by decide +kernel)
  · exact next_of (fun s => s.busy == false) (by decide +kernel) fun _ h => by simpa using h

/-- Vector V6's operand and its low 4 bits; at WIDTH 32 nothing is ignored. -/
theorem witness_WriteOperandLowBits : (0xD#32).toNat % 2 ^ (4#6).toNat = (0xABCD#32).toNat % 2 ^ (4#6).toNat ∧
    ∃ t, exec (.bsWrite 4#6) { State.reset with larg := 0xABCD#32 } = .next t :=
  ⟨by decide, next_exists (by decide +kernel)⟩

/-- The bounds of the reserved offsets, and a node in use and one that is not. -/
theorem witness_RegisterMap : State.reset.busy = false ∧ State.reset.inReset = false ∧
    ((0 : NodeIx).val < leafStore.count.val ∧ leafStore.count.val ≤ (1 : NodeIx).val ∧
      State.reset.store.count.val ≤ (512 : NodeIx).val) ∧
    [0x14, 0x3FF, 0x501, 0x7FF, 0x901, 0xFFF, 0x1808, 0x1FFF, 0x2804, 0x3FFF].all reservedWord = true ∧
    [0x13, 0x400, 0x500, 0x800, 0x900, 0x1000, 0x1807, 0x2000, 0x2803, 0x4000].all (fun n => !reservedWord n) = true := by
  decide

theorem witness_StatusFields : State.reset.inReset = false := by decide

theorem witness_CodeBitsView : (255 : Nat) < 256 := by decide

theorem witness_BitOrder : (15 : Nat) < 8 * 2 ∧ 15 < 8 * ([0xB0#8, 0x40#8] : List Byte).length := by decide

theorem witness_IdAndParameters : State.reset.inReset = false ∧
    ∃ t, step (State.reset.withFetchWord 32 0x00000010) = .next t ∧ t.busy = true :=
  ⟨rfl, next_of (fun s => s.busy) (by decide +kernel) fun _ h => h⟩

/-- The first and the last register that reads free, RESULT_LO and NODE[512] word 3, and FREQ[256], are in no other
clause. -/
theorem witness_ReadsWhileBusy : heldRead.busy = true ∧ heldRead.inReset = false ∧
    ([0x04, 0x10, 0x400, 0x4FF, 0x500, 0x800, 0x2803].all fun n =>
      decide (n < 0x4000) && !([0x00, 0x01, 0x02, 0x03, 0x11, 0x12, 0x13] : List Nat).contains n &&
        !reservedWord n) = true ∧
    reservedWord 0x14 = true ∧ reservedWord 0x500 = false := by decide

theorem witness_BusErrors : State.reset.inReset = false ∧ ((2 : Nat) ≠ 4 ∨ (0x008#16).extractLsb' 0 2 ≠ 0#2) ∧
    ((4 : Nat) ≠ 4 ∨ (0xFFFF#16).extractLsb' 0 2 ≠ 0#2) := by decide

theorem witness_NoSideEffects : State.reset.inReset = false ∧ State.reset.busy = false ∧ reservedWord 0x3FFF = true ∧
    ∃ t u : State, step { State.reset with events := [.busRead 0x008#16 4, .busRead 0x008#16 4] } = .next t ∧
      step t = .next u ∧
        u.accesses = [(.read 0x008#16 4, .data 0x00001000#32), (.read 0x008#16 4, .data 0x00001000#32)] := by
  refine ⟨rfl, rfl, by decide, ?_⟩
  obtain ⟨t, h1, h2⟩ := exists_next
    (o := step { State.reset with events := [.busRead 0x008#16 4, .busRead 0x008#16 4] })
    (test := fun t => next (step t) fun u =>
      u.accesses == [(.read 0x008#16 4, .data 0x00001000#32), (.read 0x008#16 4, .data 0x00001000#32)])
    (by decide +kernel)
  obtain ⟨u, h3, h4⟩ := exists_next h2
  exact ⟨t, u, h1, h3, by simpa using h4⟩

/-- A command that holds, with a CMD write, a WAIT and a removal of tokens next. -/
theorem witness_HoldIsKept : heldRead.busy = true ∧
    (∃ t, step { heldRead with events := [.busWrite 0x004#16 4 0x10#32] } = .next t ∧ t.ovr = true) ∧
    (∃ t, step { heldRead with events := [.wait] } = .next t ∧ t.busy = true) ∧
    (∃ t, step { heldRead with events := [.busRead 0x000#16 4] } = .next t ∧ t.busy = true) ∧
    ∃ t, step { heldRead with events := [.discard 1] } = .next t ∧ t.busy = true := by
  refine ⟨rfl, ⟨_, rfl, rfl⟩, ⟨_, rfl, rfl⟩, ⟨_, rfl, rfl⟩, ⟨_, rfl, rfl⟩⟩

/-- A WAIT with no command running reads STATUS and is over; one while a command holds is taken up again. -/
theorem witness_WaitPolls : heldRead.inReset = false ∧ heldRead.busy = true ∧ State.reset.inReset = false ∧
    State.reset.busy = false ∧
    (∃ t, step { State.reset with events := [.wait] } = .next t ∧
      t.accesses = [(.read 0x008#16 4, .data 0x00001000#32)] ∧ t.events = []) ∧
    ∃ t, step { heldRead with events := [.wait] } = .next t ∧ t.events = [.wait] :=
  ⟨rfl, rfl, rfl, rfl, ⟨_, rfl, by decide +kernel, rfl⟩, ⟨_, rfl, rfl⟩⟩

theorem witness_ResetAsserted : ({ State.reset with inReset := true } : State).inReset = true := rfl

/-- The widest field into a new stream and one that leaves bits pending; the first and the last byte of a field refused;
and the bounds of the illegal widths. -/
theorem witness_BsWrite :
    State.reset.stalled = false ∧ widthLegal 32#6 = true ∧ widthLegal 1#6 = true ∧
    State.reset.opensIfClosed.CanWrite (binN 32 0xDEADBEEF) ∧ State.reset.opensIfClosed.CanWrite (binN 1 1) ∧
    ({ State.reset with sink := scripted [.fail] } : State).opensIfClosed.FailsAt (binN 8 0x41) 0 ∧
    ({ State.reset with sink := scripted [.ok, .ok, .ok, .fail] } : State).opensIfClosed.FailsAt (binN 32 0x41) 3 ∧
    (0#6).toNat = 0 ∧ 33 ≤ (33#6).toNat ∧ 33 ≤ (63#6).toNat :=
  ⟨rfl, by decide, by decide, ⟨by decide, by decide, by decide⟩, ⟨by decide, by decide, by decide⟩,
    ⟨by decide, by decide, by decide, by decide, by decide⟩, ⟨by decide, by decide, by decide, by decide, by decide⟩,
    by decide, by decide, by decide⟩

/-- A closed writer; an open one with 7 bits and with none pending; the pad byte refused; and `End` refused. -/
theorem witness_BsClose : State.reset.stalled = false ∧ State.reset.writer.closed = true ∧
    (let s : State := { State.reset with writer := ⟨false, List.replicate 7 true, 7#64⟩, sink := scripted [.ok, .ok] };
      s.writer.closed = false ∧ s.writer.buf.length < 8 ∧ s.sink.accepts s.closingTokens.length = true) ∧
    (let s : State := { State.reset with writer := ⟨false, [], 8#64⟩, sink := scripted [.ok] };
      s.writer.closed = false ∧ s.writer.buf.length < 8 ∧ s.sink.accepts s.closingTokens.length = true) ∧
    (let s : State := { State.reset with writer := ⟨false, [true], 1#64⟩, sink := scripted [.fail] };
      s.writer.closed = false ∧ s.writer.buf ≠ [] ∧ s.sink.answerAt 0 = some .fail) ∧
    (let s : State := { State.reset with writer := ⟨false, [true], 1#64⟩, sink := scripted [.ok, .fail] };
      s.writer.closed = false ∧ s.writer.buf.length < 8 ∧ s.sink.accepts (s.closingTokens.length - 1) = true ∧
        s.sink.answerAt (s.closingTokens.length - 1) = some .fail) := by
  decide

/-- An exhausted reader; 8 bits of A5 and the 32 bits of vector V18; and the end, the error and the empty IN of a field
that lacks bits (vectors V20 and V21). -/
theorem witness_BsRead : State.reset.stalled = false ∧ widthLegal 1#6 = true ∧ widthLegal 32#6 = true ∧
    ({ State.reset with reader := ⟨true, [], 0#64⟩ } : State).reader.exh = true ∧
    (holding (tokens [0xFF, 0xFF, 0xFF, 0xFF] [.eos])).Carries (binN 32 0xFFFFFFFF) [0xFF#8, 0xFF#8, 0xFF#8, 0xFF#8]
      [.eos] ∧
    (holding (tokens [0xA5] [])).Carries (binN 1 1) [0xA5#8] [] ∧
    ((holding (tokens [0xA5] [.eos])).inq = inBytes [0xA5#8] ++ .eos :: [] ∧ 0 + 8 * 1 < (12#6).toNat) ∧
    ((holding (tokens [0xA5] [.error])).inq = inBytes [0xA5#8] ++ .error :: [] ∧ 0 + 8 * 1 < (9#6).toNat) ∧
    (State.reset.inq = inBytes [] ∧ State.reset.reader.exh = false ∧ 0 + 8 * 0 < (1#6).toNat) :=
  ⟨rfl, by decide, by decide, rfl, ⟨rfl, by decide, rfl, by decide, by decide⟩, ⟨rfl, by decide, rfl, by decide, by decide⟩,
    by decide, by decide, by decide⟩

theorem witness_BsRreset : State.reset.stalled = false := rfl

theorem countable_one : Countable [0x61#8] := by
  intro b
  exact Nat.lt_of_le_of_lt List.count_le_length (by decide)

/-- A stream with an `End`, one with an `Error`, and 2^32 - 1 bytes 0x41 before one more (vector V26). -/
theorem witness_FtCount : State.reset.stalled = false ∧ Countable [0x61#8] ∧
    (holding (tokens [0x61] [.eos])).inq = inBytes [0x61#8] ++ .eos :: [] ∧
    (holding (tokens [0x61] [.error])).inq = inBytes [0x61#8] ++ .error :: [] ∧
    Countable (List.replicate (2 ^ 32 - 1) 0x41#8) ∧ (List.replicate (2 ^ 32 - 1) 0x41#8).count 0x41#8 = 2 ^ 32 - 1 := by
  refine ⟨rfl, countable_one, rfl, rfl, ?_, List.count_replicate_self⟩
  intro b
  refine Nat.lt_of_le_of_lt List.count_le_length ?_
  rw [List.length_replicate]
  decide

/-- Two entries of one key (vector V30). -/
theorem witness_QueueOrder :
    let b : Builder := ⟨NodeStore.empty, [⟨1, 0, 0⟩, ⟨1, 1, 1⟩], 2⟩
    (b.pq.map (·.seq)).Nodup ∧ b.removeMin = some (⟨1, 0, 0⟩, ⟨NodeStore.empty, [⟨1, 1, 1⟩], 2⟩) := by
  exact ⟨by decide, rfl⟩

theorem witness_TbBuild : State.reset.stalled = false ∧ ∃ c : State, c = { State.reset with
      planValid := false, treeValid := false, codesValid := false, codes := Vector.replicate 257 ⟨false, []⟩
      store := NodeStore.empty } := ⟨rfl, _, rfl⟩

/-- FREQ[0x61] = 4 and no other count. -/
def counted : State := { State.reset with freq := pairFreq }

theorem built_leaf : next (exec .tbBuild State.reset) (fun s => sameStore s.store leafStore) = true := by decide +kernel

theorem built_pair : next (exec .tbBuild counted) (fun s => sameStore s.store pairStore) = true := by decide +kernel

/-- FREQ of "aab" (vector V27): three leaves, the first merge takes nodes 1 and 2 and leaves node 0. -/
def countedThree : State := { State.reset with freq := ((Vector.replicate 256 0#32).set 0x61 2#32).set 0x62 1#32 }

/-- The store of "aab" (vector V27). -/
def threeStore : NodeStore :=
  ⟨((((NodeStore.empty.nodes.set 0 ⟨true, 0x61, 2#64, 0, 0⟩).set 1 ⟨true, 0x62, 1#64, 0, 0⟩).set 2
    ⟨true, 256, 1#64, 0, 0⟩).set 3 ⟨false, 0, 2#64, 1, 2⟩).set 4 ⟨false, 0, 4#64, 0, 3⟩, 5, 4⟩

theorem built_three : next (exec .tbBuild countedThree) (fun s => sameStore s.store threeStore) = true := by
  decide +kernel

/-- The clause on merges at node 3 of "aab": node 0 is the one that has no parent yet and is not taken. -/
theorem witness_BuiltTree_merge : (∃ t, exec .tbBuild countedThree = .next t ∧ t.store = threeStore) ∧
    (threeStore.unmerged 3 0 ∧ (0 : NodeIx) ≠ (threeStore.node 3).left ∧ (0 : NodeIx) ≠ (threeStore.node 3).right) ∧
    threeStore.before (threeStore.node 3).right 0 := by
  refine ⟨next_of _ built_three fun _ h => eq_of_sameStore h, ⟨⟨by decide, ?_⟩, by decide +kernel,
    by decide +kernel⟩, ?_⟩
  · intro k hk hl
    have : k = 0 ∨ k = 1 ∨ k = 2 := by
      have : k.val < 3 := hk
      rcases k with ⟨k, hk'⟩
      simp only [Fin.ext_iff] at *
      show k = 0 ∨ k = 1 ∨ k = 2
      omega
    rcases this with rfl | rfl | rfl <;> exact absurd hl (by decide +kernel)
  · exact .inl (by decide +kernel)

/-- One leaf after reset; two leaves and an internal node from FREQ[0x61] = 4. -/
theorem witness_BuiltTree : State.reset.stalled = false ∧
    (symbols.filter fun y => State.reset.freqAt y != 0#32) = [256] ∧
    (∃ t, exec .tbBuild State.reset = .next t ∧ t.store = leafStore) ∧
    (symbols.filter fun y => counted.freqAt y != 0#32) = [0x61, 256] ∧
    ∃ t, exec .tbBuild counted = .next t ∧ t.store = pairStore :=
  ⟨rfl, by decide +kernel, next_of _ built_leaf fun _ h => eq_of_sameStore h, by decide +kernel,
    next_of _ built_pair fun _ h => eq_of_sameStore h⟩

theorem witness_CtGen : State.reset.stalled = false ∧ State.reset.treeValid = false ∧
    (planned .tree []).treeValid = true ∧ (planned .tree []).store.complete pairTree :=
  ⟨rfl, rfl, rfl, pairStore_complete⟩

/-- The tree of "aaaa", and the one-leaf tree. -/
theorem witness_PrefixFreeCodes :
    ((planned .tree []).stalled = false ∧ (planned .tree []).treeValid = true ∧
      (planned .tree []).store.complete pairTree ∧ 2 ≤ pairTree.leaves ∧
      ∃ t, exec .ctGen (planned .tree []) = .next t ∧ (t.codeAt 256).valid = true) ∧
    leafStore.complete (.leaf Config.pseudoEof) ∧
      ∃ t, exec .ctGen { State.reset with treeValid := true, store := leafStore } = .next t ∧
        t.codeAt 256 = ⟨true, []⟩ := by
  refine ⟨⟨rfl, rfl, pairStore_complete, by decide, ?_⟩, leafStore_complete, ?_⟩
  · exact next_of (fun s => (s.codeAt 256).valid) (by decide +kernel) fun _ h => h
  · exact next_of (fun s => s.codeAt 256 == ⟨true, []⟩) (by decide +kernel) fun _ h => by simpa using h

/-- No plan; the plan of "aaaa" with a sink that takes all, and with one that refuses the third byte. -/
theorem witness_HdrWrite : State.reset.stalled = false ∧ State.reset.planValid = false ∧
    (planned .tree []).planValid = true ∧ (planned .tree []).store.complete pairTree ∧
    (planned .tree []).opensIfClosed.CanWrite
      (headerOf (planned .tree []).cfg .tree (planned .tree []).freq pairTree) ∧
    ({ planned .tree [] with sink := scripted [.ok, .ok, .fail] } : State).opensIfClosed.FailsAt
      (headerOf (planned .tree []).cfg .tree (planned .tree []).freq pairTree) 2 :=
  ⟨rfl, rfl, rfl, pairStore_complete, ⟨by decide, by decide +kernel, by decide +kernel⟩,
    ⟨by decide, by decide +kernel, by decide +kernel, by decide, by decide⟩⟩

/-- The CountsFormat header of no counts, with one more token on IN. -/
theorem witness_HdrReadCounts :
    ∃ (s : State) (bits : Bits) (bs : List Byte), s.stalled = false ∧ s.cfg.selCounts ≠ s.cfg.selTree ∧
      bits = headerOf s.cfg .counts (Vector.replicate 256 0#32) (.leaf 0) ∧ s.Carries bits bs [.eos] := by
  obtain ⟨bits, hb⟩ : ∃ bits, bits = headerOf State.reset.cfg .counts (Vector.replicate 256 0#32) (.leaf 0) := ⟨_, rfl⟩
  have hl : bits.length = 8256 := by rw [hb, headerOf_length]; rfl
  refine ⟨{ State.reset with inq := inBytes (closedBytes bits) ++ [.eos] }, bits, closedBytes bits, rfl,
    (by decide : State.reset.cfg.selCounts ≠ State.reset.cfg.selTree), hb,
    rfl, (by decide : State.reset.reader.buf.length < 8), rfl, streamBits_closedBytes bits, ?_⟩
  show State.reset.reader.bits.toNat + bits.length < 2 ^ 64
  rw [hl]
  decide

/-- Vector V88's header: the tree of "aaaa" and one spare bit. -/
theorem witness_HdrReadTree : (holding (tokens [0xFA, 0xCE, 0x82, 0x00, 0x00, 0x00, 0x00, 0x16, 0x00, 0x00, 0x00, 0x16,
      0x60, 0x13, 0x0B, 0xC0] [.eos])).cfg.selCounts ≠ State.reset.cfg.selTree ∧
    pairTree.decodable = true ∧ pairTree.size ≤ Config.nodeCap ∧ pairTree.bits.length + [false].length < 2 ^ 32 ∧
    (holding (tokens [0xFA, 0xCE, 0x82, 0x00, 0x00, 0x00, 0x00, 0x16, 0x00, 0x00, 0x00, 0x16, 0x60, 0x13, 0x0B, 0xC0]
      [.eos])).Carries
      (binN 32 0xFACE8200 ++ binN 32 22 ++ binN 32 (pairTree.bits.length + [false].length) ++ pairTree.bits ++ [false])
      [0xFA, 0xCE, 0x82, 0x00, 0x00, 0x00, 0x00, 0x16, 0x00, 0x00, 0x00, 0x16, 0x60, 0x13, 0x0B, 0xC0] [.eos] :=
  ⟨by decide, by decide, by decide, by decide, rfl, by decide, rfl, by decide +kernel, by decide +kernel⟩

/-- HDR_READ's and DECOMPRESS's state before the header (rules R138, R152), of a state of `holding`. -/
def beforeHeader (decompress : Bool) (ts : List InToken) : State :=
  if decompress then (holding ts).cleared.freshReader.reopened else { (holding ts).cleared with mark := 0#64 }

/-- A sink that refuses `Abort`, after the tokens that end the open stream. -/
theorem witness_HeaderRaises :
    let s : State := { holding [.eos] with writer := ⟨false, [true], 1#64⟩, sink := scripted [.ok, .ok, .fail] };
    s.stalled = false ∧ s.writer.buf.length < 8 ∧ s.sink.accepts s.closingTokens.length = true ∧
      s.sink.answerAt s.closingTokens.length = some .fail := by decide

/-- Vectors V80 and V81, for HDR_READ and for DECOMPRESS: another magic; the field cut by `End` and by `Error`; and an
exhausted reader. -/
theorem witness_InvalidMagic (d : Bool) : State.reset.stalled = false ∧ (binN 32 0xFACE8201).length = 32 ∧
    valueOf (binN 32 0xFACE8201) ≠ State.reset.cfg.magic.toNat ∧
    (beforeHeader d (tokens [0xFA, 0xCE, 0x82, 0x01] [.eos])).Carries (binN 32 0xFACE8201) [0xFA, 0xCE, 0x82, 0x01]
      [.eos] ∧
    (beforeHeader d (tokens [0xFA, 0xCE, 0x82] [.eos])).CutAt [] 32 [0xFA, 0xCE, 0x82] .eos [] ∧
    (beforeHeader d (tokens [] [.error])).CutAt [] 32 [] .error [] ∧
    ({ State.reset with reader := ⟨true, [], 3#64⟩ } : State).reader.exh = true := by
  cases d <;>
    exact ⟨rfl, by decide, by decide, ⟨rfl, by decide, rfl, by decide, by decide⟩,
      ⟨⟨rfl, by decide, rfl, by decide, by decide⟩, by decide, .inl rfl⟩,
      ⟨⟨rfl, by decide, rfl, by decide, by decide⟩, by decide, .inr rfl⟩, rfl⟩

/-- A selector field of 1 after the magic, and one cut by `End` and by `Error`, for HDR_READ and for DECOMPRESS. -/
theorem witness_UnknownFormat (d : Bool) : State.reset.stalled = false ∧ (binN 32 1).length = 32 ∧
    valueOf (binN 32 1) ≠ State.reset.cfg.selCounts.toNat ∧ valueOf (binN 32 1) ≠ State.reset.cfg.selTree.toNat ∧
    (beforeHeader d (tokens [0xFA, 0xCE, 0x82, 0, 0, 0, 0, 1] [])).Carries (binN 32 0xFACE8200 ++ binN 32 1)
      [0xFA, 0xCE, 0x82, 0, 0, 0, 0, 1] [] ∧
    (beforeHeader d (tokens [0xFA, 0xCE, 0x82, 0, 0, 0, 0] [.eos])).CutAt (binN 32 0xFACE8200) 32
      [0xFA, 0xCE, 0x82, 0, 0, 0, 0] .eos [] ∧
    (beforeHeader d (tokens [0xFA, 0xCE, 0x82, 0] [.error])).CutAt (binN 32 0xFACE8200) 32 [0xFA, 0xCE, 0x82, 0] .error
      [] := by
  cases d <;>
    exact ⟨rfl, by decide, by decide, by decide, ⟨rfl, by decide, rfl, by decide, by decide⟩,
      ⟨⟨rfl, by decide, rfl, by decide, by decide⟩, by decide, .inl rfl⟩,
      ⟨⟨rfl, by decide, rfl, by decide, by decide⟩, by decide, .inr rfl⟩⟩

theorem beforeHeader_reader (d : Bool) (ts : List InToken) :
    (beforeHeader d ts).reader = ⟨false, [], 0#64⟩ ∧ (beforeHeader d ts).inq = ts := by
  cases d <;> exact ⟨rfl, rfl⟩

/-- A state of `beforeHeader` carries the bits of its bytes. -/
theorem beforeHeader_carries (d : Bool) {bits : Bits} {bs : List Byte} {rest : List InToken}
    (h : bits <+: streamBits bs) (hl : bits.length < 2 ^ 64) :
    (beforeHeader d (inBytes bs ++ rest)).Carries bits bs rest := by
  obtain ⟨h1, h2⟩ := beforeHeader_reader d (inBytes bs ++ rest)
  exact ⟨by rw [h1], by rw [h1]; decide, h2, by rw [h1]; exact h, by rw [h1]; simpa using hl⟩

theorem beforeHeader_cut (d : Bool) {pre : Bits} {need : Nat} {bs : List Byte} {x : InToken} {rest : List InToken}
    (h : pre <+: streamBits bs) (hl : 8 * bs.length < pre.length + need) (hn : pre.length < 2 ^ 64)
    (hx : x = .eos ∨ x = .error) : (beforeHeader d (inBytes bs ++ x :: rest)).CutAt pre need bs x rest :=
  ⟨beforeHeader_carries d h hn, by simpa [(beforeHeader_reader d _).1] using hl, hx⟩

/-- A magic, a selector and a number, as bytes. -/
def headerBytes (sel n : Nat) : List Byte :=
  [0xFA, 0xCE, 0x82, 0x00, 0, 0, 0, BitVec.ofNat 8 sel, 0, 0, BitVec.ofNat 8 (n / 256), BitVec.ofNat 8 n]

/-- The count fields cut before the first, and inside the last; the length field cut. -/
theorem witness_MalformedHeader_fields (d : Bool) (x : InToken) (hx : x = .eos ∨ x = .error) :
    State.reset.cfg.selCounts ≠ State.reset.cfg.selTree ∧
    (beforeHeader d (inBytes [0xFA, 0xCE, 0x82, 0, 0, 0, 0, 0x15, 7] ++ x :: [])).CutAt
      (binN 32 0xFACE8200 ++ binN 32 0x15 ++ ([] : List Word).flatMap fun c => binN 32 c.toNat) 32
      [0xFA, 0xCE, 0x82, 0, 0, 0, 0, 0x15, 7] x [] ∧
    (beforeHeader d (inBytes ([0xFA, 0xCE, 0x82, 0, 0, 0, 0, 0x15] ++ List.replicate 1023 0) ++ x :: [])).CutAt
      (binN 32 0xFACE8200 ++ binN 32 0x15 ++ (List.replicate 255 0#32).flatMap fun c => binN 32 c.toNat) 32
      ([0xFA, 0xCE, 0x82, 0, 0, 0, 0, 0x15] ++ List.replicate 1023 0) x [] ∧
    (beforeHeader d (inBytes [0xFA, 0xCE, 0x82, 0, 0, 0, 0, 0x16] ++ x :: [])).CutAt
      (binN 32 0xFACE8200 ++ binN 32 0x16) 32 [0xFA, 0xCE, 0x82, 0, 0, 0, 0, 0x16] x [] :=
  ⟨by decide, beforeHeader_cut d (by decide +kernel) (by decide +kernel) (by decide +kernel) hx,
    beforeHeader_cut d (by decide +kernel) (by decide +kernel) (by decide +kernel) hx,
    beforeHeader_cut d (by decide +kernel) (by decide +kernel) (by decide +kernel) hx⟩

/-- After one internal node: the budget of 1 bit gone, and the next node's bit cut; 513 internal nodes and a bit more; a
leaf with 9 bits of budget left (vector V93's shape), its symbol cut, and the symbols 257 and 511. -/
theorem witness_MalformedHeader_nodes (d : Bool) (x : InToken) (hx : x = .eos ∨ x = .error) :
    (staysOpen 1 [none] = true ∧ ([none] : List (Option Symbol)).length ≤ Config.nodeCap ∧
      ([none].flatMap nodeBits).length = 1 ∧
      (beforeHeader d (inBytes (headerBytes 0x16 1 ++ [0]) ++ [])).Carries
        (treePreamble State.reset.cfg 1 ++ [none].flatMap nodeBits) (headerBytes 0x16 1 ++ [0]) []) ∧
    (beforeHeader d (inBytes (headerBytes 0x16 9 ++ [0]) ++ x :: [])).CutAt
      (treePreamble State.reset.cfg 9 ++ (List.replicate 8 none).flatMap nodeBits) 1 (headerBytes 0x16 9 ++ [0]) x [] ∧
    (staysOpen 1 (List.replicate 513 none) = true ∧ ((List.replicate 513 none).flatMap nodeBits).length < 600 ∧
      (List.replicate 513 (none : Option Symbol)).length = Config.nodeCap ∧
      (beforeHeader d (inBytes (headerBytes 0x16 600 ++ List.replicate 65 0) ++ [])).Carries
        (treePreamble State.reset.cfg 600 ++ (List.replicate 513 none).flatMap nodeBits ++ [false])
        (headerBytes 0x16 600 ++ List.replicate 65 0) []) ∧
    (staysOpen 1 [] = true ∧ 0 < 9 ∧ 9 < 0 + 10 ∧
      (beforeHeader d (inBytes (headerBytes 0x16 9 ++ [0x80]) ++ [])).Carries
        (treePreamble State.reset.cfg 9 ++ [].flatMap nodeBits ++ [true]) (headerBytes 0x16 9 ++ [0x80]) []) ∧
    (beforeHeader d (inBytes (headerBytes 0x16 10 ++ [0x80]) ++ x :: [])).CutAt
      (treePreamble State.reset.cfg 10 ++ [].flatMap nodeBits ++ [true]) 9 (headerBytes 0x16 10 ++ [0x80]) x [] ∧
    (beforeHeader d (inBytes (headerBytes 0x16 10 ++ [0xC0, 0x40]) ++ [])).Carries
      (treePreamble State.reset.cfg 10 ++ [].flatMap nodeBits ++ true :: binN 9 257)
      (headerBytes 0x16 10 ++ [0xC0, 0x40]) [] ∧
    (beforeHeader d (inBytes (headerBytes 0x16 10 ++ [0xFF, 0xC0]) ++ [])).Carries
      (treePreamble State.reset.cfg 10 ++ [].flatMap nodeBits ++ true :: binN 9 511)
      (headerBytes 0x16 10 ++ [0xFF, 0xC0]) [] :=
  ⟨⟨by decide, by decide, by decide, beforeHeader_carries d (by decide +kernel) (by decide +kernel)⟩,
    beforeHeader_cut d (by decide +kernel) (by decide +kernel) (by decide +kernel) hx,
    ⟨by decide +kernel, by decide +kernel, by decide +kernel,
      beforeHeader_carries d (by decide +kernel) (by decide +kernel)⟩,
    ⟨by decide, by decide, by decide, beforeHeader_carries d (by decide +kernel) (by decide +kernel)⟩,
    beforeHeader_cut d (by decide +kernel) (by decide +kernel) (by decide +kernel) hx,
    beforeHeader_carries d (by decide +kernel) (by decide +kernel),
    beforeHeader_carries d (by decide +kernel) (by decide +kernel)⟩

/-- The root the leaf of 0x41, with no bit and with 6 more declared; and the spare bit after the tree of "aaaa" cut
(vector V88's header). -/
theorem witness_MalformedHeader_end (d : Bool) (x : InToken) (hx : x = .eos ∨ x = .error) :
    (HTree.leaf 0x41).size ≤ Config.nodeCap ∧ (0x41 : Symbol) ≠ Config.pseudoEof ∧
    (beforeHeader d (inBytes (headerBytes 0x16 10 ++ [0x90, 0x40]) ++ [])).Carries
      (treePreamble State.reset.cfg 10 ++ (HTree.leaf 0x41).bits ++ []) (headerBytes 0x16 10 ++ [0x90, 0x40]) [] ∧
    (beforeHeader d (inBytes (headerBytes 0x16 16 ++ [0x90, 0x40]) ++ [])).Carries
      (treePreamble State.reset.cfg 16 ++ (HTree.leaf 0x41).bits ++ List.replicate 6 false)
      (headerBytes 0x16 16 ++ [0x90, 0x40]) [] ∧
    pairTree.size ≤ Config.nodeCap ∧ pairTree.bits.length + [false, true, false].length < 25 ∧
    (beforeHeader d (inBytes (headerBytes 0x16 25 ++ [0x60, 0x13, 0x0A]) ++ x :: [])).CutAt
      (treePreamble State.reset.cfg 25 ++ pairTree.bits ++ [false, true, false]) 1
      (headerBytes 0x16 25 ++ [0x60, 0x13, 0x0A]) x [] :=
  ⟨by decide, by decide, beforeHeader_carries d (by decide +kernel) (by decide +kernel),
    beforeHeader_carries d (by decide +kernel) (by decide +kernel), by decide, by decide,
    beforeHeader_cut d (by decide +kernel) (by decide +kernel) (by decide +kernel) hx⟩

/-- The pad byte and the `End` of the stream that was open refused. -/
theorem witness_SinkFails_open :
    (let s : State := { planned .tree [.eos] with writer := ⟨false, [true], 1#64⟩, sink := scripted [.fail] };
      s.writer.buf.length < 8 ∧ s.sink.FailsOn s.closingTokens [] (.byte 0x80) ∧ s.planValid = true) ∧
    (let s : State := { planned .tree [.eos] with writer := ⟨false, [true], 1#64⟩, sink := scripted [.ok, .fail] };
      s.sink.FailsOn s.closingTokens [.byte 0x80] .eos) :=
  ⟨⟨by decide, ⟨by decide, by decide, by decide⟩, rfl⟩, ⟨by decide, by decide, by decide⟩⟩

/-- The plan of "aaaa" with the sink failing at the token after the first `n`, and the tokens on IN. -/
def failing (n : Nat) (ts : List InToken) : State :=
  { planned .tree ts with sink := scripted (List.replicate n .ok ++ [.fail]) }

/-- COMPRESS whose sink refuses the first byte of the header; the byte that the code of the third byte, and the one that
the pseudo-EOF's code, completes; and the pad byte and the `End` of the container (vectors V72, V103). -/
theorem witness_SinkFails_compress :
    let header := headerOf State.reset.cfg .tree pairFreq pairTree;
    let two := header ++ [0x61#8, 0x61#8].flatMap (fun b => (pairTree.codeOf (symbolOfByte b)).bits);
    let all := header ++ bodyOf pairTree [0x61#8];
    ((failing 0 [.eos]).freshReader.reopened.CanWrite [] ∧
      (({ (failing 0 [.eos]).freshReader.reopened with inq := [.eos] } : State).written []).FailsAt header 0) ∧
    ((failing 14 (tokens [0x61, 0x61, 0x61] [])).freshReader.reopened.CanWrite two ∧
      (({ (failing 14 []).freshReader.reopened with inq := [] } : State).written two).FailsAt
        (pairTree.codeOf (symbolOfByte 0x61#8)).bits 0) ∧
    ((failing 14 (tokens [0x61, 0x61] [.eos])).inq = inBytes [0x61#8, 0x61#8] ++ .eos :: [] ∧
      (({ (failing 14 []).freshReader.reopened with inq := [] } : State).written two).FailsAt
        (pairTree.codeOf Config.pseudoEof).bits 0) ∧
    (let w : State := { (failing 14 []).freshReader.reopened with inq := [] }.written all;
      (failing 14 []).freshReader.reopened.CanWrite all ∧ w.sink.FailsOn w.closingTokens [] (.byte 0x0C)) ∧
    (let w : State := { (failing 15 []).freshReader.reopened with inq := [] }.written all;
      w.sink.FailsOn w.closingTokens [.byte 0x0C] .eos) := by
  refine ⟨⟨⟨?_, ?_, ?_⟩, ⟨?_, ?_, ?_, ?_, ?_⟩⟩, ⟨⟨?_, ?_, ?_⟩, ⟨?_, ?_, ?_, ?_, ?_⟩⟩, ⟨rfl, ⟨?_, ?_, ?_, ?_, ?_⟩⟩,
    ⟨⟨?_, ?_, ?_⟩, ⟨?_, ?_, ?_⟩⟩, ⟨?_, ?_, ?_⟩⟩ <;> decide +kernel

/-- The body of bytes "a" in `pairTree`. -/
theorem pair_spells (n : Nat) : pairTree.Spells (List.replicate n 0x61#8) (List.replicate n true) := by
  induction n with
  | zero => exact .nil
  | succ n ih => exact .cons (p := [true]) (by decide) ih

/-- The tree of vector V95, in which "a" has two leaves. -/
def twiceTree : HTree := .node (.leaf 0x61) (.node (.leaf 0x61) (.leaf 256))

/-- The body of vector V95: twice the leaf that the code names, and four times the other. -/
theorem twice_spells : twiceTree.Spells (List.replicate 6 0x61#8) (bitsOfByte 0xA0#8) :=
  .cons (p := [true, false]) (by decide) <| .cons (p := [true, false]) (by decide) <| .cons (p := [false]) (by decide) <|
    .cons (p := [false]) (by decide) <| .cons (p := [false]) (by decide) <| .cons (p := [false]) (by decide) .nil

/-- DECOMPRESS of "aaaa"'s container whose sink refuses the second byte, and, of the container of one byte, the `End`
(vector V104). -/
theorem witness_SinkFails_decompress : Transmits .tree pairFreq pairTree ∧ pairTree.Spells [0x61#8] [true] ∧
    (symbolOfByte 0x61#8, [true]) ∈ pairTree.paths ∧ (Config.pseudoEof, [false]) ∈ pairTree.paths ∧
    (scripted [.ok, .fail]).accepts (State.reset.closingTokens ++ outBytes [0x61#8]).length = true ∧
    (scripted [.ok, .fail]).answerAt (State.reset.closingTokens ++ outBytes [0x61#8]).length = some .fail ∧
    (∀ code, code = [true] ∨ code = [false] →
      let bits := headerOf State.reset.cfg .tree pairFreq pairTree ++ [true] ++ code;
      (holding (inBytes (closedBytes bits) ++ [])).freshReader.Carries bits (closedBytes bits) [] ∧
        bits.length < 2 ^ 63) := by
  refine ⟨⟨by decide, by decide⟩, pair_spells 1, by decide, by decide, by decide, by decide, ?_⟩
  rintro code (rfl | rfl)
  · exact ⟨⟨rfl, by decide, rfl, by decide +kernel, by decide +kernel⟩, by decide +kernel⟩
  · exact ⟨⟨rfl, by decide, rfl, by decide +kernel, by decide +kernel⟩, by decide +kernel⟩

/-- The streams of `witness_FtCount`. -/
theorem witness_Estimate : State.reset.stalled = false ∧ Countable [0x61#8] ∧
    (holding (tokens [0x61] [.eos])).inq = inBytes [0x61#8] ++ .eos :: [] ∧
    (holding (tokens [0x61] [.error])).inq = inBytes [0x61#8] ++ .error :: [] ∧
    (List.replicate (2 ^ 32 - 1) 0x41#8).count 0x41#8 = 2 ^ 32 - 1 :=
  ⟨rfl, countable_one, rfl, rfl, List.count_replicate_self⟩

/-- PLAN_SAVED -1, 0 and, forced, -1. -/
theorem witness_CompressRefused :
    ((BitVec.ofInt 64 (-1)).toInt < 0 ∧ (planned .tree []).stalled = false ∧ (planned .tree []).planValid = true) ∧
    (0 ≤ ({ planned .tree [.eos] with planSaved := 0#64 } : State).planSaved.toInt ∧
      ∃ t, exec (.compress false) { planned .tree [.eos] with planSaved := 0#64 } = .next t) ∧
    ∃ t, exec (.compress true) { planned .tree [.eos] with planSaved := BitVec.ofInt 64 (-1) } = .next t := by
  refine ⟨by decide, ⟨by decide, ?_⟩, ?_⟩
  · exact next_exists (by decide +kernel)
  · exact next_exists (by decide +kernel)

theorem pair_covers : pairTree.covers [0x61#8] := ⟨by decide, by decide⟩

/-- The plan of "aaaa", forced, with one byte and with none, with a stream open before it; and a plan that saves 0. -/
theorem witness_CompressWrites (bs : List Byte) (h : bs = [] ∨ bs = [0x61#8]) :
    ∃ s : State, s.stalled = false ∧ s.planValid = true ∧ 0 ≤ s.planSaved.toInt ∧ s.store.complete pairTree ∧
      (∀ y, s.codeAt y = pairTree.codeOf y) ∧ pairTree.covers bs ∧ s.inq = inBytes bs ++ .eos :: [] ∧
      (headerOf s.cfg s.planFmt s.freq pairTree ++ bodyOf pairTree bs).length < 2 ^ 63 ∧ s.writer.buf.length < 8 ∧
      s.sink.accepts (s.closingTokens ++ outBytes (closedBytes (headerOf s.cfg s.planFmt s.freq pairTree ++
        bodyOf pairTree bs)) ++ [OutToken.eos]).length = true := by
  refine ⟨{ planned .tree (inBytes bs ++ [.eos]) with planSaved := 0#64, writer := ⟨false, [true], 1#64⟩ }, rfl, rfl,
    (by decide : 0 ≤ (0#64).toInt), pairStore_complete, planned_codes .tree (inBytes bs ++ [.eos]), ?_, rfl, ?_,
    (by decide : [true].length < 8), ?_⟩
  · rcases h with rfl | rfl
    · exact ⟨by decide, by decide⟩
    · exact pair_covers
  · rcases h with rfl | rfl <;> decide +kernel
  · show State.reset.sink.accepts _ = true
    simp [Sink.accepts, State.reset]

/-- An `Error` token, and a byte that has no code, after one byte that has (vectors V70 and V71). -/
theorem witness_CompressFails : (planned .tree (tokens [0x61] [.error])).planValid = true ∧
    (pairTree.codeOf (symbolOfByte 0x61#8)).valid = true ∧ (pairTree.codeOf (symbolOfByte 0x62#8)).valid = false ∧
    (planned .tree (tokens [0x61] [.error])).inq = inBytes [0x61#8] ++ .error :: [] ∧
    (planned .tree (tokens [0x61, 0x62] [])).inq = inBytes [0x61#8] ++ .byte 0x62#8 :: [] ∧
    (let bits := headerOf State.reset.cfg .tree pairFreq pairTree ++ [true];
      bits.length < 2 ^ 63 ∧ bits.length / 8 = 14 ∧
        State.reset.sink.accepts (State.reset.closingTokens.length + bits.length / 8) = true ∧
        State.reset.sink.answerAt (State.reset.closingTokens.length + bits.length / 8) = some .ok) := by
  decide +kernel

/-- ESTIMATE and a forced COMPRESS of one byte. -/
theorem witness_SavingsAccuracy : Countable [0x61#8] ∧ ∃ s₁ s₂ : State,
    exec (.estimate .tree) (holding (inBytes [0x61#8] ++ .eos :: [])) = .next s₁ ∧
    exec (.compress true) { s₁ with inq := inBytes [0x61#8] ++ .eos :: [], sink := ⟨[], some .ok, []⟩ } = .next s₂ ∧
    s₂.busy = false := by
  refine ⟨countable_one, ?_⟩
  obtain ⟨s₁, h1, h2⟩ := exists_next (o := exec (.estimate .tree) (holding (inBytes [0x61#8] ++ .eos :: [])))
    (test := fun s₁ => next (exec (.compress true) { s₁ with inq := inBytes [0x61#8] ++ .eos :: [], sink := ⟨[], some .ok, []⟩ })
      fun s₂ => !s₂.busy) (by decide +kernel)
  obtain ⟨s₂, h3, h4⟩ := exists_next h2
  exact ⟨s₁, s₂, h1, h3, by simpa using h4⟩

/-- Vector V96's shape: the container of one byte, and tokens after it; and a body that takes the other leaf of a symbol
than its code's. -/
theorem witness_Decompress : Transmits .tree pairFreq pairTree ∧ pairTree.Spells [0x61#8] [true] ∧
    (Config.pseudoEof, [false]) ∈ pairTree.paths ∧
    (let bits := headerOf State.reset.cfg .tree pairFreq pairTree ++ [true] ++ [false];
      let s := holding (inBytes (closedBytes bits) ++ [.byte 0xFF#8]);
      s.stalled = false ∧ s.cfg.selCounts ≠ s.cfg.selTree ∧ bits.length < 2 ^ 63 ∧ [0x61#8].length < 2 ^ 59 ∧
        s.inq = inBytes (closedBytes bits) ++ [.byte 0xFF#8] ∧ s.writer.buf.length < 8 ∧
        s.sink.accepts (s.closingTokens ++ outBytes [0x61#8] ++ [OutToken.eos]).length = true) ∧
    (Transmits .tree pairFreq twiceTree ∧ twiceTree.Spells (List.replicate 6 0x61#8) (bitsOfByte 0xA0#8) ∧
      (Config.pseudoEof, [true, true]) ∈ twiceTree.paths) ∧
    Transmits .counts (Vector.replicate 256 0#32) (.leaf 256) := by
  refine ⟨⟨by decide, by decide⟩, pair_spells 1, by decide, by decide +kernel,
    ⟨⟨by decide, by decide⟩, twice_spells, by decide⟩, ?_⟩
  show (({ State.reset with freq := Vector.replicate 256 0#32 } : State).buildTree.store).complete (.leaf 256)
  rw [show ({ State.reset with freq := Vector.replicate 256 0#32 } : State).buildTree.store = leafStore from
    eq_of_sameStore (by decide +kernel)]
  exact leafStore_complete

/-- Vectors V78 and V79: three bytes decoded, and the stream ends inside the next code with `End` or `Error`; and vector
V95, a repeated symbol. -/
theorem witness_CorruptStream :
    (Transmits .tree pairFreq pairTree ∧ pairTree.Spells (List.replicate 3 0x61#8) (List.replicate 3 true) ∧
      ((256 : Symbol), ([] : Bits) ++ [false]) ∈ pairTree.paths ∧
      (∀ tok : InToken, let bs : List Byte := (container.take 15).map (BitVec.ofNat 8);
        headerOf State.reset.cfg .tree pairFreq pairTree ++ List.replicate 3 true ++ [] = streamBits bs ∧
        (streamBits bs).length < 2 ^ 63 ∧ (holding (tokens (container.take 15) [tok])).inq = inBytes bs ++ tok :: []) ∧
      State.reset.sink.accepts (State.reset.closingTokens ++ outBytes (List.replicate 3 0x61#8)).length = true ∧
      State.reset.sink.answerAt (State.reset.closingTokens ++ outBytes (List.replicate 3 0x61#8)).length = some .ok) ∧
    (Transmits .tree pairFreq twiceTree ∧ twiceTree.Spells (List.replicate 6 0x61#8) (bitsOfByte 0xA0#8) ∧
      ((256 : Symbol), ([] : Bits) ++ [true, true]) ∈ twiceTree.paths ∧
      headerOf State.reset.cfg .tree pairFreq twiceTree ++ bitsOfByte 0xA0#8 ++ [] = streamBits
        ([0xFA, 0xCE, 0x82, 0, 0, 0, 0, 0x16, 0, 0, 0, 0x20, 0x4C, 0x29, 0x87, 0, 0xA0].map (BitVec.ofNat 8))) := by
  refine ⟨⟨⟨by decide, by decide⟩, pair_spells 3, by decide, fun tok => ⟨by decide +kernel, by decide +kernel, ?_⟩,
    by decide, by decide⟩, ⟨by decide, by decide⟩, twice_spells, by decide, by decide +kernel⟩
  rfl

/-- The empty stream and one byte, from reset. -/
theorem witness_RoundTrip : State.reset.stalled = false ∧ State.reset.writer.closed = true ∧
    State.reset.writer.buf.length < 8 ∧ State.reset.cfg.selCounts ≠ State.reset.cfg.selTree ∧ State.reset.err = .none ∧
    Countable [] ∧ Countable [0x61#8] ∧
    (⟨[], some .ok, []⟩ : Sink).script = [] ∧ (⟨[], some .ok, []⟩ : Sink).rest = some .ok :=
  ⟨rfl, rfl, by decide, by decide, rfl, fun _ => by simp, countable_one, rfl, rfl⟩

/-- The state in which a command's word was accepted, BUSY = 1, with tokens on IN. -/
def accepted (ts : List InToken) : State := { holding ts with busy := true }

/-- CT_GEN without a tree ends with an error; FT_COUNT holds and then meets an `Error`. -/
theorem witness_ErrorEnds : State.reset.err = .none ∧
    (∃ t, Turn .ctGen State.reset State.reset t ∧ t.busy = false ∧ t.err ≠ .none) ∧
    TakenUp .ftCount (accepted []) fun t => !t.busy && t.err == .ioError := by
  refine ⟨rfl, ?_, turn_after_hold [.byte 0x61, .error] [] _ (by decide +kernel)⟩
  refine (exists_next (o := exec .ctGen State.reset) (test := fun s => !s.busy && s.err != .none)
    (by decide +kernel)).imp fun _ h => ⟨.inl ⟨rfl, h.1⟩, ?_⟩
  simpa using h.2

/-- HDR_WRITE without a plan; and an HDR_READ that holds inside the magic and then finds it wrong. -/
theorem witness_ErrorTable : State.reset.err = .none ∧
    (∃ t, exec .hdrWrite State.reset = .next t ∧ t.err = .illegalUsage) ∧
    TakenUp .hdrRead (accepted (tokens [0xFA] [])) fun t => t.err == .invalidMagic := by
  refine ⟨rfl, ?_, turn_after_hold (tokens [0, 0, 0] []) [] _ (by decide +kernel)⟩
  exact next_of (fun s => s.err == .illegalUsage) (by decide +kernel) fun _ h => by simpa using h

/-- A DECOMPRESS that holds inside its body and then pushes `End`, and a COMPRESS whose sink refuses it. -/
theorem witness_NoFalseEnd : State.reset.writer.closed = true ∧ State.reset.err = .none ∧
    (TakenUp .decompress (accepted (tokens (container.take 15) [])) fun t => t.sink.taken.contains (.eos, .ok)) ∧
    ∃ t, exec (.compress true) { planned .tree [.eos] with sink := scripted (List.replicate 15 .ok ++ [.fail]) } = .next t ∧
      t.err = .ioError := by
  refine ⟨rfl, rfl, turn_after_hold (tokens [0x80] []) [] _ (by decide +kernel), ?_⟩
  exact next_of (fun s => s.err == .ioError) (by decide +kernel) fun _ h => by simpa using h

/-- A command that drops the plan, one that makes one after a hold, and one that keeps what there is. -/
theorem witness_PlanLifecycle : State.reset.Shape ∧ (accepted []).Shape ∧ State.reset.stalled = false ∧
    State.reset.err = .none ∧ (∃ t, exec .tbBuild State.reset = .next t) ∧
    (TakenUp (.estimate .tree) (accepted []) fun t => t.planValid) ∧
    ∃ t, exec .bsClose State.reset = .next t := by
  refine ⟨reset_shape, reset_shape.rest _ rfl rfl rfl rfl rfl rfl rfl rfl, rfl, rfl, ?_,
    turn_after_hold (tokens [0x61] [.eos]) [] _ (by decide +kernel), ?_⟩
  · exact next_exists (by decide +kernel)
  · exact next_exists (by decide +kernel)

/-- TB_BUILD, an ESTIMATE that ends with an error, one that holds, and a BS_READ that held. -/
theorem witness_CounterWriters : State.reset.err = .none ∧ (∃ t, exec .tbBuild State.reset = .next t) ∧
    (∃ t, exec (.estimate .tree) (holding [.error]) = .next t ∧ t.err ≠ .none) ∧
    (∃ t, exec (.estimate .tree) (accepted []) = .next t ∧ t.busy = true) ∧
    TakenUp (.bsRead 8#6) (accepted []) fun t => t.result == 0x61#64 := by
  refine ⟨rfl, ?_, ?_, ?_, turn_after_hold (tokens [0x61] []) [] _ (by decide +kernel)⟩
  · exact next_exists (by decide +kernel)
  · exact next_of (fun s => s.err != .none) (by decide +kernel) fun _ h => by simpa using h
  · exact next_of (fun s => s.busy) (by decide +kernel) fun _ h => h

theorem witness_OutputFrame : TakenUp .hdrRead (accepted (tokens (container.take 12) [])) fun t => t.treeValid :=
  turn_after_hold (tokens (container.drop 12) []) [] _ (by decide +kernel)

/-- HDR_WRITE whose sink does not answer the sixth byte at once. -/
theorem witness_InputFrame :
    let s₀ : State := { planned .tree [.eos] with busy := true, sink := scripted (List.replicate 5 .ok) };
    TakenUp .hdrWrite s₀ fun t => t.result == 117#64 :=
  turn_after_hold [] (List.replicate 9 .ok) _ (by decide +kernel)

theorem witness_HostFrame : (∃ t, exec .decompress (holding (tokens container [.eos])) = .next t ∧ t.result = 32#64) ∧
    ∃ t, resume { heldRead with inq := tokens [1, 2, 3, 4] [] } = .next t ∧ t.busy = false := by
  refine ⟨?_, ?_⟩
  · exact next_of (fun s => s.result == 32#64) (by decide +kernel) fun _ h => by simpa using h
  · exact next_of (fun s => s.busy == false) (by decide +kernel) fun _ h => by simpa using h

/-- A state that meets the statement's common hypotheses, and for each arm what its ports have. -/
theorem witness_CommandsEnd : State.reset.Shape ∧ State.reset.reader.buf.length < 8 ∧ State.reset.stalled = false ∧
    State.reset.sink.answersAll = true ∧ endsStream [.eos] = true ∧ endsStream [.byte 1#8, .error] = true ∧
    ((planned .tree []).planSaved.toInt < 0 ∧ endsStream (planned .tree [.eos]).inq = true) :=
  ⟨reset_shape, by decide, rfl, rfl, by decide, by decide, by decide, by decide⟩

/-- A read of 32 bits that holds at IN, and a BS_WRITE that holds at OUT, from its acceptance. -/
theorem witness_TokenTiming : (heldRead.Inv ∧ heldRead.sink.rest = some .ok ∧
      ∃ t, resume heldRead = .next t ∧ t.busy = true) ∧
    ∃ s₀ s t : State, s₀.Shape ∧ s₀.reader.buf.length < 8 ∧ s₀.busy = true ∧ s₀.done = false ∧ s₀.err = .none ∧
      s₀.sink.rest = none ∧ exec (.bsWrite 8#6) s₀ = .next s ∧ s.Inv ∧ s.sink.rest = none ∧
      s.work = [.offer 0#8, .emit []] ∧ resume s = .next t ∧ t.busy = true := by
  refine ⟨⟨heldRead_inv, rfl, next_of (fun s => s.busy) (by decide +kernel) fun _ h => h⟩, ?_⟩
  obtain ⟨s₀, h₀⟩ : ∃ s₀ : State, s₀ = { accepted [] with sink := scripted [] } := ⟨_, rfl⟩
  have hs : s₀.Shape := by rw [h₀]; exact reset_shape.rest _ rfl rfl rfl rfl rfl rfl rfl rfl
  have hb : s₀.reader.buf.length < 8 ∧ s₀.busy = true ∧ s₀.done = false ∧ s₀.err = .none ∧ s₀.sink.rest = none := by
    rw [h₀]; decide
  obtain ⟨h1, h2, h3, h4, h5⟩ := hb
  obtain ⟨s, h6, h7⟩ := exec_inv (.bsWrite 8#6) hs h2 h3 h4 h1
  obtain ⟨s', h8, h9⟩ := exists_next (o := exec (.bsWrite 8#6) s₀)
    (test := fun s => s.sink.rest == none && s.work == [.offer 0#8, .emit []] && next (resume s) fun t => t.busy)
    (by rw [h₀]; decide +kernel)
  obtain rfl : s = s' := by rw [h6] at h8; exact Host.Outcome.next.inj h8
  simp only [Bool.and_eq_true, beq_iff_eq] at h9
  obtain ⟨t, h10, h11⟩ := exists_next h9.2
  exact ⟨s₀, s, t, hs, h1, h2, h3, h4, h5, h6, h7, h9.1.1, h9.1.2, h10, h11⟩

theorem witness_StepKeepsInv : heldRead.Inv ∧ ∃ t, step heldRead = .next t := ⟨heldRead_inv, _, rfl⟩

theorem witness_NeverStops : heldRead.Inv := heldRead_inv

end Sys2Proof.Tests
end

section
/-! What every turn of the engine keeps of the host's side, one step of the machine for each action that starts or
continues a command, and with them the obligation of rules R14, R55, R62 and R78. -/

namespace Sys2Proof.Machine

/-! ## What a turn keeps of the host's side -/

/-- What a whole turn of the engine leaves as it was, its end included: `SameHost` without the flags and the list of
steps that the end of a command writes. -/
structure KeepsHost (s t : State) : Prop where
  cfg      : t.cfg = s.cfg
  cmdLast  : t.cmdLast = s.cmdLast
  ovr      : t.ovr = s.ovr
  arg      : t.arg = s.arg
  lcmd     : t.lcmd = s.lcmd
  larg     : t.larg = s.larg
  inReset  : t.inReset = s.inReset
  events   : t.events = s.events
  accesses : t.accesses = s.accesses
  popped   : t.popped = s.popped
  stalled  : t.stalled = s.stalled

theorem KeepsHost.refl (s : State) : KeepsHost s s := ⟨rfl, rfl, rfl, rfl, rfl, rfl, rfl, rfl, rfl, rfl, rfl⟩

theorem KeepsHost.trans {a b c : State} (h : KeepsHost a b) (h' : KeepsHost b c) : KeepsHost a c :=
  ⟨h'.cfg.trans h.cfg, h'.cmdLast.trans h.cmdLast, h'.ovr.trans h.ovr, h'.arg.trans h.arg, h'.lcmd.trans h.lcmd,
    h'.larg.trans h.larg, h'.inReset.trans h.inReset, h'.events.trans h.events, h'.accesses.trans h.accesses,
    h'.popped.trans h.popped, h'.stalled.trans h.stalled⟩

theorem SameHost.keepsHost {s t : State} (h : SameHost s t) : KeepsHost s t :=
  ⟨h.cfg, h.cmdLast, h.ovr, h.arg, h.lcmd, h.larg, h.inReset, h.events, h.accesses, h.popped, h.stalled⟩

/-- A termination writes none of the host's side (60_exceptions.md rule R160). -/
theorem terminate_keepsHost (s : State) (e : ErrCode) : KeepsHost s (s.terminate e) := by
  rcases terminate_cases s e with ⟨_, he⟩ | ⟨_, _, _, _, he⟩ | ⟨_, _, _, he⟩ <;> rw [he] <;>
    exact ⟨rfl, rfl, rfl, rfl, rfl, rfl, rfl, rfl, rfl, rfl, rfl⟩

/-- The set of all steps holds whatever a step leaves or raises. -/
theorem Work.closed_true : Work.Closed fun _ => True where
  left _ _ _ _ := trivial
  abort _ _ _ _ _ := trivial

theorem keepsHost_frame : Work.Frame (fun _ => True) KeepsHost where
  refl := KeepsHost.refl
  trans := KeepsHost.trans
  run w s _ := (runWork_host w s).mono fun _ h => h.keepsHost
  raise s e _ _ := terminate_keepsHost s e
  done _ := ⟨rfl, rfl, rfl, rfl, rfl, rfl, rfl, rfl, rfl, rfl, rfl⟩
  hold _ _ := ⟨rfl, rfl, rfl, rfl, rfl, rfl, rfl, rfl, rfl, rfl, rfl⟩
  start _ _ := ⟨rfl, rfl, rfl, rfl, rfl, rfl, rfl, rfl, rfl, rfl, rfl⟩

theorem exec_keepsHost {i : Instr} {s t : State} (h : exec i s = .next t) : KeepsHost s t :=
  (keepsHost_frame.exec Work.closed_true (fun _ _ => trivial) h).1

theorem resume_keepsHost {s t : State} (h : resume s = .next t) : KeepsHost s t :=
  (keepsHost_frame.resume Work.closed_true (fun _ _ => trivial) (fun _ => trivial) h).1

/-! ## One step of the machine -/

/-- The next action of the outside world is taken off the list before it is handled. -/
theorem step_cons (s : State) (e : Event) (es : List Event) :
    step { s with events := e :: es } = ({ s with events := es }.handle e).run := rfl

/-- A write to CMD while no command runs issues the word (30_encoding.md rule R78). -/
theorem busWrite_cmd_idle {s : State} (hb : s.busy = false) (hr : s.inReset = false) (w : Word) :
    s.busWrite 0x004#16 4 w = .issue w (s.reply (.write 0x004#16 4 w) .written) := by
  simp [State.busWrite, hb, hr, accessDefined, regAt_offset (r := .cmd) (off := 0x004#16) rfl]

/-- A step that writes CMD while no command runs issues the word, the access recorded (rule R78). -/
theorem step_cmd_idle {s : State} (hb : s.busy = false) (hr : s.inReset = false) (es : List Event) (w : Word) :
    step { s with events := .busWrite 0x004#16 4 w :: es } =
      (Action.issue w ({ s with events := es }.reply (.write 0x004#16 4 w) .written)).run :=
  congrArg Action.run (busWrite_cmd_idle (s := { s with events := es }) hb hr w)

/-- Issuing a word that decodes is a turn of the command in the state that accepted the word; acceptance leaves IN
alone, so the tokens popped are counted from that state. -/
theorem run_issue_of_decode {w : Word} {i : Instr} (hd : decode w = .ok i) (s : State) :
    (Action.issue w s).run = (s.acceptWord w).turn (exec i (s.acceptWord w)) := by
  simp only [Action.run, hd]
  rfl

/-- A turn adds to the record of popped tokens those at the front of IN that are gone after it. -/
theorem turn_records_front {a t : State} (hi : Pops a t) (hp : t.popped = a.popped) :
    ∃ ps, a.inq = ps ++ t.inq ∧ a.turn (.next t) = .next { t with popped := a.popped ++ ps } := by
  obtain ⟨ps, hps⟩ := hi
  exact ⟨ps, hps.symm, by rw [turn_next hps.symm, hp]⟩

/-- Settles O5: a write to CMD and the four actions that can lift a hold are each one turn by the machine's step, and
what a turn records follows from the frame of `popped` and from IN being left with an end of what it had. -/
theorem stepRunsDecoded : Obligations.StepRunsDecoded := by
  refine ⟨?issue, ?lift, ?record⟩
  case issue =>
    rintro s a es w i hb hr hd rfl
    rw [step_cmd_idle hb hr, run_issue_of_decode hd]
    rfl
  case lift =>
    rintro s a e es (⟨ts, rfl, rfl⟩ | ⟨as, rfl, rfl⟩ | ⟨r, rfl, rfl⟩ | ⟨on, rfl, rfl⟩) <;> exact step_cons s _ es
  case record =>
    rintro a t (⟨i, h⟩ | h)
    · exact turn_records_front (exec_pops h) (exec_keepsHost h).popped
    · exact turn_records_front (resume_pops h) (resume_keepsHost h).popped

end Sys2Proof.Machine
end

section
/-! What an action of the outside world can do, said once, and with it the invariant over every step (10_state.md rules
R28, R29, R44, 41_bitstream.md rules R85, R89, R91, R92) and right after reset (rule R49). -/

namespace Sys2Proof.Machine

/-! ## Actions of the outside world -/

theorem State.Outside.refl (s : State) : s.Outside s := ⟨_, _, _, _, _, _, _, _, _, _, rfl⟩

theorem State.Outside.trans {a b c : State} (h : a.Outside b) (h' : b.Outside c) : a.Outside c := by
  obtain ⟨_, _, _, _, _, _, _, _, _, _, rfl⟩ := h
  obtain ⟨_, _, _, _, _, _, _, _, _, _, rfl⟩ := h'
  exact ⟨_, _, _, _, _, _, _, _, _, _, rfl⟩

theorem State.Outside.cfg {s t : State} (h : s.Outside t) : t.cfg = s.cfg := by
  obtain ⟨_, _, _, _, _, _, _, _, _, _, rfl⟩ := h
  rfl

theorem State.Outside.busy {s t : State} (h : s.Outside t) : t.busy = s.busy := by
  obtain ⟨_, _, _, _, _, _, _, _, _, _, rfl⟩ := h
  rfl

/-- Nothing the invariant speaks of changes from outside. -/
theorem State.Outside.inv {s t : State} (h : s.Outside t) (hs : s.Inv) : t.Inv := by
  obtain ⟨_, _, _, _, _, _, _, _, _, _, rfl⟩ := h
  exact hs.rest _ rfl rfl rfl rfl rfl rfl rfl rfl rfl rfl rfl rfl rfl rfl rfl

theorem State.Outside.shape {s t : State} (h : s.Outside t) (hs : s.Shape) : t.Shape := by
  obtain ⟨_, _, _, _, _, _, _, _, _, _, rfl⟩ := h
  exact hs.rest _ rfl rfl rfl rfl rfl rfl rfl rfl

theorem recordPops_outside (s t : State) : t.Outside (s.recordPops t) := ⟨_, _, _, _, _, _, _, _, _, _, rfl⟩

theorem reply_outside (s : State) (a : Access) (r : Reply) : s.Outside (s.reply a r) :=
  ⟨_, _, _, _, _, _, _, _, _, _, rfl⟩

theorem busRead_outside (s : State) (off : Offset) (size : Nat) : s.Outside (s.busRead off size) := by
  obtain ⟨r, d, h⟩ := busRead_cases s off size
  rw [h]
  exact ⟨_, _, _, _, _, _, _, _, _, _, rfl⟩

theorem waitPoll_outside (s : State) : s.Outside s.waitPoll := by
  refine (busRead_outside s 0x008#16 4).trans ?_
  unfold State.waitPoll
  simp only
  split
  · exact ⟨_, _, _, _, _, _, _, _, _, _, rfl⟩
  · exact .refl _

/-- Everything an action of the outside world can come to: it is over, or lets the engine go on, in a state that differs
only in what is outside; a command word is to be issued to an idle HCE; or the reset input changes (00_scope.md rule
R13). -/
theorem handle_cases (s : State) (e : Event) :
    (∃ t, s.Outside t ∧ (s.handle e = .over t ∨ s.handle e = .go t)) ∨
    (∃ c t, s.busy = false ∧ s.Outside t ∧ s.handle e = .issue c t) ∨
    ∃ a, s.handle e = .over (s.driveReset a) := by
  have differs : ∀ {t : State}, s.Outside t → (s.handle e = .over t ∨ s.handle e = .go t) →
      ∃ t, s.Outside t ∧ (s.handle e = .over t ∨ s.handle e = .go t) := fun h h' => ⟨_, h, h'⟩
  cases e with
  | busRead off size => exact .inl (differs (busRead_outside s off size) (.inl rfl))
  | busWrite off size v =>
    rcases busWrite_cases s off size v with ⟨o, a, r, h⟩ | ⟨hb, h⟩
    · exact .inl (differs ⟨_, _, _, _, _, _, _, _, _, _, rfl⟩ (.inl h))
    · exact .inr (.inl ⟨v, _, hb, reply_outside s _ _, h⟩)
  | wait => exact .inl (differs (waitPoll_outside s) (.inl rfl))
  | place ts => exact .inl (differs ⟨_, _, _, _, _, _, _, _, _, _, rfl⟩ (.inr rfl))
  | discard n => exact .inl (differs ⟨_, _, _, _, _, _, _, _, _, _, rfl⟩ (.inl rfl))
  | answers as => exact .inl (differs ⟨_, _, _, _, _, _, _, _, _, _, rfl⟩ (.inr rfl))
  | sinkRest r => exact .inl (differs ⟨_, _, _, _, _, _, _, _, _, _, rfl⟩ (.inr rfl))
  | reset a => exact .inr (.inr ⟨a, rfl⟩)
  | stall on => exact .inl (differs ⟨_, _, _, _, _, _, _, _, _, _, rfl⟩ (.inr rfl))

/-- Everything a step can do: from a state that differs from `s` only in what is outside, it is over, goes on with the
running command, or issues a word to an idle HCE; or the reset input changes. -/
theorem step_cases (s : State) :
    (∃ t, s.Outside t ∧ (step s = .next t ∨ step s = t.turn (resume t))) ∨
    (∃ c t, s.busy = false ∧ s.Outside t ∧ step s = (Action.issue c t).run) ∨
    ∃ u a, s.Outside u ∧ step s = .next (u.driveReset a) := by
  unfold step
  cases hs : s.events with
  | nil => exact .inl ⟨s, .refl s, .inl rfl⟩
  | cons e es =>
    have h0 : s.Outside { s with events := es } := ⟨_, _, _, _, _, _, _, _, _, _, rfl⟩
    rcases handle_cases { s with events := es } e with ⟨t, ht, h | h⟩ | ⟨c, t, hb, ht, h⟩ | ⟨a, h⟩ <;>
      simp only [h]
    · exact .inl ⟨t, h0.trans ht, .inl rfl⟩
    · exact .inl ⟨t, h0.trans ht, .inr rfl⟩
    · exact .inr (.inl ⟨c, t, hb, h0.trans ht, rfl⟩)
    · exact .inr (.inr ⟨_, a, h0, rfl⟩)

/-! ## The invariant -/

/-- Whatever a turn comes to, recording the popped tokens keeps the invariant. -/
theorem turn_inv {s : State} {o : Host.Outcome State Fault Refusal} (h : ∃ t, o = .next t ∧ t.Inv) :
    ∃ t, s.turn o = .next t ∧ t.Inv := by
  obtain ⟨t, rfl, ht⟩ := h
  exact ⟨_, rfl, (recordPops_outside s t).inv ht⟩

/-- With no command running, no read holds: R_BUF is 0..7 (41_bitstream.md rule R91). -/
theorem State.Inv.rBuf_idle {s : State} (h : s.Inv) (hb : s.busy = false) : s.reader.buf.length < 8 := by
  have hr := h.rBuf
  rw [(h.idle hb).2.1] at hr
  exact hr.elim id fun h0 => absurd h0 (Nat.not_lt_zero _)

/-- A rejected word keeps the invariant: it is a termination with no stream to abort (60_exceptions.md rule R161). -/
theorem rejectWord_inv {s : State} (h : s.Inv) (hb : s.busy = false) (c : Word) : (s.rejectWord c).Inv :=
  terminate_inv (s := s.beginIssue c) (h.toShape.rest _ rfl rfl rfl rfl rfl rfl rfl rfl) (h.rBuf_idle hb) _
    (fun hh => absurd (hb.symm.trans hh) Bool.false_ne_true) fun hh => absurd hh Bool.false_ne_true

/-- Issuing a word to an idle HCE keeps the invariant, whether the word is accepted or rejected (30_encoding.md rule
R78). -/
theorem issue_inv {s : State} (h : s.Inv) (hb : s.busy = false) (c : Word) :
    ∃ t, (Action.issue c s).run = .next t ∧ t.Inv := by
  simp only [Action.run]
  split
  · refine turn_inv (exec_inv _ (s := s.acceptWord c) ?_ rfl rfl rfl (h.rBuf_idle hb))
    exact h.toShape.rest _ rfl rfl rfl rfl rfl rfl rfl rfl
  · exact ⟨_, rfl, rejectWord_inv h hb c⟩

/-- The reset values meet the invariant, whatever the parameters, as long as the two selectors differ (00_scope.md rule
R7, 10_state.md rule R49). -/
theorem inv_of_reset {s : State} (h : s.cfg.selCounts ≠ s.cfg.selTree) : s.toReset.Inv where
  selectors := h
  closedEmpty _ := rfl
  wPend := Nat.zero_lt_succ 7
  exhaustedEmpty _ := rfl
  planTables hh := absurd hh Bool.false_ne_true
  tree hh := absurd hh Bool.false_ne_true
  codes hh := absurd hh Bool.false_ne_true
  noCodes _ y := Vector.getElem_replicate y.isLt
  writer := rfl
  tables := rfl
  rBuf := .inl (Nat.zero_lt_succ 7)
  idle _ := ⟨rfl, rfl, rfl⟩
  running hh := absurd hh Bool.false_ne_true

theorem withdraw_cfg (s : State) : s.withdraw.cfg = s.cfg := by
  unfold State.withdraw
  split <;> rfl

theorem driveReset_cfg (s : State) (a : Bool) : (s.driveReset a).cfg = s.cfg := by
  unfold State.driveReset
  split
  · exact withdraw_cfg s
  · rfl

theorem driveReset_inv {s : State} (h : s.cfg.selCounts ≠ s.cfg.selTree) (a : Bool) : (s.driveReset a).Inv := by
  unfold State.driveReset
  split
  · exact (inv_of_reset (s := s.withdraw) (by rwa [withdraw_cfg])).rest _ rfl rfl rfl rfl rfl rfl rfl rfl rfl rfl rfl rfl
      rfl rfl rfl
  · exact (inv_of_reset h).rest _ rfl rfl rfl rfl rfl rfl rfl rfl rfl rfl rfl rfl rfl rfl rfl

/-- In the invariant every step gives a next state, in the invariant again. -/
theorem step_inv {s : State} (h : s.Inv) : ∃ t, step s = .next t ∧ t.Inv := by
  rcases step_cases s with ⟨t, ht, hs | hs⟩ | ⟨c, t, hb, ht, hs⟩ | ⟨u, a, hu, hs⟩ <;> rw [hs]
  · exact ⟨t, rfl, ht.inv h⟩
  · exact turn_inv (resume_inv (ht.inv h))
  · exact issue_inv (ht.inv h) (ht.busy.trans hb) c
  · exact ⟨_, rfl, driveReset_inv (hu.inv h).selectors a⟩

/-- Settles O56: a step is an action from outside, a turn of the engine, an issued word or a reset, and each keeps the
invariant. -/
theorem stepKeepsInv : Obligations.StepKeepsInv := by
  intro s t h ht
  obtain ⟨u, hu, hi⟩ := step_inv h
  obtain rfl : u = t := Host.Outcome.next.inj (hu.symm.trans ht)
  exact hi

/-- Settles O55: the state right after reset holds the reset values, and its two selectors differ. -/
theorem resetInv : Obligations.ResetInv := inv_of_reset (s := State.reset) (by decide)

end Sys2Proof.Machine
end

section
/-! The register space as the host sees it: the map, the fields of STATUS, the host view of a code, the constants, CMD
while a command runs and ARG (10_state.md rules R20 to R32, R40, R42, R49). -/

namespace Sys2Proof.Machine

/-! ## Reads -/

/-- Every register's offset is a multiple of 4 (10_state.md rule R20). -/
theorem accessDefined_offset {r : Reg} {off : Offset} (h : r.offset = some off) : accessDefined off 4 = true := by
  cases r
  case freq y =>
    cases h
    rw [show 0x1000 + 4 * y.val = 4 * (0x400 + y.val) by omega]
    exact accessDefined_word _
  case codeLen y =>
    cases h
    rw [show 0x2000 + 4 * y.val = 4 * (0x800 + y.val) by omega]
    exact accessDefined_word _
  case codeBits y w =>
    cases h
    rw [show 0x4000 + 32 * y.val + 4 * w.val = 4 * (0x1000 + 8 * y.val + w.val) by omega]
    exact accessDefined_word _
  case node i k =>
    cases h
    rw [show 0x8000 + 16 * i.val + 4 * k.val = 4 * (0x2000 + 4 * i.val + k.val) by omega]
    exact accessDefined_word _
  case reserved => cases h
  all_goals (cases h; rfl)

/-- Taking the next action off the list changes no register. -/
theorem reg_events (s : State) (es : List Event) (r : Reg) : { s with events := es }.reg r = s.reg r := by
  cases r <;> rfl

/-- With no command running the host reads a register at its offset (20_memory.md rules R51, R53). -/
theorem reads_idle {s : State} (hb : s.busy = false) (hr : s.inReset = false) {r : Reg} {off : Offset}
    (h : r.offset = some off) : s.Reads off (s.reg r) := by
  intro es
  have hread := busRead_idle (s := { s with events := es }) hb hr (accessDefined_offset h)
  rw [regAt_offset h, reg_events] at hread
  exact congrArg Host.Outcome.next hread

/-- A register that no command changes reads the same while one runs (rule R61). -/
theorem reads_definite {s : State} (hr : s.inReset = false) {r : Reg} {off : Offset} (h : r.offset = some off)
    (hs : r ≠ .status) (hf : r.freeWhileBusy = false) : s.Reads off (s.reg r) := by
  intro es
  have hread := busRead_definite (s := { s with events := es }) hr (accessDefined_offset h)
    (by rwa [regAt_offset h]) (by rwa [regAt_offset h])
  rw [regAt_offset h, reg_events] at hread
  exact congrArg Host.Outcome.next hread

/-- A reserved offset reads 0, whether a command runs or not (20_memory.md rule R53). -/
theorem reads_reserved {s : State} (hr : s.inReset = false) {n : Nat} (h : reservedWord n = true) :
    s.Reads (BitVec.ofNat 16 (4 * n)) 0#32 := by
  obtain ⟨hn, hreg⟩ := regAtWord_reserved h
  intro es
  have hread := busRead_definite (s := { s with events := es }) hr (accessDefined_word n)
    (by rw [regAt_word hn, hreg]; decide) (by rw [regAt_word hn, hreg]; rfl)
  rw [regAt_word hn, hreg] at hread
  exact congrArg Host.Outcome.next hread

/-! ## Writes -/

/-- Every offset but those of CMD and ARG ignores a write (20_memory.md rule R53). -/
theorem ignores_readOnly {s : State} (hr : s.inReset = false) {n : Nat} (h : n < 0x4000) (h1 : n ≠ 1) (h3 : n ≠ 3) :
    s.Ignores (BitVec.ofNat 16 (4 * n)) := fun es v =>
  congrArg Action.run (busWrite_ignored (s := { s with events := es }) hr h h1 h3 v)

/-- A write to ARG stores the value, whether a command runs or not (10_state.md rule R32). -/
theorem busWrite_arg {s : State} (hr : s.inReset = false) (v : Word) :
    s.busWrite 0x00C#16 4 v = .over ({ s with arg := v }.reply (.write 0x00C#16 4 v) .written) := by
  simp [State.busWrite, hr, accessDefined, regAt_offset (r := .arg) (off := 0x00C#16) rfl]

theorem step_arg {s : State} (hr : s.inReset = false) (es : List Event) (v : Word) :
    step { s with events := .busWrite 0x00C#16 4 v :: es } =
      .next { s with events := es, accesses := s.accesses ++ [(.write 0x00C#16 4 v, .written)], arg := v } :=
  congrArg Action.run (busWrite_arg (s := { s with events := es }) hr v)

/-- A write to CMD while a command runs sets OVR (10_state.md rules R22, R26). -/
theorem busWrite_cmd_busy {s : State} (hb : s.busy = true) (hr : s.inReset = false) (w : Word) :
    s.busWrite 0x004#16 4 w = .over ({ s with ovr := true }.reply (.write 0x004#16 4 w) .written) := by
  simp [State.busWrite, hb, hr, accessDefined, regAt_offset (r := .cmd) (off := 0x004#16) rfl]

theorem step_cmd_busy {s : State} (hb : s.busy = true) (hr : s.inReset = false) (es : List Event) (w : Word) :
    step { s with events := .busWrite 0x004#16 4 w :: es } =
      .next { s with events := es, accesses := s.accesses ++ [(.write 0x004#16 4 w, .written)], ovr := true } :=
  congrArg Action.run (busWrite_cmd_busy (s := { s with events := es }) hb hr w)

/-- A turn changes nothing that its outcome has, but the record of popped tokens. -/
theorem turn_eq_next {s t : State} {o : Host.Outcome State Fault Refusal} (h : s.turn o = .next t) :
    ∃ u, o = .next u ∧ t = s.recordPops u := by
  cases o with
  | next u => exact ⟨u, rfl, (Host.Outcome.next.inj h).symm⟩
  | fault f => cases h
  | refused r => cases h

/-- A word that is handled, legal or not, leaves OVR clear (30_encoding.md rule R78) and the parameters as they are. -/
theorem issue_ovr_cfg {s t : State} {c : Word} (h : (Action.issue c s).run = .next t) :
    t.ovr = false ∧ t.cfg = s.cfg := by
  simp only [Action.run] at h
  split at h
  · obtain ⟨u, hu, rfl⟩ := turn_eq_next h
    exact ⟨(exec_keepsHost hu).ovr, (exec_keepsHost hu).cfg⟩
  · cases h
    have hk := terminate_keepsHost (s.beginIssue c) .illegalCommand
    exact ⟨hk.ovr, hk.cfg⟩

/-- Settles O7: a running command keeps the word of the write from being issued; an idle HCE clears OVR before it
decodes the word, and no command sets it. -/
theorem commandWhileBusy : Obligations.CommandWhileBusy := by
  refine ⟨fun s es w hb hr => step_cmd_busy hb hr es w, fun s t es w hb hr h => ?_⟩
  rw [step_cmd_idle hb hr] at h
  exact (issue_ovr_cfg h).1

/-- The host's ARG does not reach a running command (10_state.md rule R32). -/
theorem resume_arg {s t : State} (h : resume s = .next t) (v : Word) :
    resume { s with arg := v } = .next { t with arg := v } := by
  unfold resume at h ⊢
  simp only
  split at h
  · rw [if_pos ‹_›]
    exact settle_aside h v s.work
  · rw [if_neg ‹_›]
    cases h
    rfl

/-- Settles O8: ARG takes the host's write in every state, acceptance copies it, no turn writes it, and a running command
does not see it. -/
theorem argRegister : Obligations.ArgRegister :=
  ⟨fun _ es v hr => step_arg hr es v, fun _ _ => rfl, fun _ _ _ h => (exec_keepsHost h).arg,
    fun _ _ h => (resume_keepsHost h).arg, rfl, fun _ _ v h => resume_arg h v⟩

/-! ## The register map -/

/-- What a node in use reads (10_state.md rule R43). -/
theorem reg_node {s : State} {i : NodeIx} (h : i.val < s.store.count.val) (k : Fin 4) :
    s.reg (.node i k) = (s.store.node i).word k := if_pos h

/-- A node past NODE_COUNT reads 0 (rule R43). -/
theorem reg_node_unused {s : State} {i : NodeIx} (h : s.store.count.val ≤ i.val) (k : Fin 4) :
    s.reg (.node i k) = 0#32 := if_neg (Nat.not_lt.2 h)

/-- Word 0 of a node: KIND and the symbol of a leaf, all 0 for an internal node (rule R43). -/
theorem word_kind (n : Node) :
    n.word 0 = if n.leaf then 1#1 ++ 0#22 ++ BitVec.ofNat 9 n.sym.val else 0#32 := by
  cases h : n.leaf
  · simp [Node.word, h]
  · simp [Node.word, h]

/-- Word 3 of a node: the children of an internal node, 0 for a leaf (rule R43). -/
theorem word_children (n : Node) :
    n.word 3 = if n.leaf then 0#32 else BitVec.ofNat 32 (n.right.val * 2 ^ 16 + n.left.val) := by
  rw [← pair_word n.right.val n.left.val (by omega) (by omega)]
  rfl

/-- The word of NODES (rule R39). -/
theorem nodesWord_eq (st : NodeStore) : st.nodesWord = BitVec.ofNat 32 (st.root.val * 2 ^ 16 + st.count.val) :=
  pair_word _ _ (by omega) (by omega)

/-- Settles O10: each register is read at its offset, the reserved offsets read 0, and CMD and ARG alone take a write. -/
theorem registerMap : Obligations.RegisterMap := by
  intro s hb hr
  have reads : ∀ (r : Reg) {off : Offset} {v : Word}, r.offset = some off → s.reg r = v → s.Reads off v :=
    fun r _ _ ho hv => hv ▸ reads_idle hb hr ho
  refine ⟨reads .id rfl rfl, reads .cmd rfl rfl, reads .status rfl rfl, reads .arg rfl rfl, reads .resultLo rfl rfl,
    reads .resultHi rfl rfl, reads .wbitsLo rfl rfl, reads .wbitsHi rfl rfl, reads .rbitsLo rfl rfl,
    reads .rbitsHi rfl rfl, reads .origLo rfl rfl, reads .origHi rfl rfl, reads .bodyLo rfl rfl, reads .bodyHi rfl rfl,
    reads .savedLo rfl rfl, reads .savedHi rfl rfl, reads .nodes rfl (nodesWord_eq _), reads .cfgMagic rfl rfl,
    reads .cfgSelCounts rfl rfl, reads .cfgSelTree rfl rfl, ?freq, reads (.freq 256) rfl rfl, ?codeLen, ?codeBits, ?node,
    ?unused, ?reserved, ?readOnly, fun es v => step_arg hr es v⟩
  case freq => exact fun b => reads (.freq (symbolOfByte b)) rfl (freqAt_byte s b)
  case codeLen => exact fun y => reads (.codeLen y) rfl rfl
  case codeBits => exact fun y w => reads (.codeBits y w) rfl rfl
  case node =>
    intro i hi
    exact ⟨reads (.node i 0) rfl ((reg_node hi 0).trans (word_kind _)), reads (.node i 1) rfl (reg_node hi 1),
      reads (.node i 2) rfl (reg_node hi 2), reads (.node i 3) rfl ((reg_node hi 3).trans (word_children _))⟩
  case unused => exact fun i hi k => reads (.node i k) rfl (reg_node_unused hi k)
  case reserved => exact fun n hn => reads_reserved hr hn
  case readOnly => exact fun n hn h1 h3 => ignores_readOnly hr hn h1 h3

/-! ## STATUS -/

/-- Settles O11: STATUS is its fields one after the other, bit 31 first, so each is the extract of one of them. -/
theorem statusFields : Obligations.StatusFields := by
  refine ⟨fun s => ?_, by decide, fun s hr => ignores_readOnly (n := 2) hr (by decide) (by decide) (by decide)⟩
  have hfmt : BitVec.ofBool (fmtBit s.planFmt) = (match s.planFmt with | .counts => 0#1 | .tree => 1#1) := by
    cases s.planFmt <;> rfl
  unfold State.statusWord State.wPend State.rBuf
  refine ⟨?_, ?_, ?_, ?_, ?_, ?_, .trans ?_ hfmt, ?_, ?_, ?_, ?_, ?_, ?_, ?top⟩
  case top =>
    repeat rw [BitVec.extractLsb'_append_eq_of_le (by decide)]
    exact BitVec.extractLsb'_eq_self
  all_goals
    repeat rw [BitVec.extractLsb'_append_eq_of_le (by decide)]
    exact BitVec.extractLsb'_append_eq_right

/-! ## The host view of a code -/

theorem binN_getD {n i : Nat} (h : i < n) (v : Nat) : (binN n v).getD i false = v.testBit (n - 1 - i) := by
  induction n generalizing i with
  | zero => exact absurd h (Nat.not_lt_zero i)
  | succ n ih =>
    cases i with
    | zero => rfl
    | succ i =>
      rw [binN, List.getD_cons_succ, ih (Nat.lt_of_succ_lt_succ h)]
      congr 1
      omega

/-- Position `i` of a bit string is bit `i` from the top of its value (00_scope.md rule R10). -/
theorem testBit_valueOf {bs : Bits} {i : Nat} (h : i < bs.length) :
    (valueOf bs).testBit (bs.length - 1 - i) = bs.getD i false := by
  rw [← binN_getD h, binN_valueOf]

/-- Filling a bit string up with 0 bits changes no position. -/
theorem padTo_getD (n i : Nat) (bs : Bits) : (padTo n bs).getD i false = bs.getD i false := by
  unfold padTo
  by_cases h : i < bs.length
  · rw [List.getD_append _ _ _ _ h]
  · rw [List.getD_append_right _ _ _ _ (Nat.le_of_not_lt h), List.getD_eq_default bs _ (Nat.le_of_not_lt h)]
    simp only [List.getD_eq_getElem?_getD, List.getElem?_replicate]
    split <;> rfl

/-- Position `i` of word `w` is position `32 w + i` of the code. -/
theorem chunk_getD {i : Nat} (h : i < 32) (w : Nat) (bs : Bits) :
    ((bs.drop (32 * w)).take 32).getD i false = bs.getD (32 * w + i) false := by
  simp [List.getD_eq_getElem?_getD, h]

/-- Settles O12: word `k / 32` is the value of the code's positions from `32 * (k / 32)` on, filled up to 32. -/
theorem codeBitsView : Obligations.CodeBitsView := by
  intro bits k _
  have hk : k % 32 < 32 := Nat.mod_lt k (by decide)
  have hlen : (padTo 32 ((bits.drop (32 * (k / 32))).take 32)).length = 32 := by simp
  calc (codeWord bits (k / 32)).getLsbD (31 - k % 32)
      = (valueOf (padTo 32 ((bits.drop (32 * (k / 32))).take 32))).testBit (31 - k % 32) := by
        rw [codeWord, BitVec.getLsbD_ofNat, decide_eq_true (by omega), Bool.true_and]
    _ = (padTo 32 ((bits.drop (32 * (k / 32))).take 32)).getD (k % 32) false := by
        rw [← testBit_valueOf (by omega), hlen]
    _ = bits.getD k false := by rw [padTo_getD, chunk_getD hk, Nat.div_add_mod]

/-! ## The constants and the frame -/

/-- No step changes a parameter (00_scope.md rule R7, 70_reset_and_hazards.md rule R175). -/
theorem step_cfg {s t : State} (h : step s = .next t) : t.cfg = s.cfg := by
  rcases step_cases s with ⟨u, hu, hs | hs⟩ | ⟨c, u, _, hu, hs⟩ | ⟨u, a, hu, hs⟩ <;> rw [hs] at h
  · cases h
    exact hu.cfg
  · obtain ⟨v, hv, rfl⟩ := turn_eq_next h
    exact (resume_keepsHost hv).cfg.trans hu.cfg
  · exact (issue_ovr_cfg h).2.trans hu.cfg
  · cases h
    exact (driveReset_cfg u a).trans hu.cfg

/-- Settles O14: the four registers hold what no command changes, and a step keeps the parameters. -/
theorem idAndParameters : Obligations.IdAndParameters := by
  refine ⟨fun s hr => ?_, fun s t => step_cfg⟩
  have reads : ∀ (r : Reg) {off : Offset}, r.offset = some off → r ≠ .status → r.freeWhileBusy = false →
      s.Reads off (s.reg r) := fun _ _ => reads_definite hr
  exact ⟨reads .id rfl (by decide) rfl, reads .cfgMagic rfl (by decide) rfl, reads .cfgSelCounts rfl (by decide) rfl,
    reads .cfgSelTree rfl (by decide) rfl⟩

/-- Settles O18: none of these four actions lets the engine go on, and each changes what is outside alone. -/
theorem holdIsKept : Obligations.HoldIsKept := by
  refine ⟨?_, fun s h => by unfold step; rw [h]⟩
  rintro s t e es hb (⟨off, size, rfl⟩ | ⟨off, size, v, rfl⟩ | rfl | ⟨n, rfl⟩) h <;> rw [step_cons] at h
  · obtain ⟨r, d, hr⟩ := busRead_cases { s with events := es } off size
    simp only [State.handle, hr] at h
    cases h
    exact ⟨_, _, _, _, _, _, rfl, fun _ => rfl⟩
  · rcases busWrite_cases { s with events := es } off size v with ⟨o, a, r, hw⟩ | ⟨hi, _⟩
    · simp only [State.handle, hw] at h
      cases h
      exact ⟨_, _, _, _, _, _, rfl, fun _ => rfl⟩
    · exact absurd (hb.symm.trans hi) Bool.true_eq_false.mp
  · obtain ⟨r, d, hr⟩ := busRead_cases { s with events := es } 0x008#16 4
    simp only [State.handle, State.waitPoll, hr] at h
    split at h <;>
    · cases h
      exact ⟨_, _, _, _, _, _, rfl, fun _ => rfl⟩
  · cases h
    exact ⟨_, _, _, _, _, _, rfl, fun hn => absurd rfl (hn n)⟩

/-- Settles O52: the frame of a whole turn on the host's side. -/
theorem hostFrame : Obligations.HostFrame := by
  intro s t h
  have hk : KeepsHost s t := h.elim (fun ⟨_, h⟩ => exec_keepsHost h) resume_keepsHost
  exact ⟨hk.cfg, hk.cmdLast, hk.ovr, hk.arg, hk.lcmd, hk.larg, hk.inReset, hk.events, hk.accesses, hk.popped, hk.stalled⟩

/-- Settles O22: the reset state field by field; the tables are cleared at every index. -/
theorem resetValues : Obligations.ResetValues := by
  refine ⟨rfl, rfl, rfl, rfl, rfl, rfl, rfl, rfl, rfl, rfl, rfl, rfl, rfl, rfl, rfl, rfl, rfl, rfl,
    NodeStore.empty_node, fun b => ?_, rfl, fun y => Vector.getElem_replicate y.isLt, rfl, rfl, rfl, rfl, rfl, rfl, rfl,
    rfl⟩
  rw [freqAt_byte]
  exact Vector.getElem_replicate b.isLt

end Sys2Proof.Machine
end

section
/-! What each step of a command writes of the plan, the tables and the counters, and from it which commands make, end and
keep the plan and which write the counters, over every turn (10_state.md rules R28, R36 to R38, 46_compressor.md rule
R142, 70_reset_and_hazards.md rule R187). -/

namespace Sys2Proof.Machine

/-! ## What a step writes -/

/-- The steps that write ORIG_BITS (42_frequency.md rule R107). -/
def Work.counts : Work → Bool
  | .count _ => true
  | _ => false

/-- The steps that write BODY_BITS (44_codetable.md rule R126). -/
def Work.generates : Work → Bool
  | .genCodes | .plan _ => true
  | _ => false

/-- The step that makes a plan (46_compressor.md rule R141). -/
def Work.plans : Work → Bool
  | .plan _ => true
  | _ => false

/-- The steps that write FREQ, the tree, the codes or the plan. -/
def Work.rebuilds : Work → Bool
  | .clearCodes | .clearTree | .clearAll | .count _ | .build | .genCodes | .plan _ => true
  | w => w.ofHeader

/-- The plan, its tables and the counters are as they were. -/
structure SameTables (s t : State) : Prop where
  planValid  : t.planValid = s.planValid
  planFmt    : t.planFmt = s.planFmt
  planSaved  : t.planSaved = s.planSaved
  freq       : t.freq = s.freq
  store      : t.store = s.store
  codes      : t.codes = s.codes
  treeValid  : t.treeValid = s.treeValid
  codesValid : t.codesValid = s.codesValid
  origBits   : t.origBits = s.origBits
  bodyBits   : t.bodyBits = s.bodyBits

theorem SameTables.refl (s : State) : SameTables s s := ⟨rfl, rfl, rfl, rfl, rfl, rfl, rfl, rfl, rfl, rfl⟩

theorem SameTables.trans {a b c : State} (h : SameTables a b) (h' : SameTables b c) : SameTables a c :=
  ⟨h'.planValid.trans h.planValid, h'.planFmt.trans h.planFmt, h'.planSaved.trans h.planSaved, h'.freq.trans h.freq,
    h'.store.trans h.store, h'.codes.trans h.codes, h'.treeValid.trans h.treeValid, h'.codesValid.trans h.codesValid,
    h'.origBits.trans h.origBits, h'.bodyBits.trans h.bodyBits⟩

theorem WriterOnly.sameTables {s t : State} (h : WriterOnly s t) : SameTables s t := by
  obtain ⟨_, _, _, rfl⟩ := h
  exact ⟨rfl, rfl, rfl, rfl, rfl, rfl, rfl, rfl, rfl, rfl⟩

theorem ReaderOnly.sameTables {s t : State} (h : ReaderOnly s t) : SameTables s t := by
  obtain ⟨_, _, _, rfl⟩ := h
  exact ⟨rfl, rfl, rfl, rfl, rfl, rfl, rfl, rfl, rfl, rfl⟩

theorem EncodeOnly.sameTables {s t : State} (h : EncodeOnly s t) : SameTables s t := by
  obtain ⟨_, _, _, _, rfl⟩ := h
  exact ⟨rfl, rfl, rfl, rfl, rfl, rfl, rfl, rfl, rfl, rfl⟩

theorem DecodeOnly.sameTables {s t : State} (h : DecodeOnly s t) : SameTables s t := by
  obtain ⟨_, _, _, _, _, _, rfl⟩ := h
  exact ⟨rfl, rfl, rfl, rfl, rfl, rfl, rfl, rfl, rfl, rfl⟩

theorem State.Outside.sameTables {s t : State} (h : s.Outside t) : SameTables s t := by
  obtain ⟨_, _, _, _, _, _, _, _, _, _, rfl⟩ := h
  exact ⟨rfl, rfl, rfl, rfl, rfl, rfl, rfl, rfl, rfl, rfl⟩

/-- A termination writes no table, no counter and nothing of the plan (60_exceptions.md rule R160). -/
theorem terminate_sameTables (s : State) (e : ErrCode) : SameTables s (s.terminate e) := by
  rcases terminate_cases s e with ⟨_, he⟩ | ⟨_, _, _, _, he⟩ | ⟨_, _, _, he⟩ <;> rw [he] <;>
    exact ⟨rfl, rfl, rfl, rfl, rfl, rfl, rfl, rfl, rfl, rfl⟩

/-- PLAN_SAVED and PLAN_FMT are as they were, and no plan was made. -/
structure MakesNoPlan (s t : State) : Prop where
  planSaved : t.planSaved = s.planSaved
  planFmt   : t.planFmt = s.planFmt
  planValid : s.planValid = false → t.planValid = false

theorem SameTables.makesNoPlan {s t : State} (h : SameTables s t) : MakesNoPlan s t :=
  ⟨h.planSaved, h.planFmt, fun hp => h.planValid.trans hp⟩

theorem MakesNoPlan.trans {a b c : State} (h : MakesNoPlan a b) (h' : MakesNoPlan b c) : MakesNoPlan a c :=
  ⟨h'.planSaved.trans h.planSaved, h'.planFmt.trans h.planFmt, fun hp => h'.planValid (h.planValid hp)⟩

theorem begun_makesNoPlan (s : State) (p : Phase) : MakesNoPlan s (s.begun p) := ⟨rfl, rfl, id⟩

/-- What a step can write of the plan, the tables and the counters, by the kind of the step. -/
structure WritesByKind (w : Work) (s t : State) : Prop where
  orig   : w.counts = false → t.origBits = s.origBits
  body   : w.generates = false → t.bodyBits = s.bodyBits
  plan   : w.plans = false → MakesNoPlan s t
  tables : w.rebuilds = false → SameTables s t

theorem SameTables.writesByKind {s t : State} (h : SameTables s t) (w : Work) : WritesByKind w s t :=
  ⟨fun _ => h.origBits, fun _ => h.bodyBits, fun _ => h.makesNoPlan, fun _ => h⟩

/-- Reading a header rebuilds FREQ and the tree alone (45_header.md rules R134 to R136). -/
theorem HeaderOnly.writesByKind {s t : State} (h : HeaderOnly s t) {w : Work} (hw : w.rebuilds = true) :
    WritesByKind w s t := by
  obtain ⟨_, _, _, _, _, _, _, _, _, _, _, rfl, _⟩ := h
  exact ⟨fun _ => rfl, fun _ => rfl, fun _ => ⟨rfl, rfl, id⟩, fun hf => absurd (hw.symm.trans hf) Bool.true_eq_false.mp⟩

/-- The kinds of the steps cover everything a step writes of the plan, the tables and the counters. -/
theorem runWork_writes (w : Work) (s : State) : (runWork w s).All (WritesByKind w s) := by
  have same : ∀ {t : State}, SameTables s t → WritesByKind w s t := fun h => h.writesByKind w
  have kept : SameTables s s := .refl s
  have moved : ∀ p, SameTables s { s with phase := p } := fun _ => ⟨rfl, rfl, rfl, rfl, rfl, rfl, rfl, rfl, rfl, rfl⟩
  have needs : ∀ b, (need b s).All (WritesByKind w s) := by
    intro b; unfold need; split <;> exact same kept
  cases w with
  | bitio | rReset | openStream | markW | markR | decodeStart | rewind | result =>
    exact same ⟨rfl, rfl, rfl, rfl, rfl, rfl, rfl, rfl, rfl, rfl⟩
  | clearCodes | clearTree | clearAll =>
    exact ⟨fun _ => rfl, fun _ => rfl, fun _ => ⟨rfl, rfl, fun _ => rfl⟩, fun h => absurd h Bool.true_eq_false.mp⟩
  | ensureOpen =>
    show WritesByKind _ s s.ensureOpen
    unfold State.ensureOpen
    split
    · exact same ⟨rfl, rfl, rfl, rfl, rfl, rfl, rfl, rfl, rfl, rfl⟩
    · exact same kept
  | closeStream => exact (closeStream_footprint s).mono fun _ h => same h.sameTables
  | offer b => exact (offerByte_footprint b s).mono fun _ h => same h.sameTables
  | offerEnd => exact (offerEnd_footprint s).mono fun _ h => same h.sameTables
  | abort e =>
    show (resumeAbort e s).All _
    unfold resumeAbort
    rcases push_cases s .abort with ⟨a, _, hs⟩ | ⟨_, hs⟩ <;> rw [hs]
    · exact same ⟨rfl, rfl, rfl, rfl, rfl, rfl, rfl, rfl, rfl, rfl⟩
    · exact same kept
  | emit bits => exact (emit_footprint _ s).mono fun _ h => same h.sameTables
  | writeField width => exact (emit_footprint _ s).mono fun _ h => same h.sameTables
  | readField width =>
    have result : ∀ {t : State} (v : Int), SameTables s t → SameTables s (t.setResult v) := fun _ h =>
      h.trans ⟨rfl, rfl, rfl, rfl, rfl, rfl, rfl, rfl, rfl, rfl⟩
    exact ReadResult.andThen_all (readBits_footprint s _) (fun _ h => same h.sameTables)
      (fun _ h => same (result _ h.sameTables)) fun _ _ _ h => same (result _ h.sameTables)
  | count n =>
    exact (countLoop_footprint _ n _).mono fun t h => by
      obtain ⟨_, _, _, rfl⟩ := h
      exact ⟨fun h => absurd h Bool.true_eq_false.mp, fun _ => rfl, fun _ => ⟨rfl, rfl, id⟩,
        fun h => absurd h Bool.true_eq_false.mp⟩
  | build =>
    exact ⟨fun _ => rfl, fun _ => rfl, fun _ => ⟨rfl, rfl, id⟩, fun h => absurd h Bool.true_eq_false.mp⟩
  | needTree => exact needs _
  | genCodes =>
    show (genCodes s).All _
    rcases genCodes_cases s with ⟨cs, b, _, he⟩ | ⟨_, he⟩ <;> rw [he]
    · exact ⟨fun _ => rfl, fun h => absurd h Bool.true_eq_false.mp, fun _ => ⟨rfl, rfl, id⟩,
        fun h => absurd h Bool.true_eq_false.mp⟩
    · trivial
  | plan fmt =>
    show (planStream fmt s).All _
    unfold planStream
    rcases genCodes_cases s.buildTree with ⟨cs, b, _, he⟩ | ⟨_, he⟩ <;> rw [he]
    · exact ⟨fun _ => rfl, fun h => absurd h Bool.true_eq_false.mp, fun h => absurd h Bool.true_eq_false.mp,
        fun h => absurd h Bool.true_eq_false.mp⟩
    · trivial
  | needPlan => exact needs _
  | gate force =>
    show (gate force s).All _
    unfold gate
    split
    · exact same ⟨rfl, rfl, rfl, rfl, rfl, rfl, rfl, rfl, rfl, rfl⟩
    · exact same kept
  | headerWrite =>
    show (headerWrite s.planFmt s).All _
    unfold headerWrite
    split
    · trivial
    · exact (emit_footprint _ _).mono fun _ h =>
        same ((moved _).trans h.sameTables)
  | encodeBody =>
    exact (encodeLoop_footprint _ _).mono fun _ h =>
      same ((moved _).trans h.sameTables)
  | magic => exact (readMagic_footprint s).mono fun _ h => h.writesByKind rfl
  | selector => exact (readSelector_footprint s).mono fun _ h => h.writesByKind rfl
  | countFields left => exact (countFields_footprint _ s).mono fun _ h => h.writesByKind rfl
  | treeLen => exact (treeHeader_footprint s).mono fun _ h => h.writesByKind rfl
  | treeNode => exact (treeFrom_footprint s).mono fun _ h => h.writesByKind rfl
  | treeSym i => exact (treeSymFrom_footprint i s).mono fun _ h => h.writesByKind rfl
  | treeSpare => exact (spareLoop_footprint _ s).mono fun _ h => h.writesByKind rfl
  | decodeBody => exact (decodeLoop_footprint _ s).mono fun _ h => same h.sameTables

/-! ## Frames over the turns of a command -/

/-- The steps that are only ever left by another step, and a held termination. -/
def Work.remainder : Work → Bool
  | .offer _ | .offerEnd | .emit _ | .rewind | .abort _ => true
  | _ => false

theorem without_of_any {kind : Work → Bool} {ws : List Work} (h : ws.any kind = false) : ∀ w ∈ ws, kind w = false := by
  simpa using h

/-- To leave out a kind of step is to hold whatever a step of another kind leaves or raises, if the kind has no
remainder, and the steps of a count, and those of a header, are all of it or all not. -/
theorem closed_without {kind : Work → Bool} (hr : ∀ w : Work, w.remainder = true → kind w = false)
    (hc : ∀ m n, kind (.count m) = kind (.count n))
    (hh : ∀ w x : Work, w.ofHeader = true → x.ofHeader = true → kind w = kind x) :
    Work.Closed fun w => kind w = false where
  abort _ _ _ _ _ := hr _ rfl
  left w x hw hx := by
    cases w with
    | offer => obtain ⟨_, rfl⟩ := hx; exact hr _ rfl
    | offerEnd => cases hx; exact hr _ rfl
    | abort => cases hx; exact hw
    | readField => cases hx; exact hw
    | count n => obtain ⟨_, rfl⟩ := hx; exact (hc _ n).trans hw
    | emit | writeField | headerWrite => obtain ⟨_, rfl⟩ | ⟨_, rfl⟩ := hx <;> exact hr _ rfl
    | closeStream =>
      obtain ⟨_, rfl⟩ | rfl | rfl := hx
      · exact hr _ rfl
      · exact hw
      · exact hr _ rfl
    | encodeBody =>
      obtain ⟨_, rfl⟩ | ⟨_, rfl⟩ | rfl := hx
      · exact hr _ rfl
      · exact hr _ rfl
      · exact hw
    | decodeBody =>
      obtain ⟨_, rfl⟩ | ⟨_, rfl⟩ | rfl | rfl := hx
      · exact hr _ rfl
      · exact hr _ rfl
      · exact hr _ rfl
      · exact hw
    | _ => exact (hh _ _ hx.2 hx.1).trans hw

/-- A relation that says no more than that the tables are kept, and that the steps of a set keep, is kept by every way a
turn can end. -/
theorem frame_of_writes {C : Work → Prop} {R : State → State → Prop} (same : ∀ {s t}, SameTables s t → R s t)
    (trans : ∀ {s t u}, R s t → R t u → R s u) (run : ∀ {w s t}, C w → WritesByKind w s t → R s t) :
    Work.Frame C R where
  refl s := same (.refl s)
  trans := trans
  run w s hw := (runWork_writes w s).mono fun _ h => run hw h
  raise s e _ _ := same (terminate_sameTables s e)
  done _ := same ⟨rfl, rfl, rfl, rfl, rfl, rfl, rfl, rfl, rfl, rfl⟩
  hold _ _ := same ⟨rfl, rfl, rfl, rfl, rfl, rfl, rfl, rfl, rfl, rfl⟩
  start _ _ := same ⟨rfl, rfl, rfl, rfl, rfl, rfl, rfl, rfl, rfl, rfl⟩

theorem ofHeader_kind {w : Work} (h : w.ofHeader = true) :
    w.counts = false ∧ w.generates = false ∧ w.plans = false ∧ w.rebuilds = true := by
  cases w with
  | magic | selector | countFields | treeLen | treeNode | treeSym | treeSpare => exact ⟨rfl, rfl, rfl, rfl⟩
  | _ => exact absurd h Bool.false_ne_true

theorem remainder_kind {w : Work} (h : w.remainder = true) :
    w.counts = false ∧ w.generates = false ∧ w.plans = false ∧ w.rebuilds = false := by
  cases w with
  | offer | offerEnd | emit | rewind | abort => exact ⟨rfl, rfl, rfl, rfl⟩
  | _ => exact absurd h Bool.false_ne_true

theorem closed_counts : Work.Closed fun w => w.counts = false :=
  closed_without (fun _ h => (remainder_kind h).1) (fun _ _ => rfl) fun _ _ h h' =>
    (ofHeader_kind h).1.trans (ofHeader_kind h').1.symm

theorem closed_generates : Work.Closed fun w => w.generates = false :=
  closed_without (fun _ h => (remainder_kind h).2.1) (fun _ _ => rfl) fun _ _ h h' =>
    (ofHeader_kind h).2.1.trans (ofHeader_kind h').2.1.symm

theorem closed_plans : Work.Closed fun w => w.plans = false :=
  closed_without (fun _ h => (remainder_kind h).2.2.1) (fun _ _ => rfl) fun _ _ h h' =>
    (ofHeader_kind h).2.2.1.trans (ofHeader_kind h').2.2.1.symm

theorem closed_rebuilds : Work.Closed fun w => w.rebuilds = false :=
  closed_without (fun _ h => (remainder_kind h).2.2.2) (fun _ _ => rfl) fun _ _ h h' =>
    (ofHeader_kind h).2.2.2.trans (ofHeader_kind h').2.2.2.symm

/-- Without a count ORIG_BITS is kept (10_state.md rule R36). -/
theorem frame_origBits : Work.Frame (fun w => w.counts = false) fun s t => t.origBits = s.origBits :=
  frame_of_writes (fun h => h.origBits) (fun h h' => h'.trans h) fun hw h => h.orig hw

/-- Without code generation BODY_BITS is kept (rule R37). -/
theorem frame_bodyBits : Work.Frame (fun w => w.generates = false) fun s t => t.bodyBits = s.bodyBits :=
  frame_of_writes (fun h => h.bodyBits) (fun h h' => h'.trans h) fun hw h => h.body hw

/-- Without ESTIMATE's last step no plan is made, and PLAN_SAVED is kept (rules R28, R38). -/
theorem frame_makesNoPlan : Work.Frame (fun w => w.plans = false) MakesNoPlan :=
  frame_of_writes (fun h => h.makesNoPlan) .trans fun hw h => h.plan hw

/-- Without a step that rebuilds them the plan and its tables are kept (46_compressor.md rule R142). -/
theorem frame_sameTables : Work.Frame (fun w => w.rebuilds = false) SameTables :=
  frame_of_writes id .trans fun hw h => h.tables hw

/-! ## The start of a turn -/

/-- While the engine gets no time a command stands before its first step (70_reset_and_hazards.md rule R184). -/
theorem launch_stalled {s : State} (h : s.stalled = true) (p : Phase) (ws : List Work) :
    launch p ws s = .next { s.begun p with work := ws } := if_pos h

/-- What a command's first turn comes to: it runs the command's steps, or stands before them while the engine gets no
time (70_reset_and_hazards.md rule R184). -/
theorem exec_cases {i : Instr} {s t : State} (h : exec i s = .next t) :
    (s.stalled = true ∧ ∃ p, t = { s.begun p with work := stepsOf i }) ∨
    (s.stalled = false ∧ ∃ p, (runWorks (stepsOf i) (s.begun p)).settle = .next t) := by
  obtain ⟨p, hp⟩ := exec_launch i
  rw [hp] at h
  cases hs : s.stalled with
  | true =>
    rw [launch_stalled hs] at h
    exact .inl ⟨rfl, p, (Host.Outcome.next.inj h).symm⟩
  | false =>
    rw [launch_begun hs] at h
    exact .inr ⟨rfl, p, h⟩

/-- What a later turn comes to: it runs what is left of the steps, or nothing happens (20_memory.md rule R62). -/
theorem resume_cases {s t : State} (h : resume s = .next t) :
    (s.busy = true ∧ s.stalled = false ∧ (runWorks s.work s).settle = .next t) ∨
    ((s.busy && !s.stalled) = false ∧ t = s) := by
  cases hb : (s.busy && !s.stalled) with
  | true =>
    simp only [Bool.and_eq_true, Bool.not_eq_true'] at hb
    rw [resume_running hb.1 hb.2] at h
    exact .inl ⟨hb.1, hb.2, h⟩
  | false =>
    simp only [resume, hb, Bool.false_eq_true, if_false] at h
    exact .inr ⟨rfl, (Host.Outcome.next.inj h).symm⟩

/-- `a` is before the first step of a command that was accepted in `s₀`: it differs from `s₀` in what is outside, the
phase and what the engine keeps of its place alone. -/
def State.Starts (s₀ a : State) : Prop := ∃ u p ws, s₀.Outside u ∧ a = { u.begun p with work := ws }

theorem State.Starts.outside {s₀ a b : State} (h : s₀.Starts a) (hab : a.Outside b) : s₀.Starts b := by
  obtain ⟨_, p, ws, ⟨_, _, _, _, _, _, _, _, _, _, rfl⟩, rfl⟩ := h
  obtain ⟨_, _, _, _, _, _, _, _, _, _, rfl⟩ := hab
  exact ⟨_, p, ws, ⟨_, _, _, _, _, _, _, _, _, _, rfl⟩, rfl⟩

theorem State.Starts.shape {s₀ a : State} (h : s₀.Starts a) (hs : s₀.Shape) : a.Shape := by
  obtain ⟨u, p, ws, hu, rfl⟩ := h
  exact (hu.shape hs).rest _ rfl rfl rfl rfl rfl rfl rfl rfl

theorem State.Starts.opened {s₀ a : State} (h : s₀.Starts a) : a.opened = false := by
  obtain ⟨u, p, ws, hu, rfl⟩ := h
  rfl

theorem State.Starts.err {s₀ a : State} (h : s₀.Starts a) : a.err = s₀.err := by
  obtain ⟨_, p, ws, ⟨_, _, _, _, _, _, _, _, _, _, rfl⟩, rfl⟩ := h
  rfl

section
variable {i : Instr} {s₀ : State} {P : State → Prop}
  (first : ∀ {a b : State}, s₀.Starts a → (runWorks (stepsOf i) a).settle = .next b → P b)
  (outside : ∀ {a b : State}, a.Outside b → P a → P b)
  (again : ∀ {a b : State}, Held i s₀ a → P a → (runWorks a.work a).settle = .next b → P b)

include first outside again

/-- A held command stands before its first step as long as it got no time, and is in `P` from then on. -/
theorem Held.starts_or {s : State} (h : Held i s₀ s) : (s₀.Starts s ∧ s.work = stepsOf i) ∨ P s := by
  induction h with
  | issued h _ =>
    rcases exec_cases h with ⟨_, p, rfl⟩ | ⟨_, p, h⟩
    · exact .inl ⟨⟨s₀, p, _, .refl _, rfl⟩, rfl⟩
    · exact .inr (first ⟨s₀, p, s₀.work, .refl _, rfl⟩ h)
  | waited _ ho ih =>
    refine ih.imp (fun ⟨hs, hw⟩ => ⟨hs.outside ho, ?_⟩) (outside ho)
    obtain ⟨_, _, _, _, _, _, _, _, _, _, rfl⟩ := ho
    exact hw
  | resumed hh h _ ih =>
    rcases resume_cases h with ⟨_, _, h⟩ | ⟨_, rfl⟩
    · rcases ih with ⟨hs, hw⟩ | hp
      · exact .inr (first hs (hw ▸ h))
      · exact .inr (again hh hp h)
    · exact ih

/-- What a command's first run of its steps comes to, and what is outside and the runs after holds keep, holds after
every turn of the command that gets time. -/
theorem Turn.of_first {s t : State} (h : Turn i s₀ s t) (hs : s.stalled = false) : P t := by
  rcases h with ⟨rfl, h⟩ | ⟨hh, h⟩
  · rcases exec_cases h with ⟨h', _⟩ | ⟨_, p, h⟩
    · exact absurd (hs.symm.trans h') Bool.false_ne_true
    · exact first ⟨s, p, s.work, .refl _, rfl⟩ h
  · rcases resume_cases h with ⟨_, _, h⟩ | ⟨hf, _⟩
    · rcases hh.starts_or first outside again with ⟨ha, hw⟩ | hp
      · exact first ha (hw ▸ h)
      · exact again hh hp h
    · rw [hh.busy, hs] at hf
      exact absurd hf Bool.true_eq_false.mp

end

/-! ## The commands that leave no plan -/

/-- A run of steps without ESTIMATE's last one that starts with no plan ends with none. -/
theorem settle_noPlan {ws : List Work} {s t : State} (hws : ∀ w ∈ ws, w.plans = false) (hp : s.planValid = false)
    (h : (runWorks ws s).settle = .next t) : t.planValid = false :=
  (frame_makesNoPlan.settle closed_plans hws (fun _ => rfl) h).1.planValid hp

/-- A command without ESTIMATE's last step, whose first run leaves no plan, leaves none at any turn that gets time. -/
theorem Turn.noPlan {i : Instr} {s₀ s t : State} (hi : ∀ w ∈ stepsOf i, w.plans = false)
    (first : ∀ {a b : State}, s₀.Starts a → (runWorks (stepsOf i) a).settle = .next b → b.planValid = false)
    (h : Turn i s₀ s t) (hs : s.stalled = false) : t.planValid = false :=
  h.of_first (P := fun t => t.planValid = false) first (fun ho hp => ho.sameTables.planValid.trans hp)
    (fun hh hp hr => settle_noPlan (hh.works closed_plans hi).1 hp hr) hs

/-- A command that starts with a step after which there is no plan. -/
theorem Turn.noPlan_of_clears {i : Instr} {w : Work} {ws : List Work} {s₀ s t : State} (hi : stepsOf i = w :: ws)
    (hw : w.plans = false) (hws : ∀ x ∈ ws, x.plans = false)
    (hc : ∀ a, ∃ b, runWork w a = .done b ∧ b.planValid = false) (h : Turn i s₀ s t) (hs : s.stalled = false) :
    t.planValid = false := by
  refine h.noPlan (by rw [hi]; exact List.forall_mem_cons.2 ⟨hw, hws⟩) (fun {a b} _ hr => ?_) hs
  obtain ⟨c, hac, hp⟩ := hc a
  rw [hi, runWorks_cons, hac] at hr
  exact settle_noPlan hws hp hr

/-- CT_GEN clears the codes and the plan, or finds no tree, and then there is no plan either (44_codetable.md rule R127,
10_state.md rule R28). -/
theorem ctGen_first {a b : State} (ha : a.Shape) (h : (runWorks (stepsOf .ctGen) a).settle = .next b) :
    b.planValid = false := by
  cases ht : a.treeValid with
  | false => exact settle_noPlan (without_of_any rfl) (ha.noPlan ht) h
  | true =>
    have hneed : runWork .needTree a = .done a := by
      show need a.treeValid a = _
      rw [ht]
      rfl
    rw [stepsOf, runWorks_cons, hneed] at h
    exact settle_noPlan (s := a.clearCodes) (ws := [.genCodes, .result .bodyBits]) (without_of_any rfl) rfl h

/-! ## ESTIMATE -/

/-- The steps of ESTIMATE before its last one, and what they leave. -/
def Work.ofCount (w : Work) : Prop := w = .clearAll ∨ w = .rReset ∨ ∃ n, w = .count n

theorem closed_ofCount : Work.Closed Work.ofCount where
  left w x hw hx := by
    rcases hw with rfl | rfl | ⟨n, rfl⟩
    · exact absurd hx.1 Bool.false_ne_true
    · exact absurd hx.1 Bool.false_ne_true
    · exact .inr (.inr hx)
  abort h := by
    rcases h with h | h | ⟨_, h⟩ <;> cases h

theorem plans_of_ofCount {w : Work} (h : w.ofCount) : w.plans = false := by
  rcases h with rfl | rfl | ⟨n, rfl⟩ <;> rfl

/-- ESTIMATE's steps before its last one make no plan. -/
theorem frame_ofCount : Work.Frame Work.ofCount MakesNoPlan :=
  frame_of_writes (fun h => h.makesNoPlan) .trans fun hw h => h.plan (plans_of_ofCount hw)

/-- What is left of an ESTIMATE ends in the step that makes the plan, and no stream was opened. -/
def State.BeforePlan (s : State) (fmt : Fmt) : Prop :=
  s.opened = false ∧ ∃ ws, s.work = ws ++ [.plan fmt] ∧ ∀ w ∈ ws, w.ofCount

/-- ESTIMATE's last step ends the command without an error (46_compressor.md rule R141). -/
theorem settle_plan {fmt : Fmt} {s t : State} (h : (runWorks [.plan fmt] s).settle = .next t) :
    t.busy = false ∧ t.err = s.err := by
  rw [runWorks_one] at h
  have hr : runWork (.plan fmt) s = planStream fmt s := rfl
  rw [hr, planStream] at h
  rcases genCodes_cases s.buildTree with ⟨cs, b, _, he⟩ | ⟨_, he⟩ <;> rw [he] at h
  · cases h
    exact ⟨rfl, rfl⟩
  · cases h

/-- A run of an ESTIMATE ends without an error, or, counting, at an error or a hold, with no plan made. -/
theorem settle_beforePlan {fmt : Fmt} {ws : List Work} {s t : State} (hws : ∀ w ∈ ws, w.ofCount)
    (ho : s.opened = false) (h : (runWorks (ws ++ [.plan fmt]) s).settle = .next t) :
    (t.busy = false ∧ t.err = s.err) ∨
      MakesNoPlan s t ∧ (t.busy = true → t.BeforePlan fmt ∧ t.err = s.err) := by
  have hop : s.OpenedBy Work.ofCount := fun h' => absurd (ho.symm.trans h') Bool.false_ne_true
  have hframe := frame_ofCount.runWorks ws s hws
  have hleft := runWorks_within closed_ofCount ws s hws hop
  have hhost := runWorks_host ws s
  have closed : ∀ {u : State}, u.OpenedBy Work.ofCount → u.opened = false := by
    intro u hu
    rw [Bool.eq_false_iff]
    intro h'
    rcases hu h' with h | h | ⟨_, h⟩ <;> cases h
  rw [runWorks_append] at h
  cases hr : runWorks ws s with
  | done u =>
    rw [hr] at h hhost
    obtain ⟨hb, he⟩ := settle_plan h
    exact .inl ⟨hb, he.trans hhost.err⟩
  | ended u =>
    rw [hr] at h hhost
    cases h
    exact .inl ⟨rfl, hhost.err⟩
  | raised e u =>
    rw [hr] at h hframe hleft
    rw [Run.andThen_raised, settle_raised (closed hleft.2)] at h
    cases h
    exact .inr ⟨hframe.trans ⟨rfl, rfl, id⟩, fun hb => absurd hb Bool.false_ne_true⟩
  | held u left =>
    rw [hr] at h hframe hleft hhost
    cases h
    exact .inr ⟨hframe.trans ⟨rfl, rfl, id⟩, fun _ => ⟨⟨closed hleft.2, left, rfl, hleft.1⟩, hhost.err⟩⟩
  | stuck f => rw [hr] at h; cases h

/-- The steps of an ESTIMATE from its first. -/
theorem settle_estimate {fmt : Fmt} {s t : State} (ho : s.opened = false)
    (h : (runWorks (stepsOf (.estimate fmt)) s).settle = .next t) :
    (t.busy = false ∧ t.err = s.err) ∨
      MakesNoPlan s t ∧ (t.busy = true → t.BeforePlan fmt ∧ t.err = s.err) :=
  settle_beforePlan (ws := [.clearAll, .rReset, .count 0])
    (by simp [Work.ofCount]) ho h

/-- An ESTIMATE that holds has its last step still to run, no plan made and no error. -/
theorem Held.estimate {fmt : Fmt} {s₀ s : State} (h : Held (.estimate fmt) s₀ s) :
    s.BeforePlan fmt ∧ s.err = s₀.err ∧ MakesNoPlan s₀ s := by
  induction h with
  | issued h hb =>
    rcases exec_cases h with ⟨_, p, rfl⟩ | ⟨_, p, h⟩
    · exact ⟨⟨rfl, [.clearAll, .rReset, .count 0], rfl, by simp [Work.ofCount]⟩, rfl, rfl, rfl, id⟩
    · rcases settle_estimate rfl h with ⟨hb', _⟩ | ⟨hm, hh⟩
      · exact absurd (hb'.symm.trans hb) Bool.false_ne_true
      · exact ⟨(hh hb).1, (hh hb).2, (begun_makesNoPlan _ p).trans hm⟩
  | waited _ ho ih =>
    obtain ⟨h1, h2, h3⟩ := ih
    have hm := h3.trans ho.sameTables.makesNoPlan
    obtain ⟨_, _, _, _, _, _, _, _, _, _, rfl⟩ := ho
    exact ⟨h1, h2, hm⟩
  | resumed hh h hb ih =>
    obtain ⟨⟨ho, ws, hw, hws⟩, he, hm⟩ := ih
    rcases resume_cases h with ⟨_, _, h⟩ | ⟨_, rfl⟩
    · rw [hw] at h
      rcases settle_beforePlan hws ho h with ⟨hb', _⟩ | ⟨hm', hh'⟩
      · exact absurd (hb'.symm.trans hb) Bool.false_ne_true
      · exact ⟨(hh' hb).1, (hh' hb).2.trans he, hm.trans hm'⟩
    · exact ⟨⟨ho, ws, hw, hws⟩, he, hm⟩

/-- Every turn of an ESTIMATE that makes a plan ends the command without an error. -/
theorem Turn.estimate {fmt : Fmt} {s₀ s t : State} (h : Turn (.estimate fmt) s₀ s t) :
    (t.busy = false ∧ t.err = s₀.err) ∨ MakesNoPlan s₀ t := by
  rcases h with ⟨rfl, h⟩ | ⟨hh, h⟩
  · rcases exec_cases h with ⟨_, p, rfl⟩ | ⟨_, p, h⟩
    · exact .inr ⟨rfl, rfl, id⟩
    · exact (settle_estimate rfl h).imp id fun ⟨hm, _⟩ => (begun_makesNoPlan s p).trans hm
  · obtain ⟨⟨ho, ws, hw, hws⟩, he, hm⟩ := hh.estimate
    rcases resume_cases h with ⟨_, _, h⟩ | ⟨_, rfl⟩
    · rw [hw] at h
      exact (settle_beforePlan hws ho h).imp (fun ⟨h1, h2⟩ => ⟨h1, h2.trans he⟩) fun ⟨h1, _⟩ => hm.trans h1
    · exact .inr hm

/-- After every turn of an ESTIMATE that gets time there is a plan only if it ended without an error: its first step
drops the plan that was there. -/
theorem Turn.estimate_plan {fmt : Fmt} {s₀ s t : State} (h : Turn (.estimate fmt) s₀ s t) (hs : s.stalled = false)
    (he : s₀.err = .none) : t.planValid = true → t.busy = false ∧ t.err = .none := by
  have ends : ∀ {a b : State}, a.planValid = false → a.err = s₀.err → (b.busy = false ∧ b.err = a.err) ∨
      MakesNoPlan a b ∧ (b.busy = true → b.BeforePlan fmt ∧ b.err = a.err) →
      b.planValid = true → b.busy = false ∧ b.err = .none := by
    rintro a b ha hae (⟨hb, hbe⟩ | ⟨hm, _⟩) hp
    · exact ⟨hb, hbe.trans (hae.trans he)⟩
    · exact absurd ((hm.planValid ha).symm.trans hp) Bool.false_ne_true
  refine h.of_first (P := fun t => t.planValid = true → t.busy = false ∧ t.err = .none) ?first ?outside ?again hs
  case first =>
    intro a b ha hr
    exact ends (a := a.clearAll) rfl ha.err
      (settle_beforePlan (s := a.clearAll) (ws := [.rReset, .count 0]) (by simp [Work.ofCount]) ha.opened hr)
  case outside =>
    intro a b ho hp
    obtain ⟨_, _, _, _, _, _, _, _, _, _, rfl⟩ := ho
    exact hp
  case again =>
    intro a b hh hp hr
    obtain ⟨⟨ho, ws, hw, hws⟩, hae, _⟩ := hh.estimate
    have ha : a.planValid = false := by
      rw [Bool.eq_false_iff]
      intro hv
      exact absurd (hh.busy.symm.trans (hp hv).1) Bool.true_eq_false.mp
    rw [hw] at hr
    exact ends ha hae (settle_beforePlan hws ho hr)

/-! ## Over every command -/

/-- Settles O48: the commands that clear the plan do so in their first run and none of their steps makes one; ESTIMATE
makes one in its last step alone; and no step of the other commands writes the plan or its tables. -/
theorem planLifecycle : Obligations.PlanLifecycle := by
  intro i s₀ s t hShape hs he h
  have keeps : (∀ w ∈ stepsOf i, w.rebuilds = false) →
      t.planValid = s₀.planValid ∧ t.planFmt = s₀.planFmt ∧ t.planSaved = s₀.planSaved ∧ t.freq = s₀.freq ∧
        t.store = s₀.store ∧ t.codes = s₀.codes ∧ t.treeValid = s₀.treeValid ∧ t.codesValid = s₀.codesValid ∧
        t.origBits = s₀.origBits ∧ t.bodyBits = s₀.bodyBits := fun hi => by
    obtain ⟨h1, h2, h3, h4, h5, h6, h7, h8, h9, h10⟩ :=
      h.since closed_rebuilds frame_sameTables (fun _ _ ho => ho.sameTables) hi
    exact ⟨h1, h2, h3, h4, h5, h6, h7, h8, h9, h10⟩
  cases i with
  | ftCount | hdrRead | decompress =>
    exact h.noPlan_of_clears rfl rfl (without_of_any rfl) (fun a => ⟨a.clearAll, rfl, rfl⟩) hs
  | tbBuild => exact h.noPlan_of_clears rfl rfl (without_of_any rfl) (fun a => ⟨a.clearTree, rfl, rfl⟩) hs
  | ctGen => exact h.noPlan (without_of_any rfl) (fun ha => ctGen_first (ha.shape hShape)) hs
  | estimate fmt => exact h.estimate_plan hs he
  | bsWrite | bsClose | bsRead | bsRreset | hdrWrite | compress => exact keeps (without_of_any rfl)

/-- FT_COUNT and ESTIMATE alone count (42_frequency.md rule R107). -/
theorem counts_stepsOf {i : Instr} (h1 : i ≠ .ftCount) (h2 : ∀ fmt, i ≠ .estimate fmt) :
    ∀ w ∈ stepsOf i, w.counts = false := by
  cases i with
  | ftCount => exact absurd rfl h1
  | estimate fmt => exact absurd rfl (h2 fmt)
  | _ => exact without_of_any rfl

/-- CT_GEN and ESTIMATE alone generate codes (44_codetable.md rule R126). -/
theorem generates_stepsOf {i : Instr} (h1 : i ≠ .ctGen) (h2 : ∀ fmt, i ≠ .estimate fmt) :
    ∀ w ∈ stepsOf i, w.generates = false := by
  cases i with
  | ctGen => exact absurd rfl h1
  | estimate fmt => exact absurd rfl (h2 fmt)
  | _ => exact without_of_any rfl

/-- ESTIMATE alone makes a plan (46_compressor.md rule R141). -/
theorem plans_stepsOf {i : Instr} (h : ∀ fmt, i ≠ .estimate fmt) : ∀ w ∈ stepsOf i, w.plans = false := by
  cases i with
  | estimate fmt => exact absurd rfl (h fmt)
  | _ => exact without_of_any rfl

/-- Settles O49: each counter is written by steps of its own kind, which the other commands do not have; and an ESTIMATE
that ends with an error or holds has not come to its last step. -/
theorem counterWriters : Obligations.CounterWriters := by
  intro i s₀ s t he h
  refine ⟨fun h1 h2 => ?_, fun h1 h2 => ?_, fun h3 => ?_⟩
  · exact h.since closed_counts frame_origBits (fun _ _ ho => ho.sameTables.origBits) (counts_stepsOf h1 h2)
  · exact h.since closed_generates frame_bodyBits (fun _ _ ho => ho.sameTables.bodyBits) (generates_stepsOf h1 h2)
  · suffices hm : MakesNoPlan s₀ t from ⟨hm.planSaved, hm.planFmt⟩
    by_cases hi : ∃ fmt, i = .estimate fmt
    · obtain ⟨fmt, rfl⟩ := hi
      rcases h.estimate with ⟨hb, hte⟩ | hm
      · rcases h3 with h3 | h3 | h3
        · exact absurd rfl (h3 fmt)
        · exact absurd (hte.trans he) h3
        · exact absurd (hb.symm.trans h3) Bool.false_ne_true
      · exact hm
    · exact h.since closed_plans frame_makesNoPlan (fun _ _ ho => ho.sameTables.makesNoPlan)
        (plans_stepsOf fun fmt hf => hi ⟨fmt, hf⟩)

end Sys2Proof.Machine
end

section
/-! Host accesses that are errors, ignored or made while a command runs, the bits that read 0, and the order of the bits
of a stream in its bytes (20_memory.md rules R52, R53, R57, R61). -/

namespace Sys2Proof.Machine

/-! ## Bus errors -/

theorem accessDefined_eq_false {off : Offset} {size : Nat} (h : size ≠ 4 ∨ off.extractLsb' 0 2 ≠ 0#2) :
    accessDefined off size = false := by
  rw [Bool.eq_false_iff]
  intro hd
  obtain ⟨h1, h2⟩ := (accessDefined_iff off size).1 hd
  exact h.elim (fun hn => hn h1) fun hn => hn h2

theorem busRead_undefined {s : State} (hr : s.inReset = false) {off : Offset} {size : Nat}
    (ha : accessDefined off size = false) : s.busRead off size = s.reply (.read off size) .busError := by
  simp [State.busRead, hr, ha]

theorem busWrite_undefined {s : State} (hr : s.inReset = false) {off : Offset} {size : Nat}
    (ha : accessDefined off size = false) (v : Word) :
    s.busWrite off size v = .over (s.reply (.write off size v) .busError) := by
  simp [State.busWrite, hr, ha]

/-- Settles O16: an access that is not defined is answered with the bus error before its register is looked at. -/
theorem busErrors : Obligations.BusErrors := by
  intro s es off size hr h
  have ha := accessDefined_eq_false h
  exact ⟨congrArg Host.Outcome.next (busRead_undefined (s := { s with events := es }) hr ha),
    fun v => congrArg Action.run (busWrite_undefined (s := { s with events := es }) hr ha v)⟩

/-! ## Reads while a command runs -/

theorem getLsbD_of_field {w : Word} {i : Nat} {b : Bool} (h : w.extractLsb' i 1 = BitVec.ofBool b) :
    w.getLsbD i = b := by
  have h0 := congrArg (·.getLsbD 0) h
  simpa using h0

/-- BUSY, DONE and OVR of STATUS (10_state.md rule R23). -/
theorem statusWord_flags (s : State) :
    s.statusWord.getLsbD 0 = s.busy ∧ s.statusWord.getLsbD 1 = s.done ∧ s.statusWord.getLsbD 2 = s.ovr := by
  obtain ⟨hbusy, hdone, hovr, -⟩ := statusFields.1 s
  exact ⟨getLsbD_of_field hbusy, getLsbD_of_field hdone, getLsbD_of_field hovr⟩

/-- The draw of a STATUS read while a command runs does not reach the three flags (20_memory.md rule R61). -/
theorem statusWhileBusy_getLsbD (s : State) (draw : Word) {i : Nat} (h : i < 3) :
    (s.statusWhileBusy draw).getLsbD i = s.statusWord.getLsbD i := by
  have hi : i = 0 ∨ i = 1 ∨ i = 2 := by omega
  rcases hi with rfl | rfl | rfl <;> simp [State.statusWhileBusy]

/-- The reserved bits of STATUS read 0 while a command runs, whatever the draw. -/
theorem statusWhileBusy_reserved (s : State) (draw : Word) : s.statusWhileBusy draw &&& 0xFFF00008#32 = 0#32 := by
  have e1 : 0x00000007#32 &&& 0xFFF00008#32 = 0#32 := by decide
  have e2 : 0x000FFFF0#32 &&& 0xFFF00008#32 = 0#32 := by decide
  rw [State.statusWhileBusy, BitVec.and_or_distrib_right, BitVec.and_assoc, BitVec.and_assoc, e1, e2]
  simp

/-- A read of STATUS while a command runs takes a draw. -/
theorem busRead_status_busy {s : State} (hb : s.busy = true) (hr : s.inReset = false) :
    s.busRead 0x008#16 4 = { s with
      accesses := s.accesses ++ [(.read 0x008#16 4, .data (s.statusWhileBusy (Config.freeRead s.draws)))]
      draws := s.draws + 1 } := by
  simp [State.busRead, State.readReg, State.reply, hr, hb, accessDefined,
    regAt_offset (r := .status) (off := 0x008#16) rfl]

/-- Every offset but the reserved ones and those of ID, CMD, STATUS, ARG and the CFG registers changes while a command
runs (10_state.md rule R20, 20_memory.md rule R61). -/
theorem regAtWord_free {n : Nat} (h : n < 0x4000) (hm : n ∉ ([0x00, 0x01, 0x02, 0x03, 0x11, 0x12, 0x13] : List Nat))
    (hr : reservedWord n = false) : regAtWord n ≠ .status ∧ (regAtWord n).freeWhileBusy = true := by
  simp only [reservedWord, Bool.or_eq_false_iff, Bool.and_eq_false_iff, decide_eq_false_iff_not] at hr
  unfold regAtWord
  split
  · have h20 : n < 20 := by omega
    simp only [List.mem_cons, List.not_mem_nil, or_false, not_or] at hm
    have hn : n = 16 ∨ 4 ≤ n ∧ n < 16 := by omega
    rcases hn with rfl | ⟨h4, h16⟩
    · decide
    · interval_cases n <;> decide
  split
  · rw [dif_pos (by omega)]; simp [Reg.freeWhileBusy]
  split
  · rw [dif_pos (by omega)]; simp [Reg.freeWhileBusy]
  split
  · rw [dif_pos (by omega)]; simp [Reg.freeWhileBusy]
  · rw [dif_pos (by omega)]; simp [Reg.freeWhileBusy]

/-- Settles O15: STATUS takes a draw that its mask keeps off the three flags and the reserved bits, the registers no
command changes are read as they are, and every other offset of the map is a free draw. -/
theorem readsWhileBusy : Obligations.ReadsWhileBusy := by
  intro s hb hr
  have definite : ∀ (r : Reg) {off : Offset}, r.offset = some off → r ≠ .status → r.freeWhileBusy = false →
      s.Reads off (s.reg r) := fun _ _ => reads_definite hr
  refine ⟨fun es => ?status, definite .id rfl (by decide) rfl, definite .cmd rfl (by decide) rfl,
    definite .arg rfl (by decide) rfl, definite .cfgMagic rfl (by decide) rfl,
    definite .cfgSelCounts rfl (by decide) rfl, definite .cfgSelTree rfl (by decide) rfl,
    fun n hn => reads_reserved hr hn, fun n es hn hm hres => ?free⟩
  case status =>
    obtain ⟨hbusy, hdone, hovr⟩ := statusWord_flags { s with events := es }
    have flag := fun {i : Nat} => statusWhileBusy_getLsbD (i := i) { s with events := es } (Config.freeRead s.draws)
    exact ⟨_, congrArg Host.Outcome.next (busRead_status_busy (s := { s with events := es }) hb hr),
      (flag (by decide)).trans (hbusy.trans hb), (flag (by decide)).trans hdone, (flag (by decide)).trans hovr,
      statusWhileBusy_reserved _ _⟩
  case free =>
    obtain ⟨h1, h2⟩ := regAtWord_free hn hm hres
    rw [← regAt_word hn] at h1 h2
    exact congrArg Host.Outcome.next
      (busRead_free (s := { s with events := es }) hr hb (accessDefined_word n) h1 h2)

/-! ## Bits that read 0 -/

/-- A mask that keeps nothing of two fields keeps nothing of the two put together. -/
theorem append_masked {m n : Nat} {a c : BitVec m} {b d : BitVec n} (h1 : a &&& c = 0#m) (h2 : b &&& d = 0#n) :
    (a ++ b) &&& (c ++ d) = 0#(m + n) := by
  rw [BitVec.and_append, h1, h2, BitVec.zero_append_zero]

/-- Bits 31:20 and bit 3 of STATUS (10_state.md rule R23). -/
theorem statusWord_reserved (s : State) : s.statusWord &&& 0xFFF00008#32 = 0#32 := by
  have hmask : 0xFFF00008#32 = 0xFFF#12 ++ 0#3 ++ 0#1 ++ 0#3 ++ 0#1 ++ 0#1 ++ 0#1 ++ 0#1 ++ 0#1 ++ 0#4 ++ 1#1 ++ 0#1 ++
      0#1 ++ 0#1 := by decide
  rw [State.statusWord, hmask]
  repeat' apply append_masked
  all_goals simp

/-- Bits 31:26 and 15:10 of a word made of two node indices (rules R39, R43). -/
theorem indices_reserved (hi lo : BitVec 10) : (0#6 ++ hi ++ 0#6 ++ lo) &&& 0xFC00FC00#32 = 0#32 := by
  have hmask : 0xFC00FC00#32 = 63#6 ++ 0#10 ++ 63#6 ++ 0#10 := by decide
  rw [hmask]
  exact append_masked (append_masked (append_masked BitVec.zero_and BitVec.and_zero) BitVec.zero_and) BitVec.and_zero

/-- Bits 30:9 of a word made of a flag and a 9-bit field (rules R42, R43). -/
theorem flagged_reserved (b : BitVec 1) (v : BitVec 9) : (b ++ 0#22 ++ v) &&& 0x7FFFFE00#32 = 0#32 := by
  have hmask : 0x7FFFFE00#32 = 0#1 ++ 0x3FFFFF#22 ++ 0#9 := by decide
  rw [hmask]
  exact append_masked (append_masked BitVec.and_zero BitVec.zero_and) BitVec.and_zero

/-- The children of an internal node; a leaf has none and reads 0 (rule R43). -/
theorem word_children_reserved (n : Node) : n.word 3 &&& 0xFC00FC00#32 = 0#32 := by
  cases h : n.leaf <;> simp only [Node.word, h, if_true, Bool.false_eq_true, if_false]
  · exact indices_reserved _ _
  · exact BitVec.zero_and

/-! ## Reads that are repeated -/

/-- What a read is answered with while no command runs (20_memory.md rules R52, R53, 70_reset_and_hazards.md rule
R175). -/
def State.idleReply (s : State) (off : Offset) (size : Nat) : Reply :=
  if s.inReset then .data 0#32
  else if accessDefined off size then .data (s.reg (regAt off))
  else .busError

theorem busRead_idleReply {s : State} (hb : s.busy = false) (off : Offset) (size : Nat) :
    s.busRead off size = s.reply (.read off size) (s.idleReply off size) := by
  unfold State.busRead State.idleReply State.readReg
  simp only [hb, Bool.false_eq_true, if_false]
  split_ifs <;> rfl

/-- The pending actions and the record of the accesses are in no register. -/
theorem idleReply_records (s : State) (es : List Event) (ac : List (Access × Reply)) (off : Offset) (size : Nat) :
    { s with events := es, accesses := ac }.idleReply off size = s.idleReply off size := by
  have hreg : { s with events := es, accesses := ac }.reg (regAt off) = s.reg (regAt off) := by
    cases regAt off <;> rfl
  simp only [State.idleReply, hreg]

theorem step_read_idle {s : State} (hb : s.busy = false) (es : List Event) (off : Offset) (size : Nat) :
    step { s with events := .busRead off size :: es } =
      .next { s with events := es, accesses := s.accesses ++ [(.read off size, s.idleReply off size)] } := by
  have hread := busRead_idleReply (s := { s with events := es }) hb off size
  rw [idleReply_records s es s.accesses] at hread
  exact congrArg Host.Outcome.next hread

/-- A read draws at most one free value and records its answer; nothing else changes (20_memory.md rule R53). -/
theorem step_read (s : State) (es : List Event) (off : Offset) (size : Nat) : ∃ r d,
    step { s with events := .busRead off size :: es } =
      .next { s with events := es, accesses := s.accesses ++ [(.read off size, r)], draws := d } := by
  obtain ⟨r, d, hr⟩ := busRead_cases { s with events := es } off size
  exact ⟨r, d, congrArg Host.Outcome.next hr⟩

/-- Settles O17: the reads and writes by the register an offset names, the zero bits by the words' fields, and the
repeated read by an answer that the record of the first one does not reach. -/
theorem noSideEffects : Obligations.NoSideEffects := by
  refine ⟨fun _ _ hr hn => reads_reserved hr hn, fun _ _ hr hn h1 h3 => ignores_readOnly hr hn h1 h3,
    fun _ es v hr => step_arg hr es v, fun s => ⟨statusWord_reserved s, indices_reserved _ _⟩,
    fun _ _ => flagged_reserved _ _, fun n => ⟨flagged_reserved _ _, word_children_reserved n⟩, step_read, ?again⟩
  intro s t u es off size hb ht hu
  rw [step_read_idle hb] at ht
  cases ht
  rw [step_read_idle (s := { s with accesses := s.accesses ++ [(.read off size, s.idleReply off size)] }) hb] at hu
  cases hu
  have hrep := idleReply_records s s.events (s.accesses ++ [(.read off size, s.idleReply off size)]) off size
  exact ⟨s.idleReply off size, by simp [hrep]⟩

/-! ## The bits of a stream -/

/-- Position `i` of the `n` bits from position `m` on is position `m + i` of the whole. -/
theorem window_getD {n i : Nat} (h : i < n) (m : Nat) (bs : Bits) :
    ((bs.drop m).take n).getD i false = bs.getD (m + i) false := by
  simp [List.getD_eq_getElem?_getD, h]

/-- The first bit of a byte's string is bit 7 (20_memory.md rule R57). -/
theorem byteOf_getLsbD {bs : Bits} {i : Nat} (hl : bs.length ≤ 8) (hi : i < 8) :
    (byteOf bs).getLsbD (7 - i) = bs.getD i false := by
  have hlen : (padTo 8 bs).length = 8 := by simp [hl]
  calc (byteOf bs).getLsbD (7 - i)
      = (valueOf (padTo 8 bs)).testBit (7 - i) := by
        rw [byteOf, BitVec.getLsbD_ofNat, decide_eq_true (by omega), Bool.true_and]
    _ = (padTo 8 bs).getD i false := by rw [← testBit_valueOf (by omega), hlen]
    _ = bs.getD i false := padTo_getD 8 i bs

theorem bitsOfByte_getD {i : Nat} (h : i < 8) (b : Byte) : (bitsOfByte b).getD i false = b.getLsbD (7 - i) := by
  rw [bitsOfByte, binN_getD h]
  rfl

theorem packBytes_getD {n j : Nat} (h : j < n) (bits : Bits) :
    (packBytes n bits).getD j 0#8 = byteOf ((bits.drop (8 * j)).take 8) := by
  simp [packBytes, List.getD_eq_getElem?_getD, h]

/-- Bit `8 * j + i` of a stream is bit `7 - i` of its byte `j` (20_memory.md rule R57). -/
theorem streamBits_getD {bs : List Byte} {j i : Nat} (hj : j < bs.length) (hi : i < 8) :
    (streamBits bs).getD (8 * j + i) false = (bs.getD j 0#8).getLsbD (7 - i) := by
  induction bs generalizing j with
  | nil => exact absurd hj (Nat.not_lt_zero j)
  | cons b bs ih =>
    rw [streamBits_cons]
    cases j with
    | zero =>
      rw [List.getD_append _ _ _ _ (by simpa using hi), Nat.mul_zero, Nat.zero_add, bitsOfByte_getD hi]
      rfl
    | succ j =>
      rw [List.getD_append_right _ _ _ _ (by simp; omega), List.getD_cons_succ, ← ih (Nat.lt_of_succ_lt_succ hj)]
      congr 1
      simp only [bitsOfByte_length]
      omega

/-- Settles O13: packing takes byte `k / 8` from the 8 bits at `8 * (k / 8)`, unpacking puts that byte's bits there. -/
theorem bitOrder : Obligations.BitOrder := by
  have hmod : ∀ k : Nat, k % 8 < 8 := fun k => Nat.mod_lt k (by decide)
  refine ⟨fun bits n k hk => ?_, fun bs k hk => ?_⟩
  · rw [packBytes_getD (by omega), byteOf_getLsbD (by simp) (hmod k), window_getD (hmod k), Nat.div_add_mod]
  · rw [← streamBits_getD (by omega) (hmod k), Nat.div_add_mod]

end Sys2Proof.Machine
end

section
/-! What a turn can leave of the error code: the error ends of 60_exceptions.md rule R160 and the errors of each command
by rule R159; and the arrival of tokens and answers, before a turn or after it (20_memory.md rules R55, R56, R62). -/

namespace Sys2Proof.Machine

/-! ## From a command's first turn on -/

section
variable {i : Instr} {s₀ : State} {P : State → Prop}
  (first : ∀ {a b : State}, s₀.Starts a → (runWorks (stepsOf i) a).settle = .next b → P b)
  (outside : ∀ {a b : State}, a.Outside b → P a → P b)
  (again : ∀ {a b : State}, Held i s₀ a → P a → (runWorks a.work a).settle = .next b → P b)

include first outside again

/-- What a command's first run of its steps comes to, and what is outside and the runs after holds keep, holds after
every turn, but one before which and in which the command got no time. -/
theorem Turn.starts_or {s t : State} (h : Turn i s₀ s t) : s₀.Starts t ∨ P t := by
  rcases h with ⟨rfl, h⟩ | ⟨hh, h⟩
  · rcases exec_cases h with ⟨_, p, rfl⟩ | ⟨_, p, h⟩
    · exact .inl ⟨s, p, _, .refl _, rfl⟩
    · exact .inr (first ⟨s, p, s.work, .refl _, rfl⟩ h)
  · have hstart := hh.starts_or first outside again
    rcases resume_cases h with ⟨_, _, h⟩ | ⟨_, rfl⟩
    · rcases hstart with ⟨ha, hw⟩ | hp
      · exact .inr (first ha (hw ▸ h))
      · exact .inr (again hh hp h)
    · exact hstart.imp And.left id

end

/-! ## Error ends -/

/-- The state in which `Terminate(e)` ends a command (60_exceptions.md rule R160). -/
structure State.EndedInError (t : State) (e : ErrCode) : Prop where
  err    : t.err = e
  busy   : t.busy = false
  result : t.result = 0#64
  done   : t.done = true
  phase  : t.phase = .idle
  pq     : t.pq = []
  seq    : t.seq = 0
  budget : t.budget = 0
  cur    : t.cur = 0
  stack  : t.stack = []
  work   : t.work = []

theorem finishError_ended {s : State} (h : s.result = 0#64) (e : ErrCode) : (s.finishError e).EndedInError e :=
  ⟨rfl, rfl, h, rfl, rfl, rfl, rfl, rfl, rfl, rfl, rfl⟩

/-- A termination ends the command in its error, or holds at its `Abort` with the error code still to be written. -/
theorem terminate_ended (s : State) (e : ErrCode) : (s.terminate e).err = s.err ∨ (s.terminate e).EndedInError e := by
  rcases terminate_cases s e with ⟨_, he⟩ | ⟨_, _, a, _, he⟩ | ⟨_, _, _, he⟩ <;> rw [he]
  · exact .inr (finishError_ended rfl e)
  · exact .inr (finishError_ended rfl e)
  · exact .inl rfl

/-- A run of steps leaves the error code as it was, or ends the command in an error. -/
theorem settle_err {ws : List Work} {s t : State} (h : (runWorks ws s).settle = .next t) :
    t.err = s.err ∨ ∃ e, t.EndedInError e := by
  have hh := runWorks_host ws s
  cases hr : runWorks ws s with
  | done u | ended u | held u left =>
    rw [hr] at h hh
    cases h
    exact .inl hh.err
  | raised e u =>
    rw [hr] at h hh
    cases h
    exact (terminate_ended u e).imp (fun h' => h'.trans hh.err) fun h' => ⟨e, h'⟩
  | stuck f => rw [hr] at h; cases h

/-- The error code is the one from the command's acceptance, or the command ended in an error. -/
theorem Turn.err {i : Instr} {s₀ s t : State} (h : Turn i s₀ s t) : t.err = s₀.err ∨ ∃ e, t.EndedInError e := by
  refine (h.starts_or (P := fun t => t.err = s₀.err ∨ ∃ e, t.EndedInError e) ?first ?outside ?again).elim
    (fun hs => .inl hs.err) id
  case first => exact fun ha hr => (settle_err hr).imp (fun h' => h'.trans ha.err) id
  case outside =>
    rintro a b ⟨_, _, _, _, _, _, _, _, _, _, rfl⟩ (he | ⟨e, h1, h2, h3, h4, h5, h6, h7, h8, h9, h10, h11⟩)
    · exact .inl he
    · exact .inr ⟨e, h1, h2, h3, h4, h5, h6, h7, h8, h9, h10, h11⟩
  case again =>
    rintro a b hh (he | ⟨e, he⟩) hr
    · exact (settle_err hr).imp (fun h' => h'.trans he) id
    · exact absurd (hh.busy.symm.trans he.busy) Bool.true_eq_false.mp

/-- Settles O45: an error code that is not the one from acceptance is left by an error end alone. -/
theorem errorEnds : Obligations.ErrorEnds := by
  intro i s₀ s t h₀ h _ he
  obtain ⟨e, hend⟩ := h.err.resolve_left fun h' => he (h'.trans h₀)
  exact ⟨hend.result, hend.done, hend.phase, hend.pq, hend.seq, hend.budget, hend.cur, hend.stack, hend.work⟩

/-! ## The errors of a command -/

/-- All the errors of a step are of `E`. -/
def Work.raisesIn (E : List ErrCode) (w : Work) : Prop := ∀ e ∈ w.errs, e ∈ E

/-- What a step leaves when it holds raises nothing the step itself does not. -/
theorem Work.leaves_errs {w x : Work} (h : w.leaves x) : ∀ e ∈ x.errs, e ∈ w.errs := by
  have header : ∀ {w : Work}, w.ofHeader = true → w.errs = headerErrs := by
    intro w hw
    cases w with
    | magic | selector | countFields | treeLen | treeNode | treeSym | treeSpare => rfl
    | _ => exact absurd hw Bool.false_ne_true
  cases w with
  | offer => obtain ⟨_, rfl⟩ := h; exact fun _ he => he
  | offerEnd | abort | readField => cases h; exact fun _ he => he
  | count => obtain ⟨_, rfl⟩ := h; exact fun _ he => he
  | emit | writeField | headerWrite => obtain ⟨_, rfl⟩ | ⟨_, rfl⟩ := h <;> exact fun _ he => he
  | closeStream => obtain ⟨_, rfl⟩ | rfl | rfl := h <;> exact fun _ he => he
  | encodeBody =>
    obtain ⟨_, rfl⟩ | ⟨_, rfl⟩ | rfl := h
    · exact fun _ he => .tail _ he
    · exact fun _ he => .tail _ he
    · exact fun _ he => he
  | decodeBody =>
    obtain ⟨_, rfl⟩ | ⟨_, rfl⟩ | rfl | rfl := h
    · exact fun _ he => .tail _ he
    · exact fun _ he => .tail _ he
    · exact fun _ he => absurd he List.not_mem_nil
    · exact fun _ he => he
  | _ =>
    obtain ⟨hw, hx⟩ := h
    rw [header hw, header hx]
    exact fun _ he => he

theorem raisesIn_of_all {E : List ErrCode} {ws : List Work} (h : (ws.flatMap Work.errs).all (· ∈ E) = true) :
    ∀ w ∈ ws, w.raisesIn E := fun w hw _ he =>
  of_decide_eq_true (List.all_eq_true.1 h _ (List.mem_flatMap.2 ⟨w, hw, he⟩))

theorem closed_raisesIn (E : List ErrCode) : Work.Closed (Work.raisesIn E) where
  left _ _ hw hx e he := hw e (Work.leaves_errs hx e he)
  abort _ w e hw he e' he' := by
    rw [List.mem_singleton.1 he']
    exact hw e he

/-- Steps whose errors are of `E` leave the error code as it was or one of `E`. -/
theorem frame_err (E : List ErrCode) : Work.Frame (Work.raisesIn E) fun s t => t.err = s.err ∨ t.err ∈ E where
  refl _ := .inl rfl
  trans h h' := h'.elim (fun e => e.symm ▸ h) .inr
  run w s _ := (runWork_host w s).mono fun _ h => .inl h.err
  raise s e _ he := by
    obtain ⟨w, hw, he⟩ := he
    rcases terminate_ended s e with h | h
    · exact .inl h
    · exact .inr (by rw [h.err]; exact hw e he)
  done _ := .inl rfl
  hold _ _ := .inl rfl
  start _ _ := .inl rfl

/-- The error code after any turn of a command that was accepted with none is none or an error of its steps. -/
theorem Turn.err_mem {i : Instr} {s₀ s t : State} (h : Turn i s₀ s t) (h₀ : s₀.err = .none) {E : List ErrCode}
    (hE : ∀ w ∈ stepsOf i, w.raisesIn E) : t.err ∈ ErrCode.none :: E := by
  have outside : ∀ s t : State, s.Outside t → t.err = s.err ∨ t.err ∈ E := by
    rintro s t ⟨_, _, _, _, _, _, _, _, _, _, rfl⟩
    exact .inl rfl
  rcases h.since (closed_raisesIn E) (frame_err E) outside hE with he | he
  · exact List.mem_cons.2 (.inl (he.trans h₀))
  · exact List.mem_cons.2 (.inr he)

/-- Settles O46: each row of the table has the errors of the command's steps. -/
theorem errorTable : Obligations.ErrorTable := by
  intro i s₀ s t h₀ h
  cases i <;> exact h.err_mem h₀ (raisesIn_of_all rfl)

/-! ## Tokens and answers that come later -/

theorem given_outside (s : State) (ts : List InToken) (as : List Answer) (r : Option Answer) :
    s.Outside (s.given ts as r) := ⟨_, _, _, _, _, _, _, _, _, _, rfl⟩

/-- A turn commutes with the news when neither side stops (20_memory.md rule R62). -/
theorem settle_given_next {ws : List Work} {s t u v : State} (hb : s.busy = true) (hs : s.stalled = false)
    (h : (runWorks ws s).settle = .next t) {ts : List InToken} {as : List Answer} {r : Option Answer}
    (hr : s.sink.rest = none ∨ as = [] ∧ r = s.sink.rest)
    (hu : (runWorks ws (s.given ts as r)).settle = .next u) (hv : resume (t.given ts as r) = .next v) :
    resume (t.given ts as r) = .next u := by
  rcases settle_given hb hs h ts as r hr with heq | ⟨f, hf⟩ | ⟨f, hf⟩
  · exact heq.symm.trans hu
  · cases hu.symm.trans hf
  · cases hv.symm.trans hf

/-- A command in the invariant that is taken up with the news before a turn, or with the news after it. -/
theorem resume_given {s t : State} (hs : s.Inv) (h : resume s = .next t) (ts : List InToken) (as : List Answer)
    (r : Option Answer) (hr : s.sink.rest = none ∨ as = [] ∧ r = s.sink.rest) :
    ∃ u, resume (s.given ts as r) = .next u ∧ resume (t.given ts as r) = .next u := by
  obtain ⟨t', ht', hInv⟩ := resume_inv hs
  obtain rfl : t' = t := Host.Outcome.next.inj (ht'.symm.trans h)
  obtain ⟨u, hu, _⟩ := resume_inv ((given_outside s ts as r).inv hs)
  obtain ⟨v, hv, _⟩ := resume_inv ((given_outside t' ts as r).inv hInv)
  rcases resume_cases h with ⟨hb, hst, h⟩ | ⟨hno, rfl⟩
  · have hrun : resume (s.given ts as r) = (runWorks s.work (s.given ts as r)).settle := resume_running hb hst
    exact ⟨u, hu, settle_given_next hb hst h hr (hrun.symm.trans hu) hv⟩
  · exact ⟨v, hv, hv⟩

/-- A command that starts with the news before its first turn, or is taken up with the news after it. -/
theorem exec_given {i : Instr} {s t : State} (hs : s.Shape) (hb : s.reader.buf.length < 8) (hbusy : s.busy = true)
    (hd : s.done = false) (he : s.err = .none) (h : exec i s = .next t) (ts : List InToken) (as : List Answer)
    (r : Option Answer) (hr : s.sink.rest = none ∨ as = [] ∧ r = s.sink.rest) :
    ∃ u, exec i (s.given ts as r) = .next u ∧ resume (t.given ts as r) = .next u := by
  obtain ⟨t', ht', hInv⟩ := exec_inv i hs hbusy hd he hb
  obtain rfl : t' = t := Host.Outcome.next.inj (ht'.symm.trans h)
  obtain ⟨u, hu, _⟩ := exec_inv i ((given_outside s ts as r).shape hs) hbusy hd he hb
  obtain ⟨v, hv, _⟩ := resume_inv ((given_outside t' ts as r).inv hInv)
  refine ⟨u, hu, ?_⟩
  obtain ⟨p, hp⟩ := exec_launch i
  rw [hp] at h hu
  cases hst : s.stalled with
  | true =>
    rw [launch_stalled hst] at h
    rw [launch_stalled (s := s.given ts as r) hst] at hu
    cases h
    cases hu
    simp [resume, State.given, State.begun, hst]
  | false =>
    rw [launch_begun hst] at h
    rw [launch_begun (s := s.given ts as r) hst] at hu
    exact settle_given_next (s := s.begun p) hbusy hst h hr hu hv

/-- Settles O54: a turn commutes with what comes to the ports, and the invariant rules out the stops of either side. -/
theorem tokenTiming : Obligations.TokenTiming := by
  intro s t ts as r hr
  exact ⟨fun hs h => resume_given hs h ts as r hr,
    fun i hs hb hbusy hd he h => exec_given hs hb hbusy hd he h ts as r hr⟩

end Sys2Proof.Machine
end

section
/-! What each step of a command does at the ports, by its kind, and from it the frames of the commands without an output
or an input stream, and what a sink that took an `End` can conclude (20_memory.md rules R55, R56, 60_exceptions.md rule
R162). -/

namespace Sys2Proof.Machine

/-! ## The kinds of the steps -/

/-- The steps that touch the writer or the sink (41_bitstream.md rules R86 to R90). -/
def Work.writes : Work → Bool
  | .ensureOpen | .openStream | .closeStream | .offer _ | .offerEnd | .abort _ | .emit _ | .writeField _ | .headerWrite
  | .encodeBody | .decodeBody => true
  | _ => false

/-- The steps that take tokens off IN (20_memory.md rule R55). -/
def Work.reads : Work → Bool
  | .readField _ | .count _ | .encodeBody | .decodeBody => true
  | w => w.ofHeader

/-- The steps that touch the reader: those that read, and `RReset` (41_bitstream.md rules R92 to R94). -/
def Work.usesReader : Work → Bool
  | .rReset => true
  | w => w.reads

/-- The steps that push `End` (41_bitstream.md rule R89). -/
def Work.ends : Work → Bool
  | .closeStream | .offerEnd => true
  | _ => false

theorem ofHeader_ports {w : Work} (h : w.ofHeader = true) : w.writes = false ∧ w.reads = true ∧ w.ends = false := by
  cases w with
  | magic | selector | countFields | treeLen | treeNode | treeSym | treeSpare => exact ⟨rfl, rfl, rfl⟩
  | _ => exact absurd h Bool.false_ne_true

/-- A step leaves itself, the rest of a count, a step of the same header, or, where it writes, a remainder of what it
writes. -/
theorem Work.leaves_cases {w x : Work} (h : w.leaves x) :
    x = w ∨ (∃ m n, w = .count m ∧ x = .count n) ∨ (w.ofHeader = true ∧ x.ofHeader = true) ∨
      (w.writes = true ∧ x.remainder = true ∧ (x.ends = true → w.ends = true)) := by
  have rest : ∀ {w x : Work}, w.writes = true → x.remainder = true → (x.ends = true → w.ends = true) →
      x = w ∨ (∃ m n, w = .count m ∧ x = .count n) ∨ (w.ofHeader = true ∧ x.ofHeader = true) ∨
        (w.writes = true ∧ x.remainder = true ∧ (x.ends = true → w.ends = true)) :=
    fun h1 h2 h3 => .inr (.inr (.inr ⟨h1, h2, h3⟩))
  cases w with
  | offer => obtain ⟨_, rfl⟩ := h; exact rest rfl rfl id
  | offerEnd | abort | readField => exact .inl h
  | count m => obtain ⟨n, rfl⟩ := h; exact .inr (.inl ⟨m, n, rfl, rfl⟩)
  | emit | writeField | headerWrite => obtain ⟨_, rfl⟩ | ⟨_, rfl⟩ := h <;> exact rest rfl rfl id
  | closeStream =>
    obtain ⟨_, rfl⟩ | rfl | rfl := h
    · exact rest rfl rfl fun _ => rfl
    · exact .inl rfl
    · exact rest rfl rfl fun _ => rfl
  | encodeBody =>
    obtain ⟨_, rfl⟩ | ⟨_, rfl⟩ | rfl := h
    · exact rest rfl rfl id
    · exact rest rfl rfl id
    · exact .inl rfl
  | decodeBody =>
    obtain ⟨_, rfl⟩ | ⟨_, rfl⟩ | rfl | rfl := h
    · exact rest rfl rfl id
    · exact rest rfl rfl id
    · exact rest rfl rfl id
    · exact .inl rfl
  | _ => exact .inr (.inr (.inl h))

theorem closed_silent : Work.Closed fun w => w.writes = false where
  left w x hw hx := by
    rcases Work.leaves_cases hx with rfl | ⟨m, n, rfl, rfl⟩ | ⟨_, hx⟩ | ⟨hw', _⟩
    · exact hw
    · rfl
    · exact (ofHeader_ports hx).1
    · exact absurd (hw'.symm.trans hw) Bool.true_eq_false.mp
  abort h := absurd h Bool.true_eq_false.mp

theorem closed_endless : Work.Closed fun w => w.ends = false where
  left w x hw hx := by
    rcases Work.leaves_cases hx with rfl | ⟨m, n, rfl, rfl⟩ | ⟨_, hx⟩ | ⟨_, _, he⟩
    · exact hw
    · rfl
    · exact (ofHeader_ports hx).2.2
    · rw [Bool.eq_false_iff]
      exact fun h => absurd ((he h).symm.trans hw) Bool.true_eq_false.mp
  abort _ _ _ _ _ := rfl

theorem remainder_reads {w : Work} (h : w.remainder = true) : w.reads = false ∧ w.usesReader = false := by
  cases w with
  | offer | offerEnd | emit | rewind | abort => exact ⟨rfl, rfl⟩
  | _ => exact absurd h Bool.false_ne_true

theorem usesReader_of_reads {w : Work} (h : w.reads = true) : w.usesReader = true := by
  unfold Work.usesReader
  split
  · rfl
  · exact h

theorem ofHeader_usesReader {w : Work} (h : w.ofHeader = true) : w.usesReader = true :=
  usesReader_of_reads (ofHeader_ports h).2.1

theorem closed_reads : Work.Closed fun w => w.reads = false :=
  closed_without (fun _ h => (remainder_reads h).1) (fun _ _ => rfl) fun _ _ h h' =>
    (ofHeader_ports h).2.1.trans (ofHeader_ports h').2.1.symm

theorem closed_usesReader : Work.Closed fun w => w.usesReader = false :=
  closed_without (fun _ h => (remainder_reads h).2) (fun _ _ => rfl) fun _ _ h h' =>
    (ofHeader_usesReader h).trans (ofHeader_usesReader h').symm

/-! ## What a step does at the ports -/

/-- What a step leaves alone at the ports, by its kind. -/
structure PortsByKind (w : Work) (s t : State) : Prop where
  writer : w.writes = false → t.writer = s.writer
  sink   : w.writes = false → t.sink = s.sink
  inq    : w.reads = false → t.inq = s.inq
  reader : w.usesReader = false → t.reader = s.reader

/-- A step that changes nothing at the ports. -/
theorem PortsByKind.keeps {w : Work} {s t : State} (h1 : t.writer = s.writer) (h2 : t.sink = s.sink) (h3 : t.inq = s.inq)
    (h4 : t.reader = s.reader) : PortsByKind w s t := ⟨fun _ => h1, fun _ => h2, fun _ => h3, fun _ => h4⟩

/-- A step that writes and does not read. -/
theorem PortsByKind.output {w : Work} {s t : State} (hw : w.writes = true) (h1 : t.inq = s.inq)
    (h2 : t.reader = s.reader) : PortsByKind w s t :=
  ⟨fun h => absurd (hw.symm.trans h) Bool.true_eq_false.mp, fun h => absurd (hw.symm.trans h) Bool.true_eq_false.mp,
    fun _ => h1, fun _ => h2⟩

/-- A step that reads and does not write. -/
theorem PortsByKind.input {w : Work} {s t : State} (hr : w.reads = true) (h1 : t.writer = s.writer)
    (h2 : t.sink = s.sink) : PortsByKind w s t :=
  ⟨fun _ => h1, fun _ => h2, fun h => absurd (hr.symm.trans h) Bool.true_eq_false.mp,
    fun h => absurd ((usesReader_of_reads hr).symm.trans h) Bool.true_eq_false.mp⟩

/-- A step that reads and writes. -/
theorem PortsByKind.both {w : Work} (hw : w.writes = true) (hr : w.reads = true) (s t : State) : PortsByKind w s t :=
  ⟨fun h => absurd (hw.symm.trans h) Bool.true_eq_false.mp, fun h => absurd (hw.symm.trans h) Bool.true_eq_false.mp,
    fun h => absurd (hr.symm.trans h) Bool.true_eq_false.mp,
    fun h => absurd ((usesReader_of_reads hr).symm.trans h) Bool.true_eq_false.mp⟩

theorem WriterOnly.ports {w : Work} {s t : State} (h : WriterOnly s t) (hw : w.writes = true) : PortsByKind w s t := by
  obtain ⟨_, _, _, rfl⟩ := h
  exact .output hw rfl rfl

theorem HeaderOnly.ports {w : Work} {s t : State} (h : HeaderOnly s t) (hw : w.ofHeader = true) :
    PortsByKind w s t := by
  obtain ⟨_, _, _, _, _, _, _, _, _, _, _, rfl, _⟩ := h
  exact .input (ofHeader_ports hw).2.1 rfl rfl

/-- The kinds of the steps cover everything a step does at the ports. -/
theorem runWork_ports (w : Work) (s : State) : (runWork w s).All (PortsByKind w s) := by
  have needs : ∀ b, (need b s).All (PortsByKind w s) := by
    intro b; unfold need; split <;> exact .keeps rfl rfl rfl rfl
  cases w with
  | bitio | clearCodes | clearTree | clearAll | markW | markR | decodeStart | rewind | result | build =>
    exact .keeps rfl rfl rfl rfl
  | rReset => exact ⟨fun _ => rfl, fun _ => rfl, fun _ => rfl, fun h => absurd h Bool.true_eq_false.mp⟩
  | openStream => exact .output rfl rfl rfl
  | ensureOpen =>
    show PortsByKind _ s s.ensureOpen
    unfold State.ensureOpen
    split <;> exact .output rfl rfl rfl
  | closeStream => exact (closeStream_footprint s).mono fun _ h => h.ports rfl
  | offer b => exact (offerByte_footprint b s).mono fun _ h => h.ports rfl
  | offerEnd => exact (offerEnd_footprint s).mono fun _ h => h.ports rfl
  | abort e =>
    show (resumeAbort e s).All _
    unfold resumeAbort
    rcases push_cases s .abort with ⟨a, _, hs⟩ | ⟨_, hs⟩ <;> rw [hs] <;> exact .output rfl rfl rfl
  | emit bits => exact (emit_footprint _ s).mono fun _ h => h.ports rfl
  | writeField width => exact (emit_footprint _ s).mono fun _ h => h.ports rfl
  | headerWrite =>
    show (headerWrite s.planFmt s).All _
    unfold headerWrite
    split
    · trivial
    · exact (emit_footprint _ _).mono fun _ h => by
        obtain ⟨_, _, _, rfl⟩ := h
        exact .output rfl rfl rfl
  | readField width =>
    have result : ∀ {t : State} (v : Int), ReaderOnly s t → PortsByKind (.readField width) s (t.setResult v) := by
      rintro t v ⟨_, _, _, rfl⟩
      exact .input rfl rfl rfl
    exact ReadResult.andThen_all (readBits_footprint s _)
      (fun _ h => by obtain ⟨_, _, _, rfl⟩ := h; exact .input rfl rfl rfl) (fun _ h => result _ h)
      fun _ _ _ h => result _ h
  | count n =>
    exact (countLoop_footprint _ n _).mono fun _ h => by
      obtain ⟨_, _, _, rfl⟩ := h
      exact .input rfl rfl rfl
  | needTree => exact needs _
  | needPlan => exact needs _
  | genCodes =>
    show (genCodes s).All _
    rcases genCodes_cases s with ⟨cs, b, _, he⟩ | ⟨_, he⟩ <;> rw [he]
    · exact .keeps rfl rfl rfl rfl
    · trivial
  | plan fmt =>
    show (planStream fmt s).All _
    unfold planStream
    rcases genCodes_cases s.buildTree with ⟨cs, b, _, he⟩ | ⟨_, he⟩ <;> rw [he]
    · exact .keeps rfl rfl rfl rfl
    · trivial
  | gate force =>
    show (gate force s).All _
    unfold gate
    split <;> exact .keeps rfl rfl rfl rfl
  | encodeBody => exact (encodeLoop_footprint _ _).mono fun t _ => .both rfl rfl s t
  | decodeBody => exact (decodeLoop_footprint _ s).mono fun t _ => .both rfl rfl s t
  | magic => exact (readMagic_footprint s).mono fun _ h => h.ports rfl
  | selector => exact (readSelector_footprint s).mono fun _ h => h.ports rfl
  | countFields left => exact (countFields_footprint _ s).mono fun _ h => h.ports rfl
  | treeLen => exact (treeHeader_footprint s).mono fun _ h => h.ports rfl
  | treeNode => exact (treeFrom_footprint s).mono fun _ h => h.ports rfl
  | treeSym i => exact (treeSymFrom_footprint i s).mono fun _ h => h.ports rfl
  | treeSpare => exact (spareLoop_footprint _ s).mono fun _ h => h.ports rfl

/-! ## The frames of the ports -/

/-- A termination takes nothing off IN and leaves the reader (60_exceptions.md rule R160). -/
theorem terminate_input (s : State) (e : ErrCode) : (s.terminate e).inq = s.inq ∧ (s.terminate e).reader = s.reader := by
  rcases terminate_cases s e with ⟨_, he⟩ | ⟨_, _, _, _, he⟩ | ⟨_, _, _, he⟩ <;> rw [he] <;> exact ⟨rfl, rfl⟩

/-- A termination of a command that opened no stream pushes no `Abort` (60_exceptions.md rule R160). -/
theorem terminate_unopened {s : State} (h : s.opened = false) (e : ErrCode) :
    (s.terminate e).writer = s.writer ∧ (s.terminate e).sink = s.sink := by
  simp only [State.terminate, h, Bool.false_and, Bool.false_eq_true, if_false]
  exact ⟨rfl, rfl⟩

/-- Steps that do not write leave the writer and the sink, and without `WOpen` so does a termination. -/
theorem frame_output :
    Work.Frame (fun w => w.writes = false) fun s t => t.writer = s.writer ∧ t.sink = s.sink where
  refl _ := ⟨rfl, rfl⟩
  trans h h' := ⟨h'.1.trans h.1, h'.2.trans h.2⟩
  run w s hw := (runWork_ports w s).mono fun _ h => ⟨h.writer hw, h.sink hw⟩
  raise _ e ho _ := terminate_unopened (Bool.eq_false_iff.2 fun h => absurd (ho h) Bool.true_eq_false.mp) e
  done _ := ⟨rfl, rfl⟩
  hold _ _ := ⟨rfl, rfl⟩
  start _ _ := ⟨rfl, rfl⟩

theorem frame_inq : Work.Frame (fun w => w.reads = false) fun s t => t.inq = s.inq where
  refl _ := rfl
  trans h h' := h'.trans h
  run w s hw := (runWork_ports w s).mono fun _ h => h.inq hw
  raise s e _ _ := (terminate_input s e).1
  done _ := rfl
  hold _ _ := rfl
  start _ _ := rfl

theorem frame_reader : Work.Frame (fun w => w.usesReader = false) fun s t => t.reader = s.reader where
  refl _ := rfl
  trans h h' := h'.trans h
  run w s hw := (runWork_ports w s).mono fun _ h => h.reader hw
  raise s e _ _ := (terminate_input s e).2
  done _ := rfl
  hold _ _ := rfl
  start _ _ := rfl

/-- Settles O50: no step of these commands writes, and none opens a stream that a termination would abort. -/
theorem outputFrame : Obligations.OutputFrame := by
  rintro i s₀ s t (rfl | rfl | rfl | ⟨fmt, rfl⟩ | rfl | ⟨w, rfl⟩ | rfl) h <;>
    exact h.frame closed_silent frame_output (without_of_any rfl)

/-- Settles O51: no step of these commands reads, and BS_RRESET alone has a step that touches the reader. -/
theorem inputFrame : Obligations.InputFrame := by
  intro i s₀ s t hi h
  have keeps : (stepsOf i).any Work.reads = false → (i ≠ .bsRreset → (stepsOf i).any Work.usesReader = false) →
      t.inq = s.inq ∧ (i ≠ .bsRreset → t.reader = s.reader) := fun h1 h2 =>
    ⟨h.frame closed_reads frame_inq (without_of_any h1),
      fun hne => h.frame closed_usesReader frame_reader (without_of_any (h2 hne))⟩
  rcases hi with rfl | rfl | rfl | ⟨w, rfl⟩ | rfl | rfl
  on_goal 6 => exact keeps rfl fun hne => absurd rfl hne
  all_goals exact keeps rfl fun _ => rfl

/-! ## What the sink took -/

/-- The sink took further tokens, and of no `End` among them it answered `ok`. -/
def TakesNoEnd (s t : State) : Prop := ∃ new, t.sink.taken = s.sink.taken ++ new ∧ (.eos, .ok) ∉ new

theorem TakesNoEnd.of_eq {s t : State} (h : t.sink.taken = s.sink.taken) : TakesNoEnd s t :=
  ⟨[], by rw [h, List.append_nil], List.not_mem_nil⟩

theorem TakesNoEnd.trans {a b c : State} (h : TakesNoEnd a b) (h' : TakesNoEnd b c) : TakesNoEnd a c := by
  obtain ⟨xs, hx, hxs⟩ := h
  obtain ⟨ys, hy, hys⟩ := h'
  exact ⟨xs ++ ys, by rw [hy, hx, List.append_assoc], fun hm => (List.mem_append.1 hm).elim hxs hys⟩

theorem takesNoEnd_record {s t : State} {x : OutToken} {a : Answer} (h : t.sink = s.sink.record x a)
    (hx : (x, a) ≠ (.eos, .ok)) : TakesNoEnd s t :=
  ⟨[(x, a)], by rw [h]; rfl, fun hm => hx (List.mem_singleton.1 hm).symm⟩

theorem offerByte_takes (b : Byte) (s : State) : (offerByte b s).All (TakesNoEnd s) := by
  rcases offerByte_cases b s with ⟨_, h⟩ | ⟨_, h⟩ | ⟨_, h⟩ <;> rw [h]
  · exact takesNoEnd_record rfl (by simp)
  · exact takesNoEnd_record rfl (by simp)
  · exact .of_eq rfl

theorem emit_takes (bs : Bits) (s : State) : (emit bs s).All (TakesNoEnd s) := by
  induction bs generalizing s with
  | nil => exact TakesNoEnd.of_eq rfl
  | cons b bs ih =>
    by_cases h : s.writer.buf.length = 7
    · rw [emit_cons_of_eq h]
      exact Run.andThen_all (offerByte_takes _ (s.pushBit b).dropWbuf) (fun _ h => h) fun s' _ h' =>
        (ih s').mono fun _ h'' => TakesNoEnd.trans h' h''
    · rw [emit_cons_of_ne h]
      exact ih (s.pushBit b)

theorem encodeLoop_takes (ts : List InToken) (s : State) : (encodeLoop ts s).All (TakesNoEnd s) := by
  induction ts generalizing s with
  | nil => exact TakesNoEnd.of_eq rfl
  | cons t ts ih =>
    cases t with
    | byte b =>
      unfold encodeLoop
      simp only
      split
      · exact Run.andThen_all (emit_takes _ { s with inq := ts }) (fun _ h => h) fun s' _ h' =>
          (ih s').mono fun _ h'' => TakesNoEnd.trans h' h''
      · exact TakesNoEnd.of_eq rfl
    | eos => exact emit_takes _ { s with inq := ts }
    | error => exact TakesNoEnd.of_eq rfl

theorem decodeLoop_takes (n : Nat) (s : State) : (decodeLoop n s).All (TakesNoEnd s) := by
  induction n generalizing s with
  | zero => trivial
  | succ n ih =>
    have reader : ∀ {t : State}, ReaderOnly s t → TakesNoEnd s t := by
      rintro t ⟨_, _, _, rfl⟩
      exact .of_eq rfl
    unfold decodeLoop
    split
    · split
      · exact TakesNoEnd.of_eq rfl
      · exact Run.andThen_all (emit_takes _ s) (fun _ h => h) fun s' _ h' =>
          (ih s'.rewind).mono fun _ h'' => TakesNoEnd.trans h' h''
    · exact ReadResult.andThen_all (readBits_footprint s 1) (fun _ h => reader h) (fun _ h => reader h) fun v s' _ h' =>
        (ih (s'.descend v)).mono fun _ h'' => (reader h').trans h''

/-- No step but those that push `End` gets one taken. -/
theorem runWork_takes {w : Work} (hw : w.ends = false) (s : State) : (runWork w s).All (TakesNoEnd s) := by
  cases w with
  | closeStream | offerEnd => exact absurd hw Bool.true_eq_false.mp
  | openStream => exact TakesNoEnd.of_eq rfl
  | ensureOpen =>
    show TakesNoEnd s s.ensureOpen
    unfold State.ensureOpen
    split <;> exact TakesNoEnd.of_eq rfl
  | offer b => exact offerByte_takes b s
  | abort e =>
    show (resumeAbort e s).All _
    unfold resumeAbort
    rcases push_cases s .abort with ⟨a, _, hs⟩ | ⟨_, hs⟩ <;> rw [hs]
    · exact takesNoEnd_record rfl (by simp)
    · exact TakesNoEnd.of_eq rfl
  | emit bits => exact emit_takes _ s
  | writeField width => exact emit_takes _ s
  | headerWrite =>
    show (headerWrite s.planFmt s).All _
    unfold headerWrite
    split
    · trivial
    · exact emit_takes _ { s with phase := .hdrWrite }
  | encodeBody => exact encodeLoop_takes s.inq { s with phase := .encodeBody }
  | decodeBody => exact decodeLoop_takes _ s
  | _ => exact (runWork_ports _ s).mono fun _ h => .of_eq (congrArg Sink.taken (h.sink rfl))

/-- A termination pushes `Abort` at most (60_exceptions.md rule R160). -/
theorem terminate_takes (s : State) (e : ErrCode) : TakesNoEnd s (s.terminate e) := by
  rcases terminate_cases s e with ⟨_, he⟩ | ⟨_, _, _, _, he⟩ | ⟨_, _, _, he⟩ <;> rw [he]
  · exact .of_eq rfl
  · exact takesNoEnd_record rfl (by simp)
  · exact .of_eq rfl

theorem frame_takes : Work.Frame (fun w => w.ends = false) TakesNoEnd where
  refl _ := .of_eq rfl
  trans := .trans
  run _ s hw := runWork_takes hw s
  raise s e _ _ := terminate_takes s e
  done _ := .of_eq rfl
  hold _ _ := .of_eq rfl
  start _ _ := .of_eq rfl

/-! ## The last step that pushes `End` -/

/-- Of the steps left of a command at most one pushes `End`, and after that one the command's RESULT alone is left. -/
def EndsLast (ws : List Work) : Prop :=
  (∀ w ∈ ws, w.ends = false) ∨
    ∃ pre x, ws = pre ++ [x, .result .wbits] ∧ (∀ w ∈ pre, w.ends = false) ∧ x.ends = true

theorem endsLast_abort (e : ErrCode) : EndsLast [.abort e] := .inl (by simp [Work.ends])

/-- A step that pushes `End`: it is done once the sink took it; before that, an error or a hold, no `End` was taken; and
a hold leaves one step that pushes it, as the last. -/
def EndsWhenDone (s : State) : Run → Prop
  | .done u => ∃ new, u.sink.taken = s.sink.taken ++ new
  | .ended _ => False
  | .raised _ u => TakesNoEnd s u
  | .held u left => TakesNoEnd s u ∧ ∃ pre x, left = pre ++ [x] ∧ (∀ w ∈ pre, w.ends = false) ∧ x.ends = true
  | .stuck _ => False

theorem offerEnd_endsWhenDone (s : State) : EndsWhenDone s (offerEnd s) := by
  rcases offerEnd_cases s with ⟨_, h⟩ | ⟨_, h⟩ | ⟨_, h⟩ <;> rw [h]
  · exact ⟨_, rfl⟩
  · exact takesNoEnd_record rfl (by simp)
  · exact ⟨.of_eq rfl, [], .offerEnd, rfl, by simp, rfl⟩

theorem EndsWhenDone.after {s u : State} {r : Run} (h : TakesNoEnd s u) (hr : EndsWhenDone u r) : EndsWhenDone s r := by
  cases r with
  | done v =>
    obtain ⟨xs, hx, _⟩ := h
    obtain ⟨ys, hy⟩ := hr
    exact ⟨xs ++ ys, by rw [hy, hx, List.append_assoc]⟩
  | ended v => exact hr
  | raised e v => exact h.trans hr
  | held v left => exact ⟨h.trans hr.1, hr.2⟩
  | stuck f => exact hr

theorem closeStream_endsWhenDone (s : State) : EndsWhenDone s (closeStream s) := by
  have hend : ∀ u, EndsWhenDone u (endStream u) := fun u =>
    offerEnd_endsWhenDone { u with writer := { u.writer with closed := true } }
  unfold closeStream
  split
  · exact ⟨[], (List.append_nil _).symm⟩
  split
  · exact hend s
  · have htake := offerByte_takes (byteOf s.writer.buf) s.dropWbuf
    rcases offerByte_cases (byteOf s.writer.buf) s.dropWbuf with ⟨_, h⟩ | ⟨_, h⟩ | ⟨_, h⟩ <;> rw [h] at htake ⊢
    · exact .after htake (hend _)
    · exact htake
    · exact ⟨htake, [.offer _], .closeStream, rfl, by simp [Work.ends], rfl⟩

theorem runWork_endsWhenDone {x : Work} (h : x.ends = true) (s : State) : EndsWhenDone s (runWork x s) := by
  cases x with
  | closeStream => exact closeStream_endsWhenDone s
  | offerEnd => exact offerEnd_endsWhenDone s
  | _ => exact absurd h Bool.false_ne_true

/-! ## Over the turns of COMPRESS and DECOMPRESS -/

/-- The tokens the sink took since `s` hold an `End` only if the command ended, with no error written; a command that
still runs has none written either, and of the steps it has left at most the last pushes `End`. -/
structure EndsProperly (s t : State) : Prop where
  taken : ∃ new, t.sink.taken = s.sink.taken ++ new ∧ ((.eos, .ok) ∈ new → t.busy = false ∧ t.err = s.err)
  work  : t.busy = true → EndsLast t.work
  err   : t.busy = true → t.err = s.err

/-- While a command runs, no `End` of it was taken. -/
theorem EndsProperly.takesNoEnd {s t : State} (h : EndsProperly s t) (hb : t.busy = true) : TakesNoEnd s t := by
  obtain ⟨new, hn, hm⟩ := h.taken
  exact ⟨new, hn, fun h' => absurd (hb.symm.trans (hm h').1) Bool.true_eq_false.mp⟩

theorem EndsProperly.after {s a t : State} (h : TakesNoEnd s a) (he : a.err = s.err) (ht : EndsProperly a t) :
    EndsProperly s t := by
  obtain ⟨xs, hx, hxs⟩ := h
  obtain ⟨⟨ys, hy, hys⟩, hw, herr⟩ := ht
  refine ⟨⟨xs ++ ys, by rw [hy, hx, List.append_assoc], fun hm => ?_⟩, hw, fun hb => (herr hb).trans he⟩
  obtain ⟨hb, hte⟩ := hys ((List.mem_append.1 hm).resolve_left hxs)
  exact ⟨hb, hte.trans he⟩

theorem TakesNoEnd.endsProperly {s t : State} (h : TakesNoEnd s t) (hw : t.busy = true → EndsLast t.work)
    (he : t.busy = true → t.err = s.err) : EndsProperly s t := by
  obtain ⟨new, hn, hm⟩ := h
  exact ⟨⟨new, hn, fun h' => absurd h' hm⟩, hw, he⟩

/-- A command's RESULT and success end (30_encoding.md rule R78). -/
theorem settle_lastResult {r : ResultSource} {s t : State} (h : (runWorks [.result r] s).settle = .next t) :
    t.busy = false ∧ t.err = s.err ∧ t.sink = s.sink := by
  have hrun : runWork (.result r) s = .done (s.setResult (r.value s)) := rfl
  rw [runWorks_one, hrun] at h
  cases h
  exact ⟨rfl, rfl, rfl⟩

theorem succeed_endsProperly (s : State) : EndsProperly s s.succeed :=
  TakesNoEnd.endsProperly (.of_eq rfl) (fun hb => absurd hb Bool.false_ne_true) fun hb => absurd hb Bool.false_ne_true

theorem hold_endsProperly (s : State) {left : List Work} (h : EndsLast left) : EndsProperly s { s with work := left } :=
  TakesNoEnd.endsProperly (.of_eq rfl) (fun _ => h) fun _ => rfl

/-- A termination pushes no `End`, and a hold at its `Abort` leaves none to push. -/
theorem terminate_endsProperly (s : State) (e : ErrCode) : EndsProperly s (s.terminate e) := by
  have htake := terminate_takes s e
  rcases terminate_cases s e with ⟨_, he⟩ | ⟨_, _, _, _, he⟩ | ⟨_, _, _, he⟩ <;> rw [he] at htake ⊢
  · exact htake.endsProperly (fun hb => absurd hb Bool.false_ne_true) fun hb => absurd hb Bool.false_ne_true
  · exact htake.endsProperly (fun hb => absurd hb Bool.false_ne_true) fun hb => absurd hb Bool.false_ne_true
  · exact htake.endsProperly (fun _ => endsLast_abort e) fun _ => rfl

/-- A step that pushes `End`, with the command's RESULT alone after it: once the `End` was taken the command ends. -/
theorem settle_last {x : Work} (hx : x.ends = true) {s t : State}
    (h : (runWorks [x, .result .wbits] s).settle = .next t) : EndsProperly s t := by
  have hlast := runWork_endsWhenDone hx s
  have hhost := runWork_host x s
  rw [runWorks_cons] at h
  cases hr : runWork x s with
  | done u =>
    rw [hr] at h hlast hhost
    rw [Run.andThen_done] at h
    obtain ⟨hbusy, he, hsink⟩ := settle_lastResult h
    obtain ⟨new, hn⟩ := hlast
    exact ⟨⟨new, hsink ▸ hn, fun _ => ⟨hbusy, he.trans hhost.err⟩⟩,
      fun hb => absurd (hbusy.symm.trans hb) Bool.false_ne_true,
      fun hb => absurd (hbusy.symm.trans hb) Bool.false_ne_true⟩
  | raised e u =>
    rw [hr] at h hlast hhost
    cases h
    exact .after hlast hhost.err (terminate_endsProperly u e)
  | held u left =>
    rw [hr] at h hlast hhost
    cases h
    obtain ⟨htake, pre, y, rfl, hpre, hy⟩ := hlast
    exact .after htake hhost.err (hold_endsProperly u (.inr ⟨pre, y, List.append_assoc _ _ _, hpre, hy⟩))
  | ended u => rw [hr] at hlast; exact hlast.elim
  | stuck f => rw [hr] at hlast; exact hlast.elim

/-- A run of steps that push no `End`, with steps after it that end properly. -/
theorem settle_endless {pre ws : List Work} {s t : State} (hpre : ∀ w ∈ pre, w.ends = false)
    (hws : ∀ left, (∀ w ∈ left, w.ends = false) → EndsLast (left ++ ws))
    (hlast : ∀ u, (runWorks ws u).settle = .next t → EndsProperly u t)
    (h : (runWorks (pre ++ ws) s).settle = .next t) : EndsProperly s t := by
  have htake := frame_takes.runWorks pre s hpre
  have hleft := runWorks_within closed_endless pre s hpre fun _ => rfl
  have hhost := runWorks_host pre s
  rw [runWorks_append] at h
  cases hr : runWorks pre s with
  | done u =>
    rw [hr] at h htake hhost
    exact .after htake hhost.err (hlast u h)
  | ended u =>
    rw [hr] at h htake hhost
    cases h
    exact .after htake hhost.err (succeed_endsProperly u)
  | raised e u =>
    rw [hr] at h htake hhost
    cases h
    exact .after htake hhost.err (terminate_endsProperly u e)
  | held u left =>
    rw [hr] at h htake hleft hhost
    cases h
    exact .after htake hhost.err (hold_endsProperly u (hws left hleft.1))
  | stuck f => rw [hr] at h; cases h

/-- A run of steps of which at most the last pushes `End` ends properly. -/
theorem settle_endsLast {ws : List Work} {s t : State} (hws : EndsLast ws) (h : (runWorks ws s).settle = .next t) :
    EndsProperly s t := by
  rcases hws with hws | ⟨pre, x, rfl, hpre, hx⟩
  · refine settle_endless (ws := []) hws (fun left hl => .inl (by simpa using hl)) (fun u hu => ?_) (by simpa using h)
    cases hu
    exact succeed_endsProperly u
  · exact settle_endless hpre (fun left hl => .inr ⟨left, x, rfl, hl, hx⟩) (fun u => settle_last hx) h

/-- With no stream open `WClose` does nothing (41_bitstream.md rule R89). -/
theorem runWorks_close_closed {s : State} (h : s.writer.closed = true) (ws : List Work) :
    runWorks (.closeStream :: ws) s = runWorks ws s := by
  have hclose : runWork .closeStream s = .done s := closeStream_closed h
  rw [runWorks_cons, hclose, Run.andThen_done]

theorem runWork_needPlan (s : State) : runWork .needPlan s = need s.planValid s := rfl

theorem runWork_gate (force : Bool) (s : State) : runWork (.gate force) s = gate force s := rfl

theorem runWork_rReset (s : State) : runWork .rReset s = .done s.resetReader := rfl

theorem gate_refused {s : State} {force : Bool} (h : s.refuses force = true) :
    gate force s = .ended (s.setResult s.planSaved.toInt) := if_pos h

theorem gate_passed {s : State} {force : Bool} (h : s.refuses force = false) : gate force s = .done s := by
  rw [gate, h, if_neg Bool.false_ne_true]

/-- COMPRESS finds no plan or is refused, or it goes on to its `WOpen` (46_compressor.md rules R143, R144). -/
theorem runWorks_compress (force : Bool) (s : State) :
    runWorks (stepsOf (.compress force)) s = runWorks [.needPlan, .gate force] s ∨
    runWorks (stepsOf (.compress force)) s =
      runWorks [.closeStream, .openStream, .headerWrite, .encodeBody, .closeStream, .result .wbits] s.resetReader := by
  rw [stepsOf, runWorks_cons, runWorks_cons .needPlan, runWork_needPlan]
  cases s.planValid with
  | false =>
    rw [need, if_neg Bool.false_ne_true, Run.andThen_raised, Run.andThen_raised]
    exact .inl rfl
  | true =>
    rw [need, if_pos rfl, Run.andThen_done, Run.andThen_done, runWorks_cons, runWorks_cons (.gate force), runWork_gate]
    cases hr : s.refuses force with
    | true =>
      rw [gate_refused hr, Run.andThen_ended, Run.andThen_ended]
      exact .inl rfl
    | false =>
      rw [gate_passed hr, Run.andThen_done, Run.andThen_done, runWorks_cons, runWork_rReset, Run.andThen_done]
      exact .inr rfl

/-- DECOMPRESS clears the tables and goes on to its `WOpen` with a new reader (47_decompressor.md rule R152). -/
theorem runWorks_decompress (s : State) : runWorks (stepsOf .decompress) s =
    runWorks [.closeStream, .openStream, .magic, .decodeStart, .decodeBody, .closeStream, .result .wbits]
      s.clearAll.resetReader := by
  have hclear : runWork .clearAll s = .done s.clearAll := rfl
  rw [stepsOf, runWorks_cons, hclear, Run.andThen_done, runWorks_cons, runWork_rReset, Run.andThen_done]

theorem endsLast_compress : EndsLast [.openStream, .headerWrite, .encodeBody, .closeStream, .result .wbits] :=
  .inr ⟨[.openStream, .headerWrite, .encodeBody], .closeStream, rfl, without_of_any rfl, rfl⟩

theorem endsLast_decompress :
    EndsLast [.openStream, .magic, .decodeStart, .decodeBody, .closeStream, .result .wbits] :=
  .inr ⟨[.openStream, .magic, .decodeStart, .decodeBody], .closeStream, rfl, without_of_any rfl, rfl⟩

/-- A COMPRESS or DECOMPRESS that starts with no stream open pushes no `End` but its own. -/
theorem settle_opens {i : Instr} (hi : i = .decompress ∨ ∃ force, i = .compress force) {s t : State}
    (hc : s.writer.closed = true) (h : (runWorks (stepsOf i) s).settle = .next t) : EndsProperly s t := by
  rcases hi with rfl | ⟨force, rfl⟩
  · rw [runWorks_decompress, runWorks_close_closed (s := s.clearAll.resetReader) hc] at h
    exact .after (a := s.clearAll.resetReader) (.of_eq rfl) rfl (settle_endsLast endsLast_decompress h)
  · rcases runWorks_compress force s with hrun | hrun
    · rw [hrun] at h
      exact settle_endsLast (.inl (without_of_any rfl)) h
    · rw [hrun, runWorks_close_closed (s := s.resetReader) hc] at h
      exact .after (a := s.resetReader) (.of_eq rfl) rfl (settle_endsLast endsLast_compress h)

/-- Before its first step a command took nothing to the sink and left the writer. -/
theorem State.Starts.output {s₀ a : State} (h : s₀.Starts a) :
    a.sink.taken = s₀.sink.taken ∧ a.writer.closed = s₀.writer.closed := by
  obtain ⟨_, p, ws, ⟨_, _, _, _, _, _, _, _, _, _, rfl⟩, rfl⟩ := h
  exact ⟨rfl, rfl⟩

/-- A COMPRESS or DECOMPRESS accepted with no stream open ends properly, at whichever turn. -/
theorem Turn.endsProperly {i : Instr} (hi : i = .decompress ∨ ∃ force, i = .compress force) {s₀ s t : State}
    (hc : s₀.writer.closed = true) (h : Turn i s₀ s t) : s₀.Starts t ∨ EndsProperly s₀ t := by
  refine h.starts_or (P := EndsProperly s₀) ?first ?outside ?again
  case first =>
    intro a b ha hr
    obtain ⟨htaken, hclosed⟩ := ha.output
    exact .after (.of_eq htaken) ha.err (settle_opens hi (hclosed.trans hc) hr)
  case outside =>
    rintro a b ⟨_, _, _, _, _, _, _, _, _, _, rfl⟩ ⟨h1, h2, h3⟩
    exact ⟨h1, h2, h3⟩
  case again =>
    intro a b hh ha hr
    exact .after (ha.takesNoEnd hh.busy) (ha.err hh.busy) (settle_endsLast (ha.work hh.busy) hr)

/-- Settles O47: the `End` of a COMPRESS or DECOMPRESS is its last step but the RESULT, so once the sink took it the
command ends without an error. -/
theorem noFalseEnd : Obligations.NoFalseEnd := by
  intro i s₀ s t hi hc h₀ h
  rcases h.endsProperly hi hc with hs | hend
  · exact ⟨[], by rw [hs.output.1, List.append_nil], fun hm => absurd hm List.not_mem_nil⟩
  · obtain ⟨new, hn, hm⟩ := hend.taken
    exact ⟨new, hn, fun h' => ⟨(hm h').1, (hm h').2.trans h₀⟩⟩

end Sys2Proof.Machine
end

section
/-! The decoder and the encoder against the opcode table: a word's fields by the row that selects it, one row for a word,
and the round trips (30_encoding.md rules R70 to R76). -/

namespace Sys2Proof

open Sys2Proof.Laws

/-! ## Rows -/

theorem Row.selects_iff {r : Row} {w : Word} : r.selects w = true ↔ w &&& r.mask = r.matchBits := beq_iff_eq

/-- The row fixes the `n` bits from bit `a` on to the value `v` (30_encoding.md rule R74). -/
def Row.fixes (r : Row) (a n : Nat) (v : BitVec n) : Bool :=
  r.mask.extractLsb' a n == BitVec.allOnes n && r.matchBits.extractLsb' a n == v

/-- A word that selects a row has the bits the row fixes. -/
theorem Row.field_of_selects {r : Row} {w : Word} (h : r.selects w = true) {a n : Nat} {v : BitVec n}
    (hf : r.fixes a n v = true) : w.extractLsb' a n = v := by
  rw [Row.fixes, Bool.and_eq_true, beq_iff_eq, beq_iff_eq] at hf
  obtain ⟨hmask, hmatch⟩ := hf
  rw [← hmatch, ← Row.selects_iff.1 h, BitVec.extractLsb'_and, hmask, BitVec.and_allOnes]

/-- A word is the bits of the row it selects, with the bits that the row's mask leaves free. -/
theorem Row.word_of_selects {r : Row} {w : Word} (h : r.selects w = true) : r.matchBits ||| (w &&& ~~~r.mask) = w := by
  rw [← Row.selects_iff.1 h, ← BitVec.and_or_distrib_left, BitVec.or_not_self, BitVec.and_allOnes]

/-- OP of a row, bits 7:0 (rule R70). -/
def Row.opField (r : Row) : BitVec 8 := r.matchBits.extractLsb' 0 8

theorem rows_fix_op : ∀ r ∈ rows, r.fixes 0 8 r.opField = true := by decide

/-- OP of a word is that of the row it selects. -/
theorem Row.op_of_selects {r : Row} {w : Word} (hr : r ∈ rows) (h : r.selects w = true) :
    w.extractLsb' 0 8 = r.opField := Row.field_of_selects h (rows_fix_op r hr)

theorem rows_opField_injective : ∀ r ∈ rows, ∀ r' ∈ rows, r.opField = r'.opField → r = r' := by decide

/-- No two rows select the same word (rule R76): their OPs differ. -/
theorem row_eq_of_selects {w : Word} {r r' : Row} (hr : r ∈ rows) (hr' : r' ∈ rows) (h : r.selects w = true)
    (h' : r'.selects w = true) : r = r' :=
  rows_opField_injective r hr r' hr' ((Row.op_of_selects hr h).symm.trans (Row.op_of_selects hr' h'))

/-- A row of the table that selects a word is the only one. -/
theorem filter_selects_eq_singleton {w : Word} {r : Row} :
    rows.filter (fun r => r.selects w) = [r] ↔ r ∈ rows ∧ r.selects w = true := by
  have hmem (x : Row) : x ∈ rows.filter (fun r => r.selects w) ↔ x ∈ rows ∧ x.selects w = true := List.mem_filter
  refine ⟨fun h => (hmem r).1 (h ▸ List.mem_singleton_self r), fun ⟨hr, hs⟩ => ?_⟩
  have hnodup : (rows.filter (fun r => r.selects w)).Nodup := .filter _ (by decide)
  refine List.perm_singleton.1 ((List.perm_ext_iff_of_nodup hnodup (List.nodup_singleton r)).2 fun x => ?_)
  rw [hmem, List.mem_singleton]
  exact ⟨fun ⟨hx, hsx⟩ => row_eq_of_selects hx hr hsx hs, fun h => h ▸ ⟨hr, hs⟩⟩

/-! ## Decoding -/

/-- A word is decoded by the row that it selects (rule R76). -/
theorem decode_of_selects {w : Word} {r : Row} (hr : r ∈ rows) (h : r.selects w = true) :
    decode w = buildInstr r.op w := by
  have hfind : rows.find? (fun r => r.selects w) = some r := by
    rw [← List.head?_filter, filter_selects_eq_singleton.2 ⟨hr, h⟩, List.head?_cons]
  simp only [decode, hfind]

theorem decode_ok_iff {w : Word} {i : Instr} :
    decode w = .ok i ↔ ∃ r ∈ rows, r.selects w = true ∧ buildInstr r.op w = .ok i := by
  constructor
  · intro h
    cases hfind : rows.find? (fun r => r.selects w) with
    | none => simp [decode, hfind] at h
    | some r =>
      have hr := List.mem_of_find?_eq_some hfind
      have hs := List.find?_some hfind
      exact ⟨r, hr, hs, (decode_of_selects hr hs).symm.trans h⟩
  · rintro ⟨r, hr, hs, hb⟩
    exact (decode_of_selects hr hs).trans hb

theorem legal_iff {w : Word} : legal w = true ↔ ∃ i, decode w = .ok i := by
  unfold legal
  cases decode w <;> simp

/-- WIDTH is in 1..32 (rule R73). -/
theorem widthLegal_iff {width : BitVec 6} : widthLegal width = true ↔ 1 ≤ width.toNat ∧ width.toNat ≤ 32 := by
  simp [widthLegal]

/-- A row makes a command of a word unless it is BS_WRITE's or BS_READ's and WIDTH is reserved (rule R76). -/
theorem buildInstr_ok_iff {op : Opcode} {w : Word} :
    (∃ i, buildInstr op w = .ok i) ↔ (op = .bsWrite ∨ op = .bsRead → widthLegal (widthField w) = true) := by
  cases op
  case bsWrite | bsRead => cases h : widthLegal (widthField w) <;> simp [buildInstr, h]
  all_goals simp [buildInstr]

theorem ok_of_ite {c : Prop} [Decidable c] {a i : Instr} {e : Reject}
    (h : (if c then Except.ok a else .error e) = .ok i) : c ∧ a = i := by
  split at h <;> cases h
  exact ⟨‹c›, rfl⟩

/-- The command that a row makes of a word is well formed (rule R73). -/
theorem wellFormed_of_buildInstr {op : Opcode} {w : Word} {i : Instr} (h : buildInstr op w = .ok i) :
    i.WellFormed = true := by
  cases op
  case bsWrite | bsRead =>
    obtain ⟨hwidth, rfl⟩ := ok_of_ite h
    exact hwidth
  all_goals
    cases h
    rfl

/-! ## The word of a command -/

/-- A field of a word, put back in its place, is the word under the field's mask. -/
theorem extractLsb'_shiftLeft (w : Word) (a n : Nat) :
    (w.extractLsb' a n).setWidth 32 <<< a = w &&& ((BitVec.allOnes n).setWidth 32 <<< a) := by
  ext k hk
  by_cases h : k < a
  · simp [h]
  · simp [h, Nat.add_sub_cancel' (Nat.le_of_not_lt h), hk, Bool.and_comm]

theorem extractLsb'_one (w : Word) (a : Nat) : w.extractLsb' a 1 = BitVec.ofBool (w.getLsbD a) := by
  ext k hk
  obtain rfl : k = 0 := Nat.lt_one_iff.1 hk
  simp

/-- FMT as the ESTIMATE row leaves it free, bit 8 (rules R70, R74). -/
theorem fmtField_shiftLeft (w : Word) : (fmtField w).code <<< 8 = w &&& ~~~0xFFFFFEFF#32 := by
  have hcode : (fmtField w).code = (w.extractLsb' 8 1).setWidth 32 := by
    rw [extractLsb'_one, fmtField]
    cases w.getLsbD 8 <;> rfl
  rw [hcode]
  exact extractLsb'_shiftLeft w 8 1

/-- FORCE, bit 10 (rule R70). -/
theorem forceField_shiftLeft (w : Word) :
    (BitVec.ofBool (forceField w)).setWidth 32 <<< 10 = w &&& ~~~0xFFFFFBFF#32 := by
  rw [forceField, ← extractLsb'_one]
  exact extractLsb'_shiftLeft w 10 1

/-- WIDTH, bits 21:16 (rule R70). -/
theorem widthField_shiftLeft (w : Word) : (widthField w).setWidth 32 <<< 16 = w &&& ~~~0xFFC0FFFF#32 :=
  extractLsb'_shiftLeft w 16 6

/-- A row whose mask leaves no bit free has one word (rule R74). -/
theorem Row.matchBits_of_selects {r : Row} {w : Word} (hm : r.mask = 0xFFFFFFFF#32) (h : r.selects w = true) :
    r.matchBits = w := by
  rw [← Row.selects_iff.1 h, hm]
  exact BitVec.and_allOnes

/-- The command that a row makes of a word it selects has that word (rules R74, R76). -/
theorem encode_of_selects {w : Word} {r : Row} {i : Instr} (hr : r ∈ rows) (h : r.selects w = true)
    (hb : buildInstr r.op w = .ok i) : encode i = w := by
  have hw := Row.word_of_selects h
  have hfull (hm : r.mask = 0xFFFFFFFF#32) := Row.matchBits_of_selects hm h
  simp only [rows, List.mem_cons, List.not_mem_nil, or_false] at hr
  obtain rfl | rfl | rfl | rfl | rfl | rfl | rfl | rfl | rfl | rfl | rfl | rfl := hr
  · cases hb
    exact (congrArg (0x00000001#32 ||| ·) (fmtField_shiftLeft w)).trans hw
  · cases hb
    exact (congrArg (0x00000002#32 ||| ·) (forceField_shiftLeft w)).trans hw
  · cases hb; exact hfull rfl
  · cases hb; exact hfull rfl
  · cases hb; exact hfull rfl
  · cases hb; exact hfull rfl
  · cases hb; exact hfull rfl
  · cases hb; exact hfull rfl
  · obtain ⟨-, rfl⟩ := ok_of_ite hb
    exact (congrArg (0x00000020#32 ||| ·) (widthField_shiftLeft w)).trans hw
  · cases hb; exact hfull rfl
  · obtain ⟨-, rfl⟩ := ok_of_ite hb
    exact (congrArg (0x00000022#32 ||| ·) (widthField_shiftLeft w)).trans hw
  · cases hb; exact hfull rfl

/-- The word of a well-formed command selects the row of its operation (rules R74, R76). -/
theorem encode_selects {i : Instr} (h : i.WellFormed = true) :
    ∃ r ∈ rows, r.selects (encode i) = true ∧ r.op = EncodedRow.opcode i := by
  have hrow : EncodedRow.Statement i := by
    cases i with
    | estimate fmt => exact EncodedRow.estimate fmt
    | compress force => exact EncodedRow.compress force
    | decompress => exact EncodedRow.decompress
    | ftCount => exact EncodedRow.ftCount
    | tbBuild => exact EncodedRow.tbBuild
    | ctGen => exact EncodedRow.ctGen
    | hdrWrite => exact EncodedRow.hdrWrite
    | hdrRead => exact EncodedRow.hdrRead
    | bsWrite width => exact EncodedRow.bsWrite width
    | bsClose => exact EncodedRow.bsClose
    | bsRead width => exact EncodedRow.bsRead width
    | bsRreset => exact EncodedRow.bsRreset
  obtain ⟨r, hfilter, hop⟩ := List.map_eq_singleton_iff.1 (hrow h)
  obtain ⟨hr, hs⟩ := filter_selects_eq_singleton.1 hfilter
  exact ⟨r, hr, hs, hop⟩

/-- WIDTH of a word made of an OP and a WIDTH (rule R70). -/
theorem widthField_of_encode {op : Word} (h : op.extractLsb' 16 6 = 0#6) (width : BitVec 6) :
    widthField (op ||| (width.setWidth 32 <<< 16)) = width := by
  rw [widthField, BitVec.extractLsb'_or, h, BitVec.zero_or]
  ext k hk
  simp [hk, show 16 + k < 32 by omega]

/-- The operands of a command are read back from its word (rules R70, R75). -/
theorem buildInstr_encode {i : Instr} (h : i.WellFormed = true) :
    buildInstr (EncodedRow.opcode i) (encode i) = .ok i := by
  cases i with
  | estimate fmt => cases fmt <;> rfl
  | compress force => cases force <;> rfl
  | bsWrite width =>
    have hw : widthField (encode (.bsWrite width)) = width := widthField_of_encode (by decide) width
    rw [EncodedRow.opcode, buildInstr, hw]
    exact if_pos h
  | bsRead width =>
    have hw : widthField (encode (.bsRead width)) = width := widthField_of_encode (by decide) width
    rw [EncodedRow.opcode, buildInstr, hw]
    exact if_pos h
  | decompress | ftCount | tbBuild | ctGen | hdrWrite | hdrRead | bsClose | bsRreset => rfl

/-! ## The round trips -/

/-- Settles O1: the word of a command selects the row of its operation, and the row's fields are read back. -/
theorem decodeEncode : Obligations.DecodeEncode := by
  intro i h
  obtain ⟨r, hr, hs, hop⟩ := encode_selects h
  rw [decode_of_selects hr hs, hop]
  exact buildInstr_encode h

/-- Settles O2: a word is the bits of the row it selects and, where the row's mask leaves bits free, the operand. -/
theorem encodeDecode : Obligations.EncodeDecode := by
  intro w i h
  obtain ⟨r, hr, hs, hb⟩ := decode_ok_iff.1 h
  exact ⟨wellFormed_of_buildInstr hb, encode_of_selects hr hs hb⟩

/-- Settles O4: each example word is the encoder's word of the command it is an example of. -/
theorem sampleWords : Obligations.SampleWords :=
  ⟨decodeEncode (.estimate .counts) rfl, decodeEncode (.estimate .tree) rfl, decodeEncode (.compress false) rfl,
    decodeEncode (.compress true) rfl, decodeEncode .decompress rfl, decodeEncode .ftCount rfl,
    decodeEncode .tbBuild rfl, decodeEncode .ctGen rfl, decodeEncode .hdrWrite rfl, decodeEncode .hdrRead rfl,
    decodeEncode (.bsWrite 8#6) rfl, decodeEncode (.bsWrite 32#6) rfl, decodeEncode .bsClose rfl,
    decodeEncode (.bsRead 1#6) rfl, decodeEncode (.bsRead 32#6) rfl, decodeEncode .bsRreset rfl⟩

end Sys2Proof
end

section
/-! Which words are legal, what a rejected word and a failed precondition leave changed, and WAIT (30_encoding.md rules
R76, R78, R81, 60_exceptions.md rule R161). -/

namespace Sys2Proof

/-! ## Legal words -/

/-- Every row fixes the reserved bits and the high bit of FMT to 0 (rules R70, R74). -/
theorem rows_fix_reserved : ∀ r ∈ rows,
    r.fixes 11 5 0#5 = true ∧ r.fixes 22 10 0#10 = true ∧ r.fixes 9 1 0#1 = true := by decide

/-- Every row fixes to 0 the operand fields that its command does not use (rules R74, R76). -/
theorem rows_fix_unused : ∀ r ∈ rows,
    (r.opField ≠ 0x01#8 → r.fixes 8 2 0#2 = true) ∧ (r.opField ≠ 0x02#8 → r.fixes 10 1 0#1 = true) ∧
      (r.opField ≠ 0x20#8 → r.opField ≠ 0x22#8 → r.fixes 16 6 0#6 = true) := by decide

/-- OP of a row is an opcode of the map (rule R74). -/
theorem rows_op_map : ∀ r ∈ rows, r.opField ∈
    ([0x01#8, 0x02#8, 0x03#8, 0x10#8, 0x11#8, 0x12#8, 0x13#8, 0x14#8, 0x20#8, 0x21#8, 0x22#8, 0x23#8] :
      List (BitVec 8)) := by decide

theorem rows_op_ne_zero : ∀ r ∈ rows, r.opField ≠ (0#32).extractLsb' 0 8 := by decide

/-- The rows whose command has a WIDTH (rule R74). -/
theorem rows_width_op : ∀ r ∈ rows,
    r.opField = 0x20#8 ∨ r.opField = 0x22#8 → r.op = .bsWrite ∨ r.op = .bsRead := by decide

/-- The high bit of FMT. -/
theorem fmtHigh_of_field {w : Word} {b : BitVec 2} (h : w.extractLsb' 8 2 = b) :
    w.extractLsb' 9 1 = b.extractLsb' 1 1 := by
  rw [← h]
  ext k hk
  obtain rfl : k = 0 := Nat.lt_one_iff.1 hk
  simp

/-- A word is legal when it selects a row, and WIDTH is in 1..32 where the row's command has one (rule R76). -/
theorem legal_iff_selects {w : Word} : legal w = true ↔
    ∃ r ∈ rows, r.selects w = true ∧ (r.op = .bsWrite ∨ r.op = .bsRead → widthLegal (widthField w) = true) := by
  rw [legal_iff]
  constructor
  · rintro ⟨i, h⟩
    obtain ⟨r, hr, hs, hb⟩ := decode_ok_iff.1 h
    exact ⟨r, hr, hs, buildInstr_ok_iff.1 ⟨i, hb⟩⟩
  · rintro ⟨r, hr, hs, hw⟩
    obtain ⟨i, hb⟩ := buildInstr_ok_iff.2 hw
    exact ⟨i, decode_ok_iff.2 ⟨r, hr, hs, hb⟩⟩

end Sys2Proof

namespace Sys2Proof.Machine

/-! ## Errors before any change -/

/-- A rejected word ends in an error at once (60_exceptions.md rule R161): no stream is open for an `Abort`. -/
theorem rejectWord_eq (s : State) (c : Word) :
    s.rejectWord c = { s with cmdLast := c, ovr := false }.endsInError .illegalCommand := rfl

/-- A write of an illegal word to CMD while no command runs (30_encoding.md rule R78). -/
theorem step_cmd_illegal {w : Word} (hw : legal w = false) {s : State} (hb : s.busy = false) (hr : s.inReset = false)
    (es : List Event) : step { s with events := .busWrite 0x004#16 4 w :: es } =
      .next ({ s with
        events := es, accesses := s.accesses ++ [(Access.write 0x004#16 4 w, Reply.written)]
        cmdLast := w, ovr := false }.endsInError .illegalCommand) := by
  rw [step_cmd_idle hb hr]
  cases hd : decode w with
  | ok i => exact absurd (legal_iff.2 ⟨i, hd⟩) (Bool.not_eq_true _ ▸ hw)
  | error e =>
    simp only [Action.run, hd]
    exact congrArg Host.Outcome.next (rejectWord_eq _ w)

/-- A command whose precondition does not hold ends with ILLEGAL_USAGE at once (60_exceptions.md rule R161). -/
theorem exec_precondition_fails {i : Instr} {s : State} (hs : s.stalled = false)
    (h : (s.planValid = false ∧ (i = .hdrWrite ∨ ∃ force, i = .compress force)) ∨ (s.treeValid = false ∧ i = .ctGen)) :
    exec i s = .next (s.endsInError .illegalUsage) := by
  rcases h with ⟨hp, rfl | ⟨force, rfl⟩⟩ | ⟨ht, rfl⟩
  · rw [exec_hdrWrite hs, hp]
    rfl
  · exact exec_compress_noPlan force hs hp
  · rw [exec_ctGen hs, ht]
    rfl

/-- Settles O3: the fields that every row fixes and those that it fixes to 0 unless its command uses them rule out each
illegal class. -/
theorem legalWords : Obligations.LegalWords := by
  refine ⟨fun w => ?legal, fun w hw => ?classes, fun w r r' hr hr' h h' => row_eq_of_selects hr hr' h h',
    fun w s es hw hb hr => step_cmd_illegal hw hb hr es⟩
  case legal =>
    simp only [legal_iff_selects, filter_selects_eq_singleton, widthLegal_iff, widthField, and_assoc]
  case classes =>
    rw [← Bool.not_eq_true]
    intro hlegal
    obtain ⟨r, hr, hs, hwidth⟩ := legal_iff_selects.1 hlegal
    have hop := Row.op_of_selects hr hs
    have field {a n : Nat} {v : BitVec n} (h : r.fixes a n v = true) := Row.field_of_selects hs h
    obtain ⟨hres, hres', hfmt⟩ := rows_fix_reserved r hr
    obtain ⟨hfmtUnused, hforceUnused, hwidthUnused⟩ := rows_fix_unused r hr
    rw [hop] at hw
    rcases hw with rfl | hmap | hbits | hbits | hbits | hbits | ⟨hne, hbits⟩ | ⟨hne, hbits⟩ | ⟨hne, hne', hbits⟩ |
      ⟨hwide, hbits⟩
    · exact rows_op_ne_zero r hr hop.symm
    · exact hmap (rows_op_map r hr)
    · exact hbits (field hres)
    · exact hbits (field hres')
    · exact absurd ((fmtHigh_of_field hbits).symm.trans (field hfmt)) (by decide)
    · exact absurd ((fmtHigh_of_field hbits).symm.trans (field hfmt)) (by decide)
    · exact hbits (field (hfmtUnused hne))
    · exact absurd (hbits.symm.trans (getLsbD_of_field (b := false) (field (hforceUnused hne)))) (by decide)
    · exact hbits (field (hwidthUnused hne hne'))
    · have hrange := widthLegal_iff.1 (hwidth (rows_width_op r hr hwide))
      unfold widthField at hrange
      omega

/-- Settles O6: a rejected word and a failed precondition are both terminations with no stream to abort, before any step
that writes a table, a port, the reader or the writer. -/
theorem errorsBeforeAnyChange : Obligations.ErrorsBeforeAnyChange :=
  ⟨fun _ _ es hw hb hr => step_cmd_illegal hw hb hr es, fun _ _ hs h => exec_precondition_fails hs h⟩

/-! ## No step stops -/

/-- Settles O57: every step from a state in the invariant gives a next state, in the invariant again. -/
theorem neverStops : Obligations.NeverStops := fun _ h => (step_inv h).imp fun _ ht => ht.1

/-! ## WAIT -/

/-- A read of STATUS: bit 0 is BUSY, and 0 while reset is asserted; with no command running it is the word of STATUS. -/
theorem busRead_status (s : State) : ∃ v d,
    s.busRead 0x008#16 4 = { s with accesses := s.accesses ++ [(.read 0x008#16 4, .data v)], draws := d } ∧
      v.getLsbD 0 = (s.busy && !s.inReset) ∧
      (s.inReset = false → s.busy = false → v = s.statusWord ∧ d = s.draws) := by
  obtain ⟨hbusy, -, -⟩ := statusWord_flags s
  rcases Bool.eq_false_or_eq_true s.inReset with hr | hr
  · refine ⟨0#32, s.draws, ?_, by simp [hr], fun h => nomatch hr.symm.trans h⟩
    rw [State.busRead, if_pos hr]
    rfl
  have hbit : s.statusWord.getLsbD 0 = (s.busy && !s.inReset) := by rw [hbusy, hr, Bool.not_false, Bool.and_true]
  rcases Bool.eq_false_or_eq_true s.busy with hb | hb
  · exact ⟨_, _, busRead_status_busy hb hr, (statusWhileBusy_getLsbD s _ (by decide)).trans hbit,
      fun _ h => nomatch hb.symm.trans h⟩
  · exact ⟨_, _, busRead_idle hb hr rfl, hbit, fun _ _ => ⟨rfl, rfl⟩⟩

/-- Settles O19: WAIT makes the same read, and puts itself back exactly when the word it reads has bit 0 set. -/
theorem waitPolls : Obligations.WaitPolls := by
  intro s es
  obtain ⟨v, d, hread, hbit, hidle⟩ := busRead_status { s with events := es }
  refine ⟨v, d, congrArg Host.Outcome.next hread, ?_, fun hr => ⟨?_, hidle hr⟩⟩
  · refine congrArg Host.Outcome.next ?_
    rw [hbit, State.waitPoll, hread]
    simp only
    split_ifs <;> rfl
  · rw [hbit]
    simp [hr]

end Sys2Proof.Machine
end

section
/-! What BS_WRITE takes of LARG (30_encoding.md rule R75, 41_bitstream.md rules R86, R95). -/

namespace Sys2Proof.Machine

/-- A field's bits are those of the value cut to the field (00_scope.md rule R10). -/
theorem binN_mod (n v : Nat) : binN n (v % 2 ^ n) = binN n v := by
  have h := binN_valueOf (binN n v)
  rwa [binN_length, valueOf_binN] at h

/-- LARG at another value. -/
def State.withLarg (s : State) (v : Word) : State := { s with larg := v }

/-- The same run with LARG at another value. -/
def Run.withLarg (v : Word) : Run → Run
  | .done s => .done (s.withLarg v)
  | .ended s => .ended (s.withLarg v)
  | .raised e s => .raised e (s.withLarg v)
  | .held s left => .held (s.withLarg v) left
  | .stuck f => .stuck f

theorem Run.withLarg_andThen {v : Word} {next : State → Run}
    (h : ∀ s, next (s.withLarg v) = (next s).withLarg v) (r : Run) (later : List Work) :
    (r.withLarg v).andThen later next = (r.andThen later next).withLarg v := by
  cases r with
  | done s => exact h s
  | ended s => rfl
  | raised e s => rfl
  | held s left => rfl
  | stuck f => rfl

/-- A termination does not read LARG (60_exceptions.md rule R160). -/
theorem terminate_withLarg (s : State) (e : ErrCode) (v : Word) :
    (s.withLarg v).terminate e = (s.terminate e).withLarg v := by
  unfold State.terminate State.push
  cases ho : s.opened && !s.writer.closed with
  | false =>
    simp only [State.withLarg, ho, Bool.false_eq_true, if_false]
    rfl
  | true =>
    simp only [State.withLarg, ho, if_true]
    cases s.sink.next <;> rfl

theorem settle_withLarg {r : Run} {t : State} (h : r.settle = .next t) (v : Word) :
    (r.withLarg v).settle = .next (t.withLarg v) := by
  cases r with
  | done s | ended s | held s left =>
    cases h
    rfl
  | raised e s =>
    cases h
    exact congrArg Host.Outcome.next (terminate_withLarg s e v)
  | stuck f => cases h

theorem offerByte_withLarg (b : Byte) (s : State) (v : Word) :
    offerByte b (s.withLarg v) = (offerByte b s).withLarg v := by
  simp only [offerByte, State.push, State.withLarg]
  cases s.sink.next with
  | none => rfl
  | some a => cases a <;> rfl

/-- Writing bits does not read LARG (41_bitstream.md rules R86, R87). -/
theorem emit_withLarg (bs : Bits) (s : State) (v : Word) : emit bs (s.withLarg v) = (emit bs s).withLarg v := by
  induction bs generalizing s with
  | nil => rfl
  | cons b bs ih =>
    by_cases h : s.writer.buf.length = 7
    · rw [emit_cons_of_eq h, emit_cons_of_eq (s := s.withLarg v) h, ← Run.withLarg_andThen ih, ← offerByte_withLarg]
      rfl
    · rw [emit_cons_of_ne h, emit_cons_of_ne (s := s.withLarg v) h]
      exact ih (s.pushBit b)

theorem opensIfClosed_withLarg (s : State) (v : Word) :
    (s.withLarg v).opensIfClosed = s.opensIfClosed.withLarg v := by
  cases h : s.writer.closed <;> simp [State.opensIfClosed, State.withLarg, h]

/-- BS_WRITE reads of LARG its field alone (30_encoding.md rule R75). -/
theorem exec_bsWrite_withLarg {s t : State} {width : BitVec 6} {v : Word}
    (hv : v.toNat % 2 ^ width.toNat = s.larg.toNat % 2 ^ width.toNat) (h : exec (.bsWrite width) s = .next t) :
    exec (.bsWrite width) (s.withLarg v) = .next (t.withLarg v) := by
  cases hs : s.stalled with
  | true =>
    cases (launch_stalled hs _ _).symm.trans h
    exact launch_stalled (s := s.withLarg v) hs _ _
  | false =>
    have hbits : binN width.toNat (s.withLarg v).larg.toNat = binN width.toNat s.larg.toNat := by
      rw [← binN_mod, ← binN_mod _ s.larg.toNat, ← hv]
      rfl
    rw [exec_bsWrite width hs] at h
    rw [exec_bsWrite width (s := s.withLarg v) hs, hbits, opensIfClosed_withLarg]
    exact (congrArg Run.settle (emit_withLarg _ _ v)).trans (settle_withLarg h v)

/-- Settles O9: the field's bits are the same, and no other step of BS_WRITE reads LARG. -/
theorem writeOperandLowBits : Obligations.WriteOperandLowBits :=
  fun _ _ _ _ hv h => exec_bsWrite_withLarg hv h

end Sys2Proof.Machine
end

section
/-! The commands of the bit streams: what BS_WRITE, BS_CLOSE, BS_READ and BS_RRESET leave at each of their ends
(41_bitstream.md section 3). -/

namespace Sys2Proof.Machine

/-! ## What a command's writes and reads depend on -/

/-- Only the writer and the sink matter to what can be written. -/
theorem State.CanWrite.congr {s s' : State} {bits : Bits} (h : s.CanWrite bits) (hw : s'.writer = s.writer)
    (hk : s'.sink = s.sink) : s'.CanWrite bits :=
  ⟨hw ▸ h.buf, hw ▸ h.wbits, hw ▸ hk ▸ h.accepts⟩

/-- Only the writer and the sink matter to where a write fails. -/
theorem State.FailsAt.congr {s s' : State} {bits : Bits} {j : Nat} (h : s.FailsAt bits j) (hw : s'.writer = s.writer)
    (hk : s'.sink = s.sink) : s'.FailsAt bits j :=
  ⟨hw ▸ h.buf, hw ▸ h.wbits, hw ▸ h.more, hk ▸ h.accepts, hk ▸ h.fails⟩

/-! ## BS_WRITE -/

/-- BS_WRITE whose field the sink takes (41_bitstream.md rules R87, R88, R95). -/
theorem exec_bsWrite_written {s : State} {width : BitVec 6} (hs : s.stalled = false)
    (h : s.opensIfClosed.CanWrite (binN width.toNat s.larg.toNat)) :
    exec (.bsWrite width) s = .next (s.opensIfClosed.written (binN width.toNat s.larg.toNat)).endsQuietly := by
  rw [exec_bsWrite width hs, emit_canWrite (h.congr (s' := s.opensIfClosed.begun .bitio) rfl rfl)]
  rfl

/-- BS_WRITE at a byte that the sink refuses (rules R86, R95). -/
theorem exec_bsWrite_failed {s : State} {width : BitVec 6} {j : Nat} (hs : s.stalled = false)
    (h : s.opensIfClosed.FailsAt (binN width.toNat s.larg.toNat) j) :
    exec (.bsWrite width) s =
      .next ((s.opensIfClosed.failed (binN width.toNat s.larg.toNat) j).endsInError .ioError) := by
  rw [exec_bsWrite width hs, emit_failsAt (h.congr (s' := s.opensIfClosed.begun .bitio) rfl rfl)]
  exact settle_raised rfl

/-- The row of BS_WRITE selects its OP with any WIDTH: its mask leaves the WIDTH field free (30_encoding.md rule
R74). -/
theorem bsWrite_row_selects (width : BitVec 6) :
    Row.selects ⟨"BS_WRITE", .bsWrite, 0x00000020#32, 0xFFC0FFFF#32⟩
      (0x00000020#32 ||| (width.setWidth 32 <<< 16)) = true := by
  have hfield := widthField_shiftLeft (0x00000020#32 ||| (width.setWidth 32 <<< 16))
  rw [widthField_of_encode (by decide)] at hfield
  have hfree : (width.setWidth 32 <<< 16) &&& 0xFFC0FFFF#32 = 0#32 := by
    rw [hfield, BitVec.and_assoc, show ~~~0xFFC0FFFF#32 &&& 0xFFC0FFFF#32 = 0#32 by decide, BitVec.and_zero]
  rw [Row.selects_iff, BitVec.and_comm, BitVec.and_or_distrib_left, BitVec.and_comm _ (_ <<< _), hfree]
  decide

/-- BS_WRITE with a WIDTH that is not legal does not decode (rules R73, R76). -/
theorem decode_bsWrite_width {width : BitVec 6} (h : widthLegal width = false) :
    decode (0x00000020#32 ||| (width.setWidth 32 <<< 16)) = .error .width := by
  rw [decode_of_selects (by decide) (bsWrite_row_selects width), buildInstr, widthField_of_encode (by decide), h]
  rfl

/-- Settles O23: the field is written to the open or newly opened stream, up to its last bit or to the byte that the
sink refuses, and an illegal WIDTH is refused by the decoder. -/
theorem bsWrite : Obligations.BsWrite := by
  refine ⟨fun s width hs _ h => exec_bsWrite_written hs h, fun s width j hs _ h => exec_bsWrite_failed hs h,
    fun width hw => decode_bsWrite_width ?_⟩
  rw [← Bool.not_eq_true, widthLegal_iff]
  omega

/-! ## BS_CLOSE -/

theorem closingTokens_open {s : State} (ho : s.writer.closed = false) :
    s.closingTokens = outBytes (closedBytes s.writer.buf) ++ [.eos] := by
  simp [State.closingTokens, ho]

/-- A WClose whose padded byte the sink refuses; it closes the writer however many bits were pending (41_bitstream.md rule
R89). -/
theorem closeStream_padFails {s : State} (ho : s.writer.closed = false) (hp : s.writer.buf ≠ [])
    (hf : s.sink.answerAt 0 = some .fail) :
    closeStream s = .raised .ioError { s with
      writer := ⟨true, [], s.writer.bits⟩, sink := s.sink.record (.byte (byteOf s.writer.buf)) .fail } := by
  rw [← Sink.next_eq] at hf
  rw [closeStream, if_neg (by simp [ho]), if_neg hp, offerByte, push_of_next (by exact hf)]
  rfl

/-- A WClose whose `End` alone the sink refuses (rule R89). -/
theorem failsOn_end {s : State} (ho : s.writer.closed = false)
    (ha : s.sink.accepts (s.closingTokens.length - 1) = true)
    (hf : s.sink.answerAt (s.closingTokens.length - 1) = some .fail) :
    s.sink.FailsOn s.closingTokens (outBytes (closedBytes s.writer.buf)) .eos := by
  rw [closingTokens_open ho] at ha hf ⊢
  rw [List.length_append, List.length_singleton, Nat.add_sub_cancel] at ha hf
  exact ⟨List.prefix_rfl, ha, hf⟩

/-- Settles O24, by the ends of WClose: nothing to close, every token taken, the padded byte refused, `End` refused. -/
theorem bsClose : Obligations.BsClose := by
  intro s hs
  rw [exec_bsClose hs]
  refine ⟨fun hc => ?closed, fun ho hb hk => ?taken, fun ho hp hf => ?padFails, fun ho hb ha hf => ?endFails⟩
  case closed =>
    rw [closeStream_closed (by exact hc)]
    rfl
  case taken =>
    rw [closeStream_ends (by exact hb) (by exact ho) (by exact hk), ← closingTokens_open ho]
    rfl
  case padFails =>
    rw [closeStream_padFails (by exact ho) (by exact hp) (by exact hf)]
    exact settle_raised rfl
  case endFails =>
    rw [closeStream_fails (s := s.begun .bitio) (by exact hb) (failsOn_end ho ha hf)]
    exact settle_raised rfl

/-! ## BS_READ -/

/-- The first field of a stream (41_bitstream.md rules R91 to R93). -/
theorem readBits_first {s : State} {bits : Bits} {bs : List Byte} {rest : List InToken} (h : s.Carries bits bs rest) :
    s.readBits bits.length = .got (valueOf bits) (s.afterBits bs rest bits.length) := by
  have h' : s.Carries ([] ++ bits ++ []) bs rest := by simpa using h
  simpa [afterBits_zero h'] using readBits_at h'

/-- A field of at most 32 bits is in the range of RESULT (rule R97). -/
theorem fitsS64_valueOf {bits : Bits} (h : bits.length ≤ 32) : fitsS64 (valueOf bits : Int) = true :=
  fitsS64_nat ((valueOf_lt bits).trans_le (Nat.pow_le_pow_right (by decide) (by omega)))

/-- BS_READ of a field that the stream holds (rule R97). -/
theorem exec_bsRead_got {s : State} {width : BitVec 6} {bits : Bits} {bs : List Byte} {rest : List InToken}
    (hs : s.stalled = false) (hw : widthLegal width = true) (hl : bits.length = width.toNat)
    (h : s.Carries bits bs rest) :
    exec (.bsRead width) s = .next ((s.afterBits bs rest width.toNat).endsWith (valueOf bits)) := by
  have hr := readBits_first (carries_congr (s' := s.begun .bitio) h rfl rfl)
  have hle : bits.length ≤ 32 := hl ▸ (widthLegal_iff.1 hw).2
  rw [exec_bsRead width hs, readField, ← hl, hr, ReadResult.andThen, settle_result (fitsS64_valueOf hle)]
  rfl

/-- BS_READ when `ReadBits` answers SENTINEL (rule R97). -/
theorem exec_bsRead_sentinel {s t : State} {width : BitVec 6} (hs : s.stalled = false)
    (hr : (s.begun .bitio).readBits width.toNat = .sentinel (t.begun .bitio)) :
    exec (.bsRead width) s = .next (t.endsWith (-1)) := by
  rw [exec_bsRead width hs, readField, hr, ReadResult.andThen, settle_result (by decide)]
  rfl

/-- Settles O25, by the answers of `ReadBits`: SENTINEL of an exhausted reader, the field, SENTINEL at `End`, the failure at
`Error`, and the hold. -/
theorem bsRead : Obligations.BsRead := by
  intro s width bs rest hs hw _
  refine ⟨fun hx => ?exhausted, fun bits hl h => exec_bsRead_got hs hw hl h, fun hx hq h => ?ended,
    fun hx hq h => ?failed, fun hx hq h => ?waiting⟩
  case exhausted => exact exec_bsRead_sentinel hs (readBits_exhausted (by exact hx) _)
  case ended => exact exec_bsRead_sentinel hs (readBits_ended (s.begun .bitio) _ bs rest hx hq h)
  case failed =>
    rw [exec_bsRead width hs, readField, readBits_failed (s.begun .bitio) _ bs rest hx hq h]
    exact settle_raised rfl
  case waiting =>
    rw [exec_bsRead width hs, readField, readBits_waiting (s.begun .bitio) _ bs hx hq h]
    rfl

/-! ## BS_RRESET -/

/-- Settles O26: BS_RRESET's steps are the phase and `RReset`. -/
theorem bsRreset : Obligations.BsRreset := by
  intro s hs
  rw [show exec .bsRreset s = launch .bitio [.bitio, .rReset] s from rfl, launch_begun hs]
  rfl

end Sys2Proof.Machine
end

section
/-! How HDR_READ and DECOMPRESS end at a magic field that is wrong, cut or not there (45_header.md rules R134, R138,
47_decompressor.md rule R152, 60_exceptions.md rule R164). -/

namespace Sys2Proof.Machine

/-! ## The magic field -/

/-- A magic field that the stream's end cuts short (45_header.md rule R134, 60_exceptions.md rule R164). -/
theorem readMagic_cut {s : State} {bs : List Byte} {x : InToken} {rest : List InToken} (h : s.CutAt [] 32 bs x rest) :
    readMagic s = .raised (cutError x .invalidMagic) ({ s with phase := .validateMagic }.cut rest 0) := by
  have hcut := cutAt_congr (s' := { s with phase := .validateMagic }) h rfl rfl
  have hread := readBits_cut hcut [.magic] .invalidMagic
    fun m s' => if m = s'.cfg.magic.toNat then readSelector s' else .raised .invalidMagic s'
  rwa [List.length_nil, afterBits_zero hcut.carries] at hread

/-- A magic field asked of an exhausted reader (41_bitstream.md rule R93, 45_header.md rule R138). -/
theorem readMagic_exhausted {s : State} (h : s.reader.exh = true) :
    readMagic s = .raised .invalidMagic { s with phase := .validateMagic } := by
  rw [readMagic, readBits_exhausted (by exact h)]
  rfl

/-- Settles O36, by what reading the magic field raises: of a field that differs, of one that is cut, and of none. -/
theorem invalidMagic : Obligations.InvalidMagic := by
  refine ⟨fun s x bits bs rest hs hl hv h => ?differs, fun s x bs tok rest hs h => ?cut, fun s hs hx => ?exhausted⟩
  case differs =>
    refine headerRaises hs rfl rfl fun hx o => ⟨.validateMagic, x.stack, x.budget, ?_⟩
    exact readMagic_bad hl (hx.1 ▸ hv) (carries_congr h rfl rfl)
  case cut =>
    refine headerRaises hs rfl rfl fun _ o => ⟨.validateMagic, x.stack, x.budget, ?_⟩
    exact readMagic_cut (cutAt_congr h rfl rfl)
  case exhausted =>
    rw [exec_hdrRead hs, readMagic_exhausted (by exact hx)]
    exact (settle_raised rfl).trans rfl

end Sys2Proof.Machine
end

section
/-! How COMPRESS and DECOMPRESS end when the sink refuses a token: at the end of an open stream, in the header, in the
body, and at the end of the new stream (46_compressor.md rules R144, R145, 47_decompressor.md rules R151, R152,
60_exceptions.md rules R160, R162). -/

namespace Sys2Proof.Machine

/-! ## Error ends with the writer closed -/

/-- An error end pushes no `Abort` once the writer is closed (60_exceptions.md rules R160, R162). -/
theorem settle_raised_closed {s : State} {e : ErrCode} (h : s.writer.closed = true) :
    (Run.raised e s).settle = .next (s.endsInError e) := by
  simp [Run.settle, State.terminate, h, State.endsInError, State.finishError, State.toIdle]

/-- A command whose WClose the sink refuses a token of (41_bitstream.md rule R89). -/
theorem settle_closeFails {s : State} {before : List OutToken} {x : OutToken} (hb : s.writer.buf.length < 8)
    (hk : s.sink.FailsOn s.closingTokens before x) (ws : List Work) :
    (runWorks (.closeStream :: ws) s).settle = .next ((s.closeFailed before x).endsInError .ioError) := by
  rw [runWorks_cons, show runWork .closeStream s = _ from closeStream_fails hb hk]
  exact settle_raised_closed rfl

/-- Less than a byte is pending after a write (rule R86). -/
theorem written_buf_lt (s : State) (bits : Bits) : (s.written bits).writer.buf.length < 8 := by
  simp only [State.written, List.length_drop, List.length_append]
  omega

/-! ## COMPRESS -/

theorem refuses_eq_false {s : State} {force : Bool} (h : 0 ≤ s.planSaved.toInt ∨ force = true) :
    s.refuses force = false := by
  rcases h with h | rfl
  · simp [State.refuses, not_lt.2 h]
  · simp [State.refuses]

/-- COMPRESS goes ahead and opens its stream: it gets time, its plan is not refused, the tables are those of the tree
`t`, and the sink takes the tokens that end an open stream (46_compressor.md rules R143, R144). -/
structure State.Compresses (s : State) (force : Bool) (t : HTree) : Prop where
  time   : s.stalled = false
  plan   : s.planValid = true
  goes   : 0 ≤ s.planSaved.toInt ∨ force = true
  tree   : s.store.complete t
  codes  : ∀ y, s.codeAt y = t.codeOf y
  buf    : s.writer.buf.length < 8
  closes : s.sink.accepts s.closingTokens.length = true

/-- The header of the plan's container (45_header.md rule R133). -/
def State.planHeader (s : State) (t : HTree) : Bits := headerOf s.cfg s.planFmt s.freq t

/-- The writer of COMPRESS's container after `bits` of it, with the tokens `q` on IN. -/
def State.compressing (s : State) (q : List InToken) (bits : Bits) : State :=
  { s.freshReader.reopened with inq := q }.written bits

/-- COMPRESS whose header the sink refuses a byte of (rules R86, R144). -/
theorem State.Compresses.headerFails {s : State} {force : Bool} {t : HTree} (h : s.Compresses force t) {j : Nat}
    (hf : s.freshReader.reopened.FailsAt (s.planHeader t) j) :
    exec (.compress force) s = .next ((s.freshReader.reopened.failed (s.planHeader t) j).endsInError .ioError) := by
  rw [exec_compress_goes h.time h.plan (refuses_eq_false h.goes), openNext (by exact h.buf) (by exact h.closes),
    runWorks_cons]
  have hwrite : runWork .headerWrite (s.freshReader.begun .hdrWrite).reopened =
      .raised .ioError ((s.freshReader.begun .hdrWrite).reopened.failed (s.planHeader t) j) := by
    show headerWrite s.planFmt (s.freshReader.begun .hdrWrite).reopened = _
    rw [headerWrite_eq (t := t) _ (by exact h.tree)]
    exact emit_failsAt (hf.congr rfl rfl)
  rw [hwrite]
  exact (settle_raised_closed rfl).trans rfl

/-- COMPRESS after its header and the codes of the bytes `xs` (rules R144, R145). -/
theorem State.Compresses.afterCodes {s : State} {force : Bool} {t : HTree} (h : s.Compresses force t) {xs : List Byte}
    {q : List InToken} (hq : s.inq = inBytes xs ++ q) (hv : ∀ b ∈ xs, (t.codeOf (symbolOfByte b)).valid = true)
    (hw : s.freshReader.reopened.CanWrite (s.planHeader t ++ t.codesOf xs)) :
    exec (.compress force) s = ((encodeLoop q { s.compressing q (s.planHeader t ++ t.codesOf xs) with
      phase := .encodeBody }).andThen [.closeStream, .result .wbits] (runWorks [.closeStream, .result .wbits])).settle := by
  obtain ⟨hheader, hcodes, hsum⟩ := canWrite_append hw
  rw [exec_compress_header h.time h.plan h.goes h.tree h.buf h.closes hheader, runWorks_cons]
  have hbody : runWork .encodeBody { s.freshReader.reopened.written (s.planHeader t) with phase := .hdrWrite } =
      encodeLoop q { (s.freshReader.reopened.written (s.planHeader t)).written (t.codesOf xs) with
        inq := q, phase := .encodeBody } :=
    encodeBody_bytes (s := { s.freshReader.reopened.written (s.planHeader t) with phase := .hdrWrite }) hq h.codes hv
      (hcodes.congr rfl rfl)
  rw [hsum] at hbody
  exact congrArg (fun r => (Run.andThen r _ _).settle) hbody

/-- What the body encoder writes for a token: the code of a byte that has one, and at `End` the pseudo-EOF code (rule
R145). -/
def HTree.Encodes (t : HTree) (chunk : Bits) : InToken → Prop
  | .byte b => (t.codeOf (symbolOfByte b)).valid = true ∧ chunk = (t.codeOf (symbolOfByte b)).bits
  | .eos => chunk = (t.codeOf Config.pseudoEof).bits
  | .error => False

/-- The encoder at a code that the sink refuses a byte of (rules R86, R145). -/
theorem encodeLoop_fails {s : State} {t : HTree} {chunk : Bits} {tok : InToken} {q : List InToken} {j : Nat}
    (hc : ∀ y, s.codeAt y = t.codeOf y) (ht : t.Encodes chunk tok)
    (hf : ({ s with inq := q } : State).FailsAt chunk j) :
    encodeLoop (tok :: q) s = .raised .ioError ({ s with inq := q }.failed chunk j) := by
  cases tok with
  | byte b =>
    obtain ⟨hv, rfl⟩ := ht
    simp only [encodeLoop, hc, hv, if_true]
    rw [emit_failsAt hf, Run.andThen_raised]
  | eos =>
    obtain rfl := ht
    simp only [encodeLoop, hc]
    exact emit_failsAt hf
  | error => exact ht.elim

/-- The encoder at the `End` of its stream (rule R145). -/
theorem encodeLoop_end {s : State} {t : HTree} {q : List InToken} (hc : ∀ y, s.codeAt y = t.codeOf y)
    (hw : ({ s with inq := q } : State).CanWrite (t.codeOf Config.pseudoEof).bits) :
    encodeLoop (.eos :: q) s = .done ({ s with inq := q }.written (t.codeOf Config.pseudoEof).bits) := by
  simp only [encodeLoop, hc]
  exact emit_canWrite hw

/-- COMPRESS whose body the sink refuses a byte of (rules R86, R145). -/
theorem State.Compresses.codeFails {s : State} {force : Bool} {t : HTree} (h : s.Compresses force t) {xs : List Byte}
    {tok : InToken} {q : List InToken} {chunk : Bits} {j : Nat} (hq : s.inq = inBytes xs ++ tok :: q)
    (hv : ∀ b ∈ xs, (t.codeOf (symbolOfByte b)).valid = true) (ht : t.Encodes chunk tok)
    (hw : s.freshReader.reopened.CanWrite (s.planHeader t ++ t.codesOf xs))
    (hf : (s.compressing q (s.planHeader t ++ t.codesOf xs)).FailsAt chunk j) :
    exec (.compress force) s =
      .next (((s.compressing q (s.planHeader t ++ t.codesOf xs)).failed chunk j).endsInError .ioError) := by
  rw [h.afterCodes hq hv hw, encodeLoop_fails (by exact h.codes) ht (hf.congr rfl rfl), Run.andThen_raised]
  exact (settle_raised_closed rfl).trans rfl

/-- COMPRESS whose stream the sink refuses the end of (rules R89, R144). -/
theorem State.Compresses.endFails {s : State} {force : Bool} {t : HTree} (h : s.Compresses force t) {xs : List Byte}
    {q : List InToken} {before : List OutToken} {x : OutToken} (hq : s.inq = inBytes xs ++ .eos :: q)
    (hv : ∀ b ∈ xs, (t.codeOf (symbolOfByte b)).valid = true)
    (hw : s.freshReader.reopened.CanWrite (s.planHeader t ++ bodyOf t xs))
    (hk : (s.compressing q (s.planHeader t ++ bodyOf t xs)).sink.FailsOn
      (s.compressing q (s.planHeader t ++ bodyOf t xs)).closingTokens before x) :
    exec (.compress force) s =
      .next (((s.compressing q (s.planHeader t ++ bodyOf t xs)).closeFailed before x).endsInError .ioError) := by
  have hsplit : s.planHeader t ++ bodyOf t xs = s.planHeader t ++ t.codesOf xs ++ (t.codeOf Config.pseudoEof).bits :=
    (List.append_assoc _ _ _).symm
  rw [hsplit] at hw hk ⊢
  obtain ⟨hcodes, hend, hsum⟩ := canWrite_append hw
  have hlast : encodeLoop (.eos :: q) { s.compressing (.eos :: q) (s.planHeader t ++ t.codesOf xs) with
      phase := .encodeBody } = .done { s.compressing q (s.planHeader t ++ t.codesOf xs ++
        (t.codeOf Config.pseudoEof).bits) with phase := .encodeBody } := by
    rw [encodeLoop_end (by exact h.codes) (hend.congr rfl rfl)]
    exact congrArg (fun u : State => Run.done { u with inq := q, phase := .encodeBody }) hsum
  rw [h.afterCodes hq hv hcodes, hlast, Run.andThen_done]
  exact (settle_closeFails (s := { s.compressing q _ with phase := .encodeBody }) (written_buf_lt _ _) hk _).trans rfl

/-! ## DECOMPRESS -/

/-- A new writer after the bytes `xs`, all of which the sink took (41_bitstream.md rules R86, R87). -/
theorem written_bytes {s : State} (h : s.writer = ⟨false, [], 0#64⟩) (xs : List Byte) :
    (s.written (streamBits xs)).writer = ⟨false, [], BitVec.ofNat 64 (8 * xs.length)⟩ ∧
      (s.written (streamBits xs)).sink = s.sink.take (outBytes xs) := by
  simp [State.written, h, packBytes_streamBits]

/-- The decoding loop over bits that spell a run of bytes and then lead to a leaf comes to the leaf with the bytes
written (47_decompressor.md rule R151). -/
theorem decodeLoop_toLeaf {s : State} {t : HTree} {xs : List Byte} {pre body code : Bits} {y : Symbol} {bs : List Byte}
    {rest : List InToken} (hh : s.store.holds s.store.root t) (hsp : t.Spells xs body) (hp : (y, code) ∈ t.paths)
    (h : s.Carries (pre ++ body ++ code) bs rest) (hw : s.CanWrite (streamBits xs)) :
    ∃ i, (s.store.node i).leaf = true ∧ (s.store.node i).sym = y ∧ ∀ n,
      decodeLoop (body.length + xs.length + (code.length + n)) ((s.atNode s.store.root).afterBits bs rest pre.length) =
        decodeLoop n (((s.written (streamBits xs)).atNode i).afterBits bs rest (pre ++ body ++ code).length) := by
  have h' : (s.written (streamBits xs)).Carries ((pre ++ body) ++ code ++ []) bs rest :=
    carries_congr (s := s) (by simpa using h) rfl rfl
  obtain ⟨i, u, hu, hm, hwalk⟩ := decodeLoop_walk code [] (s := s.written (streamBits xs)) hh (by simpa using hp) h'
  obtain ⟨hleaf, hsym⟩ := leaf_of_path hu hm
  refine ⟨i, hleaf, hsym, fun n => ?_⟩
  rw [decodeLoop_spells hsp hh h hw, ← List.length_append, List.length_append (as := pre ++ body)]
  exact hwalk n

/-- A decoder's writer is between two bytes, `k` bytes after the stream's start, and the sink refuses the next token. -/
structure State.RefusedAfter (s : State) (k : Nat) : Prop where
  writer : s.writer = ⟨false, [], BitVec.ofNat 64 (8 * k)⟩
  fits   : k < 2 ^ 59
  fails  : s.sink.answerAt 0 = some .fail

/-- The writer closed at the token `o` that the sink refused, `n` bytes after the stream's start (rules R86, R89). -/
def State.refused (s : State) (o : OutToken) (n : Nat) : State :=
  { s with writer := ⟨true, [], BitVec.ofNat 64 (8 * n)⟩, sink := s.sink.record o .fail }

/-- The token that the decoder pushes at a leaf, and the bytes its stream then has: the leaf's byte, or at the pseudo-EOF
`End` (rules R151, R152). -/
def LeafPushes (y : Symbol) (k : Nat) : OutToken → Nat → Prop
  | .byte b, n => y = symbolOfByte b ∧ n = k + 1
  | .eos, n => y = Config.pseudoEof ∧ n = k
  | .abort, _ => False

/-- DECOMPRESS at a leaf whose token the sink refuses (rules R86, R89, R151). -/
theorem settle_leafRefused {s : State} {k n m : Nat} {o : OutToken} (h : s.RefusedAfter k)
    (hl : (s.store.node s.cur).leaf = true) (ho : LeafPushes (s.store.node s.cur).sym k o n) :
    ((decodeLoop (m + 1) s).andThen [.closeStream, .result .wbits] (runWorks [.closeStream, .result .wbits])).settle =
      .next ((s.refused o n).endsInError .ioError) := by
  obtain ⟨hw, hfits, hf⟩ := h
  rw [decodeLoop, if_pos hl]
  cases o with
  | byte b =>
    obtain ⟨hy, rfl⟩ := ho
    have hfail : s.FailsAt (bitsOfByte b) 0 := by
      refine ⟨?_, ?_, ?_, Sink.accepts_zero _, hf⟩ <;> simp [hw]
      omega
    have hcount : (BitVec.ofNat 64 (8 * k)).toNat + 8 = 8 * (k + 1) := by rw [toNat_ofNat64 (by omega)]; rfl
    rw [hy, if_neg (symbolOfByte_ne b), show binN Config.wordWidth (symbolOfByte b).val = bitsOfByte b from rfl,
      emit_failsAt hfail, Run.andThen_raised, Run.andThen_raised, settle_raised_closed (by rfl)]
    simp [-BitVec.toNat_ofNat, State.failed, State.refused, hw, hcount, packBytes, outBytes, byteOf_bitsOfByte,
      List.take_of_length_le]
  | eos =>
    obtain ⟨hy, rfl⟩ := ho
    have htokens : s.closingTokens = [.eos] := by simp [State.closingTokens, hw, closedBytes, packBytes, outBytes]
    have hend : s.sink.FailsOn s.closingTokens [] .eos := ⟨by simp [htokens], Sink.accepts_zero _, hf⟩
    rw [if_pos hy, Run.andThen_done, settle_closeFails (by simp [hw]) hend]
    simp [State.closeFailed, State.refused, hw]
  | abort => exact ho.elim

/-- Only the reader matters to what is left of the stream after a read. -/
theorem afterBits_congr {s s' : State} (h : s'.reader = s.reader) (bs : List Byte) (rest : List InToken) (k : Nat) :
    (s'.afterBits bs rest k).inq = (s.afterBits bs rest k).inq ∧
      (s'.afterBits bs rest k).reader = (s.afterBits bs rest k).reader := by
  simp only [State.afterBits, h, and_self]

/-- The decoder has the passes that the bits of its stream take, and one more (47_decompressor.md rule R153). -/
theorem exists_passes {s : State} {header body code : Bits} {k : Nat} {bs : List Byte} {rest : List InToken}
    (h : s.Carries (header ++ body ++ code) bs rest) (hk : k ≤ body.length) :
    ∃ m, 2 * (s.afterBits bs rest header.length).bitsAhead + 2 = body.length + k + (code.length + (m + 1)) := by
  have hahead := bitsAhead_at h (k := header.length) (by simp)
  have hfirst := h.first.length_le
  simp only [List.length_append, streamBits_length] at hfirst
  obtain ⟨m, hm⟩ := Nat.exists_eq_add_of_le (show body.length + k + code.length + 1 ≤
    2 * (s.afterBits bs rest header.length).bitsAhead + 2 by omega)
  exact ⟨m, by omega⟩

/-- DECOMPRESS of a container whose sink refuses the token of its next leaf, after the bytes `xs` (rules R151, R152,
60_exceptions.md rule R162). -/
theorem exec_decompress_refused {s : State} {fmt : Fmt} {freq : Vector Word 256} {t : HTree} {xs : List Byte}
    {body code bits : Bits} {y : Symbol} {o : OutToken} {n : Nat} {bs : List Byte} {rest : List InToken}
    (hs : s.stalled = false) (hsel : s.cfg.selCounts ≠ s.cfg.selTree) (ht : Transmits fmt freq t)
    (hsp : t.Spells xs body) (hp : (y, code) ∈ t.paths) (ho : LeafPushes y xs.length o n)
    (hbits : bits = headerOf s.cfg fmt freq t ++ body ++ code) (hlen : xs.length < 2 ^ 59)
    (hc : s.freshReader.Carries bits bs rest) (hb : s.writer.buf.length < 8)
    (ha : s.sink.accepts (s.closingTokens ++ outBytes xs).length = true)
    (hf : s.sink.answerAt (s.closingTokens ++ outBytes xs).length = some .fail) :
    ∃ u : State, exec .decompress s = .next ((u.refused o n).endsInError .ioError) ∧
      u.sink = s.sink.take (s.closingTokens ++ outBytes xs) ∧
      u.inq = (s.freshReader.afterBits bs rest bits.length).inq ∧
      u.reader = (s.freshReader.afterBits bs rest bits.length).reader ∧ u.store.complete t ∧ u.treeValid = true := by
  obtain ⟨hclose, hbytes⟩ := Sink.accepts_take_left ha
  obtain ⟨hd, x, hexec, hstore, htree, -, hreader, hinq, hwriter, hsink, -⟩ := decompress_header (post := body ++ code)
    hs hsel ht hb hclose (by rw [← List.append_assoc, ← hbits]; exact hc)
  have hx : x.Carries (headerOf s.cfg fmt freq t ++ body ++ code) bs rest := hbits ▸ carries_congr hc hreader hinq
  have hw : x.CanWrite (streamBits xs) := by
    refine ⟨by simp [hwriter], by simp [hwriter]; omega, ?_⟩
    simpa [hwriter, hsink] using hbytes
  obtain ⟨i, hleaf, hsym, hloop⟩ := decodeLoop_toLeaf hstore.1 hsp hp hx hw
  obtain ⟨m, hm⟩ := exists_passes hx (hsp.length_le hd)
  obtain ⟨hinq', hreader'⟩ := afterBits_congr (s := s.freshReader) (s' := x) hreader bs rest bits.length
  obtain ⟨hwritten, htaken⟩ := written_bytes hwriter xs
  have hsink' : (x.written (streamBits xs)).sink = s.sink.take (s.closingTokens ++ outBytes xs) := by
    rw [htaken, hsink, Sink.take_append]
  have hrefused : (((x.written (streamBits xs)).atNode i).afterBits bs rest bits.length).RefusedAfter xs.length :=
    ⟨hwritten, hlen, (congrArg (·.answerAt 0) hsink').trans ((Sink.answerAt_take _ _ 0).trans hf)⟩
  refine ⟨((x.written (streamBits xs)).atNode i).afterBits bs rest bits.length, ?_, hsink', hinq', hreader', hstore,
    htree⟩
  rw [hexec, hm, hloop, ← hbits]
  exact settle_leafRefused hrefused hleaf (by exact hsym ▸ ho)

/-- Settles O60, place by place: WOpen's tokens, the header, a code, the end of the container, and a leaf of the decoder. -/
theorem sinkFails : Obligations.SinkFails := by
  refine ⟨fun s force before x hs hb hk => ⟨fun hp hr => ?open_compress, ?open_decompress⟩, ?compress, ?decompress⟩
  case open_compress =>
    rw [exec_compress_goes hs hp (refuses_eq_false hr)]
    exact (settle_closeFails (s := s.freshReader.begun .hdrWrite) hb hk _).trans rfl
  case open_decompress =>
    rw [exec_decompress hs]
    exact (settle_closeFails (s := s.cleared.freshReader.begun .validateMagic) hb hk _).trans rfl
  case compress =>
    rintro s w force t xs pre chunk q hs hp hr hc hcodes hb hk hw rfl hv
    have h : s.Compresses force t := ⟨hs, hp, hr, hc, hcodes, hb, hk⟩
    refine ⟨fun j hplace hf => ?_, fun before x hpre hq hfail => ?_⟩
    · rcases hplace with ⟨rfl, rfl, rfl⟩ | ⟨rfl, ⟨b, hvalid, rfl, hq⟩ | ⟨rfl, hq⟩⟩
      · rw [written_nil (by exact hw.buf)] at hf ⊢
        exact h.headerFails hf
      · exact h.codeFails hq hv ⟨hvalid, rfl⟩ hw hf
      · exact h.codeFails hq hv (by rfl) hw hf
    · subst hpre
      exact h.endFails hq hv hw hfail
  case decompress =>
    intro s fmt freq t xs body code bits o n bs rest hs hsel ht hsp ho hbits _ hlen hc hb ha hf
    obtain ⟨y, hp, hpush⟩ : ∃ y, (y, code) ∈ t.paths ∧ LeafPushes y xs.length o n := by
      rcases ho with ⟨b, rfl, hp, rfl⟩ | ⟨rfl, hp, rfl⟩
      · exact ⟨_, hp, rfl, rfl⟩
      · exact ⟨_, hp, rfl, rfl⟩
    obtain ⟨u, hexec, hsink, hinq, hreader, hstore, htree⟩ :=
      exec_decompress_refused hs hsel ht hsp hp hpush hbits hlen hc hb ha hf
    exact ⟨_, hexec, congrArg (·.record o .fail) hsink, rfl, rfl, rfl, hinq, hreader, rfl, rfl, rfl, hstore, htree⟩

end Sys2Proof.Machine
end

section
/-! FT_COUNT and CT_GEN: what counting a stream and generating the codes of a tree leave at each of their ends
(42_frequency.md rule R108, 44_codetable.md rule R127). -/

namespace Sys2Proof.Machine

/-- The end of a command that returns a 64-bit register whose value fits RESULT (10_state.md rule R33). -/
theorem settle_register {s : State} {n : Nat} (h : n < 2 ^ 63) :
    (Run.done (s.setResult (BitVec.ofNat 64 n).toNat)).settle = .next (s.endsWith n) := by
  rw [toNat_ofNat64 (by omega), settle_result (fitsS64_nat h)]

/-! ## FT_COUNT -/

/-- "8 × n ... below 2^43" (42_frequency.md rule R107). -/
theorem origBits_lt {bs : List Byte} (h : Countable bs) : 8 * bs.length < 2 ^ 43 := by
  have := countable_length h
  omega

/-- FT_COUNT of a stream that ends (rules R107, R108). -/
theorem exec_ftCount_ends {s : State} {bs : List Byte} {rest : List InToken} (hs : s.stalled = false)
    (hc : Countable bs) (hq : s.inq = inBytes bs ++ .eos :: rest) :
    exec .ftCount s = .next ((s.counted bs rest).endsWith (8 * bs.length)) := by
  have hlt := origBits_lt hc
  rw [exec_ftCount hs, countStream_ends hc hq, Run.andThen_done]
  exact settle_register (n := 8 * bs.length) (by omega)

/-- FT_COUNT whose counting raises an error with the bytes before it counted (rules R106, R108). -/
theorem exec_ftCount_raises {s : State} {bs : List Byte} {rest : List InToken} {e : ErrCode} (hs : s.stalled = false)
    (hr : countStream 0 (s.cleared.freshReader.begun .count) = .raised e ((s.tallied bs rest).begun .count)) :
    exec .ftCount s = .next ((s.tallied bs rest).endsInError e) := by
  rw [exec_ftCount hs, hr]
  exact settle_raised rfl

/-- Settles O27, by the three ends of CountStream: `End`, a byte whose count is full, and `Error`. -/
theorem ftCount : Obligations.FtCount := fun _ _ _ hs hc =>
  ⟨fun hq => exec_ftCount_ends hs hc hq,
    fun _ hb hq => exec_ftCount_raises hs (countStream_overflows hc hb hq),
    fun hq => exec_ftCount_raises hs (countStream_fails hc hq)⟩

/-! ## CT_GEN -/

/-- CT_GEN with a tree in the node store (44_codetable.md rules R125 to R127). -/
theorem exec_ctGen_tree {s : State} {t : HTree} (hs : s.stalled = false) (hv : s.treeValid = true)
    (ht : s.store.complete t) :
    exec .ctGen s = .next ({ s with
      planValid := false, codesValid := true, codes := t.codeTable
      bodyBits := BitVec.ofNat 64 (bodyCost s.freqAt t) }.endsWith (bodyCost s.freqAt t)) := by
  have hlt := bodyCost_lt ht s.freqAt
  have hgen := genCodes_complete (s := s.clearCodes.begun .codegen) ht rfl
  rw [exec_ctGen hs, if_pos hv, hgen, Run.andThen_done]
  exact settle_register (n := bodyCost s.freqAt t) (by omega)

/-- Settles O31: without a tree the precondition fails; with one, the codes are generated into a cleared table. -/
theorem ctGen : Obligations.CtGen := fun _ hs =>
  ⟨fun hv => exec_precondition_fails hs (.inr ⟨hv, rfl⟩), fun _ hv ht => exec_ctGen_tree hs hv ht⟩

end Sys2Proof.Machine
end

section
/-! The order of the tree builder's priority queue, what TB_BUILD leaves, and the tree it builds (43_tree.md rules R110 to
R115, R120). -/

namespace Sys2Proof.Machine

/-! ## The queue -/

/-- Of two entries with different insertion numbers one comes before the other (43_tree.md rule R110). -/
theorem before_of_not_before {e x : PqEntry} (hne : e.seq ≠ x.seq) (h : x.before e = false) :
    e.key < x.key ∨ e.key = x.key ∧ e.seq < x.seq := by
  rw [← Bool.not_eq_true, before_iff] at h
  omega

/-- Settles O28: none of the entries left comes before the one that is removed, and their insertion numbers differ. -/
theorem queueOrder : Obligations.QueueOrder := by
  refine ⟨fun b b' e hd hr => ?_, fun _ _ _ => rfl⟩
  rcases removeMin_cases b with ⟨_, hnone⟩ | ⟨x, rest, hsome, hp, hfirst⟩
  · rw [hnone] at hr
    cases hr
  · rw [hsome] at hr
    cases hr
    have hseqs : (e.seq :: rest.map (·.seq)).Nodup := (hp.map PqEntry.seq).nodup_iff.1 hd
    exact ⟨hp, rfl, rfl, fun z hz => before_of_not_before
      (fun heq => (List.nodup_cons.1 hseqs).1 (heq ▸ List.mem_map_of_mem hz)) (hfirst z hz)⟩

/-! ## TB_BUILD -/

/-- The symbols with a positive frequency, in ascending order: those of the leaves (rules R111, R113). -/
def State.leafSymbols (s : State) : List Symbol := symbols.filter fun y => s.freqAt y != 0#32

theorem leafSymbols_length (s : State) : s.leafSymbols.length = s.leafCount := by
  rw [leafCount_eq, List.countP_eq_length_filter]
  rfl

/-- TB_BUILD: the tree of FREQ is built in cleared tables, and RESULT is the number of its leaves (rules R115, R120). -/
theorem exec_tbBuild_ends {s : State} (hs : s.stalled = false) :
    exec .tbBuild s = .next (s.clearTree.buildTree.endsWith s.leafCount) := by
  have hfits : fitsS64 (s.leafCount : Int) = true := fitsS64_nat (by have := leafCount_le s; omega)
  rw [exec_tbBuild hs, buildTree_begun]
  exact settle_result hfits

/-- Settles O29: TB_BUILD's two steps clear the tables and build, and a symbol has a leaf when its frequency is positive. -/
theorem tbBuild : Obligations.TbBuild := by
  rintro s _ hs rfl
  rw [exec_tbBuild_ends hs, ← leafSymbols_length]
  rfl

/-! ## The built tree -/

/-- The leaves inserted are those of the symbols with a positive frequency (rule R111). -/
theorem positives_eq (s : State) : positives s.freqTable = s.leafSymbols.map fun y => (y, s.freqAt y) := by
  rw [positives, freqTable_eq, List.filter_map]
  rfl

/-- The pseudo-EOF always has a leaf (rule R111). -/
theorem pseudoEof_mem_leafSymbols (s : State) : Config.pseudoEof ∈ s.leafSymbols :=
  List.mem_filter.2 ⟨mem_symbols _, by simp [Config.peofFreq]⟩

section
variable {s : State} (h : s.store = NodeStore.empty)
include h

/-- Rule R113: the shape of the tree and the symbols of its leaves. -/
theorem buildTree_fullTree : ∃ tree, s.buildTree.store.complete tree ∧ tree.leaves = s.leafSymbols.length ∧
    tree.size = 2 * s.leafSymbols.length - 1 ∧ tree.depth ≤ s.leafSymbols.length - 1 ∧
    (∀ y, y ∈ tree.paths.map (·.1) ↔ y ∈ s.leafSymbols) ∧ (tree.paths.map (·.1)).Nodup := by
  obtain ⟨_, _, _, _, _, tree, hcomplete, _, hleaves⟩ := buildTree_spec s h
  have hsize := tree.size_eq
  have hdepth := depth_lt_leaves tree
  have hsymbols := buildTree_symbols h hcomplete
  rw [← leafSymbols_length] at hleaves
  exact ⟨tree, hcomplete, hleaves, by omega, by omega, fun y => hsymbols.mem_iff,
    hsymbols.nodup_iff.2 (symbols_nodup.filter _)⟩

/-- Rule R114: the leaf of the symbol at place `k` is node `k`. -/
theorem buildTree_leaf {k : Nat} {y : Symbol} (hk : s.leafSymbols[k]? = some y) : ∃ i : NodeIx, i.val = k ∧
    s.buildTree.store.node i = ⟨true, y, (s.freqAt y).setWidth 64, 0, 0⟩ := by
  obtain ⟨_, _, _, hnodes, _⟩ := buildTree_spec s h
  obtain ⟨hlt, rfl⟩ := List.getElem?_eq_some_iff.1 hk
  refine ⟨_, rfl, (hnodes k (by simpa [positives_eq] using hlt)).trans ?_⟩
  simp [positives_eq]

/-- Rule R114: the nodes from `L` on are internal. -/
theorem buildTree_internal {i : NodeIx} (h1 : s.leafCount ≤ i.val) (h2 : i.val < s.buildTree.store.count.val) :
    (s.buildTree.store.node i).leaf = false := by
  obtain ⟨_, hcount, _, _, hinner, _⟩ := buildTree_spec s h
  obtain ⟨l, r, _, _, hnode⟩ := hinner (i.val - s.leafCount) (by omega)
  rw [show (⟨s.leafCount + (i.val - s.leafCount), _⟩ : NodeIx) = i from Fin.ext (Nat.add_sub_cancel' h1)] at hnode
  rw [hnode]

/-- Rule R113: with `L = 1` the only node, the root, is the leaf of the pseudo-EOF. -/
theorem buildTree_single (h1 : s.leafSymbols.length = 1) :
    s.buildTree.store.node 0 = ⟨true, Config.pseudoEof, 1#64, 0, 0⟩ ∧ s.buildTree.store.root = 0 := by
  obtain ⟨_, _, hroot, _⟩ := buildTree_spec s h
  obtain ⟨y, hy⟩ := List.length_eq_one_iff.1 h1
  obtain rfl : Config.pseudoEof = y := List.mem_singleton.1 (hy ▸ pseudoEof_mem_leafSymbols s)
  obtain ⟨i, hi, hnode⟩ := buildTree_leaf h (k := 0) (by rw [hy]; rfl)
  obtain rfl : i = 0 := Fin.ext hi
  rw [leafSymbols_length] at h1
  refine ⟨hnode.trans (by rw [freqAt_pseudoEof]; rfl), Fin.ext ?_⟩
  show s.buildTree.store.root.val = 0
  omega

end

/-- Settles O30: TB_BUILD's tree is the one `BuildTree` leaves in a cleared node store; its shape, its leaves, its merges
and the one-leaf case. -/
theorem builtTree : Obligations.BuiltTree := by
  rintro s t _ hs rfl ht
  rw [exec_tbBuild_ends hs] at ht
  cases ht
  have hempty : s.clearTree.store = NodeStore.empty := rfl
  have hlen : s.clearTree.leafSymbols.length = s.clearTree.leafCount := leafSymbols_length _
  obtain ⟨_, hcount, hroot, _⟩ := buildTree_spec s.clearTree hempty
  refine ⟨rfl, hlen ▸ leafCount_pos _, hlen ▸ leafCount_le _, hlen ▸ hcount, hlen ▸ hroot, buildTree_fullTree hempty,
    fun k y hk => buildTree_leaf hempty hk, fun i h1 h2 => ?_, buildTree_single hempty⟩
  have hi : s.clearTree.leafCount ≤ i.val := hlen ▸ h1
  obtain ⟨⟨⟨hleft, hright, hbefore, hothers⟩, hsum⟩, hle⟩ := buildTree_merges s.clearTree hempty i hi h2
  exact ⟨buildTree_internal hempty hi h2, hleft.1, hright.1, hsum, hle.trans (positives_sum_le _), hleft, hright, hbefore,
    hothers⟩

end Sys2Proof.Machine
end

section
/-! HDR_READ of a TreeFormat header, and how HDR_READ and DECOMPRESS end at a header that breaks off or holds no tree of a
decoder (43_tree.md rules R118, R119, 45_header.md rules R134 to R138, 60_exceptions.md rules R160 to R164). -/

namespace Sys2Proof.Machine

/-! ## A whole TreeFormat header -/

/-- A stream that carries `bits` carries them with nothing named after them. -/
theorem carries_append_nil {s : State} {bits : Bits} {bs : List Byte} {rest : List InToken} (h : s.Carries bits bs rest) :
    s.Carries (bits ++ []) bs rest := by
  rwa [List.append_nil]

/-- The end of HDR_READ: RESULT is the number of bits read since it began (45_header.md rule R138). -/
theorem settle_rbitsSinceMark {s : State} {k : Nat} (hr : s.reader.bits.toNat = s.mark.toNat + k) (hk : k < 2 ^ 63) :
    (Run.done (s.setResult ((s.reader.bits.toNat : Int) - s.mark.toNat))).settle = .next (s.endsWith k) := by
  rw [hr, Int.natCast_add, add_sub_cancel_left, settle_result (fitsS64_nat hk)]

/-- Settles O35: the header's walk rebuilds the tree and drops the spare bits, and the root passes the last check. -/
theorem hdrReadTree : Obligations.HdrReadTree := by
  intro s t spare bits bs rest hs hsel hd ht hlen hbits hc
  obtain rfl : bits = treePreamble s.cfg (t.bits.length + spare.length) ++ t.bits ++ spare := hbits
  have hwhole : (treePreamble s.cfg (t.bits.length + spare.length) ++ t.bits ++ spare).length =
      96 + (t.bits.length + spare.length) := by simp
  have hrbits := hc.rbits
  obtain ⟨st, hcomplete, hroot, horder, hnfreq, hread⟩ :=
    readMagic_tree (s := { s.cleared.begun .validateMagic with mark := s.reader.bits }) (by exact hsel) ht hlen rfl
      (carries_congr (carries_append_nil hc) rfl rfl)
  refine ⟨st, hcomplete, hroot, horder, hnfreq, ?_⟩
  rw [hwhole] at hrbits ⊢
  rw [exec_hdrRead hs, hread, rootCheck_eq (t := t) (by exact hcomplete.1), if_pos hd, Run.andThen_done, Nat.add_assoc 96]
  exact (settle_rbitsSinceMark (toNat_ofNat64 hrbits) (by omega)).trans rfl

/-! ## A header that breaks off in a field -/

/-- The preamble of a header, read (45_header.md rule R134). -/
theorem readMagic_selector {s : State} {f : Word} {post : Bits} {bs : List Byte} {rest : List InToken}
    (h : s.Carries (binN 32 s.cfg.magic.toNat ++ binN 32 f.toNat ++ post) bs rest) :
    readMagic s =
      (if f = s.cfg.selCounts then countFields Config.alphSize ({ s with phase := .readHeader }.afterBits bs rest 64)
       else if f = s.cfg.selTree then treeHeader ({ s with phase := .readHeader }.afterBits bs rest 64)
       else .raised .unknownHeaderFormat ({ s with phase := .readHeader }.afterBits bs rest 64)) := by
  rw [readMagic_magic (by rwa [← List.append_assoc])]
  exact readSelector_field (s := { s with phase := .validateMagic }) (carries_congr h rfl rfl)

/-- A CountsFormat header that breaks off after the counts `cs` (rule R135, 60_exceptions.md rule R164). -/
theorem readMagic_countsCut {s : State} {cs : List Word} {bs : List Byte} {x : InToken} {rest : List InToken}
    (hcs : cs.length < 256) (hf : s.freq = Vector.replicate 256 0#32)
    (h : s.CutAt (binN 32 s.cfg.magic.toNat ++ binN 32 s.cfg.selCounts.toNat ++ cs.flatMap fun c => binN 32 c.toNat) 32 bs x
      rest) :
    readMagic s = .raised (cutError x .malformedHeader)
      ({ s with phase := .readHeader, freq := countsSoFar cs }.cut rest (64 + 32 * cs.length)) := by
  obtain ⟨m, hm⟩ : ∃ m, 256 = cs.length + (m + 1) := ⟨255 - cs.length, by omega⟩
  have hfirst := countFields_first cs [] (m + 1) (by simpa using hm.symm)
    (carries_congr (s' := { s with phase := .readHeader }) (carries_append_nil h.carries) rfl rfl)
  have hcut := readBits_cut (cutAt_congr (s' := { s with phase := .readHeader, freq := countsSoFar cs }) h rfl rfl)
    [.countFields (m + 1)] .malformedHeader fun c s' => countFields m (s'.setCount (m + 1) c)
  have hlen : (cs.flatMap fun c => binN 32 c.toNat).length = 32 * cs.length := by simp [List.length_flatMap, Nat.mul_comm]
  rw [readMagic_selector h.carries, if_pos rfl, show Config.alphSize = cs.length + (m + 1) from hm]
  simp only [List.length_append, binN_length, hlen, countsSoFar_nil, ← hf, List.nil_append] at hfirst hcut
  exact hfirst.trans hcut

/-- A TreeFormat header that breaks off in its length field (rule R136, 60_exceptions.md rule R164). -/
theorem readMagic_lengthCut {s : State} {bs : List Byte} {x : InToken} {rest : List InToken}
    (hsel : s.cfg.selCounts ≠ s.cfg.selTree)
    (h : s.CutAt (binN 32 s.cfg.magic.toNat ++ binN 32 s.cfg.selTree.toNat) 32 bs x rest) :
    readMagic s = .raised (cutError x .malformedHeader) ({ s with phase := .readHeader }.cut rest 64) := by
  rw [readMagic_selector (carries_append_nil h.carries), if_neg hsel.symm, if_pos rfl]
  have hcut := readBits_cut (cutAt_congr (s' := { s with phase := .readHeader }) h rfl rfl) [.treeLen] .malformedHeader
    deserializeTree
  rw [List.length_append, binN_length, binN_length] at hcut
  exact hcut

/-! ## A tree that breaks off -/

/-- A node position with no declared bit left (43_tree.md rule R118). -/
theorem treeLoop_noBits {s : State} (room : Nat) (h : s.budget = 0) : treeLoop room s = .raised .malformedHeader s := by
  cases room <;> rw [treeLoop, if_pos h]

/-- A node position at which the stream ends (rule R118, 60_exceptions.md rule R164). -/
theorem treeLoop_cut {s : State} {pre : Bits} {bs : List Byte} {x : InToken} {rest : List InToken} (room : Nat)
    (h : s.CutAt pre 1 bs x rest) (hb : 0 < s.budget) :
    treeLoop room (s.afterBits bs (x :: rest) pre.length) =
      .raised (cutError x .malformedHeader) (s.cut rest pre.length) := by
  have hne : ¬(s.afterBits bs (x :: rest) pre.length).budget = 0 := Nat.ne_of_gt hb
  cases room <;> rw [treeLoop, if_neg hne] <;> exact readBits_cut h _ _ _

/-- A node position with the node store full: the node's bit is read (rule R118). -/
theorem treeLoop_full {s : State} {pre : Bits} {b : Bool} {bs : List Byte} {rest : List InToken}
    (h : s.Carries (pre ++ [b]) bs rest) (hb : 0 < s.budget) :
    treeLoop 0 (s.afterBits bs rest pre.length) =
      .raised .malformedHeader ((s.afterBits bs rest (pre.length + 1)).spend 1) := by
  have hne : ¬(s.afterBits bs rest pre.length).budget = 0 := Nat.ne_of_gt hb
  have hread := readBits_at (carries_append_nil h)
  rw [List.length_singleton] at hread
  rw [treeLoop, if_neg hne, hread]
  rfl

/-- A leaf whose symbol the stream's end cuts short (rule R118, 60_exceptions.md rule R164). -/
theorem leafSymbol_cut {s : State} {pre : Bits} {bs : List Byte} {x : InToken} {rest : List InToken} (i : NodeIx)
    (next : State → Run) (h : s.CutAt pre 9 bs x rest) :
    leafSymbol i (s.afterBits bs (x :: rest) pre.length) next =
      .raised (cutError x .malformedHeader) (s.cut rest pre.length) :=
  readBits_cut h _ _ _

/-- A leaf whose symbol is above 256 (rule R118). -/
theorem leafSymbol_tooLarge {s : State} {pre : Bits} {y : Nat} {bs : List Byte} {rest : List InToken} (i : NodeIx)
    (next : State → Run) (h : s.Carries (pre ++ binN 9 y) bs rest) (h1 : 256 < y) (h2 : y < 512) :
    leafSymbol i (s.afterBits bs rest pre.length) next =
      .raised .malformedHeader ((s.afterBits bs rest (pre.length + 9)).spend 9) := by
  rw [leafSymbol, Config.symWidth, readBits_field (carries_append_nil h) h2]
  exact dif_neg (by omega)

/-- A new leaf whose symbol the declared bits left have no room for, or which goes on to its symbol (rule R118). -/
theorem newNode_true (i : NodeIx) (s : State) (next : State → Run) :
    newNode true i s next =
      if s.budget < 9 then .raised .malformedHeader { s with store := s.store.put i { s.store.node i with nfreq := 0#64 } }
      else leafSymbol i { s with store := s.store.put i { s.store.node i with nfreq := 0#64 } } next := rfl

/-- A TreeFormat header with the declared length `n` has a place for the nodes `ns`, which leave a position open: they
fit the declared bits and the node store (rules R118, R119). -/
structure OpenTree (p : Params) (n : Nat) (ns : List (Option Symbol)) : Prop where
  sels  : p.selCounts ≠ p.selTree
  field : n < 2 ^ 32
  opens : staysOpen 1 ns = true
  fits  : (ns.flatMap nodeBits).length ≤ n
  room  : ns.length ≤ 513

/-- The bits of a TreeFormat header up to the position after the nodes `ns` (rules R130, R132, R118). -/
def nodesHeader (p : Params) (n : Nat) (ns : List (Option Symbol)) : Bits := treePreamble p n ++ ns.flatMap nodeBits

/-- `HeaderRead()` in the state `x`, started by HDR_READ or, after its `WOpen`, by DECOMPRESS (45_header.md rule R134). -/
def headerFrom (x : State) (opened : Bool) : Run := readMagic { x with phase := .validateMagic, opened := opened }

/-- The deserialization of a header that was read in the state `x`, with the declared bits `left` (rule R118). -/
def State.inTree (x : State) (opened : Bool) (st : NodeStore) (fs : List Frame) (left : Nat) : State :=
  ({ x with phase := .readHeader, opened := opened } : State).rebuilding st fs left

section
variable {s : State} {n : Nat} {ns : List (Option Symbol)} (ht : OpenTree s.cfg n ns)
include ht

/-- A header whose nodes `ns` were read is at the next node position (rules R116, R118). -/
theorem OpenTree.position : ∃ st fs, st.holdsNodes ns 0 ∧
    ∀ {x : State} {post : Bits} {bs : List Byte} {rest : List InToken},
      x.Carries (nodesHeader s.cfg n ns ++ post) bs rest → s.Cleared x → ∀ o, headerFrom x o =
        treeLoop (513 - ns.length)
          ((x.inTree o st fs (n - (ns.flatMap nodeBits).length)).afterBits bs rest (nodesHeader s.cfg n ns).length) :=
  readMagic_nodes ht.sels ht.field ht.opens ht.fits ht.room

/-- A header whose next node is a leaf, in a store with room for it: the leaf's node is allocated, and its symbol is next
if the declared bits have room for one (rule R118). -/
theorem OpenTree.leaf (hn : (ns.flatMap nodeBits).length < n) (hr : ns.length < 513) : ∃ st fs i, st.holdsNodes ns 1 ∧
    ∀ {x : State} {post : Bits} {bs : List Byte} {rest : List InToken},
      x.Carries (nodesHeader s.cfg n ns ++ [true] ++ post) bs rest → s.Cleared x → ∀ o, headerFrom x o =
        if n - (ns.flatMap nodeBits).length - 1 < 9 then .raised .malformedHeader
          ((x.inTree o st fs (n - (ns.flatMap nodeBits).length - 1)).afterBits bs rest
            ((nodesHeader s.cfg n ns).length + 1))
        else leafSymbol i ((x.inTree o st fs (n - (ns.flatMap nodeBits).length - 1)).afterBits bs rest
          ((nodesHeader s.cfg n ns).length + 1)) (treeLoop (512 - ns.length)) := by
  obtain ⟨st, fs, hst, hpos⟩ := ht.position
  obtain ⟨i, st₁, halloc, _, hzero, hst₁⟩ := holdsNodes_alloc hst hr
  refine ⟨st₁.put i { st₁.node i with nfreq := 0#64 }, fs, i, (put_zero hzero hst₁).1,
    fun {x post bs rest} hc hx o => ?_⟩
  have hnode := treeLoop_node (s := { x with phase := .readHeader, opened := o }) (fs := fs) (room := 512 - ns.length)
    (carries_congr hc rfl rfl) halloc (Nat.sub_pos_of_lt hn)
  rw [show 512 - ns.length + 1 = 513 - ns.length by omega] at hnode
  rw [hpos (by rwa [← List.append_assoc]) hx]
  exact hnode.trans (newNode_true _ _ _)

/-- All the declared bits were read and a position is open (rule R118). -/
theorem OpenTree.raises_noBits (hs : s.stalled = false) (hn : (ns.flatMap nodeBits).length = n) {x : State}
    {bs : List Byte} {rest : List InToken} (hc : x.Carries (nodesHeader s.cfg n ns) bs rest) :
    ∃ st : NodeStore, st.holdsNodes ns 0 ∧
      s.HeaderRaises x { x.afterBits bs rest (nodesHeader s.cfg n ns).length with store := st } .malformedHeader := by
  obtain ⟨st, fs, hst, hpos⟩ := ht.position
  exact ⟨st, hst, headerRaises hs rfl rfl fun hx o => ⟨.readHeader, fs, n - (ns.flatMap nodeBits).length,
    (hpos (carries_append_nil hc) hx o).trans (treeLoop_noBits _ (Nat.sub_eq_zero_of_le hn.ge))⟩⟩

/-- The stream ends at a node's bit (rule R118, 60_exceptions.md rule R164). -/
theorem OpenTree.raises_nodeCut (hs : s.stalled = false) (hn : (ns.flatMap nodeBits).length < n) {x : State}
    {bs : List Byte} {tok : InToken} {rest : List InToken} (hc : x.CutAt (nodesHeader s.cfg n ns) 1 bs tok rest) :
    ∃ st : NodeStore, st.holdsNodes ns 0 ∧ s.HeaderRaises x
      { x.cut rest (nodesHeader s.cfg n ns).length with store := st } (cutError tok .malformedHeader) := by
  obtain ⟨st, fs, hst, hpos⟩ := ht.position
  exact ⟨st, hst, headerRaises hs rfl rfl fun hx o => ⟨.readHeader, fs, n - (ns.flatMap nodeBits).length,
    (hpos (carries_append_nil hc.carries) hx o).trans (treeLoop_cut _ (cutAt_congr hc rfl rfl) (Nat.sub_pos_of_lt hn))⟩⟩

/-- A 514th node (rule R118). -/
theorem OpenTree.raises_storeFull (hs : s.stalled = false) (hn : (ns.flatMap nodeBits).length < n)
    (hfull : ns.length = 513) {x : State} {b : Bool} {bs : List Byte} {rest : List InToken}
    (hc : x.Carries (nodesHeader s.cfg n ns ++ [b]) bs rest) :
    ∃ st : NodeStore, st.holdsNodes ns 0 ∧ s.HeaderRaises x
      { x.afterBits bs rest ((nodesHeader s.cfg n ns).length + 1) with store := st } .malformedHeader := by
  obtain ⟨st, fs, hst, hpos⟩ := ht.position
  rw [hfull] at hpos
  exact ⟨st, hst, headerRaises hs rfl rfl fun hx o => ⟨.readHeader, fs, n - (ns.flatMap nodeBits).length - 1,
    (hpos hc hx o).trans (treeLoop_full (carries_congr hc rfl rfl) (Nat.sub_pos_of_lt hn))⟩⟩

/-- A leaf whose symbol does not fit the declared bits (rule R118). -/
theorem OpenTree.raises_symbolPastLength (hs : s.stalled = false) (hn : (ns.flatMap nodeBits).length < n)
    (hshort : n < (ns.flatMap nodeBits).length + 10) (hr : ns.length < 513) {x : State} {bs : List Byte}
    {rest : List InToken} (hc : x.Carries (nodesHeader s.cfg n ns ++ [true]) bs rest) :
    ∃ st : NodeStore, st.holdsNodes ns 1 ∧ s.HeaderRaises x
      { x.afterBits bs rest ((nodesHeader s.cfg n ns).length + 1) with store := st } .malformedHeader := by
  obtain ⟨st, fs, i, hst, hleaf⟩ := ht.leaf hn hr
  exact ⟨st, hst, headerRaises hs rfl rfl fun hx o => ⟨.readHeader, fs, n - (ns.flatMap nodeBits).length - 1,
    (hleaf (carries_append_nil hc) hx o).trans (if_pos (by omega))⟩⟩

/-- The stream ends inside a leaf's symbol (rule R118, 60_exceptions.md rule R164). -/
theorem OpenTree.raises_symbolCut (hs : s.stalled = false) (hn : (ns.flatMap nodeBits).length + 10 ≤ n)
    (hr : ns.length < 513) {x : State} {bs : List Byte} {tok : InToken} {rest : List InToken}
    (hc : x.CutAt (nodesHeader s.cfg n ns ++ [true]) 9 bs tok rest) :
    ∃ st : NodeStore, st.holdsNodes ns 1 ∧ s.HeaderRaises x
      { x.cut rest ((nodesHeader s.cfg n ns).length + 1) with store := st } (cutError tok .malformedHeader) := by
  obtain ⟨st, fs, i, hst, hleaf⟩ := ht.leaf (by omega) hr
  refine ⟨st, hst, headerRaises hs rfl rfl fun hx o => ⟨.readHeader, fs, n - (ns.flatMap nodeBits).length - 1, ?_⟩⟩
  have hcut := leafSymbol_cut (s := x.inTree o st fs (n - (ns.flatMap nodeBits).length - 1)) i
    (treeLoop (512 - ns.length)) (cutAt_congr hc rfl rfl)
  rw [List.length_append, List.length_singleton] at hcut
  exact ((hleaf (carries_append_nil hc.carries) hx o).trans (if_neg (by omega))).trans hcut

/-- A leaf whose symbol is above 256 (rule R118). -/
theorem OpenTree.raises_symbolTooLarge (hs : s.stalled = false) (hn : (ns.flatMap nodeBits).length + 10 ≤ n)
    (hr : ns.length < 513) {x : State} {y : Nat} (h1 : 256 < y) (h2 : y < 512) {bs : List Byte} {rest : List InToken}
    (hc : x.Carries (nodesHeader s.cfg n ns ++ [true] ++ binN 9 y) bs rest) :
    ∃ st : NodeStore, st.holdsNodes ns 1 ∧ s.HeaderRaises x
      { x.afterBits bs rest ((nodesHeader s.cfg n ns).length + 10) with store := st } .malformedHeader := by
  obtain ⟨st, fs, i, hst, hleaf⟩ := ht.leaf (by omega) hr
  refine ⟨st, hst, headerRaises hs rfl rfl fun hx o => ⟨.readHeader, fs, n - (ns.flatMap nodeBits).length - 10, ?_⟩⟩
  have hlarge := leafSymbol_tooLarge (s := x.inTree o st fs (n - (ns.flatMap nodeBits).length - 1)) i
    (treeLoop (512 - ns.length)) (carries_congr hc rfl rfl) h1 h2
  rw [List.length_append, List.length_singleton] at hlarge
  exact ((hleaf hc hx o).trans (if_neg (by omega))).trans hlarge

end

/-! ## A whole tree with its declared length -/

/-- A spare bit at which the stream ends (rule R119, 60_exceptions.md rule R164). -/
theorem spareLoop_cut {s : State} {pre : Bits} {bs : List Byte} {x : InToken} {rest : List InToken} (more : Nat)
    (h : s.CutAt pre 1 bs x rest) :
    spareLoop (more + 1) (s.afterBits bs (x :: rest) pre.length) =
      .raised (cutError x .malformedHeader) (s.cut rest pre.length) :=
  readBits_cut h _ _ _

/-- A header whose tree and the bits `spare` after it were read, with `more` declared bits to come (rule R119). -/
theorem headerFrom_spare {s : State} {t : HTree} {spare : Bits} {more : Nat} (hsel : s.cfg.selCounts ≠ s.cfg.selTree)
    (hn : t.bits.length + (spare.length + more) < 2 ^ 32) (ht : t.size ≤ 513) :
    ∃ st : NodeStore, st.complete t ∧ st.root = 0 ∧ ∀ {x : State} {bs : List Byte} {rest : List InToken},
      x.Carries (treePreamble s.cfg (t.bits.length + (spare.length + more)) ++ t.bits ++ spare) bs rest → s.Cleared x →
      ∀ o, headerFrom x o = spareLoop more ((x.inTree o st [] more).afterBits bs rest
        (treePreamble s.cfg (t.bits.length + (spare.length + more)) ++ t.bits ++ spare).length) := by
  obtain ⟨st, hcomplete, hroot, hread⟩ := readMagic_wholeTree hsel hn (Nat.le_add_right t.bits.length _) ht
  refine ⟨st, hcomplete, hroot, fun {x bs rest} hc hx o => ?_⟩
  have hwhole := hread hc hx o
  have hspare := spareLoop_bits (s := { x with phase := .readHeader, opened := o }) (st := st) (fs := []) (n := more) spare
    (carries_congr (carries_append_nil hc) rfl rfl)
  rw [← List.length_append] at hspare
  rw [Nat.add_sub_cancel_left, hspare] at hwhole
  exact hwhole

/-- A tree whose declared bits were all read and which is no decoder's (rule R119). -/
theorem raises_notDecodable {s x : State} {t : HTree} {spare : Bits} {bs : List Byte} {rest : List InToken}
    (hs : s.stalled = false) (hsel : s.cfg.selCounts ≠ s.cfg.selTree) (hn : t.bits.length + spare.length < 2 ^ 32)
    (ht : t.size ≤ 513) (hd : t.decodable = false)
    (hc : x.Carries (treePreamble s.cfg (t.bits.length + spare.length) ++ t.bits ++ spare) bs rest) :
    ∃ st : NodeStore, st.complete t ∧ st.root = 0 ∧ s.HeaderRaises x { x.afterBits bs rest
      (treePreamble s.cfg (t.bits.length + spare.length) ++ t.bits ++ spare).length with store := st }
        .malformedHeader := by
  obtain ⟨st, hcomplete, hroot, hread⟩ := headerFrom_spare (more := 0) hsel hn ht
  exact ⟨st, hcomplete, hroot, headerRaises hs rfl rfl fun hx o => ⟨.readHeader, [], 0, (hread hc hx o).trans
    ((rootCheck_eq (t := t) hcomplete.1).trans (if_neg (by simp [hd])))⟩⟩

/-- A tree whose declared spare bits the stream's end cuts short (rule R119, 60_exceptions.md rule R164). -/
theorem raises_spareCut {s x : State} {t : HTree} {n : Nat} {spare : Bits} {bs : List Byte} {tok : InToken}
    {rest : List InToken} (hs : s.stalled = false) (hsel : s.cfg.selCounts ≠ s.cfg.selTree) (hn : n < 2 ^ 32)
    (ht : t.size ≤ 513) (hlen : t.bits.length + spare.length < n)
    (hc : x.CutAt (treePreamble s.cfg n ++ t.bits ++ spare) 1 bs tok rest) :
    ∃ st : NodeStore, st.complete t ∧ st.root = 0 ∧ s.HeaderRaises x
      { x.cut rest (treePreamble s.cfg n ++ t.bits ++ spare).length with store := st } (cutError tok .malformedHeader) := by
  obtain ⟨m, rfl⟩ : ∃ m, n = t.bits.length + (spare.length + (m + 1)) := ⟨n - t.bits.length - spare.length - 1, by omega⟩
  obtain ⟨st, hcomplete, hroot, hread⟩ := headerFrom_spare hsel hn ht
  exact ⟨st, hcomplete, hroot, headerRaises hs rfl rfl fun hx o => ⟨.readHeader, [], m + 1,
    (hread hc.carries hx o).trans (spareLoop_cut m (cutAt_congr hc rfl rfl))⟩⟩

/-! ## How HDR_READ and DECOMPRESS end -/

/-- Settles O59, by where the header breaks off: in a count field, in the length field, at or in a node while the tree has
a position open, and after the tree in its spare bits or at the check of its root. -/
theorem malformedHeader : Obligations.MalformedHeader := by
  refine ⟨fun s x cs bs tok rest hs _ hcs hc => ?counts, fun s x bs tok rest hs hsel hc => ?length,
    fun s x n ns pre bs rest hs hsel hn hopen hfit hcap hpre => ?nodes,
    fun s x t n spare pre bs rest hs hsel hn ht hpre => ?tree⟩
  case counts =>
    refine headerRaises hs rfl rfl fun hx o => ⟨.readHeader, x.stack, x.budget, ?_⟩
    rw [← hx.1] at hc
    exact readMagic_countsCut hcs hx.2.2 (cutAt_congr hc rfl rfl)
  case length =>
    refine headerRaises hs rfl rfl fun hx o => ⟨.readHeader, x.stack, x.budget, ?_⟩
    rw [← hx.1] at hc hsel
    exact readMagic_lengthCut hsel (cutAt_congr hc rfl rfl)
  case nodes =>
    have hopened : OpenTree s.cfg n ns := ⟨hsel, hn, hopen, hfit, hcap⟩
    obtain rfl : pre = nodesHeader s.cfg n ns := hpre
    exact ⟨fun heq hc => hopened.raises_noBits hs heq hc, fun tok hlt hc => hopened.raises_nodeCut hs hlt hc,
      fun b hlt hfull hc => hopened.raises_storeFull hs hlt hfull hc,
      fun hlt hshort hroom hc => hopened.raises_symbolPastLength hs hlt hshort hroom hc,
      fun tok hle hroom hc => hopened.raises_symbolCut hs hle hroom hc,
      fun y h1 h2 hle hroom hc => hopened.raises_symbolTooLarge hs hle hroom h1 h2 (by rwa [List.append_assoc])⟩
  case tree =>
    subst hpre
    refine ⟨?_, fun tok hlen hc => raises_spareCut hs hsel hn ht hlen hc⟩
    rintro y rfl hy rfl hc
    exact raises_notDecodable (t := .leaf y) hs hsel hn ht (by simpa [HTree.decodable] using hy) hc

end Sys2Proof.Machine
end

section
/-! The codes of a tree, and what CT_GEN leaves of them (44_codetable.md rules R125, R126). -/

namespace Sys2Proof.Machine

/-! ## The codes of a tree -/

/-- "No code is the prefix of another", of two symbols (rule R126). -/
theorem codeOf_prefixFree {t : HTree} {y z : Symbol} (hy : (t.codeOf y).valid = true) (hz : (t.codeOf z).valid = true)
    (h : (t.codeOf y).bits <+: (t.codeOf z).bits) : y = z :=
  congrArg Prod.fst (paths_prefixFree (codeOf_mem hy) (codeOf_mem hz) h)

/-- Only the root of a one-leaf tree has the empty path (rule R125). -/
theorem emptyPath_mem_iff {t : HTree} {y : Symbol} : (y, []) ∈ t.paths ↔ t = .leaf y := by
  cases t with
  | leaf z => simp [HTree.paths, eq_comm]
  | node l r => simp [HTree.paths]

/-- With two leaves or more the root is no leaf, so no code is empty (rule R126). -/
theorem codeOf_bits_ne_nil {t : HTree} {y : Symbol} (ht : 2 ≤ t.leaves) (hy : (t.codeOf y).valid = true) :
    (t.codeOf y).bits ≠ [] := by
  intro hnil
  have hmem := codeOf_mem hy
  rw [hnil, emptyPath_mem_iff] at hmem
  simp [hmem, HTree.leaves] at ht

/-- The one-leaf tree has the empty code (rule R126). -/
theorem codeOf_leaf (y : Symbol) : (HTree.leaf y).codeOf y = ⟨true, []⟩ := by
  simp [HTree.codeOf, HTree.paths]

/-! ## The codes CT_GEN leaves -/

/-- The code table and BODY_BITS after CT_GEN with a tree (rules R126, R127). -/
theorem ctGen_tables {s s' : State} {t : HTree} (hs : s.stalled = false) (hv : s.treeValid = true)
    (ht : s.store.complete t) (h : exec .ctGen s = .next s') :
    (∀ y, s'.codeAt y = t.codeOf y) ∧ s'.bodyBits.toNat = bodyCost s.freqAt t := by
  rw [exec_ctGen_tree hs hv ht] at h
  cases h
  have hlt := bodyCost_lt ht s.freqAt
  exact ⟨fun y => Vector.getElem_ofFn y.isLt, Nat.mod_eq_of_lt (by omega)⟩

/-- Settles O32: the codes CT_GEN leaves are paths of the tree's leaves, of which none is the beginning of another and
only a root's is empty; a path is at most 256 long, which bounds the sum. -/
theorem prefixFreeCodes : Obligations.PrefixFreeCodes := by
  intro s s' t hs hv ht h
  obtain ⟨hcodes, hbody⟩ := ctGen_tables hs hv ht h
  simp only [hcodes]
  refine ⟨fun y z => codeOf_prefixFree, fun hleaves y => codeOf_bits_ne_nil hleaves, ?_, hbody, bodyCost_lt ht _⟩
  rintro rfl
  exact codeOf_leaf _

end Sys2Proof.Machine
end

section
/-! HDR_WRITE, HDR_READ of a CountsFormat header and at a bad selector field, and COMPRESS and DECOMPRESS of a whole
container (45_header.md rules R130 to R138, 46_compressor.md rules R144, R145, 47_decompressor.md rules R151, R152). -/

namespace Sys2Proof.Machine

/-! ## HDR_WRITE -/

/-- HDR_WRITE at its header: a stream is open, and `w0` is its count of bits (45_header.md rule R137). -/
def State.atHeader (s : State) : State := { s.opensIfClosed with mark := s.opensIfClosed.writer.bits }

/-- HDR_WRITE with a plan writes the header of the plan's format (rules R133, R137). -/
theorem exec_hdrWrite_plan {s : State} {t : HTree} (hs : s.stalled = false) (hp : s.planValid = true)
    (ht : s.store.complete t) :
    exec .hdrWrite s = ((emit (s.planHeader t) (s.atHeader.begun .hdrWrite)).andThen [.result .wbitsSinceMark]
      fun u => .done (u.setResult ((u.writer.bits.toNat : Int) - u.mark.toNat))).settle := by
  rw [exec_hdrWrite hs, if_pos hp, headerWrite_eq (t := t) _ (by simpa [State.begun] using ht)]
  simp [State.begun, State.planHeader, State.atHeader]

/-- The end of HDR_WRITE: RESULT is the number of bits written since it began (rule R137). -/
theorem settle_wbitsSinceMark {s : State} {k : Nat} (hw : s.writer.bits.toNat = s.mark.toNat + k) (hk : k < 2 ^ 63) :
    (Run.done (s.setResult ((s.writer.bits.toNat : Int) - s.mark.toNat))).settle = .next (s.endsWith k) := by
  rw [hw, Int.natCast_add, add_sub_cancel_left, settle_result (fitsS64_nat hk)]

theorem planHeader_length_lt {s : State} {t : HTree} (ht : s.store.complete t) : (s.planHeader t).length < 2 ^ 20 :=
  headerOf_length_lt ht _ _ _

/-- Settles O33: the precondition fails, or the header of the plan's format is written up to its last bit or to the byte
that the sink refuses. -/
theorem hdrWrite : Obligations.HdrWrite := by
  refine fun s hs => ⟨fun hp => exec_precondition_fails hs (.inl ⟨hp, .inl rfl⟩), ?written, ?failed⟩
  case written =>
    intro t bits hp ht hbits hw
    obtain rfl : bits = s.planHeader t := hbits
    have hlen := planHeader_length_lt ht
    have hemit := emit_canWrite (hw.congr (s' := s.atHeader.begun .hdrWrite) rfl rfl)
    rw [exec_hdrWrite_plan hs hp ht, hemit, Run.andThen_done]
    exact (settle_wbitsSinceMark (toNat_ofNat64 hw.wbits) (by omega)).trans rfl
  case failed =>
    intro t bits j hp ht hbits hf
    obtain rfl : bits = s.planHeader t := hbits
    have hemit := emit_failsAt (hf.congr (s' := s.atHeader.begun .hdrWrite) rfl rfl)
    rw [exec_hdrWrite_plan hs hp ht, hemit, Run.andThen_raised]
    exact (settle_raised rfl).trans rfl

/-! ## HDR_READ of a CountsFormat header -/

/-- Settles O34: the count fields fill FREQ, and the build depends on FREQ and the cleared node store alone. -/
theorem hdrReadCounts : Obligations.HdrReadCounts := by
  rintro s c freq bits bs rest hs _ rfl hc hstate
  have hlen : (headerOf s.cfg .counts freq (.leaf 0)).length = 8256 := by rw [headerOf_length]; rfl
  have hcount : c.reader.bits.toNat = c.mark.toNat + 8256 := by
    rw [hstate, ← hlen]
    exact toNat_ofNat64 hc.rbits
  have hread := readMagic_counts (s := { s.cleared.begun .validateMagic with mark := s.reader.bits })
    (carries_congr (carries_append_nil hc) rfl rfl)
  have hbuild : ({ ({ s.cleared.begun .validateMagic with mark := s.reader.bits } : State) with
      phase := .readHeader, freq := freq } : State).afterBits bs rest 8256 = c.begun .readHeader := by
    rw [hstate, hlen]
    rfl
  refine ⟨hlen, ?_⟩
  rw [exec_hdrRead hs, hread, hbuild, Run.andThen_done, buildTree_begun]
  exact settle_rbitsSinceMark (s := c.buildTree.begun .build) hcount (by decide)

/-! ## The selector field -/

/-- A selector field that is neither format's (45_header.md rule R134). -/
theorem readMagic_unknown {s : State} {f : Bits} {bs : List Byte} {rest : List InToken} (hl : f.length = 32)
    (hcounts : valueOf f ≠ s.cfg.selCounts.toNat) (htree : valueOf f ≠ s.cfg.selTree.toNat)
    (h : s.Carries (binN 32 s.cfg.magic.toNat ++ f) bs rest) :
    readMagic s = .raised .unknownHeaderFormat ({ s with phase := .readHeader }.afterBits bs rest 64) := by
  have hlt : valueOf f < 2 ^ 32 := hl ▸ valueOf_lt f
  obtain ⟨w, hw⟩ : ∃ w : Word, w.toNat = valueOf f := ⟨BitVec.ofNat 32 (valueOf f), Nat.mod_eq_of_lt hlt⟩
  have hf : binN 32 w.toNat = f := by rw [hw, ← hl, binN_valueOf]
  have hcounts' : w ≠ s.cfg.selCounts := fun heq => hcounts (by rw [← hw, heq])
  have htree' : w ≠ s.cfg.selTree := fun heq => htree (by rw [← hw, heq])
  rw [readMagic_selector (f := w) (hf.symm ▸ carries_append_nil h), if_neg hcounts', if_neg htree']

/-- A selector field that the stream's end cuts short (rule R134, 60_exceptions.md rule R164). -/
theorem readMagic_selectorCut {s : State} {bs : List Byte} {x : InToken} {rest : List InToken}
    (h : s.CutAt (binN 32 s.cfg.magic.toNat) 32 bs x rest) :
    readMagic s = .raised (cutError x .unknownHeaderFormat) ({ s with phase := .readHeader }.cut rest 32) := by
  have hcut := readBits_cut (cutAt_congr (s' := { s with phase := .readHeader }) h rfl rfl) [.selector]
    .unknownHeaderFormat
  rw [binN_length] at hcut
  exact (readMagic_magic (carries_append_nil h.carries)).trans (hcut _)

/-- Settles O58, by what reading the selector field raises: of a field that is neither format's and of one that is cut. -/
theorem unknownFormat : Obligations.UnknownFormat := by
  refine ⟨fun s x f bs rest hs hl hcounts htree h => ?unknown, fun s x bs tok rest hs h => ?cut⟩
  case unknown =>
    refine headerRaises hs rfl rfl fun hx o => ⟨.readHeader, x.stack, x.budget, ?_⟩
    rw [← hx.1] at hcounts htree h
    exact readMagic_unknown hl hcounts htree (carries_congr h rfl rfl)
  case cut =>
    refine headerRaises hs rfl rfl fun hx o => ⟨.readHeader, x.stack, x.budget, ?_⟩
    rw [← hx.1] at h
    exact readMagic_selectorCut (cutAt_congr h rfl rfl)

/-! ## COMPRESS -/

/-- The container of the bytes `xs` in the plan's format (45_header.md rule R133, 46_compressor.md rule R145). -/
def State.container (s : State) (t : HTree) (xs : List Byte) : Bits := s.planHeader t ++ bodyOf t xs

/-- COMPRESS in its body, after `bits` of its container, with the tokens `q` on IN (rule R145). -/
def State.encoding (s : State) (q : List InToken) (bits : Bits) : State :=
  { s.compressing q bits with phase := .encodeBody }

/-- The encoder does not depend on the phase it is started in (rule R145). -/
theorem runWork_encodeBody (s : State) (p : Phase) : runWork .encodeBody { s with phase := p } = encodeBody s := rfl

/-- COMPRESS after its whole body (rules R144, R145). -/
theorem State.Compresses.afterBody {s : State} {force : Bool} {t : HTree} (h : s.Compresses force t) {xs : List Byte}
    {q : List InToken} (hq : s.inq = inBytes xs ++ .eos :: q) (hv : t.covers xs)
    (hw : s.freshReader.reopened.CanWrite (s.container t xs)) :
    exec (.compress force) s = (runWorks [.closeStream, .result .wbits] (s.encoding q (s.container t xs))).settle := by
  obtain ⟨hheader, hbody, hsum⟩ := canWrite_append hw
  have hencode := encodeBody_stream (s := s.freshReader.reopened.written (s.planHeader t)) hq h.codes hv hbody
  rw [hsum] at hencode
  rw [exec_compress_header h.time h.plan h.goes h.tree h.buf h.closes hheader, runWorks_cons, runWork_encodeBody,
    ← State.planHeader, hencode, Run.andThen_done]
  rfl

/-- Settles O39: the container goes to the stream that WOpen opens, and WClose ends it. -/
theorem compressWrites : Obligations.CompressWrites := by
  intro s force t bs rest bits hs hp hr ht hcodes hcov hq hbits hlen hb hk
  obtain rfl : bits = s.container t bs := hbits
  have hk' : s.sink.accepts (s.closingTokens.length + ((s.container t bs).length + 7) / 8 + 1) = true :=
    Sink.accepts_mono hk (by simp [closedBytes_length, Nat.add_assoc])
  have h : s.Compresses force t := ⟨hs, hp, hr, ht, hcodes, hb, Sink.accepts_mono hk' (by omega)⟩
  have hw : s.freshReader.reopened.CanWrite (s.container t bs) :=
    reopened_canWrite (s := s.freshReader) hk' (by show s.closingTokens.length + _ ≤ _; omega) (by omega)
  obtain ⟨hwriter, hsink⟩ := reopened_wrote s.freshReader (s.container t bs)
  have hend := closes_stream (x := s.encoding rest (s.container t bs)) ⟨hwriter, hsink⟩ hlen hk'
  rw [h.afterBody hq hcov hw, hend]
  simp only [State.encoding, State.compressing, State.written, State.reopened]
  rfl

/-! ## DECOMPRESS -/

/-- A closed container on IN carries its bits to a new reader (45_header.md rule R130). -/
theorem closedBytes_carries {s : State} {bits : Bits} {rest : List InToken} (hq : s.inq = inBytes (closedBytes bits) ++ rest)
    (hlen : bits.length < 2 ^ 64) : s.freshReader.Carries bits (closedBytes bits) rest :=
  ⟨rfl, Nat.zero_lt_succ 7, hq, streamBits_closedBytes bits, by simpa [State.freshReader] using hlen⟩

/-- A closed container is read from IN as a whole, its pad in the last byte (45_header.md rule R130). -/
theorem afterBits_closedBytes (s : State) (bits : Bits) (rest : List InToken) :
    (s.freshReader.afterBits (closedBytes bits) rest bits.length).inq = rest := by
  simp [State.afterBits, State.freshReader, inBytes, closedBytes_length]

/-- A new stream after `bits` were written to it (41_bitstream.md rules R86 to R88). -/
theorem wrote_of_new {x : State} {k : Sink} {pre : List OutToken} (hw : x.writer = ⟨false, [], 0#64⟩)
    (hk : x.sink = k.take pre) (bits : Bits) : Wrote (x.written bits) k pre bits :=
  ⟨by simp [State.written, hw], by simp [State.written, hw, Sink.take_append, ← hk]⟩

/-- What DECOMPRESS, started in `s`, has at a leaf after the bytes `xs`, with the first `n` bits of the bytes `bs` on IN
read: the bytes are written, the header's tree is held, and no plan and no codes are (47_decompressor.md rules R151,
R152). -/
structure Decoded (s : State) (fmt : Fmt) (freq : Vector Word 256) (t : HTree) (xs bs : List Byte) (rest : List InToken)
    (n : Nat) (u : State) : Prop where
  wrote  : Wrote u s.sink s.closingTokens (streamBits xs)
  inq    : u.inq = (s.freshReader.afterBits bs rest n).inq
  reader : u.reader = (s.freshReader.afterBits bs rest n).reader
  store  : u.store.complete t
  tree   : u.treeValid = true
  freq   : u.freq = countsRead fmt freq
  codes  : u.codesValid = false
  plan   : u.planValid = false
  err    : u.err = s.err

/-- DECOMPRESS comes to the leaf that its container leads to after the bytes `xs` (rules R151, R152). -/
theorem decompress_toLeaf {s : State} {fmt : Fmt} {freq : Vector Word 256} {t : HTree} {xs : List Byte}
    {body code bits : Bits} {y : Symbol} {bs : List Byte} {rest : List InToken}
    (hs : s.stalled = false) (hsel : s.cfg.selCounts ≠ s.cfg.selTree) (ht : Transmits fmt freq t)
    (hsp : t.Spells xs body) (hp : (y, code) ∈ t.paths) (hbits : bits = headerOf s.cfg fmt freq t ++ body ++ code)
    (hlen : xs.length < 2 ^ 59) (hc : s.freshReader.Carries bits bs rest) (hb : s.writer.buf.length < 8)
    (hk : s.sink.accepts (s.closingTokens ++ outBytes xs).length = true) :
    ∃ u m, (u.store.node u.cur).leaf = true ∧ (u.store.node u.cur).sym = y ∧
      Decoded s fmt freq t xs bs rest bits.length u ∧ exec .decompress s = ((decodeLoop (m + 1) u).andThen
        [.closeStream, .result .wbits] (runWorks [.closeStream, .result .wbits])).settle := by
  obtain ⟨hclose, hbytes⟩ := Sink.accepts_take_left hk
  obtain ⟨hd, x, hexec, hstore, htree, hfreq, hreader, hinq, hwriter, hsink, -, hcodes, hplan, herr⟩ :=
    decompress_header (post := body ++ code) hs hsel ht hb hclose (by rw [← List.append_assoc, ← hbits]; exact hc)
  have hx : x.Carries (headerOf s.cfg fmt freq t ++ body ++ code) bs rest := hbits ▸ carries_congr hc hreader hinq
  have hw : x.CanWrite (streamBits xs) := by
    refine ⟨by simp [hwriter], by simp [hwriter]; omega, ?_⟩
    simpa [hwriter, hsink] using hbytes
  obtain ⟨i, hleaf, hsym, hloop⟩ := decodeLoop_toLeaf hstore.1 hsp hp hx hw
  obtain ⟨m, hm⟩ := exists_passes hx (hsp.length_le hd)
  obtain ⟨hinq', hreader'⟩ := afterBits_congr (s := s.freshReader) (s' := x) hreader bs rest bits.length
  obtain ⟨hwritten, htaken⟩ := wrote_of_new hwriter hsink (streamBits xs)
  refine ⟨((x.written (streamBits xs)).atNode i).afterBits bs rest bits.length, m, hleaf, hsym,
    ⟨⟨hwritten, htaken⟩, hinq', hreader', hstore, htree, hfreq, hcodes, hplan, herr⟩, ?_⟩
  rw [hexec, hm, hloop, ← hbits]

/-- Settles O42: the container leads to a leaf of the pseudo-EOF after its bytes, and WClose ends the stream there. -/
theorem decompress : Obligations.Decompress := by
  intro s fmt freq t xs body last bits rest hs hsel ht hsp hp hbits hlen hxs hq hb hk
  have hc : s.freshReader.Carries bits (closedBytes bits) rest := closedBytes_carries hq (by omega)
  obtain ⟨hbytes, -⟩ := Sink.accepts_take_left hk
  obtain ⟨u, m, hleaf, hsym, hu, hexec⟩ := decompress_toLeaf hs hsel ht hsp hp hbits hxs hc hb hbytes
  have hk' : s.sink.accepts (s.closingTokens.length + ((streamBits xs).length + 7) / 8 + 1) = true :=
    Sink.accepts_mono hk (by simp; omega)
  have hend := closes_stream hu.wrote (by simp; omega) hk'
  rw [closedBytes_streamBits, streamBits_length] at hend
  rw [decodeLoop, if_pos hleaf, if_pos hsym, Run.andThen_done, hend] at hexec
  exact ⟨_, hexec, rfl, rfl, BitVec.ofInt_natCast _ _, hu.inq.trans (afterBits_closedBytes s bits rest), hu.reader,
    rfl, rfl, hu.err, rfl, hu.store, hu.tree, hu.codes, hu.plan, hu.freq⟩

end Sys2Proof.Machine
end

section
/-! ESTIMATE, and COMPRESS with the plan it made: the saving, a plan that is refused, a stream with a byte without a code,
and the round trip through DECOMPRESS (46_compressor.md rules R140 to R145, 47_decompressor.md rule R152). -/

namespace Sys2Proof.Machine

/-! ## ESTIMATE -/

/-- A tree that a build leaves in a cleared store has one leaf for each symbol with a positive frequency, and a decoder
can walk it (43_tree.md rules R113, R119). -/
theorem complete_buildTree {s : State} (h : s.store = NodeStore.empty) {t : HTree} (ht : s.buildTree.store.complete t) :
    t.leaves = s.leafSymbols.length ∧ t.decodable = true := by
  obtain ⟨_, _, _, _, _, tree, hcomplete, hdecodable, hleaves⟩ := buildTree_spec s h
  obtain rfl : t = tree := NodeStore.holds_unique ht.1 hcomplete.1
  exact ⟨hleaves.trans (leafSymbols_length s).symm, hdecodable⟩

/-- There are 257 symbols (00_scope.md rule R6). -/
theorem complete_buildTree_leaves_le {s : State} (h : s.store = NodeStore.empty) {t : HTree}
    (ht : s.buildTree.store.complete t) : t.leaves ≤ 257 := by
  rw [(complete_buildTree h ht).1, leafSymbols_length]
  exact leafCount_le s

/-- The counts of a stream build a tree (43_tree.md rule R113). -/
theorem exists_counted_tree (s : State) (bs : List Byte) (rest : List InToken) :
    ∃ t, (s.counted bs rest).buildTree.store.complete t :=
  (buildTree_fullTree (s := s.counted bs rest) rfl).imp fun _ h => h.1

/-- The saving of a plan with the tree `t` for the counts held (46_compressor.md rule R140). -/
def State.saving (s : State) (fmt : Fmt) (t : HTree) : Int :=
  s.origBits.toNat - (headerCost fmt t.leaves + bodyCost s.freqAt t + 64 : Nat)

/-- ESTIMATE after its count: the tree, its codes and the plan (rule R141). -/
def State.planned (s : State) (fmt : Fmt) (t : HTree) : State :=
  { s.buildTree with
    codes := t.codeTable, codesValid := true, bodyBits := BitVec.ofNat 64 (bodyCost s.freqAt t)
    planSaved := BitVec.ofInt 64 (s.saving fmt t), planFmt := fmt, planValid := true }.endsWith (s.saving fmt t)

theorem counted_origBits (s : State) {bs : List Byte} (rest : List InToken) (hc : Countable bs) :
    (s.counted bs rest).origBits.toNat = 8 * bs.length :=
  toNat_ofNat64 (by have := origBits_lt hc; omega)

theorem headerCost_le {fmt : Fmt} {n : Nat} (h : n ≤ 257) : headerCost fmt n ≤ 8192 := by
  cases fmt <;> simp only [headerCost] <;> omega

/-- "The arithmetic is exact in s64" (rule R140). -/
theorem saving_fits {s : State} {bs : List Byte} {rest : List InToken} (fmt : Fmt) {t : HTree} (hc : Countable bs)
    (ht : (s.counted bs rest).buildTree.store.complete t) : fitsS64 ((s.counted bs rest).saving fmt t) = true := by
  have horig := origBits_lt hc
  have hbody := bodyCost_lt ht (s.counted bs rest).freqAt
  have hheader := headerCost_le (fmt := fmt) (complete_buildTree_leaves_le rfl ht)
  rw [State.saving, counted_origBits s rest hc]
  simp only [fitsS64, Bool.and_eq_true, decide_eq_true_eq]
  omega

@[simp] theorem begun_store (s : State) (p : Phase) : (s.begun p).store = s.store := rfl

/-- ESTIMATE of a stream that ends (rule R141). -/
theorem exec_estimate_ends {s : State} {bs : List Byte} {rest : List InToken} {t : HTree} (fmt : Fmt)
    (hs : s.stalled = false) (hc : Countable bs) (hq : s.inq = inBytes bs ++ .eos :: rest)
    (ht : (s.counted bs rest).buildTree.store.complete t) :
    exec (.estimate fmt) s = .next ((s.counted bs rest).planned fmt t) := by
  have hleaves : t.leaves = (s.counted bs rest).leafCount :=
    (complete_buildTree rfl ht).1.trans (leafSymbols_length _)
  have htree : ((s.counted bs rest).begun .count).buildTree.store.complete t := by
    rw [buildTree_begun, begun_store]
    exact ht
  obtain ⟨hplan, hsaved⟩ := planStream_complete (fmt := fmt) htree hleaves rfl
  have hfits := saving_fits fmt hc ht
  rw [exec_estimate fmt hs, countStream_ends hc hq, Run.andThen_done, hplan, State.makePlan, hsaved, buildTree_begun,
    State.planned]
  generalize (s.counted bs rest).buildTree = built
  exact (settle_result hfits).trans rfl

/-- ESTIMATE whose counting raises an error with the bytes before it counted (rule R141, 42_frequency.md rule R106). -/
theorem exec_estimate_raises {s : State} {bs : List Byte} {rest : List InToken} {e : ErrCode} (fmt : Fmt)
    (hs : s.stalled = false)
    (hr : countStream 0 (s.cleared.freshReader.begun .count) = .raised e ((s.tallied bs rest).begun .count)) :
    exec (.estimate fmt) s = .next ((s.tallied bs rest).endsInError e) := by
  rw [exec_estimate fmt hs, hr, Run.andThen_raised]
  exact settle_raised rfl

/-- Settles O37, by the three ends of CountStream; at `End` the plan is made from the tree that the counts build. -/
theorem estimate : Obligations.Estimate := by
  refine fun s fmt bs rest hs hc => ⟨fun hq => ?planned, fun _ hb hq => ?overflow, fun hq => ?error⟩
  case planned =>
    obtain ⟨t, ht⟩ := exists_counted_tree s bs rest
    refine ⟨t, (s.counted bs rest).saving fmt t, ht, (complete_buildTree rfl ht).1, ?cost, ?ends⟩
    case cost =>
      rw [State.saving, counted_origBits s rest hc]
      cases fmt <;> rfl
    case ends => exact exec_estimate_ends fmt hs hc hq ht
  case overflow => exact exec_estimate_raises fmt hs (countStream_overflows hc hb hq)
  case error => exact exec_estimate_raises fmt hs (countStream_fails hc hq)

/-! ## A refused plan -/

/-- The body encoder takes its tokens "straight from IN, not through the bit reader" (46_compressor.md rule R145). -/
theorem encodeBody_reader (s : State) : (runWork .encodeBody s).All fun t => t.reader = s.reader :=
  (encodeLoop_footprint _ _).mono fun _ h => by
    obtain ⟨_, _, _, _, rfl⟩ := h
    rfl

/-- Steps that do not use the reader leave it, and so does the body encoder. -/
theorem runWorks_reader {ws : List Work} (h : ∀ w ∈ ws, w.usesReader = false ∨ w = .encodeBody) (s : State) :
    (runWorks ws s).All fun t => t.reader = s.reader := by
  induction ws generalizing s with
  | nil => exact rfl
  | cons w ws ih =>
    have hfirst : (runWork w s).All fun t => t.reader = s.reader := by
      rcases h w (.head _) with hw | rfl
      · exact (runWork_ports w s).mono fun _ hp => hp.reader hw
      · exact encodeBody_reader s
    exact Run.andThen_all hfirst (fun _ he => he) fun u _ hu =>
      (ih (fun x hx => h x (.tail _ hx)) u).mono fun _ he => he.trans hu

/-- The end or the hold of a run leaves the reader as the run did. -/
theorem settle_reader {r : Run} {x : Reader} {t : State} (h : r.All fun u => u.reader = x) (ht : r.settle = .next t) :
    t.reader = x := by
  cases r with
  | done u | ended u | held u left => cases ht; exact h
  | raised e u => cases ht; exact (terminate_input u e).2.trans h
  | stuck f => cases ht

/-- COMPRESS that goes ahead has a new reader at its end or hold: no step after `RReset` uses it (rules R144, R145). -/
theorem compress_reader {s t : State} {force : Bool} (hs : s.stalled = false) (hp : s.planValid = true)
    (hr : s.refuses force = false) (h : exec (.compress force) s = .next t) : t.reader = ⟨false, [], 0#64⟩ := by
  rw [exec_compress_goes hs hp hr] at h
  exact settle_reader (runWorks_reader (by decide) _) h

/-- Settles O38: the gate ends a refused COMPRESS at once, and one that goes ahead resets the reader and leaves it so. -/
theorem compressRefused : Obligations.CompressRefused :=
  ⟨fun _ hs hp hneg => exec_compress_refused hs hp (by simp [State.refuses, hneg]),
    fun _ _ _ hs hp hr h => compress_reader hs hp (refuses_eq_false hr) h⟩

/-! ## A stream that cannot be encoded -/

/-- The encoder at a token that ends it with an error: a byte without a code, or `Error` (rule R145). -/
theorem encodeLoop_raises {s : State} {t : HTree} {x : InToken} {e : ErrCode} (q : List InToken)
    (hc : ∀ y, s.codeAt y = t.codeOf y)
    (hx : (x = .error ∧ e = .ioError) ∨
      (∃ b : Byte, x = .byte b ∧ (t.codeOf (symbolOfByte b)).valid = false ∧ e = .illegalUsage)) :
    encodeLoop (x :: q) s = .raised e { s with inq := q } := by
  rcases hx with ⟨rfl, rfl⟩ | ⟨b, rfl, hv, rfl⟩
  · rfl
  · simp [encodeLoop, hc, hv]

/-- After `bits` of the container the sink answers the next token as it would after the tokens before it. -/
theorem compressing_answerAt (s : State) (q : List InToken) (bits : Bits) :
    (s.compressing q bits).sink.answerAt 0 = s.sink.answerAt (s.closingTokens.length + bits.length / 8) := by
  have hsink : (s.compressing q bits).sink = _ := (reopened_wrote s.freshReader bits).sink
  rw [hsink, Sink.answerAt_take, List.length_append, outBytes_length, packBytes_length, Nat.add_zero]
  rfl

/-- Settles O40: the codes of the bytes before the token are written, and the error finds the stream open. -/
theorem compressFails : Obligations.CompressFails := by
  intro s force t bs rest bits a x e hs hp hr ht hcodes hv hx hq hbits hlen hb hk ha
  obtain rfl : bits = s.planHeader t ++ t.codesOf bs := hbits
  have h : s.Compresses force t := ⟨hs, hp, hr, ht, hcodes, hb, Sink.accepts_mono hk (Nat.le_add_right _ _)⟩
  have hw : s.freshReader.reopened.CanWrite (s.planHeader t ++ t.codesOf bs) :=
    reopened_canWrite (s := s.freshReader) hk (Nat.le_refl _) (by omega)
  rw [h.afterCodes hq hv hw, encodeLoop_raises rest (by exact hcodes) hx, Run.andThen_raised]
  have hanswer := (compressing_answerAt s rest (s.planHeader t ++ t.codesOf bs)).trans ha
  generalize s.planHeader t ++ t.codesOf bs = bits at hanswer ⊢
  exact (settle_aborted (s := s.encoding rest bits) rfl rfl hanswer).trans rfl

/-! ## COMPRESS with ESTIMATE's plan -/

/-- A sink whose script is used up and that answers `ok` from then on takes any number of tokens. -/
theorem Sink.accepts_always {k : Sink} (hscript : k.script = []) (hrest : k.rest = some .ok) (n : Nat) :
    k.accepts n = true := by
  simp [Sink.accepts, hscript, hrest]

/-- "64 + HeaderBits + BODY_BITS is exactly the number of bits COMPRESS writes before padding" (46_compressor.md rule
R140). -/
theorem planned_container_length {s : State} {bs : List Byte} {rest : List InToken} (fmt : Fmt) (t : HTree)
    (hc : Countable bs) : (((s.counted bs rest).planned fmt t).container t bs).length =
      headerCost fmt t.leaves + bodyCost (s.counted bs rest).freqAt t + 64 := by
  rw [State.container, State.planHeader, List.length_append, headerOf_length,
    bodyOf_length t bs (s.counted bs rest).freqAt (freqAt_counts _ bs hc rfl) (freqAt_pseudoEof _)]
  show headerCost fmt t.leaves + 64 + _ = _
  omega

/-- A container of a counted stream is far from the ends of WBITS and RESULT (rule R140). -/
theorem planned_container_lt {s : State} {bs : List Byte} {rest : List InToken} (fmt : Fmt) {t : HTree}
    (hc : Countable bs) (ht : (s.counted bs rest).buildTree.store.complete t) :
    (((s.counted bs rest).planned fmt t).container t bs).length < 2 ^ 63 := by
  have hbody := bodyCost_lt ht (s.counted bs rest).freqAt
  have hheader := headerCost_le (fmt := fmt) (complete_buildTree_leaves_le rfl ht)
  rw [planned_container_length fmt t hc]
  omega

section
variable {c s₂ : State} {bs : List Byte} {q : List InToken} {k : Sink} {fmt : Fmt} {force : Bool} {t : HTree}
  (hs : c.stalled = false) (hb : c.writer.buf.length < 8) (ht : c.buildTree.store.complete t) (hcov : t.covers bs)
  (hlen : ((c.planned fmt t).container t bs).length < 2 ^ 63)
  (hr : 0 ≤ (c.planned fmt t).planSaved.toInt ∨ force = true) (hscript : k.script = []) (hrest : k.rest = some .ok)
include hs hb ht hcov hlen hr hscript hrest

/-- COMPRESS of a stream of the content that the plan of `c` counted, to a sink that takes everything (rules R144,
R145). -/
theorem exec_compress_planned :
    exec (.compress force) { c.planned fmt t with inq := inBytes bs ++ .eos :: q, sink := k } =
      .next ({ (c.planned fmt t).freshReader with
        inq := q, writer := ⟨true, [], BitVec.ofNat 64 ((c.planned fmt t).container t bs).length⟩
        sink := k.take (c.closingTokens ++ outBytes (closedBytes ((c.planned fmt t).container t bs)) ++
          [OutToken.eos]) }.endsWith ((c.planned fmt t).container t bs).length) := by
  have hcodes : ∀ y, (c.planned fmt t).codeAt y = t.codeOf y := fun y => Vector.getElem_ofFn y.isLt
  exact compressWrites { c.planned fmt t with inq := inBytes bs ++ .eos :: q, sink := k } force t bs q _ hs rfl hr ht
    hcodes hcov rfl rfl hlen hb (Sink.accepts_always hscript hrest _)

/-- Such a COMPRESS ends without an error and returns the length of its container (rule R144). -/
theorem compress_planned_result
    (h : exec (.compress force) { c.planned fmt t with inq := inBytes bs ++ .eos :: q, sink := k } = .next s₂) :
    s₂.busy = false ∧ s₂.err = c.err ∧ s₂.result = BitVec.ofInt 64 ((c.planned fmt t).container t bs).length := by
  rw [exec_compress_planned hs hb ht hcov hlen hr hscript hrest] at h
  cases h
  exact ⟨rfl, rfl, rfl⟩

end

theorem planned_result (s : State) (fmt : Fmt) (t : HTree) :
    (s.planned fmt t).result = BitVec.ofInt 64 (s.saving fmt t) := rfl

/-- A value in the range of s64 is read back from RESULT (10_state.md rule R33). -/
theorem toInt_of_fits {v : Int} (h : fitsS64 v = true) : (BitVec.ofInt 64 v).toInt = v := by
  simp only [fitsS64, Bool.and_eq_true, decide_eq_true_eq] at h
  exact BitVec.toInt_ofInt_eq_self (by decide) h.1 h.2

/-- Settles O41: RESULT of COMPRESS is the length of the container, which is the cost that the saving takes off. -/
theorem savingsAccuracy : Obligations.SavingsAccuracy := by
  intro s s₁ s₂ fmt force bs rest k hs hc hb hq hest hr hscript hrest hcomp
  obtain ⟨t, ht⟩ := exists_counted_tree s bs rest
  have hlen := planned_container_lt fmt hc ht
  rw [exec_estimate_ends fmt hs hc hq ht] at hest
  cases hest
  obtain ⟨hbusy, herr, hresult⟩ := compress_planned_result (c := s.counted bs rest) hs hb ht (counted_covers hc ht) hlen
    hr hscript hrest hcomp
  refine ⟨hbusy, herr, ?_⟩
  rw [hresult, planned_result, toInt_of_fits (fitsS64_nat hlen), toInt_of_fits (saving_fits fmt hc ht),
    planned_container_length fmt t hc, State.saving, counted_origBits s rest hc]
  omega

/-! ## The round trip -/

/-- A sink that has taken nothing yet and takes everything. -/
def Sink.new : Sink := ⟨[], some .ok, []⟩

theorem Sink.eq_new {k : Sink} (hscript : k.script = []) (hrest : k.rest = some .ok) (htaken : k.taken = []) :
    k = Sink.new := by
  obtain ⟨script, rest, taken⟩ := k
  obtain rfl : script = [] := hscript
  obtain rfl : rest = some .ok := hrest
  obtain rfl : taken = [] := htaken
  rfl

theorem Sink.new_take_taken (ts : List OutToken) : (Sink.new.take ts).taken = ts.map fun o => (o, .ok) := rfl

theorem Sink.new_accepts (n : Nat) : Sink.new.accepts n = true := Sink.accepts_always rfl rfl n

theorem closingTokens_closed {s : State} (h : s.writer.closed = true) : s.closingTokens = [] := by
  simp [State.closingTokens, h]

/-- DECOMPRESS of a container whose body is the codes of its tree, with no stream open (47_decompressor.md rule R152). -/
theorem exec_decompress_container {s : State} {fmt : Fmt} {freq : Vector Word 256} {t : HTree} {xs : List Byte}
    {bits : Bits} {rest : List InToken} (hs : s.stalled = false) (hsel : s.cfg.selCounts ≠ s.cfg.selTree)
    (htr : Transmits fmt freq t) (hcov : t.covers xs) (hbits : bits = headerOf s.cfg fmt freq t ++ bodyOf t xs)
    (hlen : bits.length < 2 ^ 63) (hxs : xs.length < 2 ^ 59) (hclosed : s.writer.closed = true)
    (hb : s.writer.buf.length < 8) (hq : s.inq = inBytes (closedBytes bits) ++ rest) (hk : s.sink = Sink.new) :
    ∃ s', exec .decompress s = .next s' ∧ s'.sink = Sink.new.take (outBytes xs ++ [OutToken.eos]) ∧
      s'.result = BitVec.ofNat 64 (8 * xs.length) ∧ s'.busy = false ∧ s'.err = s.err := by
  obtain ⟨hbytes, hend⟩ := hcov
  have hsplit : bits = headerOf s.cfg fmt freq t ++ t.codesOf xs ++ (t.codeOf Config.pseudoEof).bits :=
    hbits.trans (List.append_assoc _ _ _).symm
  obtain ⟨s', hexec, hsink, -, hresult, -, -, hbusy, -, herr, -⟩ :=
    decompress s fmt freq t xs (t.codesOf xs) (t.codeOf Config.pseudoEof).bits bits rest hs hsel htr
      (spells_codesOf hbytes) (codeOf_mem hend) hsplit hlen hxs hq hb (hk ▸ Sink.new_accepts _)
  rw [closingTokens_closed hclosed, hk] at hsink
  exact ⟨s', hexec, hsink, hresult, hbusy, herr⟩

/-- COMPRESS with the plan of `c`, and DECOMPRESS of the bytes that it wrote (46_compressor.md rule R144,
47_decompressor.md rule R152). -/
theorem compress_decompress {c : State} {fmt : Fmt} {t : HTree} {xs : List Byte} (hs : c.stalled = false)
    (hclosed : c.writer.closed = true) (hb : c.writer.buf.length < 8) (hsel : c.cfg.selCounts ≠ c.cfg.selTree)
    (ht : c.buildTree.store.complete t) (hcov : t.covers xs) (htr : Transmits fmt c.freq t)
    (hlen : ((c.planned fmt t).container t xs).length < 2 ^ 63) (hxs : xs.length < 2 ^ 59) :
    ∃ (s₂ s₃ : State) (cs : List Byte),
      exec (.compress true) { c.planned fmt t with inq := inBytes xs ++ [.eos], sink := Sink.new } = .next s₂ ∧
      s₂.err = c.err ∧ s₂.busy = false ∧ s₂.sink = Sink.new.take (outBytes cs ++ [OutToken.eos]) ∧
      exec .decompress { s₂ with inq := inBytes cs ++ [.eos], sink := Sink.new } = .next s₃ ∧
      s₃.err = c.err ∧ s₃.busy = false ∧ s₃.sink = Sink.new.take (outBytes xs ++ [OutToken.eos]) ∧
      s₃.result = BitVec.ofNat 64 (8 * xs.length) := by
  have hcomp := exec_compress_planned (q := []) (k := Sink.new) hs hb ht hcov hlen (.inr rfl) rfl rfl
  rw [closingTokens_closed hclosed] at hcomp
  generalize hbits : (c.planned fmt t).container t xs = bits at hcomp hlen
  obtain ⟨s₃, hdec, hsink, hresult, hbusy, herr⟩ := exec_decompress_container
    (s := { ({ (c.planned fmt t).freshReader with
      inq := [], writer := ⟨true, [], BitVec.ofNat 64 bits.length⟩
      sink := Sink.new.take ([] ++ outBytes (closedBytes bits) ++ [OutToken.eos]) } : State).endsWith bits.length with
        inq := inBytes (closedBytes bits) ++ [.eos], sink := Sink.new })
    hs hsel htr hcov hbits.symm hlen hxs rfl (Nat.zero_lt_succ 7) rfl rfl
  exact ⟨_, s₃, closedBytes bits, hcomp, rfl, rfl, rfl, hdec, herr, hbusy, hsink, hresult⟩

/-- Settles O44: the container that COMPRESS wrote for the plan's tree decodes by that tree to the stream. -/
theorem roundTrip : Obligations.RoundTrip := by
  intro s fmt xs k₁ k₂ hs hclosed hb hsel herr hc hscript₁ hrest₁ htaken₁ hscript₂ hrest₂ htaken₂
  obtain rfl := Sink.eq_new hscript₁ hrest₁ htaken₁
  obtain rfl := Sink.eq_new hscript₂ hrest₂ htaken₂
  obtain ⟨t, ht⟩ := exists_counted_tree { s with inq := inBytes xs ++ [.eos] } xs []
  have hxs : xs.length < 2 ^ 59 := by
    have := origBits_lt hc
    omega
  have htransmits := counted_transmits _ xs fmt (complete_buildTree rfl ht).2 ht
  obtain ⟨s₂, s₃, cs, hcomp, herr₂, hbusy₂, hsink₂, hdec, herr₃, hbusy₃, hsink₃, hresult⟩ :=
    compress_decompress (c := State.counted { s with inq := inBytes xs ++ [.eos] } xs []) hs hclosed hb hsel ht
      (counted_covers hc ht) htransmits (planned_container_lt fmt hc ht) hxs
  exact ⟨_, s₂, s₃, cs, exec_estimate_ends fmt hs hc rfl ht, hcomp, herr₂.trans herr, hbusy₂,
    (congrArg Sink.taken hsink₂).trans (Sink.new_take_taken _), hdec, herr₃.trans herr, hbusy₃,
    (congrArg Sink.taken hsink₃).trans (Sink.new_take_taken _), hresult⟩

end Sys2Proof.Machine
end

section
/-! DECOMPRESS of a container whose body its stream's end cuts inside a code (47_decompressor.md rules R151, R152,
60_exceptions.md rules R160, R162, R164). -/

namespace Sys2Proof.Machine

/-- The subtree that a path leads to before its last bit is no leaf. -/
theorem not_leaf_of_path {st : NodeStore} {j : NodeIx} {u : HTree} {y : Symbol} {p : Bits} (h : st.holds j u)
    (hm : (y, p) ∈ u.paths) (hp : p ≠ []) : (st.node j).leaf = false := by
  cases u with
  | leaf z => exact absurd (Prod.mk.inj (List.mem_singleton.1 hm)).2 hp
  | node l r => exact h.1

/-- The decoder at an inner node where its stream ends: CORRUPT_STREAM, or IO_ERROR at `Error` (47_decompressor.md rule
R151, 60_exceptions.md rule R164). -/
theorem decodeLoop_streamEnd {s : State} {i : NodeIx} {pre : Bits} {bs : List Byte} {tok : InToken}
    {rest : List InToken} (hi : (s.store.node i).leaf = false) (h : s.CutAt pre 1 bs tok rest) (n : Nat) :
    decodeLoop (n + 1) ((s.atNode i).afterBits bs (tok :: rest) pre.length) =
      .raised (cutError tok .corruptStream) ((s.atNode i).cut rest pre.length) :=
  (if_neg (Bool.eq_false_iff.1 hi)).trans (readBits_cut (s := s.atNode i) (cutAt_congr h rfl rfl) _ _ _)

/-- The decoding loop over bits that spell a run of bytes, with the end of the stream inside the path of a leaf after
them: the bytes are written, and the stream ends at an inner node (rule R151). -/
theorem decodeLoop_cut {s : State} {t : HTree} {xs : List Byte} {pre body cut more : Bits} {y : Symbol} {bs : List Byte}
    {tok : InToken} {rest : List InToken} (hh : s.store.holds s.store.root t) (hsp : t.Spells xs body)
    (hp : (y, cut ++ more) ∈ t.paths) (hmore : more ≠ []) (h : s.CutAt (pre ++ body ++ cut) 1 bs tok rest)
    (hw : s.CanWrite (streamBits xs)) :
    ∃ i, ∀ n, decodeLoop (body.length + xs.length + (cut.length + (n + 1)))
        ((s.atNode s.store.root).afterBits bs (tok :: rest) pre.length) =
      .raised (cutError tok .corruptStream)
        (((s.written (streamBits xs)).atNode i).cut rest (pre ++ body ++ cut).length) := by
  have hcut : (s.written (streamBits xs)).CutAt (pre ++ body ++ cut) 1 bs tok rest := cutAt_congr h rfl rfl
  obtain ⟨i, u, hu, hm, hwalk⟩ := decodeLoop_walk cut more (s := s.written (streamBits xs)) (pre := pre ++ body)
    (post := []) hh hp (by rw [List.append_nil]; exact hcut.carries)
  refine ⟨i, fun n => ?_⟩
  rw [decodeLoop_spells hsp hh h.carries hw, ← List.length_append, List.length_append (as := pre ++ body)]
  refine (hwalk (n + 1)).trans ?_
  rw [← List.length_append]
  exact decodeLoop_streamEnd (not_leaf_of_path hu hm hmore) hcut n

/-- Bytes on IN carry all their bits to a new reader, and the stream ends after them (41_bitstream.md rules R91,
R92). -/
theorem cutAt_streamEnd {s : State} {bs : List Byte} {tok : InToken} {rest : List InToken}
    (hq : s.inq = inBytes bs ++ tok :: rest) (htok : tok = .eos ∨ tok = .error)
    (hlen : (streamBits bs).length < 2 ^ 64) : s.freshReader.CutAt (streamBits bs) 1 bs tok rest :=
  ⟨⟨rfl, Nat.zero_lt_succ 7, hq, List.prefix_rfl, by simpa [State.freshReader] using hlen⟩,
    by simp [State.freshReader], htok⟩

/-- Settles O43: the decoder comes to an inner node with the bytes before it written, and its next read meets the
end. -/
theorem corruptStream : Obligations.CorruptStream := by
  intro s fmt freq t xs body cut more bits bs tok rest y a hs hsel ht hsp hp hmore hbits hlen hxs hstream hq htok hb hk
    ha
  obtain ⟨hclose, hbytes⟩ := Sink.accepts_take_left hk
  have hcut : s.freshReader.CutAt bits 1 bs tok rest := hstream ▸ cutAt_streamEnd hq htok (by rw [← hstream]; omega)
  obtain ⟨hd, x, hexec, hstore, htree, -, hreader, hinq, hwriter, hsink, hopened, -⟩ := decompress_header
    (post := body ++ cut) hs hsel ht hb hclose (by rw [← List.append_assoc, ← hbits]; exact hcut.carries)
  have hx : x.CutAt (headerOf s.cfg fmt freq t ++ body ++ cut) 1 bs tok rest :=
    hbits ▸ cutAt_congr hcut hreader hinq
  have hw : x.CanWrite (streamBits xs) := by
    refine ⟨by simp [hwriter], by simp [hwriter]; omega, ?_⟩
    simpa [hwriter, hsink] using hbytes
  obtain ⟨i, hloop⟩ := decodeLoop_cut hstore.1 hsp hp hmore hx hw
  obtain ⟨m, hm⟩ := exists_passes hx.carries (hsp.length_le hd)
  obtain ⟨hwritten, htaken⟩ := written_bytes hwriter xs
  have hsink' : (x.written (streamBits xs)).sink = s.sink.take (s.closingTokens ++ outBytes xs) := by
    rw [htaken, hsink, Sink.take_append]
  have hanswer : (x.written (streamBits xs)).sink.answerAt 0 = some a := by
    rw [hsink', Sink.answerAt_take]
    exact ha
  rw [hm, hloop, ← hbits, Run.andThen_raised, settle_aborted (a := a) (by exact hopened) (by exact congrArg _ hwritten)
    (by exact hanswer)] at hexec
  refine ⟨_, hexec, congrArg (·.record .abort a) hsink',
    congrArg (fun w : Writer => (⟨true, [], w.bits⟩ : Writer)) hwritten, rfl, rfl, rfl, ?reader, rfl, rfl, hstore,
    htree⟩
  show (⟨true, [], BitVec.ofNat 64 (x.reader.bits.toNat + bits.length)⟩ : Reader) = _
  simp [hreader]

end Sys2Proof.Machine
end

section
/-! Where no step of a command holds: with the token that ends its stream on IN, and with a sink that answers every
token; and from it that a command whose ports cooperate ends (20_memory.md rule R62, 47_decompressor.md rule R153,
70_reset_and_hazards.md rule R185). -/

namespace Sys2Proof.Machine

/-! ## Runs that do not hold -/

/-- The run does not hold, and `P` is true of the state in which it leaves the steps after it to run. -/
def Run.Moves (P : State → Prop) : Run → Prop
  | .done s => P s
  | .held _ _ => False
  | .ended _ | .raised _ _ | .stuck _ => True

theorem Run.Moves.mono {P Q : State → Prop} {r : Run} (h : r.Moves P) (hpq : ∀ s, P s → Q s) : r.Moves Q := by
  cases r with
  | done s => exact hpq s h
  | held s left => exact h
  | _ => trivial

theorem Run.Moves.and_all {P Q : State → Prop} {r : Run} (h : r.Moves P) (hq : r.All Q) :
    r.Moves fun s => P s ∧ Q s := by
  cases r with
  | done s => exact ⟨h, hq⟩
  | held s left => exact h
  | _ => trivial

theorem Run.Moves.andThen {P Q : State → Prop} {r : Run} {later : List Work} {next : State → Run} (h : r.Moves P)
    (hn : ∀ s, P s → (next s).Moves Q) : (r.andThen later next).Moves Q := by
  cases r with
  | done s => exact hn s h
  | held s left => exact h.elim
  | _ => trivial

theorem need_moves (ok : Bool) (s : State) : (need ok s).Moves fun _ => True := by
  unfold need
  split <;> trivial

theorem gate_moves (force : Bool) (s : State) : (gate force s).Moves fun _ => True := by
  unfold gate
  split <;> trivial

theorem genCodes_moves (s : State) : (genCodes s).Moves fun _ => True := by
  rcases genCodes_cases s with ⟨_, _, _, he⟩ | ⟨_, he⟩ <;> rw [he] <;> trivial

/-! ## The OUT port -/

/-- No step changes what the sink answers after its script: only the outside does (20_memory.md rule R56). -/
theorem runWorks_rest (ws : List Work) (s : State) : (runWorks ws s).All fun u => u.sink.rest = s.sink.rest := by
  have h := runWorks_late (d := ⟨[], [], s.sink.rest, s.sink.rest, s.arg, s.work, .inr ⟨rfl, rfl⟩⟩) ws (s := s) rfl
  cases hr : runWorks ws s <;> rw [hr] at h
  case stuck => trivial
  all_goals exact h.1

/-- A sink that answers every token has an answer ready. -/
theorem Sink.next_ne_none {k : Sink} (h : k.answersAll = true) : k.next ≠ none := by
  unfold Sink.next
  split
  · exact Option.some_ne_none _
  · exact Option.isSome_iff_ne_none.1 h

/-- What a step that writes does to a sink that answers every token: it does not hold, and the sink stays such a one. -/
abbrev Run.WritesOn (r : Run) : Prop := r.Moves fun u => u.sink.answersAll = true

theorem offerByte_writesOn (b : Byte) {s : State} (h : s.sink.answersAll = true) : (offerByte b s).WritesOn := by
  rcases offerByte_cases b s with ⟨_, he⟩ | ⟨_, he⟩ | ⟨hn, _⟩
  · rw [he]; exact h
  · rw [he]; trivial
  · exact absurd hn (Sink.next_ne_none h)

theorem offerEnd_writesOn {s : State} (h : s.sink.answersAll = true) : (offerEnd s).WritesOn := by
  rcases offerEnd_cases s with ⟨_, he⟩ | ⟨_, he⟩ | ⟨hn, _⟩
  · rw [he]; exact h
  · rw [he]; trivial
  · exact absurd hn (Sink.next_ne_none h)

theorem resumeAbort_writesOn (e : ErrCode) {s : State} (h : s.sink.answersAll = true) : (resumeAbort e s).WritesOn := by
  unfold resumeAbort
  rcases push_cases s .abort with ⟨a, _, he⟩ | ⟨hn, _⟩
  · rw [he]; trivial
  · exact absurd hn (Sink.next_ne_none h)

theorem emit_writesOn (bs : Bits) {s : State} (h : s.sink.answersAll = true) : (emit bs s).WritesOn := by
  induction bs generalizing s with
  | nil => exact h
  | cons b bs ih =>
    by_cases hfull : s.writer.buf.length = 7
    · rw [emit_cons_of_eq hfull]
      exact (offerByte_writesOn _ (s := (s.pushBit b).dropWbuf) h).andThen fun _ => ih
    · rw [emit_cons_of_ne hfull]
      exact ih h

theorem closeStream_writesOn {s : State} (h : s.sink.answersAll = true) : (closeStream s).WritesOn := by
  unfold closeStream
  split
  · exact h
  split
  · exact offerEnd_writesOn h
  · exact (offerByte_writesOn _ (s := s.dropWbuf) h).andThen fun _ hu => offerEnd_writesOn hu

theorem headerWrite_writesOn (fmt : Fmt) {s : State} (h : s.sink.answersAll = true) : (headerWrite fmt s).WritesOn := by
  unfold headerWrite
  split
  · trivial
  · exact emit_writesOn _ h

/-! ## The IN port -/

/-- The token that ends the stream is on IN (20_memory.md rule R54). -/
def State.EndAhead (s : State) : Prop := endsStream s.inq = true

/-- Pulling tokens with the end of the stream among them never finds IN empty, and where it pulls enough bits before the
end, the end is among the tokens left (41_bitstream.md rules R92, R93). -/
theorem fill_endAhead (w : Nat) {ts : List InToken} (buf : Bits) (h : endsStream ts = true) :
    match fill w ts buf with
    | .enough _ left => endsStream left = true
    | .ended _ | .failed _ => True
    | .empty _ => False := by
  induction ts generalizing buf with
  | nil => exact absurd h Bool.false_ne_true
  | cons t ts ih =>
    by_cases hw : buf.length < w
    · cases t with
      | byte b =>
        rw [fill_cons_byte hw]
        exact ih _ h
      | eos | error => simp [fill, hw]
    · rw [fill_of_enough _ (not_lt.1 hw)]
      exact h

/-- A read with the end of the stream on IN does not wait, and where it returns bits the end is still there. -/
theorem readBits_endAhead {s : State} (w : Nat) (h : s.EndAhead) :
    match s.readBits w with
    | .got _ u => u.EndAhead
    | .sentinel _ | .failed _ => True
    | .waiting _ => False := by
  have hfill := fill_endAhead w s.reader.buf h
  unfold State.readBits
  by_cases hx : s.reader.exh = true
  · rw [if_pos hx]
    trivial
  · rw [if_neg hx]
    cases hf : fill w s.inq s.reader.buf <;> rw [hf] at hfill <;> exact hfill

/-- A step that goes on with a read does not hold there. -/
theorem read_moves {s : State} {w : Nat} {later : List Work} {onS : State → Run} {next : Nat → State → Run}
    {P : State → Prop} (h : s.EndAhead) (hs : ∀ u, (onS u).Moves P)
    (hn : ∀ v u, ReaderOnly s u → u.EndAhead → (next v u).Moves P) :
    ((s.readBits w).andThen later onS next).Moves P := by
  have hread := readBits_endAhead w h
  have hfoot := readBits_footprint s w
  cases hr : s.readBits w <;> rw [hr] at hread hfoot
  case got v u => exact hn v u hfoot hread
  case sentinel u => exact hs u
  case failed u => trivial
  case waiting u => exact hread.elim

/-- What a header or a body that is read does on a stream that ends: it does not hold, and where no error is raised the
end is still on IN. -/
abbrev Run.ReadsOn (r : Run) : Prop := r.Moves State.EndAhead

theorem rootCheck_readsOn {s : State} (h : s.EndAhead) : (rootCheck s).ReadsOn := by
  unfold rootCheck
  split
  · trivial
  · exact h

theorem spareLoop_readsOn (n : Nat) {s : State} (h : s.EndAhead) : (spareLoop n s).ReadsOn := by
  induction n generalizing s with
  | zero => exact rootCheck_readsOn h
  | succ n ih => exact read_moves h (fun _ => trivial) fun _ _ _ hu => ih hu

theorem nodeDone_readsOn (j : NodeIx) {s : State} {next : State → Run} (h : s.EndAhead)
    (hn : ∀ u : State, u.EndAhead → (next u).ReadsOn) : (nodeDone j s next).ReadsOn := by
  unfold nodeDone
  split
  · exact hn _ h
  · exact spareLoop_readsOn _ h

theorem leafSymbol_readsOn (i : NodeIx) {s : State} {next : State → Run} (h : s.EndAhead)
    (hn : ∀ u : State, u.EndAhead → (next u).ReadsOn) : (leafSymbol i s next).ReadsOn := by
  refine read_moves h (fun _ => trivial) fun v u _ hu => ?_
  simp only
  split
  · exact nodeDone_readsOn i hu hn
  · trivial

theorem newNode_readsOn (l : Bool) (i : NodeIx) {s : State} {next : State → Run} (h : s.EndAhead)
    (hn : ∀ u : State, u.EndAhead → (next u).ReadsOn) : (newNode l i s next).ReadsOn := by
  unfold newNode
  split
  · simp only
    split
    · trivial
    · exact leafSymbol_readsOn i h hn
  · exact hn _ h

theorem treeLoop_readsOn (room : Nat) {s : State} (h : s.EndAhead) : (treeLoop room s).ReadsOn := by
  induction room generalizing s with
  | zero =>
    unfold treeLoop
    split
    · trivial
    · exact read_moves h (fun _ => trivial) fun _ _ _ _ => trivial
  | succ room ih =>
    unfold treeLoop
    split
    · trivial
    · refine read_moves h (fun _ => trivial) fun v u _ hu => ?_
      simp only
      split
      · exact newNode_readsOn _ _ hu fun _ => ih
      · trivial

theorem countFields_readsOn (n : Nat) {s : State} (h : s.EndAhead) : (countFields n s).ReadsOn := by
  induction n generalizing s with
  | zero => exact h
  | succ n ih => exact read_moves h (fun _ => trivial) fun _ _ _ hu => ih hu

theorem treeHeader_readsOn {s : State} (h : s.EndAhead) : (treeHeader s).ReadsOn :=
  read_moves h (fun _ => trivial) fun _ _ _ hu => treeLoop_readsOn _ hu

theorem readSelector_readsOn {s : State} (h : s.EndAhead) : (readSelector s).ReadsOn := by
  refine read_moves h (fun _ => trivial) fun v u _ hu => ?_
  split
  · exact countFields_readsOn _ hu
  split
  · exact treeHeader_readsOn hu
  · trivial

theorem readMagic_readsOn {s : State} (h : s.EndAhead) : (readMagic s).ReadsOn := by
  refine read_moves h (fun _ => trivial) fun v u _ hu => ?_
  split
  · exact readSelector_readsOn hu
  · trivial

theorem countLoop_moves {ts : List InToken} (n : Nat) (s : State) (h : endsStream ts = true) :
    (countLoop ts n s).Moves fun _ => True := by
  induction ts generalizing n s with
  | nil => exact absurd h Bool.false_ne_true
  | cons t ts ih =>
    cases t with
    | byte b =>
      unfold countLoop
      split
      · trivial
      · exact ih _ _ h
    | eos | error => trivial

/-! ## Both ports -/

theorem encodeLoop_writesOn {ts : List InToken} {s : State} (hin : endsStream ts = true)
    (hout : s.sink.answersAll = true) : (encodeLoop ts s).WritesOn := by
  induction ts generalizing s with
  | nil => exact absurd hin Bool.false_ne_true
  | cons t ts ih =>
    cases t with
    | byte b =>
      unfold encodeLoop
      simp only
      split
      · exact (emit_writesOn _ (s := { s with inq := ts }) hout).andThen fun _ => ih hin
      · trivial
    | eos => exact emit_writesOn _ hout
    | error => trivial

theorem decodeLoop_readsOn (n : Nat) {s : State} (hin : s.EndAhead) (hout : s.sink.answersAll = true) :
    (decodeLoop n s).ReadsOn := by
  induction n generalizing s with
  | zero => trivial
  | succ n ih =>
    unfold decodeLoop
    split
    · split
      · exact hin
      · refine ((emit_writesOn _ hout).and_all (emit_footprint _ s)).andThen ?_
        rintro u ⟨hu, _, _, _, rfl⟩
        exact ih hin hu
    · refine read_moves hin (fun _ => trivial) ?_
      rintro v u ⟨_, _, _, rfl⟩ hu
      exact ih hu hout

/-! ## Every step -/

/-- The steps that can take the end of their stream off IN and go on: after them no end is left for others. -/
def Work.takesEnd : Work → Bool
  | .readField _ | .count _ | .encodeBody => true
  | _ => false

/-- No step holds that finds the end of its stream on IN, if it reads, and a sink that answers every token, if it
writes; and the end is left to the steps after it but by those that take it. -/
theorem runWork_moves (w : Work) {s : State} (hin : w.reads = true → s.EndAhead)
    (hout : w.writes = true → s.sink.answersAll = true) :
    (runWork w s).Moves fun u => w.reads = true → w.takesEnd = false → u.EndAhead := by
  have silent : ∀ {r : Run} {P : State → Prop}, w.reads = false → r.Moves P →
      r.Moves fun u => w.reads = true → w.takesEnd = false → u.EndAhead :=
    fun h hr => hr.mono fun _ _ h' => absurd (h.symm.trans h') Bool.false_ne_true
  have last : ∀ {r : Run} {P : State → Prop}, w.takesEnd = true → r.Moves P →
      r.Moves fun u => w.reads = true → w.takesEnd = false → u.EndAhead :=
    fun h hr => hr.mono fun _ _ _ h' => absurd (h.symm.trans h') Bool.true_eq_false.mp
  have reads : ∀ {r : Run}, r.ReadsOn → r.Moves fun u => w.reads = true → w.takesEnd = false → u.EndAhead :=
    fun hr => hr.mono fun _ hu _ _ => hu
  cases w with
  | bitio | clearCodes | clearTree | clearAll | rReset | ensureOpen | openStream | build | markW | markR | decodeStart |
    rewind | result => exact fun h => absurd h Bool.false_ne_true
  | needTree | needPlan => exact silent rfl (need_moves _ s)
  | genCodes => exact silent rfl (genCodes_moves s)
  | plan fmt => exact silent (P := fun _ => True) rfl ((genCodes_moves _).andThen fun _ _ => trivial)
  | gate force => exact silent rfl (gate_moves force s)
  | closeStream => exact silent rfl (closeStream_writesOn (hout rfl))
  | offer b => exact silent rfl (offerByte_writesOn b (hout rfl))
  | offerEnd => exact silent rfl (offerEnd_writesOn (hout rfl))
  | abort e => exact silent rfl (resumeAbort_writesOn e (hout rfl))
  | emit | writeField => exact silent rfl (emit_writesOn _ (hout rfl))
  | headerWrite => exact silent rfl (headerWrite_writesOn _ (hout rfl))
  | readField width =>
    exact last (P := fun _ => True) rfl (read_moves (hin rfl) (fun _ => trivial) fun _ _ _ _ => trivial)
  | count n => exact last rfl (countLoop_moves n _ (hin rfl))
  | encodeBody => exact last rfl (encodeLoop_writesOn (hin rfl) (hout rfl))
  | magic => exact reads (readMagic_readsOn (hin rfl))
  | selector => exact reads (readSelector_readsOn (hin rfl))
  | countFields left => exact reads (countFields_readsOn left (hin rfl))
  | treeLen => exact reads (treeHeader_readsOn (hin rfl))
  | treeNode => exact reads (treeLoop_readsOn _ (hin rfl))
  | treeSym i => exact reads (leafSymbol_readsOn i (hin rfl) fun _ hu => treeLoop_readsOn _ hu)
  | treeSpare => exact reads (spareLoop_readsOn _ (hin rfl))
  | decodeBody => exact reads (decodeLoop_readsOn _ (hin rfl) (hout rfl))

/-- No step of the list reads after one that takes the end of its stream. -/
def endTakenLast : List Work → Bool
  | [] => true
  | w :: ws => !(w.takesEnd && ws.any Work.reads) && endTakenLast ws

/-- A command's steps do not hold if its ports cooperate (70_reset_and_hazards.md rule R185). -/
theorem runWorks_moves {ws : List Work} {s : State} (hlast : endTakenLast ws = true)
    (hin : ws.any Work.reads = true → s.EndAhead) (hout : ws.any Work.writes = true → s.sink.answersAll = true) :
    (runWorks ws s).Moves fun _ => True := by
  induction ws generalizing s with
  | nil => trivial
  | cons w ws ih =>
    simp only [List.any_cons, Bool.or_eq_true] at hin hout
    simp only [endTakenLast, Bool.and_eq_true, Bool.not_eq_true', Bool.and_eq_false_iff] at hlast
    have hfirst := runWork_moves w (fun h => hin (.inl h)) (fun h => hout (.inl h))
    have hrest := runWorks_rest [w] s
    rw [runWorks_single] at hrest
    refine ((hfirst.and_all hrest).and_all (runWork_ports w s)).andThen ?_
    rintro u ⟨⟨hu, hsink⟩, hports⟩
    refine ih hlast.2 (fun h => ?_) fun h => (congrArg Option.isSome hsink).trans (hout (.inr h))
    have hkept : w.takesEnd = false := hlast.1.resolve_right (by rw [h]; exact Bool.true_eq_false.mp)
    cases hr : w.reads with
    | true => exact hu hr hkept
    | false => exact (congrArg endsStream (hports.inq hr)).trans (hin (.inr h))

/-! ## The end of a command -/

/-- A termination ends the command at once if no stream was opened, or if the sink answers every token
(60_exceptions.md rule R160). -/
theorem terminate_ends {s : State} (h : s.opened = true → s.sink.answersAll = true) (e : ErrCode) :
    (s.terminate e).busy = false ∧ (s.terminate e).done = true := by
  rcases terminate_cases s e with ⟨_, he⟩ | ⟨_, _, _, _, he⟩ | ⟨hopen, _, hn, _⟩
  · rw [he]; exact ⟨rfl, rfl⟩
  · rw [he]; exact ⟨rfl, rfl⟩
  · exact absurd hn (Sink.next_ne_none (h hopen))

/-- Where a run of steps that write nothing raises an error, no stream was opened (41_bitstream.md rule R88). -/
theorem raised_unopened {ws : List Work} {s u : State} {e : ErrCode} (hw : ws.any Work.writes = false)
    (ho : s.opened = false) (h : runWorks ws s = .raised e u) : u.opened = false := by
  have hwithin := runWorks_within closed_silent ws s (without_of_any hw) fun h =>
    absurd (ho.symm.trans h) Bool.false_ne_true
  rw [h] at hwithin
  exact Bool.eq_false_iff.2 fun hu => absurd (hwithin.2 hu) Bool.true_eq_false.mp

/-- The steps of a command, from its first, end it if they find what they need and their ports cooperate. -/
theorem settle_ends {ws : List Work} {s : State} (h : s.Shape) (hf : s.Fits ws) (ho : s.opened = false)
    (hlast : endTakenLast ws = true) (hin : ws.any Work.reads = true → s.EndAhead)
    (hout : ws.any Work.writes = true → s.sink.answersAll = true) :
    ∃ t, (runWorks ws s).settle = .next t ∧ t.busy = false ∧ t.done = true := by
  have hsafe := runWorks_safe ws h hf
  have hmoves := runWorks_moves hlast hin hout
  have hrest := runWorks_rest ws s
  cases hr : runWorks ws s with
  | done u | ended u => exact ⟨_, rfl, rfl, rfl⟩
  | raised e u =>
    rw [hr] at hrest
    refine ⟨_, rfl, terminate_ends (fun hu => (congrArg Option.isSome hrest).trans (hout ?_)) e⟩
    by_contra hsilent
    exact absurd ((raised_unopened (Bool.eq_false_iff.2 hsilent) ho hr).symm.trans hu) Bool.false_ne_true
  | held u left => rw [hr] at hmoves; exact hmoves.elim
  | stuck f => rw [hr] at hsafe; exact hsafe.elim

/-- Every command's steps fit a state between commands (41_bitstream.md rules R86 to R91, 60_exceptions.md rule
R161). -/
theorem stepsOf_fits (i : Instr) {s : State} (hb : s.reader.buf.length < 8) : s.Fits (stepsOf i) where
  writer := writerFit_of_ready (by cases s.writer.closed <;> cases i <;> rfl)
  tables := tablesFit_of_ready (p := false) (t := false) (c := false) nofun nofun nofun (by cases i <;> rfl)
  rBuf := .inl hb

/-- A command that gets time ends if IN holds the end of the stream it reads and the sink answers every token it writes
(70_reset_and_hazards.md rule R185). -/
theorem exec_ends (i : Instr) {s : State} (h : s.Shape) (hb : s.reader.buf.length < 8) (hs : s.stalled = false)
    (hin : (stepsOf i).any Work.reads = true → endsStream s.inq = true)
    (hout : (stepsOf i).any Work.writes = true → s.sink.answersAll = true) :
    ∃ t, exec i s = .next t ∧ t.busy = false ∧ t.done = true := by
  obtain ⟨p, hp⟩ := exec_launch i
  rw [hp, launch_begun hs]
  exact settle_ends (s := s.begun p) (h.rest _ rfl rfl rfl rfl rfl rfl rfl rfl) (stepsOf_fits i hb) rfl
    (by cases i <;> rfl) hin hout

/-- COMPRESS of a plan that costs more than it saves ends at once without FORCE, at the gate or without a plan before it
(46_compressor.md rule R143). -/
theorem exec_compress_unforced_ends {s : State} (hs : s.stalled = false) (hneg : s.planSaved.toInt < 0) :
    ∃ t, exec (.compress false) s = .next t ∧ t.busy = false ∧ t.done = true := by
  cases hp : s.planValid with
  | false => exact ⟨_, exec_compress_noPlan false hs hp, rfl, rfl⟩
  | true => exact ⟨_, exec_compress_refused hs hp (by simp [State.refuses, hneg]), rfl, rfl⟩

/-- Settles O53, by the steps each command is made of: those that read and those that write find what their port
needs. -/
theorem commandsEnd : Obligations.CommandsEnd := by
  intro i s h hb hs hports
  cases i with
  | tbBuild | ctGen | bsRreset => exact exec_ends _ h hb hs nofun nofun
  | bsWrite | bsClose | hdrWrite => exact exec_ends _ h hb hs nofun fun _ => hports
  | bsRead | hdrRead | ftCount | estimate => exact exec_ends _ h hb hs (fun _ => hports) nofun
  | compress force =>
    rcases hports with ⟨hneg, rfl⟩ | ⟨hin, hout⟩
    · exact exec_compress_unforced_ends hs hneg
    · exact exec_ends _ h hb hs (fun _ => hin) fun _ => hout
  | decompress => exact exec_ends _ h hb hs (fun _ => hports.1) fun _ => hports.2

end Sys2Proof.Machine
end

section
/-! The reset input: what the host's accesses get while it is asserted, what its release leaves, and what asserting it
leaves of a running command (70_reset_and_hazards.md rules R175, R176). -/

namespace Sys2Proof.Machine

/-! ## Accesses while reset is asserted -/

/-- While reset is asserted a read returns 0 (rule R175). -/
theorem busRead_inReset {s : State} (hr : s.inReset = true) (off : Offset) (size : Nat) :
    s.busRead off size = s.reply (.read off size) (.data 0#32) :=
  if_pos hr

/-- While reset is asserted a write is ignored (rule R175). -/
theorem busWrite_inReset {s : State} (hr : s.inReset = true) (off : Offset) (size : Nat) (v : Word) :
    s.busWrite off size v = .over (s.reply (.write off size v) .written) :=
  if_pos hr

/-! ## The token that is withdrawn -/

/-- A token stands unanswered only while a command runs, offered by the step that command is at: a byte, `End` or
`Abort` (20_memory.md rule R56). -/
theorem offered_cases {s : State} {o : OutToken} (h : s.offered = some o) :
    s.busy = true ∧ ((∃ b rest, o = .byte b ∧ s.work = .offer b :: rest) ∨
      (∃ rest, o = .eos ∧ s.work = .offerEnd :: rest) ∨ ∃ e rest, o = .abort ∧ s.work = .abort e :: rest) := by
  unfold State.offered at h
  split at h
  next hb =>
    refine ⟨hb, ?_⟩
    split at h
    next b rest hw => exact .inl ⟨b, rest, (Option.some.inj h).symm, hw⟩
    next rest hw => exact .inr (.inl ⟨rest, (Option.some.inj h).symm, hw⟩)
    next e rest hw => exact .inr (.inr ⟨e, rest, (Option.some.inj h).symm, hw⟩)
    next => exact absurd h nofun
  next => exact absurd h nofun

/-- Everything the withdrawal of the offered token can do: draw whether the sink kept it, and if so record it as
answered `ok` (rule R176). -/
theorem withdraw_cases (s : State) : ∃ k d, s.withdraw = { s with draws := d, sink := k } ∧
    (k = s.sink ∨ ∃ o, s.offered = some o ∧ k = { s.sink with taken := s.sink.taken ++ [(o, .ok)] }) := by
  unfold State.withdraw
  split
  next => exact ⟨s.sink, s.draws, rfl, .inl rfl⟩
  next o ho =>
    refine ⟨_, _, rfl, ?_⟩
    split
    · exact .inr ⟨o, ho, rfl⟩
    · exact .inl rfl

/-- Asserting reset leaves every piece of state but the outside world's at its reset value; of the outside world's it
can change the sink's record alone, by the token that is withdrawn (rules R175, R176). -/
theorem driveReset_asserted (s : State) :
    ∃ k d, s.driveReset true = { s.toReset with inReset := true, draws := d, sink := k } ∧
      (k = s.sink ∨ ∃ o, s.offered = some o ∧ k = { s.sink with taken := s.sink.taken ++ [(o, .ok)] }) := by
  obtain ⟨k, d, hw, hk⟩ := withdraw_cases s
  refine ⟨k, d, ?_, hk⟩
  rw [State.driveReset, if_pos rfl, hw]
  rfl

/-! ## The obligations -/

/-- Settles O21: every register is taken from the reset values, and the token that is withdrawn is the one offered by
the step the command is at. -/
theorem resetDuringCommand : Obligations.ResetDuringCommand := by
  intro s es
  obtain ⟨k, d, hreset, hk⟩ := driveReset_asserted { s with events := es }
  refine ⟨_, congrArg Host.Outcome.next hreset, rfl, rfl, rfl, rfl, rfl, rfl, rfl, rfl, rfl, rfl, rfl, rfl, rfl, rfl,
    rfl, rfl, ?_⟩
  rcases hk with hkept | ⟨o, ho, htaken⟩
  · exact .inl hkept
  · obtain ⟨hb, hstep⟩ := offered_cases ho
    exact .inr ⟨hb, o, htaken, hstep⟩

/-- Settles O20: an access is answered before its register is looked at, and a release leaves the reset values. -/
theorem resetAsserted : Obligations.ResetAsserted := by
  refine ⟨fun s es off hr _ => ⟨?read, fun v => ?write⟩, fun s es => rfl, rfl, freqAt_pseudoEof State.reset⟩
  case read => exact congrArg Host.Outcome.next (busRead_inReset (s := { s with events := es }) hr off 4)
  case write => exact congrArg Action.run (busWrite_inReset (s := { s with events := es }) hr off 4 v)

end Sys2Proof.Machine
end
